-- ==== Sys2Proof/Word.lean ====
section
/-! DEFINITION. The words of the part: the host's 16-bit word (00_scope.md, 6.4) and the 22-bit stored word of the array port (R22). -/

namespace Sys2Proof

/-- A word as the host sees it: 16 data bits (00_scope.md, 6.4). -/
abbrev Word := BitVec 16

/-- A stored word on the array port: D0 to D15 in bits 0 to 15, C0 to C4 in bits 16 to 20, C5 in bit 21 (R22). -/
abbrev Stored := BitVec 22

/-- The word that holds a number, wrapped at 65,536. -/
abbrev word (n : Nat) : Word := BitVec.ofNat 16 n

end Sys2Proof
end

