-- ==== Sys2Proof/Syntax.lean ====
section
/-! DEFINITION. The commands of the part: one constructor for each row of spec/opcode_table.json. The table names no operand; the operands here are what the row's rule needs from outside the part (log entries 3, 4 and 29). -/

namespace Sys2Proof

/-- Words of one row, by word address: a sparse description of what the array devices do to a row.
Word addresses that are not listed are as they were. -/
abbrev RowPatch := List (BitVec 5 × Stored)

/-- The steps of the part (spec/opcode_table.json, 95_what_each_step_holds.md). -/
inductive Instr where
  /-- POWER_ON (R156): supply is applied; the operand is the level of DEVCOUNT1 and DEVCOUNT0 (R1). -/
  | powerOn (straps : BitVec 2)
  /-- RSTN_ASSERT (R58): the operand is what a write so cut off left in its row (R36). -/
  | rstnAssert (left : RowPatch)
  /-- RSTN_RELEASE (R1): the operand is the level of the straps. -/
  | rstnRelease (straps : BitVec 2)
  /-- READ_ROWS (R63), a COMMAND write as the fifteen after it. -/
  | readRows
  /-- WRITE_ROWS (R69). -/
  | writeRows
  /-- CHECK_ROWS (R68). -/
  | checkRows
  /-- QUERY_ROW (R80). -/
  | queryRow
  /-- NOMINATE_ROW (R99). -/
  | nominateRow
  /-- LIST_PENDING (R100). -/
  | listPending
  /-- LIST_WATCH (R100). -/
  | listWatch
  /-- RELOCATE_ROW (R117). -/
  | relocateRow
  /-- LIST_MAP (R121). -/
  | listMap
  /-- LIST_ZONES (R122). -/
  | listZones
  /-- PATROL_START (R135, R136). -/
  | patrolStart
  /-- PATROL_HALT (R137). -/
  | patrolHalt
  /-- PATROL_REPORT (R138). -/
  | patrolReport
  /-- COMMIT_DIRECTORY (R152). -/
  | commitDirectory
  /-- FORMAT_ARRAY (R162). -/
  | formatArray
  /-- SET_POLICY (R171). -/
  | setPolicy
  /-- STOP (R52): a CONTROL write with bit 0 alone of bits 1:0. -/
  | stop
  /-- SOFT_RESET (R53): a CONTROL write with bit 1; the operand says whether bit 0 is set too. -/
  | softReset (withStop : Bool)
  /-- DATA_READ (R48, R50). -/
  | dataRead
  /-- DATA_WRITE (R49, R50). -/
  | dataWrite (w : Word)
  /-- EVENTS_WRITE (R55). -/
  | eventsWrite (w : Word)
  /-- EVENT_ENABLE_WRITE (R56). -/
  | eventEnableWrite (w : Word)
  /-- NOTICE_POP (R178): a write of any value to NOTICE_CTRL. -/
  | noticePop (w : Word)
  /-- IDENT_WRITE (R40). -/
  | identWrite (w : Word)
  /-- REGISTER_WRITE (R39, R41, R180): a write to any other register. -/
  | registerWrite (offset : BitVec 5) (w : Word)
  /-- READY_TIMEOUT (R31): whether the second ready wait of a write ended so, and then what the device stored (R32). -/
  | readyTimeout (second : Bool) (left : RowPatch)
  /-- PACE_EXPIRY (R126, R127). -/
  | paceExpiry
  /-- COMMIT_DELAY_EXPIRY (R144). -/
  | commitDelayExpiry
  /-- READ_ROWS_READ_DONE (R63): the operand is the stored bits that have changed (R7), as in every read below. -/
  | readRowsReadDone (flips : RowPatch)
  /-- CHECK_ROWS_READ_DONE (R68). -/
  | checkRowsReadDone (flips : RowPatch)
  /-- SCRUB_WRITE_DONE (R65). -/
  | scrubWriteDone
  /-- ORDINARY_WRITE_DONE (R70). -/
  | ordinaryWriteDone
  /-- WRITE_REPAIR_QUALIFY_DONE (R74): the operand matters to the two reads. -/
  | writeRepairQualifyDone (flips : RowPatch)
  /-- WRITE_REPAIR_DATA_WRITE_DONE (R75). -/
  | writeRepairDataWriteDone
  /-- WRITE_REPAIR_VERIFY_DONE (R75). -/
  | writeRepairVerifyDone (flips : RowPatch)
  /-- IN_PLACE_WRITE_DONE (R77). -/
  | inPlaceWriteDone
  /-- READ_BACK_DONE (R77). -/
  | readBackDone (flips : RowPatch)
  /-- ROW_INITIALISATION_DONE (R165). -/
  | rowInitialisationDone
  /-- LOAD_READ_DONE (R157). -/
  | loadReadDone (flips : RowPatch)
  /-- COMMIT_WRITE_DONE (R148). -/
  | commitWriteDone
  /-- COMMIT_READ_BACK_DONE (R149). -/
  | commitReadBackDone (flips : RowPatch)
  /-- INVALIDATING_WRITE_DONE (R163). -/
  | invalidatingWriteDone
  /-- SOURCE_READ_DONE (R110). -/
  | sourceReadDone (flips : RowPatch)
  /-- QUALIFICATION_ACCESS_DONE (R107): the operand matters to the two reads. -/
  | qualificationAccessDone (flips : RowPatch)
  /-- COPY_WRITE_DONE (R112). -/
  | copyWriteDone
  /-- VERIFY_READ_DONE (R112). -/
  | verifyReadDone (flips : RowPatch)
  /-- ZERO_WRITE_DONE (R119). -/
  | zeroWriteDone
  /-- ZERO_READ_BACK_DONE (R119). -/
  | zeroReadBackDone (flips : RowPatch)
  /-- VISIT_READ_DONE (R128). -/
  | visitReadDone (flips : RowPatch)
  /-- PATROL_SCRUB_DONE (R129). -/
  | patrolScrubDone
  /-- REPAIR_JOB_START (R109). -/
  | repairJobStart
  /-- ALLOCATION_SERVED (R102). -/
  | allocationServed
  /-- POWER_LOSS (R36): the operand is what a write so cut off left in its row. -/
  | powerLoss (left : RowPatch)
  deriving DecidableEq, Repr

end Sys2Proof
end

