-- ==== Sys2Proof/Config.lean ====
section
/-! DEFINITION. What the MTS-2416 fixes: its geometry, its capacities, and the codes of Chapter 11. No value of the part is left to an implementation, so there is no free constant here: what the spec leaves open comes from outside the part and is an operand of a command (log entries 3 and 4). -/

namespace Sys2Proof.Config

/-- Logical rows each device contributes: 8 zones of 1,008 home rows (R5). -/
abbrev rowsPerDevice : Nat := 8064
/-- Home rows of a zone (R2). -/
abbrev homeRowsPerZone : Nat := 1008
/-- Physical rows of a zone (R2). -/
abbrev rowsPerZone : Nat := 1024
/-- Spare rows of a zone (R2). -/
abbrev sparesPerZone : Nat := 16
/-- Physical rows of a device outside the system area (R2). -/
abbrev physicalRows : Nat := 8192
/-- Physical rows of device 0 (R2). -/
abbrev physicalRowsDevice0 : Nat := 8448
/-- First physical row of directory copy A (R4). -/
abbrev copyABase : Nat := 8192
/-- First physical row of directory copy B (R4). -/
abbrev copyBBase : Nat := 8320
/-- Rows of a directory image (R4). -/
abbrev imageRows : Nat := 102
/-- RETIRED entries the remap table can hold (R10). -/
abbrev retiredLimit : Nat := 128
/-- SPARED entries the remap table can hold (R10). -/
abbrev sparedLimit : Nat := 512
/-- Entries of the pending list (R86). -/
abbrev pendingLimit : Nat := 32
/-- Slots of the watch table (R87). -/
abbrev watchSlots : Nat := 64
/-- Records of the notice queue (R177). -/
abbrev noticeLimit : Nat := 16
/-- The uncommitted change count that requests a commit (R16). -/
abbrev changeLimit : Nat := 16
/-- Relocation restarts after which a further overtaking defers the job (R114). -/
abbrev restartLimit : Nat := 3
/-- Directory layout version (R141). -/
abbrev layoutVersion : Word := 3
/-- The part code (R40). -/
abbrev partCode : Word := 0x2416
/-- The revision this manual describes (R40). -/
abbrev revision : Word := 0x0001
/-- The highest sequence number (R142, R146). -/
abbrev lastSequence : BitVec 32 := 0xFFFFFFFF

end Sys2Proof.Config
end

