-- ==== Sys2Proof/Machine/State.lean ====
section
/-! DEFINITION. The state of the MTS-2416, block by block (00_scope.md, Table 3-1), the reasons a step can stop, and the state after reset. -/

namespace Sys2Proof.Machine

/-! ## Values -/

/-- Outcome of a word or of a row read (R7, R8). -/
inductive ReadOutcome where
  | clean | corrected | uncorrectable
  deriving DecidableEq, Repr

/-- Grades (R172, R173); FAILING is a device grade only. -/
inductive Grade where
  | good | caution | critical | failing
  deriving DecidableEq, Repr

/-- Operating states (R161). -/
inductive OperatingState where
  | loading | ready | degraded | unformatted | foreign | formatting
  deriving DecidableEq, Repr

/-- Result codes (Table 3-3). -/
inductive ResultCode where
  | ok | param | range | state | uncorrectable | retired | arrayTimeout | aborted | listFull | already
  | noSpare | deferred | directoryFail | dataLost | none
  deriving DecidableEq, Repr

/-- Origin of a remap entry, path of a report, source of a pending entry: one set of values (R9, R81). -/
inductive Origin where
  | patrol | read | check | write | host
  deriving DecidableEq, Repr

/-- A row as addressed on an array device (R2). -/
structure PhysRow where
  device : Nat
  row    : Nat
  deriving DecidableEq, Repr

/-- A spare id, the triple (device, zone, spare index) (R3). -/
structure SpareId where
  device : Fin 4
  zone   : Fin 8
  index  : Fin 16
  deriving DecidableEq, Repr

/-! ## The bus interface and the command engine (Chapter 3) -/

/-- A cycle of the host bus, as R38 tells cycles apart: its strobe, the offset on the address lines at its start and at
its end, the word on D0 to D15 at its end, and whether the other strobe was asserted with it. -/
structure BusCycle where
  write   : Bool
  first   : BitVec 5
  last    : BitVec 5
  data    : Word
  overlap : Bool
  deriving DecidableEq, Repr

/-- Six parameter words (R41). -/
structure Params where
  p0 : Word
  p1 : Word
  p2 : Word
  p3 : Word
  p4 : Word
  p5 : Word
  deriving DecidableEq, Repr

/-- Four result words (R47). -/
structure Results where
  r0 : Word
  r1 : Word
  r2 : Word
  r3 : Word
  deriving DecidableEq, Repr

/-- The bus interface (R38 to R58). -/
structure BusInterface where
  /-- the row buffer, 32 words (R48) -/
  buffer         : List Word
  /-- the word pointer, 0 to 31 (R48) -/
  pointer        : Nat
  cmdDone        : Bool
  cmdRefused     : Bool
  portMisuse     : Bool
  gradeFlag      : Bool
  stateFlag      : Bool
  /-- EVENT_ENABLE, all 16 bits as written (R56, R180) -/
  enable         : Word
  /-- the IDENT selector: set while it names the revision (R40) -/
  identRevision  : Bool
  /-- what the part drove on D0 to D15 at the last DATA read; none when it did not drive (log entry 5) -/
  dataOut        : Option Word
  deriving DecidableEq, Repr

/-- States of the command engine (R45). -/
inductive EngineState where
  | idle | executing | dataOut | dataIn
  deriving DecidableEq, Repr

/-- The three commands that move or inspect runs of rows (R59). -/
inductive TransferKind where
  | read | write | check
  deriving DecidableEq, Repr

/-- What a finished or offered row was found to be (R64). -/
inductive RowKind where
  | seen (o : ReadOutcome)
  | retired
  deriving DecidableEq, Repr

/-- Where a transfer command stands within its row. -/
inductive RowPhase where
  /-- the row's read waits for a discarded completion to free the slot (R53) -/
  | awaitSlot
  /-- READ ROWS, CHECK ROWS: the row's read is outstanding (R63) -/
  | reading
  /-- the scrub of a CORRECTED row is outstanding (R65) -/
  | scrubbing
  /-- READ ROWS: the row is on offer (R63) -/
  | offering (k : RowKind)
  /-- WRITE ROWS: the host is writing the row (R69) -/
  | dataIn
  /-- the ordinary write is outstanding (R70) -/
  | writing
  /-- write-repair waits for the TESTING resource (R73) -/
  | repairWait
  /-- write-repair: a qualification access is outstanding (R74) -/
  | repairQualify
  /-- write-repair: the data write is outstanding (R75) -/
  | repairData
  /-- write-repair: the verify read is outstanding (R75) -/
  | repairVerify
  /-- no-spare path: the in-place write is outstanding (R77) -/
  | inPlace
  /-- no-spare path: the read-back is outstanding (R77) -/
  | readBack
  deriving DecidableEq, Repr

/-- READ ROWS, WRITE ROWS or CHECK ROWS in progress (R59, R62). -/
structure Transfer where
  kind      : TransferKind
  /-- the row being handled, and the last row of the run -/
  row       : Nat
  last      : Nat
  /-- done rows (RESULT0) -/
  done      : Nat
  /-- first failing row with its kind (RESULT1), failing rows (RESULT2), and the count of RESULT3 -/
  firstFail : Option (Nat × ResultCode)
  fails     : Nat
  extra     : Nat
  phase     : RowPhase
  /-- the spare write-repair holds TESTING (R73) -/
  spare     : Option SpareId
  deriving DecidableEq, Repr

/-- The four list commands (R51). -/
inductive ListKind where
  | map | pending | watch | zones
  deriving DecidableEq, Repr

/-- A list command in progress (R100): current index, records still wanted, records delivered, records on offer. -/
structure Listing where
  kind      : ListKind
  index     : Nat
  want      : Nat
  delivered : Nat
  fill      : Nat
  deriving DecidableEq, Repr

/-- The two directory copies (R4). -/
inductive Copy where
  | a | b
  deriving DecidableEq, Repr

/-- The command in progress, where it waits on something. -/
inductive Work where
  | none
  | transfer (t : Transfer)
  | listing (l : Listing)
  /-- RELOCATE ROW of this row waits for its job (R117) -/
  | relocate (row : Nat)
  /-- PATROL START with RESTART waits for the visit to end (R136) -/
  | patrolRestart
  /-- PATROL HALT waits for the visit to end (R137) -/
  | patrolHalt
  /-- COMMIT DIRECTORY waits for the first commit that takes its image after acceptance (R152) -/
  | commitWait
  /-- COMMIT DIRECTORY waits for the end of its commit, to this copy with this sequence (R152) -/
  | commitRun (target : Copy) (seq : BitVec 32)
  /-- FORMAT ARRAY runs (R162) -/
  | format
  deriving DecidableEq, Repr

/-! ## The array sequencer (Chapter 2) -/

/-- Access classes, highest first (R26). -/
inductive AccessClass where
  | foreground | directory | repair | patrol
  deriving DecidableEq, Repr

/-- What an access is for (Table 2-3); the number of a qualification access is its place in R107, 0 to 3. -/
inductive Purpose where
  | readRowsRead | checkRowsRead | scrubWrite | ordinaryWrite
  | repairQualify (k : Nat) | repairDataWrite | repairVerify | inPlaceWrite | readBack
  | rowInit
  | loadRead | commitWrite | commitReadBack | invalidatingWrite
  | sourceRead | qualification (k : Nat) | copyWrite | verifyRead | zeroWrite | zeroReadBack
  | visitRead | patrolScrub
  deriving DecidableEq, Repr

/-- A request to the array sequencer (R25): a write carries its 32 data words, a read none.
`abandoned` is set once the requester discards the completion (R35). -/
structure Request where
  purpose   : Purpose
  phys      : PhysRow
  data      : Option (List Word)
  abandoned : Bool
  deriving DecidableEq, Repr

/-- The request slot of one class (R25). -/
inductive Slot where
  | empty
  | waiting (r : Request)
  | inProgress (r : Request)
  deriving DecidableEq, Repr

/-- The array sequencer: four slots and the ready timer (R25, R31). -/
structure Sequencer where
  foreground : Slot
  directory  : Slot
  repair     : Slot
  patrol     : Slot
  readyTimer : Bool
  deriving DecidableEq, Repr

/-- The command engine (R41 to R53). -/
structure CommandEngine where
  st          : EngineState
  params      : Params
  /-- the copy of the parameters the command runs on (R41) -/
  copy        : Params
  results     : Results
  lastResult  : ResultCode
  stopRequest : Bool
  work        : Work
  /-- a prepared foreground request that waits for a discarded completion (R53) -/
  held        : Option Request
  deriving DecidableEq, Repr

/-! ## The translator (Chapter 1) -/

/-- Kind and target of a remap entry (R9). -/
inductive Placement where
  | spared (t : SpareId)
  | retired
  deriving DecidableEq, Repr

/-- A remap table entry (Table 1-3). -/
structure RemapEntry where
  row    : Nat
  place  : Placement
  origin : Origin
  stamp  : Word
  deriving DecidableEq, Repr

/-- A claim: the logical row it holds and its overtaken mark (R18). -/
structure Claim where
  row       : Nat
  overtaken : Bool
  deriving DecidableEq, Repr

/-- The translator (R9 to R21). -/
structure Translator where
  remap       : List RemapEntry
  changes     : Nat
  repairClaim : Option Claim
  patrolClaim : Option Claim
  deriving DecidableEq, Repr

/-- The answer to a lookup (R12). -/
inductive Lookup where
  | home (p : PhysRow)
  | spared (t : SpareId)
  | retired
  deriving DecidableEq, Repr

/-! ## The error tracker (Chapter 5) -/

/-- A watch table entry (R87). -/
structure WatchEntry where
  row   : Nat
  count : Nat
  last  : Word
  deriving DecidableEq, Repr

/-- Causes of a pending entry (R92). -/
inductive Cause where
  | unc | repeat | host
  deriving DecidableEq, Repr

/-- A pending entry (R92). -/
structure PendingEntry where
  row      : Nat
  cause    : Cause
  source   : Origin
  added    : Word
  starved  : Bool
  stuck    : Bool
  restarts : Nat
  deriving DecidableEq, Repr

/-- The error tracker: 64 watch slots and the pending list, oldest first (R87, R93). -/
structure ErrorTracker where
  watch       : List (Option WatchEntry)
  pendingList : List PendingEntry
  deriving DecidableEq, Repr

/-! ## The spare allocator (Chapter 6) -/

/-- States of a spare (R101). -/
inductive SpareState where
  | free | testing | inUse | bad
  deriving DecidableEq, Repr

/-- One zone: the states of its spares and its zone record (R101, R103). The four state counts of the
record are computed from the states (log entry 19). An absent zone has no spares. -/
structure Zone where
  spares      : List SpareState
  lentOut     : Nat
  borrowedIn  : Nat
  retiredRows : Nat
  uncEvents   : Nat
  grade       : Grade
  /-- the ZONE_EXHAUSTED mark (R106) -/
  exhausted   : Bool
  deriving DecidableEq, Repr

/-- The spare allocator: the 32 zones by global zone number (R103). -/
structure SpareAllocator where
  zones : List Zone
  deriving DecidableEq, Repr

/-! ## The repair engine (Chapter 6) -/

/-- States of the repair engine (R108). COMMIT_MAP is taken whole inside the step that ends VERIFY, so no
state at rest shows it. The no-spare path of R119 is work of ALLOCATE. -/
inductive RepairState where
  | idle | sourceRead | allocate | qualify | copyWrite | verify | commitMap
  deriving DecidableEq, Repr

/-- The job record (R108). -/
structure Job where
  row     : Nat
  /-- set for a COMMAND job, clear for an AUTO job -/
  command : Bool
  discard : Bool
  origin  : Origin
  /-- the data, once read -/
  data    : Option (List Word)
  /-- the spare the job holds TESTING -/
  spare   : Option SpareId
  /-- spares this job made BAD -/
  madeBad : Nat
  deriving DecidableEq, Repr

/-- The repair engine; `waiting` is a COMMAND job handed over and not yet started: row and DISCARD (R117). -/
structure RepairEngine where
  st      : RepairState
  job     : Option Job
  waiting : Option (Nat × Bool)
  deriving DecidableEq, Repr

/-! ## The patrol engine (Chapter 7) -/

/-- Patrol modes (R123). -/
inductive PatrolMode where
  | off | single | continuous
  deriving DecidableEq, Repr

/-- Patrol states (R123). -/
inductive PatrolState where
  | stopped | pacing | visiting | halting
  deriving DecidableEq, Repr

/-- The four tallies of a pass (R123). -/
structure Tallies where
  visited   : Nat
  skipped   : Nat
  corrected : Nat
  unc       : Nat
  deriving DecidableEq, Repr

/-- The last pass record: its tallies and its complete field (R123). -/
structure PassRecord where
  tallies  : Tallies
  complete : Bool
  deriving DecidableEq, Repr

/-- The patrol engine (R123). -/
structure PatrolEngine where
  mode           : PatrolMode
  st             : PatrolState
  cursor         : Nat
  pass           : Word
  /-- milliseconds -/
  pace           : Nat
  tallies        : Tallies
  whole          : Bool
  lastPass       : Option PassRecord
  restartRequest : Bool
  /-- the pace timer: stopped, or running with the length it was started with (R126) -/
  paceTimer      : Option Nat
  /-- the interval has run out (R126) -/
  intervalOut    : Bool
  deriving DecidableEq, Repr

/-! ## The health unit (Chapter 10) -/

/-- The nine policy settings (R169). -/
structure Policy where
  watchThreshold : Nat
  forgetSpan     : Nat
  lendReserve    : Nat
  borrow         : Bool
  autoRepair     : Bool
  scrubOnRead    : Bool
  cautionLimit   : Nat
  criticalLimit  : Nat
  /-- seconds; 0 means no timed commits -/
  commitDelay    : Nat
  deriving DecidableEq, Repr

/-- Why a commit failed (R146, R150). -/
inductive CommitFailure where
  | timeout | verify | sequence
  deriving DecidableEq, Repr

/-- Why the patrol stopped (R176). -/
inductive StopReason where
  | halted | singleDone | timeout | format
  deriving DecidableEq, Repr

/-- A notice without its pass stamp: its kind and the fields that kind carries (R176). -/
inductive NoticeBody where
  | repaired (row zone : Nat) (spare : SpareId) (oldBad : Bool)
  | spareBad (zone index : Nat)
  | retired (row : Nat)
  | stuck (row : Nat)
  | uncFound (row : Nat)
  | pendingFull (row : Nat)
  | zoneExhausted (zone : Nat)
  | gradeChange (g : Grade)
  | directoryFail (c : Copy) (why : CommitFailure)
  | patrolStopped (why : StopReason)
  | passDone (pass : Word)
  deriving DecidableEq, Repr

/-- A notice record (R176). -/
structure Notice where
  body  : NoticeBody
  stamp : Word
  deriving DecidableEq, Repr

/-- The health unit (R169 to R179). The counts of RETIRED and STUCK entries are computed (log entry 19). -/
structure HealthUnit where
  policy : Policy
  grade  : Grade
  queue  : List Notice
  lost   : Bool
  deriving DecidableEq, Repr

/-! ## The directory unit (Chapters 8 and 9) -/

/-- Modes of the directory unit (Chapter 8). -/
inductive DirectoryMode where
  | idle | loading | committing
  deriving DecidableEq, Repr

/-- A commit in flight (R146 to R149). -/
structure CommitJob where
  target   : Copy
  seq      : BitVec 32
  /-- the image row being written or read back -/
  index    : Nat
  /-- clear while the 102 writes run, set while the 102 reads run -/
  reading  : Bool
  /-- set once a format that ended early has left it without effect (R167) -/
  detached : Bool
  /-- set for the two commits of FORMAT ARRAY (R166) -/
  ofFormat : Bool
  deriving DecidableEq, Repr

/-- Phases of FORMAT ARRAY at rest (R162 to R166); the emptying is one action and never at rest. -/
inductive FormatPhase where
  /-- waiting for a commit in flight (R162) -/
  | waitCommit
  /-- the row 0 write of this copy is outstanding (R163) -/
  | invalidating (c : Copy)
  /-- row initialisation, with the writes that completed so far (R165) -/
  | rowInit (k : Nat)
  /-- the first commit of this copy runs (R166) -/
  | committing (c : Copy)
  deriving DecidableEq, Repr

/-- FORMAT ARRAY in flight; `ending` once a soft reset has asked it to end at the next boundary (R167). -/
structure FormatJob where
  phase  : FormatPhase
  ending : Bool
  deriving DecidableEq, Repr

/-- The directory unit (R139 to R168). -/
structure DirectoryUnit where
  mode          : DirectoryMode
  opState       : OperatingState
  validA        : Bool
  validB        : Bool
  seqA          : BitVec 32
  seqB          : BitVec 32
  dirty         : Bool
  commitRequest : Bool
  /-- the commit delay timer: stopped, or running with the length it was started with (R144) -/
  commitTimer   : Option Nat
  /-- the commit image buffer; while LOADING it takes copy B (R139, R157) -/
  image         : List (List Word)
  /-- the load buffer; it takes copy A (R157) -/
  loadBuffer    : List (List Word)
  /-- the load read in flight, 0 to 203 (R157) -/
  loadIndex     : Nat
  /-- every read of copy A, of copy B, so far passed test 1 (R141) -/
  loadOkA       : Bool
  loadOkB       : Bool
  commit        : Option CommitJob
  format        : Option FormatJob
  deriving DecidableEq, Repr

/-! ## The part, and the machine -/

/-- Everything the part itself holds. -/
structure Chip where
  /-- supply is applied -/
  powered     : Bool
  /-- RSTn is asserted -/
  rstAsserted : Bool
  /-- the device count N (R1) -/
  devices     : Nat
  bus         : BusInterface
  cmd         : CommandEngine
  seq         : Sequencer
  tr          : Translator
  trk         : ErrorTracker
  alloc       : SpareAllocator
  rep         : RepairEngine
  pat         : PatrolEngine
  dir         : DirectoryUnit
  health      : HealthUnit
  deriving DecidableEq, Repr

/-- A row as stored: 32 stored words (R22). -/
abbrev StoredRow := List Stored

/-- The contents of the array devices: rows by row key, in canonical form (log entry 3). -/
abbrev Memory := List (Nat × StoredRow)

/-- The machine: the part, the array devices it drives, and the commands waiting, first in first out. -/
structure State extends Chip where
  array   : Memory
  pending : List Instr
  deriving DecidableEq, Repr

/-- Why the machine stops. -/
inductive Fault where
  /-- Raised by a completion row with DONE when the access in progress names a row that no present device has.
  R1, R2 and R22 say no such access is ever issued; safe (the model stops where the spec gives nothing). -/
  | noSuchRow
  deriving DecidableEq, Repr

/-- Why a command has no meaning. -/
inductive Refusal where
  /-- Raised by no row: every row of the table has its meaning. Safe. -/
  | notModelled (mnemonic : String)
  deriving DecidableEq, Repr

/-! ## Reset values -/

/-- A row of 32 zero words. -/
def zeroRow : List Word := List.replicate 32 0

/-- The default policy (R169). -/
def Policy.default : Policy where
  watchThreshold := 3
  forgetSpan := 4
  lendReserve := 4
  borrow := true
  autoRepair := true
  scrubOnRead := true
  cautionLimit := 8
  criticalLimit := 2
  commitDelay := 10

/-- A present zone at reset: 16 FREE spares, every other count 0, GOOD (R156). -/
def Zone.fresh : Zone :=
  { spares := List.replicate 16 .free, lentOut := 0, borrowedIn := 0, retiredRows := 0, uncEvents := 0,
    grade := .good, exhausted := false }

/-- A zone of an absent device: every count 0, GOOD (R1, R103). -/
def Zone.absent : Zone := { Zone.fresh with spares := [] }

/-- The zones of a part with N devices, all spares FREE (R156). -/
def freshZones (n : Nat) : List Zone :=
  (List.range 32).map fun g => if g < 8 * n then Zone.fresh else Zone.absent

/-- Four zero result words (R47). -/
def Results.zero : Results := ⟨0, 0, 0, 0⟩

/-- Six zero parameter words (R41). -/
def Params.zero : Params := ⟨0, 0, 0, 0, 0, 0⟩

/-- Tallies of a pass that has found nothing (R125). -/
def Tallies.zero : Tallies := ⟨0, 0, 0, 0⟩

/-- The bus interface at reset (R58). -/
def BusInterface.reset : BusInterface :=
  { buffer := zeroRow, pointer := 0, cmdDone := false, cmdRefused := false, portMisuse := false,
    gradeFlag := false, stateFlag := false, enable := 0, identRevision := false, dataOut := none }

/-- The command engine at reset (R58). -/
def CommandEngine.reset : CommandEngine :=
  { st := .idle, params := Params.zero, copy := Params.zero, results := Results.zero, lastResult := .none,
    stopRequest := false, work := .none, held := none }

/-- The idle array port (R36). -/
def Sequencer.reset : Sequencer :=
  { foreground := .empty, directory := .empty, repair := .empty, patrol := .empty, readyTimer := false }

/-- The patrol engine at reset (R125). -/
def PatrolEngine.reset : PatrolEngine :=
  { mode := .off, st := .stopped, cursor := 0, pass := 0, pace := 0, tallies := Tallies.zero, whole := true,
    lastPass := none, restartRequest := false, paceTimer := none, intervalOut := false }

/-- The directory unit at reset: LOADING, nothing read yet (R156). -/
def DirectoryUnit.reset : DirectoryUnit :=
  { mode := .loading, opState := .loading, validA := false, validB := false, seqA := 0, seqB := 0,
    dirty := false, commitRequest := false, commitTimer := none, image := [], loadBuffer := [],
    loadIndex := 0, loadOkA := true, loadOkB := true, commit := none, format := none }

/-- Every block at its reset value (R17, R21, R58, R91, R98, R106, R108, R125, R156, R169, R175, R179),
with supply and RSTn as given and N devices. -/
def Chip.resetBlocks (powered rstAsserted : Bool) (n : Nat) : Chip where
  powered := powered
  rstAsserted := rstAsserted
  devices := n
  bus := BusInterface.reset
  cmd := CommandEngine.reset
  seq := Sequencer.reset
  tr := { remap := [], changes := 0, repairClaim := none, patrolClaim := none }
  trk := { watch := List.replicate 64 none, pendingList := [] }
  alloc := { zones := freshZones n }
  rep := { st := .idle, job := none, waiting := none }
  pat := PatrolEngine.reset
  dir := DirectoryUnit.reset
  health := { policy := Policy.default, grade := .good, queue := [], lost := false }

/-- The machine right after power-on with the straps at 0 (log entry 2): every block at its reset value, the
strap sample giving N = 1, and the directory unit's first load read granted (R156). -/
def State.reset : State :=
  { Chip.resetBlocks true false 1 with
    seq := { Sequencer.reset with
      directory := .inProgress { purpose := .loadRead, phys := ⟨0, Config.copyABase⟩, data := none, abandoned := false }
      readyTimer := true }
    array := []
    pending := [] }

end Sys2Proof.Machine
end

