-- ==== Sys2Proof/Machine/CheckCode.lean ====
section
/-! DEFINITION. The check code of the stored word and the outcomes it gives (R7, R8, R23, R24). -/

namespace Sys2Proof.Machine

/-- The exclusive-or of the bits of a bit vector. -/
def parity {w : Nat} (x : BitVec w) : Bool := (List.range w).foldl (fun b i => b ^^ x.getLsbD i) false

/-- The data bits each of C0 to C4 covers, as a mask (Table 2-2). -/
def coverage : Nat → Word
  | 0 => 0xAD5B
  | 1 => 0x366D
  | 2 => 0xC78E
  | 3 => 0x07F0
  | 4 => 0xF800
  | _ => 0

/-- The check bit Cj of a data word (R23). -/
def checkBit (d : Word) (j : Nat) : Bool := parity (d &&& coverage j)

/-- C0 to C4 of a data word, C0 in bit 0 (R23). -/
def checkBits (d : Word) : BitVec 5 :=
  BitVec.ofBool (checkBit d 4) ++ BitVec.ofBool (checkBit d 3) ++ BitVec.ofBool (checkBit d 2)
    ++ BitVec.ofBool (checkBit d 1) ++ BitVec.ofBool (checkBit d 0)

/-- The stored word of a data word: C5 makes the exclusive-or of all 22 bits zero (R22, R23). -/
def encodeWord (d : Word) : Stored :=
  BitVec.ofBool (parity d ^^ parity (checkBits d)) ++ checkBits d ++ d

/-- The data bit at a position number (Table 2-2). -/
def dataBitAt : Nat → Option Nat
  | 3 => some 0 | 5 => some 1 | 6 => some 2 | 7 => some 3 | 9 => some 4 | 10 => some 5 | 11 => some 6
  | 12 => some 7 | 13 => some 8 | 14 => some 9 | 15 => some 10 | 17 => some 11 | 18 => some 12 | 19 => some 13
  | 20 => some 14 | 21 => some 15 | _ => none

/-- The data bits of a stored word (R22). -/
def dataBits (x : Stored) : Word := x.extractLsb' 0 16

/-- The syndrome of a stored word as read (R24). -/
def syndrome (x : Stored) : BitVec 5 := x.extractLsb' 16 5 ^^^ checkBits (dataBits x)

/-- The word outcome and the delivered data of a stored word as read (the table of R24). -/
def decodeWord (x : Stored) : ReadOutcome × Word :=
  if syndrome x = 0 then
    (if parity x then .corrected else .clean, dataBits x)
  else if parity x then
    match dataBitAt (syndrome x).toNat with
    | some i => (.corrected, dataBits x ^^^ BitVec.twoPow 16 i)
    | none => (if (syndrome x).toNat < 22 then .corrected else .uncorrectable, dataBits x)
  else
    (.uncorrectable, dataBits x)

/-- What a read that completed with DONE hands its requester: 32 words and 32 word outcomes (R8, R33). -/
structure Delivered where
  words    : List Word
  outcomes : List ReadOutcome
  deriving DecidableEq, Repr

/-- The row outcome of the word outcomes (R8). -/
def rowOutcome (os : List ReadOutcome) : ReadOutcome :=
  if os.any (fun o => decide (o = .uncorrectable)) then .uncorrectable
  else if os.any (fun o => decide (o = .corrected)) then .corrected
  else .clean

/-- The row outcome of a delivered row (R8). -/
def Delivered.outcome (d : Delivered) : ReadOutcome := rowOutcome d.outcomes

/-- A test read passes when every word is CLEAN and equal to the word written (R107, R112, R75). -/
def Delivered.passes (d : Delivered) (written : List Word) : Bool :=
  decide (d.words = written) && d.outcomes.all (fun o => decide (o = .clean))

/-- What the sequencer delivers of 32 stored words as read (R24). -/
def deliver (row : List Stored) : Delivered :=
  { words := row.map fun x => (decodeWord x).2, outcomes := row.map fun x => (decodeWord x).1 }

end Sys2Proof.Machine
end

