-- ==== Sys2Proof/Machine/Operands.lean ====
section
/-! DEFINITION. Row numbers, spare ids and the packed words of Chapter 11: how the part reads and forms the words it exchanges. -/

namespace Sys2Proof.Machine

/-! ## Geometry (Chapter 1) -/

/-- Home physical row of a logical row (R5). -/
def homePhys (l : Nat) : PhysRow :=
  { device := l / Config.rowsPerDevice
    row := (l % Config.rowsPerDevice) / Config.homeRowsPerZone * Config.rowsPerZone
      + (l % Config.rowsPerDevice) % Config.homeRowsPerZone }

/-- Home zone of a logical row, a global zone number (R6). -/
def homeZone (l : Nat) : Nat :=
  8 * (l / Config.rowsPerDevice) + (l % Config.rowsPerDevice) / Config.homeRowsPerZone

/-- Physical row of a spare (R3). -/
def SpareId.phys (t : SpareId) : PhysRow :=
  { device := t.device.val, row := t.zone.val * Config.rowsPerZone + Config.homeRowsPerZone + t.index.val }

/-- Global zone of a spare (R3). -/
def SpareId.globalZone (t : SpareId) : Nat := 8 * t.device.val + t.zone.val

/-- The spare of a global zone with an index (R3). -/
def spareOf (globalZone index : Nat) : SpareId :=
  { device := Fin.ofNat 4 (globalZone / 8), zone := Fin.ofNat 8 globalZone, index := Fin.ofNat 16 index }

/-- First physical row of a directory copy (R4). -/
def Copy.base : Copy → Nat
  | .a => Config.copyABase
  | .b => Config.copyBBase

/-- Physical row of an image row of a copy (R4). -/
def Copy.phys (c : Copy) (k : Nat) : PhysRow := { device := 0, row := c.base + k }

/-- The physical rows that exist with N devices (R1, R2, R22). -/
def PhysRow.inArray (n : Nat) (p : PhysRow) : Bool :=
  decide (p.device < n)
    && decide (p.row < if p.device = 0 then Config.physicalRowsDevice0 else Config.physicalRows)

/-- The key of a physical row in the array list: the device above the 14 row address lines ARA (Table 2-1). -/
def PhysRow.key (p : PhysRow) : Nat := p.device * 16384 + p.row

/-- The number of logical rows, 8,064 × N (R1). -/
def Chip.logicalRows (c : Chip) : Nat := Config.rowsPerDevice * c.devices

/-! ## Codes (Table 11-2, Table 11-3) -/

def OperatingState.code : OperatingState → Nat
  | .loading => 0 | .ready => 1 | .degraded => 2 | .unformatted => 3 | .foreign => 4 | .formatting => 5

def Grade.code : Grade → Nat
  | .good => 0 | .caution => 1 | .critical => 2 | .failing => 3

def PatrolMode.code : PatrolMode → Nat
  | .off => 0 | .single => 1 | .continuous => 2

def PatrolState.code : PatrolState → Nat
  | .stopped => 0 | .pacing => 1 | .visiting => 2 | .halting => 3

def Origin.code : Origin → Nat
  | .patrol => 0 | .read => 1 | .check => 2 | .write => 3 | .host => 4

def Cause.code : Cause → Nat
  | .unc => 0 | .repeat => 1 | .host => 2

def Lookup.code : Lookup → Nat
  | .home _ => 0 | .spared _ => 1 | .retired => 2

/-- Spare states as the directory stores them; TESTING is stored as FREE (R139). -/
def SpareState.code : SpareState → Nat
  | .free => 0 | .testing => 0 | .inUse => 2 | .bad => 3

def ResultCode.code : ResultCode → Nat
  | .ok => 0x0 | .param => 0x1 | .range => 0x2 | .state => 0x3 | .uncorrectable => 0x4 | .retired => 0x5
  | .arrayTimeout => 0x6 | .aborted => 0x7 | .listFull => 0x8 | .already => 0x9 | .noSpare => 0xA
  | .deferred => 0xB | .directoryFail => 0xC | .dataLost => 0xD | .none => 0xF

def CommitFailure.code : CommitFailure → Nat
  | .timeout => 1 | .verify => 2 | .sequence => 3

def StopReason.code : StopReason → Nat
  | .halted => 1 | .singleDone => 2 | .timeout => 3 | .format => 4

def Copy.code : Copy → Nat
  | .a => 0 | .b => 1

/-- The origin of a stored code; a code above 4 names none (R182). -/
def Origin.ofCode : Nat → Option Origin
  | 0 => some .patrol | 1 => some .read | 2 => some .check | 3 => some .write | 4 => some .host | _ => none

/-- The cause of a stored code; code 3 names none (R182). -/
def Cause.ofCode : Nat → Option Cause
  | 0 => some .unc | 1 => some .repeat | 2 => some .host | _ => none

/-- The spare state of a stored code; code 1 is taken as FREE (R182). -/
def SpareState.ofCode : Nat → SpareState
  | 2 => .inUse | 3 => .bad | _ => .free

/-- A bit as a number. -/
def bit (b : Bool) : Nat := if b then 1 else 0

/-- Bits hi:lo of a word as a number, given lo and the field's width. -/
def field (w : Word) (lo width : Nat) : Nat := w.toNat / 2 ^ lo % 2 ^ width

/-! ## Packed words -/

/-- A spare id in one word: bits 8:7 device, 6:4 zone, 3:0 index (section 11.2). -/
def SpareId.pack (t : SpareId) : Word := word (t.device.val * 128 + t.zone.val * 16 + t.index.val)

/-- The spare id of a word's bits 8:0. -/
def SpareId.unpack (w : Word) : SpareId := spareOf (field w 4 5) (field w 0 4)

/-- "No spare", and every other absent word (section 11.2, 11.4). -/
def absentWord : Word := 0xFFFF

/-- Result word of a lookup's target: the spare id for SPARED, FFFFh otherwise (R80, R118). -/
def Lookup.targetWord : Lookup → Word
  | .spared t => t.pack
  | .home _ => absentWord
  | .retired => absentWord

/-- A map record (Table 11-6). -/
def RemapEntry.record (e : RemapEntry) : List Word :=
  match e.place with
  | .spared t => [word e.row, t.pack, word (1 + 16 * e.origin.code), e.stamp]
  | .retired => [word e.row, absentWord, word (2 + 16 * e.origin.code), e.stamp]

/-- Word 1 of a pending record, with the restarts to show (Table 11-7). -/
def PendingEntry.flagsWord (e : PendingEntry) (restarts : Nat) : Word :=
  word (e.cause.code + 16 * e.source.code + 256 * bit e.starved + 512 * bit e.stuck + 4096 * restarts)

/-- A pending record, with the restarts to show: 0 in a directory image (Table 11-7, R139). -/
def PendingEntry.record (e : PendingEntry) (restarts : Nat) : List Word :=
  [word e.row, e.flagsWord restarts, e.added, 0]

/-- A watch record (Table 11-8). -/
def WatchEntry.record (e : WatchEntry) (slot : Nat) : List Word := [word e.row, word e.count, e.last, word slot]

/-- The number of a zone's spares in a state (R103). -/
def Zone.countOf (z : Zone) (st : SpareState) : Nat := z.spares.countP (fun x => decide (x = st))

/-- The free count of a zone (R103). -/
def Zone.free (z : Zone) : Nat := z.countOf .free

/-- A zone record (Table 11-9). -/
def Zone.record (z : Zone) (g : Nat) : List Word :=
  [word (g + 256 * z.grade.code), word (z.free + 256 * z.countOf .testing),
   word (z.countOf .inUse + 256 * z.countOf .bad), word z.lentOut, word z.borrowedIn, word z.retiredRows,
   word z.uncEvents, 0]

/-- The switches of a policy, laid out as SET POLICY PARAM3 (Table 11-5). -/
def Policy.switches (p : Policy) : Word := word (bit p.borrow + 2 * bit p.autoRepair + 4 * bit p.scrubOnRead)

/-- The limits of a policy, laid out as SET POLICY PARAM4 (Table 11-5). -/
def Policy.limits (p : Policy) : Word := word (p.cautionLimit + 256 * p.criticalLimit)

/-- The nine settings as SET POLICY reads them from its parameters (R170, R181). -/
def Policy.ofParams (p : Params) : Policy where
  watchThreshold := p.p0.toNat
  forgetSpan := p.p1.toNat
  lendReserve := p.p2.toNat
  borrow := p.p3.getLsbD 0
  autoRepair := p.p3.getLsbD 1
  scrubOnRead := p.p3.getLsbD 2
  cautionLimit := field p.p4 0 5
  criticalLimit := field p.p4 8 5
  commitDelay := p.p5.toNat

/-- Each setting lies in its range and the limits stand in order (R169). -/
def Policy.inRange (p : Policy) : Bool :=
  decide (2 ≤ p.watchThreshold ∧ p.watchThreshold ≤ 15)
    && decide (1 ≤ p.forgetSpan ∧ p.forgetSpan ≤ 15)
    && decide (p.lendReserve ≤ 16)
    && decide (1 ≤ p.cautionLimit ∧ p.cautionLimit ≤ 16)
    && decide (p.criticalLimit ≤ 15)
    && decide (p.commitDelay ≤ 255)
    && decide (p.criticalLimit < p.cautionLimit)

/-- The kind code of a notice (Table 11-11). -/
def NoticeBody.kindCode : NoticeBody → Nat
  | .repaired .. => 0x01 | .spareBad .. => 0x02 | .retired _ => 0x03 | .stuck _ => 0x04 | .uncFound _ => 0x05
  | .pendingFull _ => 0x06 | .zoneExhausted _ => 0x07 | .gradeChange _ => 0x08 | .directoryFail .. => 0x09
  | .patrolStopped _ => 0x0A | .passDone _ => 0x0B

/-- The zone byte of a notice, FFh when absent (Table 11-10). -/
def NoticeBody.zoneByte : NoticeBody → Nat
  | .repaired _ z _ _ => z
  | .spareBad z _ => z
  | .zoneExhausted z => z
  | .retired _ | .stuck _ | .uncFound _ | .pendingFull _ | .gradeChange _ | .directoryFail .. | .patrolStopped _
  | .passDone _ => 0xFF

/-- The row word of a notice, FFFFh when absent (Table 11-10). -/
def NoticeBody.rowWord : NoticeBody → Word
  | .repaired r _ _ _ => word r
  | .retired r | .stuck r | .uncFound r | .pendingFull r => word r
  | .spareBad .. | .zoneExhausted _ | .gradeChange _ | .directoryFail .. | .patrolStopped _ | .passDone _ => absentWord

/-- The value word of a notice, FFFFh when absent (Table 11-11). -/
def NoticeBody.valueWord : NoticeBody → Word
  | .repaired _ _ t old => t.pack ||| (if old then 0x8000 else 0)
  | .spareBad _ i => word i
  | .gradeChange g => word g.code
  | .directoryFail c why => word (256 * c.code + why.code)
  | .patrolStopped why => word why.code
  | .passDone p => p
  | .retired _ | .stuck _ | .uncFound _ | .pendingFull _ | .zoneExhausted _ => absentWord

/-- The four words NOTICE0 to NOTICE3 of a notice (Table 11-10). -/
def Notice.words (n : Notice) : List Word :=
  [word (n.body.kindCode + 256 * n.body.zoneByte), n.body.rowWord, n.body.valueWord, n.stamp]

end Sys2Proof.Machine
end

