-- ==== Sys2Proof/Machine/Flags.lean ====
section
/-! DEFINITION. Event flags, INTn, and the words the register window shows (Chapter 3, Chapter 11). -/

namespace Sys2Proof.Machine

/-- Supply is applied and RSTn is released: the part takes writes and events (R36, R38). -/
def Chip.running (c : Chip) : Bool := c.powered && !c.rstAsserted

/-- The DRQ level (R55). -/
def Chip.drq (c : Chip) : Bool :=
  match c.cmd.st with
  | .dataOut => true
  | .dataIn => true
  | .idle => false
  | .executing => false

/-- The NOTICE level (R55, R179). -/
def Chip.noticeFlag (c : Chip) : Bool := !c.health.queue.isEmpty

/-- EVENTS as it reads (Table 11-1). -/
def Chip.eventsWord (c : Chip) : Word :=
  word (bit c.bus.cmdDone + 2 * bit c.bus.cmdRefused + 4 * bit c.bus.portMisuse + 8 * bit c.bus.gradeFlag
    + 16 * bit c.bus.stateFlag + 32 * bit c.drq + 64 * bit c.noticeFlag)

/-- INTn is asserted: at least one flag is both set and enabled, and the part is not in reset (R56). -/
def Chip.intAsserted (c : Chip) : Bool := c.running && decide (c.eventsWord &&& c.bus.enable ≠ 0)

/-- BUSY (R42). -/
def Chip.busy (c : Chip) : Bool :=
  decide (c.cmd.st ≠ .idle) || decide (c.dir.opState = .loading) || decide (c.dir.opState = .formatting)

/-- STATUS as it reads (R42, Table 11-1). -/
def Chip.statusWord (c : Chip) : Word :=
  word (bit c.busy + 2 * bit c.drq + 4 * c.dir.opState.code + 64 * c.health.grade.code + 4096 * c.cmd.lastResult.code)

/-- NOTICE_CTRL as it reads (R178). -/
def Chip.noticeCtrlWord (c : Chip) : Word := word (c.health.queue.length + 32768 * bit c.health.lost)

/-- The four words of the head notice, FFFFh each while the queue is empty (R57). -/
def Chip.headWords (c : Chip) : List Word :=
  match c.health.queue with
  | [] => [absentWord, absentWord, absentWord, absentWord]
  | n :: _ => n.words

/-- PATROL_STATE as it reads (Table 11-1). -/
def Chip.patrolStateWord (c : Chip) : Word := word (c.pat.mode.code + 16 * c.pat.st.code)

/-- DIR_STATE as it reads (R57, Table 11-1). -/
def Chip.dirStateWord (c : Chip) : Word :=
  word (bit c.dir.validA + 2 * bit c.dir.validB + 4 * bit c.dir.dirty
    + 8 * bit (decide (c.dir.mode = .committing)) + 256 * c.tr.changes)

/-- What a DATA read returns: the buffer word at the pointer in DATA_OUT, 0000h otherwise (R48, R50). -/
def Chip.dataWord (c : Chip) : Word :=
  match c.cmd.st with
  | .dataOut => c.bus.buffer.getD c.bus.pointer 0
  | .idle => 0
  | .executing => 0
  | .dataIn => 0

/-- The value of the register at each offset (R39, R57, R180, Table 11-1); what a cycle drives of it is `Chip.driven`.
Only a read of DATA has an effect, which is the row DATA_READ. -/
def Chip.readRegister (c : Chip) (offset : BitVec 5) : Word :=
  match offset.toNat with
  | 0x00 => c.statusWord
  | 0x02 => c.cmd.params.p0
  | 0x03 => c.cmd.params.p1
  | 0x04 => c.cmd.params.p2
  | 0x05 => c.cmd.params.p3
  | 0x06 => c.cmd.params.p4
  | 0x07 => c.cmd.params.p5
  | 0x08 => c.cmd.results.r0
  | 0x09 => c.cmd.results.r1
  | 0x0A => c.cmd.results.r2
  | 0x0B => c.cmd.results.r3
  | 0x0C => c.dataWord
  | 0x0E => c.eventsWord
  | 0x0F => c.bus.enable
  | 0x10 => c.headWords.getD 0 absentWord
  | 0x11 => c.headWords.getD 1 absentWord
  | 0x12 => c.headWords.getD 2 absentWord
  | 0x13 => c.headWords.getD 3 absentWord
  | 0x14 => c.noticeCtrlWord
  | 0x15 => c.patrolStateWord
  | 0x16 => word c.pat.cursor
  | 0x17 => c.dirStateWord
  | 0x18 => if c.bus.identRevision then Config.revision else Config.partCode
  | _ => 0

/-- What the part drives on D0 to D15 in a bus cycle: in a read cycle the register addressed at its start, and nothing in a
write cycle, while RDn and WRn are both asserted, while RSTn is asserted, or without supply (R38). -/
def Chip.driven (c : Chip) (y : BusCycle) : Option Word :=
  if c.running && !y.write && !y.overlap then some (c.readRegister y.first) else none

end Sys2Proof.Machine
end

