-- ==== Sys2Proof/Machine/Ops.lean ====
section
/-! DEFINITION. The named operations the blocks share: the array, the request slots, lookups and claims, notices and grades, spare states, dirty, and the end of a command. A block has no exception entry: what the part raises are flags, notices and INTn. -/

namespace Sys2Proof.Machine

/-! ## The array devices (R2, R22, R27 to R30, log entry 3) -/

/-- What a row that is not listed holds: 32 stored words of zero (log entry 3). -/
def blankRow : StoredRow := List.replicate 32 0

/-- The row a key names. -/
def Memory.read : Memory → Nat → StoredRow
  | [], _ => blankRow
  | (k', r) :: rest, k => if k' = k then r else Memory.read rest k

/-- Store a row under a key, keeping the canonical form: keys rise, and no row equal to the blank row is listed. -/
def Memory.store : Memory → Nat → StoredRow → Memory
  | [], k, r => if r = blankRow then [] else [(k, r)]
  | (k', r') :: rest, k, r =>
    if k < k' then (if r = blankRow then (k', r') :: rest else (k, r) :: (k', r') :: rest)
    else if k = k' then (if r = blankRow then rest else (k, r) :: rest)
    else (k', r') :: Memory.store rest k r

/-- The canonical form above a key: every key is greater, keys rise, rows are 32 words and none is blank. -/
def Memory.wfAbove : Option Nat → Memory → Bool
  | _, [] => true
  | low, (k, r) :: rest =>
    (match low with
      | none => true
      | some l => decide (l < k))
    && decide (r.length = 32) && decide (r ≠ blankRow) && Memory.wfAbove (some k) rest

/-- The canonical form of the array list. -/
def Memory.wf (m : Memory) : Bool := Memory.wfAbove none m

/-- The stored form of 32 data words, each with its check code (R23, R30). -/
def storedRow (ws : List Word) : StoredRow := (List.range 32).map fun i => encodeWord (ws.getD i 0)

/-- The bits a patch changes in the word at an address. -/
def RowPatch.maskAt (p : RowPatch) (i : Nat) : Stored :=
  p.foldl (fun m e => if e.1.toNat = i then m ^^^ e.2 else m) 0

/-- The word a patch leaves at an address that held `old`. -/
def RowPatch.wordAt (p : RowPatch) (i : Nat) (old : Stored) : Stored :=
  p.foldl (fun w e => if e.1.toNat = i then e.2 else w) old

/-- The 32 stored words as read: the row with the changed bits of R7. -/
def asRead (row : StoredRow) (flips : RowPatch) : StoredRow :=
  (List.range 32).map fun i => row.getD i 0 ^^^ RowPatch.maskAt flips i

/-- The row a cut-off or timed-out write leaves: any words, by the patch (R32, R36, log entry 4). -/
def patchedRow (row : StoredRow) (left : RowPatch) : StoredRow :=
  (List.range 32).map fun i => RowPatch.wordAt left i (row.getD i 0)

/-- What a read of a physical row that completes with DONE delivers (R24, R29). -/
def Memory.deliver (m : Memory) (p : PhysRow) (flips : RowPatch) : Delivered :=
  Machine.deliver (asRead (m.read p.key) flips)

/-- A write of a physical row that completes with DONE (R30). -/
def Memory.write (m : Memory) (p : PhysRow) (ws : List Word) : Memory := m.store p.key (storedRow ws)

/-- A write of a physical row that did not complete with DONE after its program strobe (R32, R36). -/
def Memory.tear (m : Memory) (p : PhysRow) (left : RowPatch) : Memory :=
  m.store p.key (patchedRow (m.read p.key) left)

/-! ## Request slots (R25 to R28, R34) -/

/-- The class every access of a purpose is made in (Table 2-3). -/
def Purpose.cls : Purpose → AccessClass
  | .readRowsRead | .checkRowsRead | .scrubWrite | .ordinaryWrite | .repairQualify _ | .repairDataWrite
  | .repairVerify | .inPlaceWrite | .readBack | .rowInit => .foreground
  | .loadRead | .commitWrite | .commitReadBack | .invalidatingWrite => .directory
  | .sourceRead | .qualification _ | .copyWrite | .verifyRead | .zeroWrite | .zeroReadBack => .repair
  | .visitRead | .patrolScrub => .patrol

/-- The slot of a class. -/
def Sequencer.slot (q : Sequencer) : AccessClass → Slot
  | .foreground => q.foreground
  | .directory => q.directory
  | .repair => q.repair
  | .patrol => q.patrol

/-- Put a slot of a class. -/
def Sequencer.put (q : Sequencer) (k : AccessClass) (s : Slot) : Sequencer :=
  match k with
  | .foreground => { q with foreground := s }
  | .directory => { q with directory := s }
  | .repair => { q with repair := s }
  | .patrol => { q with patrol := s }

/-- The request of a slot in progress. -/
def Slot.active : Slot → Option Request
  | .inProgress r => some r
  | .waiting _ => none
  | .empty => none

/-- The request of a waiting slot. -/
def Slot.awaiting : Slot → Option Request
  | .waiting r => some r
  | .inProgress _ => none
  | .empty => none

/-- The access in progress, with its class; none when the port is idle (R27). -/
def Sequencer.current (q : Sequencer) : Option (AccessClass × Request) :=
  match q.foreground.active with
  | some r => some (.foreground, r)
  | none =>
    match q.directory.active with
    | some r => some (.directory, r)
    | none =>
      match q.repair.active with
      | some r => some (.repair, r)
      | none =>
        match q.patrol.active with
        | some r => some (.patrol, r)
        | none => none

/-- The waiting request of the highest class (R26). -/
def Sequencer.firstWaiting (q : Sequencer) : Option (AccessClass × Request) :=
  match q.foreground.awaiting with
  | some r => some (.foreground, r)
  | none =>
    match q.directory.awaiting with
    | some r => some (.directory, r)
    | none =>
      match q.repair.awaiting with
      | some r => some (.repair, r)
      | none =>
        match q.patrol.awaiting with
        | some r => some (.patrol, r)
        | none => none

/-- A requester gives its access up: a WAITING request is withdrawn, and the completion of one IN_PROGRESS will
be discarded (R34, R35). -/
def Slot.abandon : Slot → Slot
  | .empty => .empty
  | .waiting _ => .empty
  | .inProgress r => .inProgress { r with abandoned := true }

/-- A WAITING request is withdrawn; one IN_PROGRESS goes on (R34). -/
def Slot.withdraw : Slot → Slot
  | .empty => .empty
  | .waiting _ => .empty
  | .inProgress r => .inProgress r

/-- Put a slot of the part's sequencer. -/
def Chip.putSlot (c : Chip) (k : AccessClass) (s : Slot) : Chip := { c with seq := c.seq.put k s }

/-- Issue a request: it enters its slot as WAITING; the step's last act grants (R25, R26). -/
def Chip.issue (c : Chip) (purpose : Purpose) (phys : PhysRow) (data : Option (List Word)) : Chip :=
  c.putSlot purpose.cls (.waiting { purpose, phys, data, abandoned := false })

/-- Issue a foreground write or qualification request, or hold it while a discarded completion still occupies
the slot (R53). -/
def Chip.issueForeground (c : Chip) (purpose : Purpose) (phys : PhysRow) (data : Option (List Word)) : Chip :=
  match c.seq.foreground with
  | .empty => c.issue purpose phys data
  | .waiting _ | .inProgress _ =>
    { c with cmd := { c.cmd with held := some { purpose, phys, data, abandoned := false } } }

/-- The grant condition of a request fails: the mark it depends on is set (R28). -/
def Chip.conditionFails (c : Chip) (purpose : Purpose) : Bool :=
  match purpose with
  | .patrolScrub => (c.tr.patrolClaim.map Claim.overtaken).getD false
  | .zeroWrite => (c.tr.repairClaim.map Claim.overtaken).getD false
  | .readRowsRead | .checkRowsRead | .scrubWrite | .ordinaryWrite | .repairQualify _ | .repairDataWrite
  | .repairVerify | .inPlaceWrite | .readBack | .rowInit | .loadRead | .commitWrite | .commitReadBack
  | .invalidatingWrite | .sourceRead | .qualification _ | .copyWrite | .verifyRead | .zeroReadBack | .visitRead =>
    false

/-- The grant made when the port is free (R26, R28): the highest WAITING request is granted; a conditioned one
whose mark is set leaves its slot with DROPPED and the grant passes on. Gives the dropped requests, whose
requesters are told after the grant. There are four slots, so four tries reach every request. -/
def Chip.grant : Nat → Chip → Chip × List Purpose
  | 0, c => (c, [])
  | n + 1, c =>
    match c.seq.firstWaiting with
    | none => (c, [])
    | some (k, r) =>
      if c.conditionFails r.purpose then
        ((Chip.grant n (c.putSlot k .empty)).1, r.purpose :: (Chip.grant n (c.putSlot k .empty)).2)
      else
        ({ c with seq := { c.seq.put k (.inProgress r) with readyTimer := true } }, [])

/-! ## Lookups and claims (R12, R18, R19) -/

/-- The remap entry of a logical row. -/
def Chip.entryOf (c : Chip) (l : Nat) : Option RemapEntry := c.tr.remap.find? fun e => decide (e.row = l)

/-- The lookup of a logical row (R12). -/
def Chip.lookup (c : Chip) (l : Nat) : Lookup :=
  match c.entryOf l with
  | none => .home (homePhys l)
  | some e =>
    match e.place with
    | .spared t => .spared t
    | .retired => .retired

/-- The physical row of a lookup result; none for RETIRED (R12). -/
def Lookup.phys : Lookup → Option PhysRow
  | .home p => some p
  | .spared t => some t.phys
  | .retired => none

/-- A claim holds a logical row (R18). -/
def claimHolds (cl : Option Claim) (l : Nat) : Bool := (cl.map fun x => decide (x.row = l)).getD false

/-- The mark of a claim, clear when the claim is empty (R20). -/
def claimMarked (cl : Option Claim) : Bool := (cl.map Claim.overtaken).getD false

/-- Set the overtaken mark of a claim that holds the row (R19). -/
def markClaim (l : Nat) (cl : Option Claim) : Option Claim :=
  cl.map fun x => if x.row = l then { x with overtaken := true } else x

/-- The act of a foreground write lookup on the claims: every claim that holds the row is marked (R19). -/
def Chip.markClaims (c : Chip) (l : Nat) : Chip :=
  { c with tr := { c.tr with repairClaim := markClaim l c.tr.repairClaim, patrolClaim := markClaim l c.tr.patrolClaim } }

/-- The patrol claim's mark is set if it holds the row (R15, R76, R113, R119). -/
def Chip.markPatrolClaim (c : Chip) (l : Nat) : Chip :=
  { c with tr := { c.tr with patrolClaim := markClaim l c.tr.patrolClaim } }

/-! ## Notices (R177) -/

/-- Raise a notice: it joins the tail with the current pass number, or is dropped and NOTICE_LOST set (R177). -/
def Chip.raise (c : Chip) (b : NoticeBody) : Chip :=
  if c.health.queue.length < Config.noticeLimit then
    { c with health := { c.health with queue := c.health.queue ++ [{ body := b, stamp := c.pat.pass }] } }
  else
    { c with health := { c.health with lost := true } }

/-! ## Grades (R172 to R174) -/

/-- The grade of a zone with this many FREE spares (R172). -/
def zoneGrade (p : Policy) (free : Nat) : Grade :=
  if p.cautionLimit < free then .good else if p.criticalLimit < free then .caution else .critical

/-- The number of RETIRED remap entries (R173). -/
def Chip.retiredCount (c : Chip) : Nat := c.tr.remap.countP fun e => decide (e.place = .retired)

/-- The number of SPARED remap entries (R121). -/
def Chip.sparedCount (c : Chip) : Nat := c.tr.remap.countP fun e => decide (e.place ≠ .retired)

/-- The number of pending entries with STUCK set (R173). -/
def Chip.stuckCount (c : Chip) : Nat := c.trk.pendingList.countP fun e => e.stuck

/-- The worse of two grades, GOOD the best (R173). -/
def Grade.worse (a b : Grade) : Grade := if a.code < b.code then b else a

/-- The worst grade among the present zones (R173). -/
def Chip.worstZone (c : Chip) : Grade := (c.alloc.zones.take (8 * c.devices)).foldl (fun g z => g.worse z.grade) .good

/-- The device grade the law of health gives (R173). -/
def Chip.computedGrade (c : Chip) : Grade :=
  if 0 < c.retiredCount ∨ 0 < c.stuckCount then .failing else c.worstZone

/-- Regrade the device: a change raises GRADE_CHANGE and sets the GRADE flag (R174). -/
def Chip.regradeDevice (c : Chip) : Chip :=
  if c.computedGrade = c.health.grade then c
  else
    Chip.raise { c with health := { c.health with grade := c.computedGrade }, bus := { c.bus with gradeFlag := true } }
      (.gradeChange c.computedGrade)

/-! ## Spares and zones (R101, R103) -/

/-- Change one zone. -/
def Chip.modifyZone (c : Chip) (g : Nat) (f : Zone → Zone) : Chip :=
  { c with alloc := { zones := c.alloc.zones.modify g f } }

/-- The zone of a global zone number. -/
def Chip.zone (c : Chip) (g : Nat) : Zone := c.alloc.zones.getD g Zone.absent

/-- Put a spare in a state and grade its zone by the free count that leaves; the device regrade belongs to the
action the change is part of (R101, R103, R174). -/
def Chip.setSpare (c : Chip) (t : SpareId) (st : SpareState) : Chip :=
  c.modifyZone t.globalZone fun z =>
    let z' := { z with spares := z.spares.set t.index.val st }
    if z'.free = z.free then z' else { z' with grade := zoneGrade c.health.policy z'.free }

/-- A TESTING spare returns to FREE (R101): its zone and the device are regraded. -/
def Chip.releaseSpare (c : Chip) (t : SpareId) : Chip := (c.setSpare t .free).regradeDevice

/-- Some spare of the part is TESTING (R102). -/
def Chip.someTesting (c : Chip) : Bool := c.alloc.zones.any fun z => decide (.testing ∈ z.spares)

/-! ## Dirty and the commit delay timer (R143, R144) -/

/-- The timer started with a delay: not started for 0 (R144). -/
def startDelay (delay : Nat) : Option Nat := if delay = 0 then none else some delay

/-- A change of persisted content: dirty is set; going from clear to set starts the timer (R143, R144). -/
def Chip.setDirty (c : Chip) : Chip :=
  if c.dir.dirty then c
  else { c with dir := { c.dir with dirty := true, commitTimer := startDelay c.health.policy.commitDelay } }

/-- A change of operating state sets the STATE flag in the same action (R161). -/
def Chip.setOpState (c : Chip) (st : OperatingState) : Chip :=
  if c.dir.opState = st then c
  else { c with dir := { c.dir with opState := st }, bus := { c.bus with stateFlag := true } }

/-- READY or DEGRADED. -/
def Chip.inService (c : Chip) : Bool := decide (c.dir.opState = .ready) || decide (c.dir.opState = .degraded)

/-! ## Commands (R46, R48, R49) -/

/-- A command ends: results, last result, stop request, IDLE and CMD_DONE as one action (R46). -/
def Chip.endCommand (c : Chip) (code : ResultCode) (res : Results) : Chip :=
  { c with
    cmd := { c.cmd with st := .idle, results := res, lastResult := code, stopRequest := false, work := .none, held := none }
    bus := { c.bus with cmdDone := true } }

/-- The engine waits in EXECUTING with this work. -/
def Chip.setWork (c : Chip) (w : Work) : Chip := { c with cmd := { c.cmd with work := w } }

/-- Offer 32 words to the host: buffer filled, pointer 0, DATA_OUT (R48). -/
def Chip.offer (c : Chip) (ws : List Word) : Chip :=
  { c with bus := { c.bus with buffer := ws, pointer := 0 }, cmd := { c.cmd with st := .dataOut } }

/-- Ask the host for a row: pointer 0, DATA_IN (R49). -/
def Chip.askRow (c : Chip) : Chip :=
  { c with bus := { c.bus with pointer := 0 }, cmd := { c.cmd with st := .dataIn } }

/-- RESULT0 kept current while a command runs (R47). -/
def Chip.setResult0 (c : Chip) (n : Nat) : Chip :=
  { c with cmd := { c.cmd with results := { c.cmd.results with r0 := word n } } }

end Sys2Proof.Machine
end

