-- ==== Sys2Proof/Machine/Tracker.lean ====
section
/-! DEFINITION. The error tracker: reports, outcome rules, watch table and pending list (Chapter 5). -/

namespace Sys2Proof.Machine

/-! ## The pending list (R92 to R97) -/

/-- The pending entry of a logical row. -/
def Chip.pendingOf (c : Chip) (l : Nat) : Option PendingEntry := c.trk.pendingList.find? fun e => decide (e.row = l)

/-- The row is pending with cause UNC. -/
def Chip.pendingUnc (c : Chip) (l : Nat) : Bool := ((c.pendingOf l).map fun e => decide (e.cause = .unc)).getD false

/-- Change the pending entry of a row in its place, with no report of a change of persisted content. -/
def Chip.updatePending (c : Chip) (l : Nat) (f : PendingEntry → PendingEntry) : Chip :=
  { c with trk := { c.trk with pendingList := c.trk.pendingList.map fun e => if e.row = l then f e else e } }

/-- Remove the pending entry of a row, if it has one; the removal sets dirty (R96, R97). The regrade that a STUCK
entry's removal calls for belongs to the action the removal is part of. -/
def Chip.removePending (c : Chip) (l : Nat) : Chip :=
  match c.pendingOf l with
  | none => c
  | some _ =>
    Chip.setDirty { c with trk := { c.trk with pendingList := c.trk.pendingList.filter fun e => decide (e.row ≠ l) } }

/-- Set the restarts of a row's entry; restarts set no dirty (R95, R97). -/
def Chip.setRestarts (c : Chip) (l n : Nat) : Chip := c.updatePending l fun e => { e with restarts := n }

/-- Soft reset sets the restarts of every entry to 0 (R96). -/
def Chip.clearRestarts (c : Chip) : Chip :=
  { c with trk := { c.trk with pendingList := c.trk.pendingList.map fun e => { e with restarts := 0 } } }

/-- Deferral: the entry moves to the tail with restarts 0 (R96, R114). -/
def Chip.deferPending (c : Chip) (l : Nat) : Chip :=
  match c.pendingOf l with
  | none => c
  | some e =>
    Chip.setDirty { c with trk := { c.trk with
      pendingList := (c.trk.pendingList.filter fun x => decide (x.row ≠ l)) ++ [{ e with restarts := 0 }] } }

/-- The list has no room (R93). -/
def Chip.pendingFull (c : Chip) : Bool := decide (Config.pendingLimit ≤ c.trk.pendingList.length)

/-! ## The watch table (R87 to R91) -/

/-- A slot holds the row. -/
def slotHolds (l : Nat) (o : Option WatchEntry) : Bool := (o.map fun e => decide (e.row = l)).getD false

/-- The watch entry of a row. -/
def Chip.watchOf (c : Chip) (l : Nat) : Option WatchEntry := (c.trk.watch.find? (slotHolds l)).join

/-- Put a slot of the watch table. -/
def Chip.putWatch (c : Chip) (i : Nat) (o : Option WatchEntry) : Chip :=
  { c with trk := { c.trk with watch := c.trk.watch.set i o } }

/-- Remove the watch entry of a row, if it has one, leaving its slot empty (R87). -/
def Chip.removeWatch (c : Chip) (l : Nat) : Chip :=
  { c with trk := { c.trk with watch := c.trk.watch.map fun o => if slotHolds l o then none else o } }

/-- The age of a watch entry, modulo 65,536 (R89, R90). -/
def WatchEntry.age (e : WatchEntry) (pass : Word) : Nat := (pass - e.last).toNat

/-- `a` is displaced before `b`: lowest count, then greatest age, then lowest row (R89). -/
def WatchEntry.weaker (pass : Word) (a b : WatchEntry) : Bool :=
  decide (a.count < b.count)
    || decide (a.count = b.count) && (decide (b.age pass < a.age pass)
      || decide (a.age pass = b.age pass) && decide (a.row < b.row))

/-- The weakest of the entries given with their slots, and its slot (R89). -/
def weakest (pass : Word) : List (Option WatchEntry × Nat) → Option (WatchEntry × Nat)
  | [] => none
  | (none, _) :: rest => weakest pass rest
  | (some e, i) :: rest =>
    match weakest pass rest with
    | none => some (e, i)
    | some (e', i') => if e'.weaker pass e then some (e', i') else some (e, i)

/-- The slot a new entry takes: the lowest empty one, else the victim's (R87, R89). -/
def Chip.watchSlot (c : Chip) : Option Nat :=
  match c.trk.watch.findIdx? Option.isNone with
  | some i => some i
  | none => (weakest c.pat.pass c.trk.watch.zipIdx).map Prod.snd

/-- A first correction inserts a watch entry with count 1 (R89). -/
def Chip.watchInsert (c : Chip) (l : Nat) : Chip :=
  match c.watchSlot with
  | some i => c.putWatch i (some { row := l, count := 1, last := c.pat.pass })
  | none => c

/-- Ageing at a pass end: entries whose age is the forget span or more go (R90). -/
def Chip.ageWatch (c : Chip) : Chip :=
  { c with trk := { c.trk with watch := c.trk.watch.map fun o =>
      match o with
      | none => none
      | some e => if c.health.policy.forgetSpan ≤ e.age c.pat.pass then none else some e } }

/-! ## Additions (R93, R94) -/

/-- Add a row at the tail; its watch entry goes in the same action (R86, R93). -/
def Chip.addPending (c : Chip) (l : Nat) (cause : Cause) (source : Origin) : Chip :=
  Chip.setDirty
    { c.removeWatch l with trk := { (c.removeWatch l).trk with
        pendingList := c.trk.pendingList ++
          [{ row := l, cause, source, added := c.pat.pass, starved := false, stuck := false, restarts := 0 }] } }

/-- The entry a UNC candidate evicts from a full list: the lowest index with cause REPEAT or HOST whose row the
repair claim does not hold (R94). -/
def Chip.evictionVictim (c : Chip) : Option PendingEntry :=
  c.trk.pendingList.find? fun e => decide (e.cause ≠ .unc) && !claimHolds c.tr.repairClaim e.row

/-- A UNC candidate is offered (R82, R93, R94). -/
def Chip.offerUnc (c : Chip) (l : Nat) (path : Origin) : Chip :=
  if c.pendingFull then
    match c.evictionVictim with
    | some v => ((c.removePending v.row).addPending l .unc path).raise (.uncFound l)
    | none => c.raise (.pendingFull l)
  else (c.addPending l .unc path).raise (.uncFound l)

/-! ## Reports (R81 to R85) -/

/-- A report: row, physical row read, row outcome, path, and whether it is a read-back (R81, R85). -/
structure Report where
  row      : Nat
  phys     : PhysRow
  outcome  : ReadOutcome
  path     : Origin
  readBack : Bool
  deriving DecidableEq, Repr

/-- Add 1 to the uncorrectable events of the row's home zone, saturating at 65,535 (R82). -/
def Chip.countUnc (c : Chip) (l : Nat) : Chip :=
  c.modifyZone (homeZone l) fun z => { z with uncEvents := min 65535 (z.uncEvents + 1) }

/-- A report of UNCORRECTABLE (R82). -/
def Chip.reportUnc (c : Chip) (l : Nat) (path : Origin) : Chip :=
  match c.pendingOf l with
  | some e =>
    match e.cause with
    | .unc => c.countUnc l
    | .repeat | .host => ((c.countUnc l).updatePending l fun e => { e with cause := .unc, starved := false }).setDirty
  | none => ((c.countUnc l).removeWatch l).offerUnc l path

/-- The cause of a row pending UNC becomes REPEAT and STUCK is cleared; the device is regraded (R83, R84). -/
def Chip.readableAgain (c : Chip) (l : Nat) : Chip :=
  ((c.updatePending l fun e => { e with cause := .repeat, stuck := false }).setDirty).regradeDevice

/-- A CORRECTED report of a row held in the watch table: counted, and promoted at the threshold (R88). -/
def Chip.watchCount (c : Chip) (l : Nat) (i : Nat) (e : WatchEntry) (path : Origin) : Chip :=
  if min 15 (e.count + 1) < c.health.policy.watchThreshold ∨ c.pendingFull then
    c.putWatch i (some { e with count := min 15 (e.count + 1), last := c.pat.pass })
  else c.addPending l .repeat path

/-- A report of CORRECTED (R83, R88, R89). -/
def Chip.reportCorrected (c : Chip) (l : Nat) (path : Origin) : Chip :=
  match c.pendingOf l with
  | some e =>
    match e.cause with
    | .unc => c.readableAgain l
    | .repeat | .host => c
  | none =>
    match c.watchOf l, c.trk.watch.findIdx? (slotHolds l) with
    | some e, some i => c.watchCount l i e path
    | some _, none => c.watchInsert l
    | none, _ => c.watchInsert l

/-- A report of CLEAN that is no read-back (R84). -/
def Chip.reportClean (c : Chip) (l : Nat) : Chip := if c.pendingUnc l then c.readableAgain l else c

/-- A CLEAN read-back: the row's entry is removed, whatever its cause (R85). -/
def Chip.reportCleanReadBack (c : Chip) (l : Nat) : Chip :=
  match c.pendingOf l with
  | none => c
  | some _ => (c.removePending l).regradeDevice

/-- The tracker takes a report as one action: a stale one is discarded, otherwise the outcome rule applies (R81). -/
def Chip.report (c : Chip) (r : Report) : Chip :=
  if (c.lookup r.row).phys = some r.phys then
    match r.outcome with
    | .uncorrectable => c.reportUnc r.row r.path
    | .corrected => c.reportCorrected r.row r.path
    | .clean => if r.readBack then c.reportCleanReadBack r.row else c.reportClean r.row
  else c

/-- Set STARVED on a row's entry (R95, R111); it is a change of persisted content (R97). -/
def Chip.setStarved (c : Chip) (l : Nat) : Chip := (c.updatePending l fun e => { e with starved := true }).setDirty

/-- Set STUCK on a row's entry, if it has one, and regrade (R78, R95); without an entry no flag is set. -/
def Chip.setStuck (c : Chip) (l : Nat) : Chip :=
  match c.pendingOf l with
  | none => c
  | some _ => ((c.updatePending l fun e => { e with stuck := true }).setDirty).regradeDevice

end Sys2Proof.Machine
end

