-- ==== Sys2Proof/Machine/Directory.lean ====
section
/-! DEFINITION. The directory unit's image, commit triggers, commit start, and the commit's writes and read-back (R139 to R149). -/

namespace Sys2Proof.Machine

/-! ## The image (R139, R140, section 11.5) -/

/-- The upper 16 bits of a sequence number. -/
def seqHigh (s : BitVec 32) : Word := s.extractLsb' 16 16

/-- The lower 16 bits of a sequence number. -/
def seqLow (s : BitVec 32) : Word := s.extractLsb' 0 16

/-- The header (Table 11-12). -/
def Chip.headerRow (c : Chip) (seq : BitVec 32) : List Word :=
  [Config.layoutVersion, seqHigh seq, seqLow seq, word c.devices, word c.health.policy.watchThreshold,
   word c.health.policy.forgetSpan, word c.health.policy.lendReserve, c.health.policy.switches,
   c.health.policy.limits, word c.health.policy.commitDelay, word c.pat.mode.code, word c.pat.pace,
   word c.pat.cursor, c.pat.pass, word c.sparedCount, word c.retiredCount, word c.trk.pendingList.length]
  ++ List.replicate 15 0

/-- Remap slot i (Table 11-6): the entry with index i, or zero words. -/
def Chip.remapSlot (c : Chip) (i : Nat) : List Word :=
  match c.tr.remap[i]? with
  | some e => e.record
  | none => List.replicate 4 0

/-- Pending slot i, restarts stored as 0 (Table 11-7, R139). -/
def Chip.pendingSlot (c : Chip) (i : Nat) : List Word :=
  match c.trk.pendingList[i]? with
  | some e => e.record 0
  | none => List.replicate 4 0

/-- Eight spare states in one word, the first in bits 1:0 (Table 11-13). -/
def statesWord (sts : List SpareState) : Word := word (sts.foldr (fun st n => st.code + 4 * n) 0)

/-- Zone slot z (Table 11-13): a TESTING spare is stored as FREE and counted as free (R139). -/
def Chip.zoneSlot (c : Chip) (g : Nat) : List Word :=
  if g < 8 * c.devices then
    [statesWord ((c.zone g).spares.take 8), statesWord ((c.zone g).spares.drop 8),
     word ((c.zone g).free + (c.zone g).countOf .testing), word ((c.zone g).countOf .inUse),
     word ((c.zone g).countOf .bad), word (c.zone g).lentOut, word (c.zone g).borrowedIn,
     word (c.zone g).retiredRows, word (c.zone g).uncEvents] ++ List.replicate 7 0
  else List.replicate 16 0

/-- The wrapping sum of the words of some rows (R140). -/
def wordSum (rows : List (List Word)) : Word := rows.foldl (fun s r => r.foldl (· + ·) s) 0

/-- Image rows 0 to 100 (Table 8-1). -/
def Chip.imageBody (c : Chip) (seq : BitVec 32) : List (List Word) :=
  [c.headerRow seq]
  ++ (List.range 80).map (fun k => (List.range 8).flatMap fun j => c.remapSlot (8 * k + j))
  ++ (List.range 4).map (fun k => (List.range 8).flatMap fun j => c.pendingSlot (8 * k + j))
  ++ (List.range 16).map (fun k => (List.range 2).flatMap fun j => c.zoneSlot (2 * k + j))

/-- The trailer with a checksum word (Table 11-14). -/
def trailerRow (seq : BitVec 32) (checksum : Word) : List Word :=
  [seqHigh seq, seqLow seq] ++ List.replicate 29 0 ++ [checksum]

/-- The 102 rows of the image: the checksum word makes the wrapping sum 0 (R140). -/
def Chip.imageOf (c : Chip) (seq : BitVec 32) : List (List Word) :=
  c.imageBody seq ++ [trailerRow seq (0 - wordSum (c.imageBody seq ++ [trailerRow seq 0]))]

/-! ## Copies (R142, R146, R147) -/

/-- Set the flag and the sequence number of a copy (R142). -/
def Chip.setCopy (c : Chip) (k : Copy) (valid : Bool) (seq : BitVec 32) : Chip :=
  match k with
  | .a => { c with dir := { c.dir with validA := valid, seqA := seq } }
  | .b => { c with dir := { c.dir with validB := valid, seqB := seq } }

/-- H, the highest sequence number among the valid copies (R146). -/
def Chip.highestSeq (c : Chip) : BitVec 32 :=
  let a := if c.dir.validA then c.dir.seqA else 0
  let b := if c.dir.validB then c.dir.seqB else 0
  if a < b then b else a

/-- The target of a commit: the invalid copy, or the one with the lower sequence (R147). -/
def Chip.commitTarget (c : Chip) : Copy :=
  if c.dir.validA && (!c.dir.validB || decide (c.dir.seqB < c.dir.seqA)) then .b else .a

/-! ## Starting a commit (R145, R146) -/

/-- A commit takes its image and issues its first write: in one action the image enters the buffer, dirty is
cleared, the change count becomes 0, the timer stops, the target is invalid, and the mode is COMMITTING (R146). -/
def Chip.beginCommit (c : Chip) (target : Copy) (seq : BitVec 32) (ofFormat : Bool) : Chip :=
  let image := c.imageOf seq
  let c1 := c.setCopy target false 0
  let c2 : Chip :=
    { c1 with
      dir := { c1.dir with
        mode := .committing, dirty := false, commitTimer := none, image := image
        commit := some { target, seq, index := 0, reading := false, detached := false, ofFormat } }
      tr := { c1.tr with changes := 0 } }
  c2.issue .commitWrite (target.phys 0) (some (image.getD 0 []))

/-- A COMMIT DIRECTORY that waits for the commit now starting is bound to it (R152). -/
def Chip.bindCommit (c : Chip) (target : Copy) (seq : BitVec 32) : Chip :=
  if c.cmd.work = .commitWait then c.setWork (.commitRun target seq) else c

/-- A commit starts, or is refused at the sequence limit (R146). -/
def Chip.startCommit (c : Chip) : Chip :=
  if c.highestSeq = Config.lastSequence then
    let c1 := Chip.raise { c with dir := { c.dir with commitTimer := none } } (.directoryFail c.commitTarget .sequence)
    if c1.cmd.work = .commitWait then
      c1.endCommand .directoryFail ⟨word c.commitTarget.code, absentWord, absentWord, word CommitFailure.sequence.code⟩
    else c1
  else
    (c.bindCommit c.commitTarget (c.highestSeq + 1)).beginCommit c.commitTarget (c.highestSeq + 1) false

/-- A commit trigger is taken by mode and operating state (R145). -/
def Chip.trigger (c : Chip) : Chip :=
  if c.inService then
    match c.dir.mode with
    | .idle => c.startCommit
    | .committing => { c with dir := { c.dir with commitRequest := true } }
    | .loading => c
  else c

/-! ## The commit's accesses (R148, R149) -/

/-- Move the commit in flight to an image row of its writes or of its read-back. -/
def Chip.setCommit (c : Chip) (j : CommitJob) : Chip := { c with dir := { c.dir with commit := some j } }

/-- Issue the access of the commit in flight (R148, R149). -/
def Chip.issueCommit (c : Chip) (j : CommitJob) : Chip :=
  if j.reading then (c.setCommit j).issue .commitReadBack (j.target.phys j.index) none
  else (c.setCommit j).issue .commitWrite (j.target.phys j.index) (some (c.dir.image.getD j.index []))

/-- A commit write completed with DONE: the next image row, or the read-back (R148, R149). -/
def Chip.commitWritten (c : Chip) : Chip :=
  match c.dir.commit with
  | none => c
  | some j =>
    if j.index + 1 < Config.imageRows then c.issueCommit { j with index := j.index + 1 }
    else c.issueCommit { j with index := 0, reading := true }

/-- A read-back read passes: no word UNCORRECTABLE, every word equal to the image buffer's (R149). -/
def Chip.readBackPasses (c : Chip) (j : CommitJob) (d : Delivered) : Bool :=
  decide (d.words = c.dir.image.getD j.index []) && d.outcomes.all (fun o => decide (o ≠ .uncorrectable))

end Sys2Proof.Machine
end

