-- ==== Sys2Proof/Machine/Spares.lean ====
section
/-! DEFINITION. The spare allocator and the map changes: allocation, tests of a spare, insert, retarget and retirement (R13 to R16, R101 to R107). -/

namespace Sys2Proof.Machine

/-! ## Allocation (R105, R106) -/

/-- The FREE spare of lowest index of a zone. -/
def Zone.firstFree (z : Zone) : Option Nat := z.spares.findIdx? fun st => decide (st = .free)

/-- The lender among zones given with their numbers: free above the reserve, most FREE spares first, then the
lowest number (R105). -/
def bestLender (reserve : Nat) : List (Nat × Nat) → Option (Nat × Nat)
  | [] => none
  | (g, free) :: rest =>
    match bestLender reserve rest with
    | none => if reserve < free then some (g, free) else none
    | some (g', free') => if reserve < free ∧ free' ≤ free then some (g, free) else some (g', free')

/-- The other zones of a zone's device with their free counts, by ascending number (R105). -/
def Chip.lenders (c : Chip) (home : Nat) : List (Nat × Nat) :=
  ((List.range 8).map fun i => 8 * (home / 8) + i).filterMap fun g =>
    if g = home then none else some (g, (c.zone g).free)

/-- The spare an allocation for a home zone chooses (R105). -/
def Chip.chooseSpare (c : Chip) (home : Nat) : Option SpareId :=
  match (c.zone home).firstFree with
  | some i => some (spareOf home i)
  | none =>
    if c.health.policy.borrow then
      match bestLender c.health.policy.lendReserve (c.lenders home) with
      | some (g, _) => ((c.zone g).firstFree).map (spareOf g)
      | none => none
    else none

/-- A chosen spare becomes TESTING in the same action, with the regrade its zone's free count calls for. -/
def Chip.takeSpare (c : Chip) (t : SpareId) : Chip := (c.setSpare t .testing).regradeDevice

/-- An allocation failed: ZONE_EXHAUSTED is raised once while the zone's mark is clear (R106). -/
def Chip.reportExhausted (c : Chip) (home : Nat) : Chip :=
  if (c.zone home).exhausted then c
  else (c.modifyZone home fun z => { z with exhausted := true }).raise (.zoneExhausted home)

/-- A test of a TESTING spare failed: it becomes BAD, dirty is set and SPARE_BAD is raised (R101, R103, R107). -/
def Chip.spoilSpare (c : Chip) (t : SpareId) : Chip :=
  ((c.setSpare t .bad).setDirty).raise (.spareBad t.globalZone t.index.val)

/-! ## Qualification patterns (R107) -/

/-- The word both patterns alternate with. -/
def patternRow (even odd : Word) : List Word := (List.range 32).map fun i => if i % 2 = 0 then even else odd

/-- The pattern of a qualification access: the checkerboard for the first two, its complement for the last two. -/
def qualificationPattern (k : Nat) : List Word :=
  if k < 2 then patternRow 0xAAAA 0x5555 else patternRow 0x5555 0xAAAA

/-- The data of a qualification access: writes are accesses 0 and 2 (R107). -/
def qualificationData (k : Nat) : Option (List Word) := if k % 2 = 0 then some (qualificationPattern k) else none

/-! ## Map changes (R13 to R16) -/

/-- A SPARED entry for a row whose target lies in another zone is counted, or uncounted, as lent and borrowed
(R13, R14, R103). -/
def Chip.countBorrow (c : Chip) (l : Nat) (t : SpareId) (f : Nat → Nat) : Chip :=
  if t.globalZone = homeZone l then c
  else
    (c.modifyZone t.globalZone fun z => { z with lentOut := f z.lentOut }).modifyZone (homeZone l)
      fun z => { z with borrowedIn := f z.borrowedIn }

/-- Place an entry in ascending order of logical row, replacing the entry of the same row (R9, R13, R14). -/
def placeEntry (e : RemapEntry) : List RemapEntry → List RemapEntry
  | [] => [e]
  | x :: rest =>
    if e.row < x.row then e :: x :: rest
    else if e.row = x.row then e :: rest
    else x :: placeEntry e rest

/-- Write an entry into the remap table with the current pass stamp. -/
def Chip.putEntry (c : Chip) (l : Nat) (place : Placement) (origin : Origin) : Chip :=
  { c with tr := { c.tr with
      remap := placeEntry { row := l, place, origin, stamp := c.pat.pass } c.tr.remap } }

/-- The old target of a row that leaves it: BAD, and no longer lent or borrowed (R14, R15). -/
def Chip.dropTarget (c : Chip) (l : Nat) (t : SpareId) : Chip := (c.setSpare t .bad).countBorrow l t (· - 1)

/-- One more map change, at most 16 (R16). -/
def Chip.countChange (c : Chip) : Chip :=
  { c with tr := { c.tr with changes := min Config.changeLimit (c.tr.changes + 1) } }

/-- Insert or retarget: the row's entry takes the new spare, which becomes IN_USE; an old target becomes BAD;
the change is counted and dirty set, all in one action (R13, R14). The patrol claim's mark is set and the pending
entry removed in the same action (R76, R113), the device regraded if that removal calls for it, and the count
going from 15 to 16 is a commit trigger (R16, log entry 24). The row is not RETIRED: R13 needs a row with no entry and R14 a
SPARED entry, and both requesters test for a RETIRED one in the same action and ask for no update then, so that it stays (R15;
R73 for write-repair, log entry 31 for a job). -/
def Chip.mapUpdate (c : Chip) (l : Nat) (t : SpareId) (origin : Origin) : Chip :=
  let c1 :=
    match c.lookup l with
    | .spared old => c.dropTarget l old
    | .home _ => c
    | .retired => c
  let c2 := ((((c1.putEntry l (.spared t) origin).setSpare t .inUse).countBorrow l t (· + 1)).countChange).setDirty
  let c3 := ((c2.removePending l).markPatrolClaim l).regradeDevice
  if c.tr.changes + 1 = Config.changeLimit then c3.trigger else c3

/-- The old target of a row became BAD at its map update (R14). -/
def Chip.isSpared (c : Chip) (l : Nat) : Bool :=
  match c.lookup l with
  | .spared _ => true
  | .home _ => false
  | .retired => false

/-- The row has a RETIRED entry. -/
def Chip.isRetired (c : Chip) (l : Nat) : Bool := decide (c.lookup l = .retired)

/-- A relocation completes: the map update, then the REPAIRED notice (R76, R113), after the regrade's GRADE_CHANGE by the model's
choice (R174, R177; log entry 15). -/
def Chip.relocateTo (c : Chip) (l : Nat) (t : SpareId) (origin : Origin) : Chip :=
  (c.mapUpdate l t origin).raise (.repaired l (homeZone l) t (c.isSpared l))

/-- The translator retires a row (R15), the tracker removing its pending entry in the same action (R78, R119):
the entry becomes RETIRED, an old spare BAD, the home zone's retired rows rise, and the device is regraded. A watch entry the
row still has goes as well, so that no RETIRED row is watched (R86, log entry 32). -/
def Chip.retireRow (c : Chip) (l : Nat) (origin : Origin) : Chip :=
  let c1 :=
    match c.lookup l with
    | .spared old => c.dropTarget l old
    | .home _ => c
    | .retired => c
  let c2 := ((((c1.putEntry l .retired origin).modifyZone (homeZone l)
    fun z => { z with retiredRows := z.retiredRows + 1 }).countChange).removeWatch l).setDirty
  let c3 := ((c2.removePending l).markPatrolClaim l).regradeDevice
  if c.tr.changes + 1 = Config.changeLimit then c3.trigger else c3

/-- How a retire request ends (R15). -/
inductive RetireAnswer where
  | retired | alreadyRetired | tableFull
  deriving DecidableEq, Repr

/-- The translator's answer to a retire request, with the requester's notice and the STUCK path (R15, R78, R119). That the regrade's
GRADE_CHANGE joins before the requester's notice is the model's choice (R174, R177; log entry 15). -/
def Chip.retireOrStick (c : Chip) (l : Nat) (origin : Origin) : Chip × RetireAnswer :=
  if c.isRetired l then (c, .alreadyRetired)
  else if Config.retiredLimit ≤ c.retiredCount then ((c.setStuck l).raise (.stuck l), .tableFull)
  else ((c.retireRow l origin).raise (.retired l), .retired)

end Sys2Proof.Machine
end

