-- ==== Sys2Proof/Machine/Format.lean ====
section
/-! DEFINITION. FORMAT ARRAY's phases, and the end of a commit, which FORMAT ARRAY may be waiting for (R149 to R151, R155, R162 to R167). -/

namespace Sys2Proof.Machine

/-! ## The emptying (R164) -/

/-- The patrol engine stops for a format (R134). The pace keeps its value. -/
def PatrolEngine.formatted (p : PatrolEngine) : PatrolEngine := { PatrolEngine.reset with pace := p.pace }

/-- The part's tables are emptied in one action, with the notices it raises (R164). -/
def Chip.emptyTables (c : Chip) : Chip :=
  let c1 : Chip :=
    { c with
      tr := { remap := [], changes := 0, repairClaim := none, patrolClaim := none }
      rep := { st := .idle, job := none, waiting := none }
      seq := { c.seq with repair := c.seq.repair.abandon, patrol := c.seq.patrol.abandon }
      alloc := { zones := freshZones c.devices }
      trk := { watch := List.replicate 64 none, pendingList := [] }
      health := { c.health with policy := Policy.default, queue := [], lost := false }
      pat := c.pat.formatted
      dir := { c.dir with dirty := false, commitRequest := false, commitTimer := none } }
  (c1.raise (.patrolStopped .format)).regradeDevice

/-! ## Phases (R162, R163, R165) -/

/-- Put the phase of the format in flight. -/
def Chip.setFormat (c : Chip) (f : Option FormatJob) : Chip := { c with dir := { c.dir with format := f } }

/-- The zero write to row 0 of a copy is issued (R163). -/
def Chip.invalidate (c : Chip) (k : Copy) : Chip :=
  (c.setFormat (some { phase := .invalidating k, ending := false })).issue .invalidatingWrite (k.phys 0) (some zeroRow)

/-- The invalidation begins: both copies are marked invalid and copy A's row 0 is written (R163). -/
def Chip.startInvalidation (c : Chip) : Chip := ((c.setCopy .a false 0).setCopy .b false 0).invalidate .a

/-- The physical row of a row initialisation write: device by device, rows 0 to 8,191 ascending (R165). -/
def initRow (k : Nat) : PhysRow := { device := k / Config.physicalRows, row := k % Config.physicalRows }

/-- Row initialisation write k is issued (R165). -/
def Chip.initialiseRow (c : Chip) (k : Nat) : Chip :=
  (c.setFormat (some { phase := .rowInit k, ending := false })).issueForeground .rowInit (initRow k) (some zeroRow)

/-- The format's commit of a copy, A with sequence 1 and B with sequence 2 (R166). -/
def Chip.formatCommit (c : Chip) (k : Copy) : Chip :=
  (c.setFormat (some { phase := .committing k, ending := false })).beginCommit k
    (match k with
      | .a => 1
      | .b => 2) true

/-- The format ends with its state, result and count of valid copies; the command ends in the same action (R166). -/
def Chip.endFormat (c : Chip) (st : OperatingState) (code : ResultCode) (copies : Nat) : Chip :=
  let c1 := (c.setFormat none).setOpState st
  if c1.cmd.work = .format then c1.endCommand code ⟨c1.cmd.results.r0, word copies, 0, 0⟩ else c1

/-- The tables have been emptied in this phase (R164). -/
def FormatPhase.emptied : FormatPhase → Bool
  | .waitCommit => false
  | .invalidating _ => false
  | .rowInit _ => true
  | .committing _ => true

/-- A commit in flight goes on at the array without effect (R167). -/
def Chip.detachCommit (c : Chip) : Chip :=
  { c with dir := { c.dir with commit := c.dir.commit.map fun j => { j with detached := true } } }

/-- A format in flight ends early by one action: both copies invalid, the emptying if it has not been, a commit in flight
left without effect, UNFORMATTED; RESULT0 holds the rows initialised (R167). With no format in flight there is none to end
(log entry 6). -/
def Chip.endFormatEarly (c : Chip) (code : ResultCode) : Chip :=
  match c.dir.format with
  | none => c
  | some f =>
    let c1 := (c.setCopy .a false 0).setCopy .b false 0
    let c2 := if f.phase.emptied then c1 else c1.emptyTables
    (c2.detachCommit).endFormat .unformatted code 0

/-- The format in flight has been asked to end at its next boundary, by STOP or by soft reset (R167). -/
def Chip.formatStops (c : Chip) : Bool :=
  c.cmd.stopRequest || (c.dir.format.map FormatJob.ending).getD false

/-- An invalidating write completed with DONE (R163, R164, R167). -/
def Chip.invalidated (c : Chip) : Chip :=
  match c.dir.format with
  | none => c
  | some f =>
    match f.phase with
    | .invalidating .a => if c.formatStops then c.endFormatEarly .aborted else c.invalidate .b
    | .invalidating .b => if c.formatStops then c.endFormatEarly .aborted else (c.emptyTables).initialiseRow 0
    | .waitCommit => c
    | .rowInit _ => c
    | .committing _ => c

/-- A row initialisation write completed with DONE (R165, R166, R167). -/
def Chip.rowInitialised (c : Chip) : Chip :=
  match c.dir.format with
  | none => c
  | some f =>
    match f.phase with
    | .rowInit k =>
      let c1 := c.setResult0 (k + 1)
      if c.formatStops then c1.endFormatEarly .aborted
      else if k + 1 < Config.physicalRows * c.devices then c1.initialiseRow (k + 1)
      else c1.formatCommit .a
    | .waitCommit => c
    | .invalidating _ => c
    | .committing _ => c

/-- A format waits for the commit in flight (R162). -/
def Chip.formatWaits (c : Chip) : Bool := (c.dir.format.map fun f => decide (f.phase = .waitCommit)).getD false

/-- FORMAT ARRAY accepted: FORMATTING, and the wait for a commit in flight or the invalidation (R162). -/
def Chip.startFormat (c : Chip) : Chip :=
  let c1 := (c.setOpState .formatting).setWork .format
  match c1.dir.mode with
  | .committing => c1.setFormat (some { phase := .waitCommit, ending := false })
  | .idle => c1.startInvalidation
  | .loading => c1.startInvalidation

/-! ## The end of a commit (R149 to R151, R155, R166, R167) -/

/-- The directory unit discards the image buffer and enters IDLE. -/
def Chip.closeCommit (c : Chip) : Chip := { c with dir := { c.dir with mode := .idle, commit := none, image := [] } }

/-- The operating state follows the valid flags (R151). -/
def Chip.settleState (c : Chip) : Chip := c.setOpState (if c.dir.validA && c.dir.validB then .ready else .degraded)

/-- A COMMIT DIRECTORY bound to the commit that ended ends with it (R152). -/
def Chip.endCommitCommand (c : Chip) (why : Option CommitFailure) : Chip :=
  match c.cmd.work with
  | .commitRun target seq =>
    match why with
    | none => c.endCommand .ok ⟨word target.code, seqHigh seq, seqLow seq, 0⟩
    | some w => c.endCommand .directoryFail ⟨word target.code, seqHigh seq, seqLow seq, word w.code⟩
  | .none | .transfer _ | .listing _ | .relocate _ | .patrolRestart | .patrolHalt | .commitWait | .format => c

/-- The request flag starts a further commit at once in READY or DEGRADED (R145). -/
def Chip.takeCommitRequest (c : Chip) : Chip :=
  if c.dir.commitRequest && c.inService then
    Chip.startCommit { c with dir := { c.dir with commitRequest := false } }
  else c

/-- A commit of the directory unit's own ends, by success (`none`) or by a failure (R149, R150). -/
def Chip.judgeCommit (c : Chip) (j : CommitJob) (why : Option CommitFailure) : Chip :=
  match why with
  | none => (c.setCopy j.target true j.seq).closeCommit
  | some w =>
    let c1 := ((c.setCopy j.target false 0).raise (.directoryFail j.target w)).closeCommit
    { c1 with dir := { c1.dir with dirty := true, commitTimer := startDelay c1.health.policy.commitDelay } }

/-- A commit of FORMAT ARRAY ends (R166). -/
def Chip.formatCommitEnds (c : Chip) (j : CommitJob) (why : Option CommitFailure) : Chip :=
  match why, j.target with
  | none, .a => ((c.setCopy .a true j.seq).closeCommit).formatCommit .b
  | none, .b => ((c.setCopy .b true j.seq).closeCommit).endFormat .ready .ok 2
  | some w, .a => ((c.raise (.directoryFail .a w)).closeCommit).endFormat .unformatted .directoryFail 0
  | some w, .b => ((c.raise (.directoryFail .b w)).closeCommit).endFormat .degraded .directoryFail 1

/-- The commit in flight ends. A commit left by a format that ended early changes nothing (R167); a format that
waits goes on to its invalidation (R155); otherwise the operating state, the waiting command and the request flag
follow in that order (R145, R151). -/
def Chip.commitEnds (c : Chip) (why : Option CommitFailure) : Chip :=
  match c.dir.commit with
  | none => c
  | some j =>
    if j.detached then
      if c.formatWaits then (c.closeCommit).startInvalidation else c.closeCommit
    else if j.ofFormat then c.formatCommitEnds j why
    else if c.formatWaits then (c.judgeCommit j why).startInvalidation
    else (((c.judgeCommit j why).settleState).endCommitCommand why).takeCommitRequest

/-- A commit read-back read completed with DONE (R149). -/
def Chip.commitReadBack (c : Chip) (d : Delivered) : Chip :=
  match c.dir.commit with
  | none => c
  | some j =>
    if c.readBackPasses j d then
      if j.index + 1 < Config.imageRows then c.issueCommit { j with index := j.index + 1 } else c.commitEnds none
    else c.commitEnds (some .verify)

end Sys2Proof.Machine
end

