-- ==== Sys2Proof/Machine/Patrol.lean ====
section
/-! DEFINITION. The patrol engine: visits, passes, stops and its three commands (Chapter 7). -/

namespace Sys2Proof.Machine

/-- Change the patrol engine. -/
def Chip.setPat (c : Chip) (p : PatrolEngine) : Chip := { c with pat := p }

/-- The patrol claim is emptied (R18). -/
def Chip.clearPatrolClaim (c : Chip) : Chip := { c with tr := { c.tr with patrolClaim := none } }

/-- A tally that counts to 255 and stays there (R123). -/
def tally (n : Nat) : Nat := min 255 (n + 1)

/-- The patrol stops: mode OFF, STOPPED, pace timer stopped, PATROL_STOPPED raised (R131, R132, R137). -/
def Chip.stopPatrol (c : Chip) (why : StopReason) : Chip :=
  (c.setPat { c.pat with mode := .off, st := .stopped, paceTimer := none }).raise (.patrolStopped why)

/-- The pass ends at the advance past the last logical row, in the order of R131. -/
def Chip.endPass (c : Chip) : Chip :=
  let c1 := c.setPat { c.pat with
    cursor := 0, lastPass := some { tallies := c.pat.tallies, complete := c.pat.whole }, pass := c.pat.pass + 1 }
  let c2 := (c1.ageWatch).raise (.passDone c.pat.pass)
  let c3 := c2.setPat { c2.pat with tallies := Tallies.zero, whole := true }
  match c3.pat.mode with
  | .single => c3.stopPatrol .singleDone
  | .continuous => c3
  | .off => c3

/-- The cursor advances (R131). -/
def Chip.advanceCursor (c : Chip) : Chip :=
  if c.pat.cursor + 1 < c.logicalRows then c.setPat { c.pat with cursor := c.pat.cursor + 1 } else c.endPass

/-- A visit of the cursor row begins at this physical row: claim, read issued, pace timer started (R126, R127). -/
def Chip.beginVisit (c : Chip) (p : PhysRow) : Chip :=
  let c1 : Chip :=
    { c with
      tr := { c.tr with patrolClaim := some { row := c.pat.cursor, overtaken := false } }
      pat := { c.pat with
        st := .visiting, intervalOut := decide (c.pat.pace = 0)
        paceTimer := if c.pat.pace = 0 then none else some c.pat.pace } }
  c1.issue .visitRead p none

/-- The patrol is ready to handle the cursor row: PACING with its interval run out and its slot empty (R127, R133). -/
def Chip.patrolReady (c : Chip) : Bool :=
  decide (c.pat.st = .pacing) && c.pat.intervalOut && decide (c.seq.patrol = .empty)

/-- The row is skipped: counted, and the cursor advances (R127). -/
def Chip.skipRow (c : Chip) : Chip :=
  (c.setPat { c.pat with tallies := { c.pat.tallies with skipped := tally c.pat.tallies.skipped } }).advanceCursor

/-- The cursor row is handled: skipped when RETIRED or under the repair claim, and then the next row at once,
or visited (R127). The number bounds the run of skipped rows (log entry 22). -/
def Chip.handleCursor : Nat → Chip → Chip
  | 0, c => c
  | n + 1, c =>
    if c.patrolReady then
      match (c.lookup c.pat.cursor).phys with
      | some p =>
        if claimHolds c.tr.repairClaim c.pat.cursor then Chip.handleCursor n c.skipRow else c.beginVisit p
      | none => Chip.handleCursor n c.skipRow
    else c

/-- The patrol goes on if it is ready: at most every RETIRED entry and the claimed row are skipped in a run. -/
def Chip.patrolOn (c : Chip) : Chip := c.handleCursor (c.tr.remap.length + 2)

/-! ## Commands that wait on the patrol (R135 to R137) -/

/-- The result registers of PATROL START and PATROL HALT (R135, R137). -/
def Chip.patrolResults (c : Chip) : Results := ⟨word c.pat.cursor, c.pat.pass, 0, 0⟩

/-- A waiting PATROL HALT ends with OK once the patrol is STOPPED (R137). -/
def Chip.endPatrolHalt (c : Chip) : Chip :=
  if c.cmd.work = .patrolHalt then c.endCommand .ok c.patrolResults else c

/-- A waiting PATROL START with RESTART ends with OK (R136). -/
def Chip.endPatrolRestart (c : Chip) : Chip :=
  if c.cmd.work = .patrolRestart then c.endCommand .ok c.patrolResults else c

/-- The pass begins again from row 0 under the same number, PACING with the interval run out (R135, R136). -/
def Chip.restartPass (c : Chip) : Chip :=
  c.setPat { c.pat with
    st := .pacing, cursor := 0, tallies := Tallies.zero, whole := true, restartRequest := false
    paceTimer := none, intervalOut := true }

/-! ## Visits (R128 to R130, R132) -/

/-- The tallies with one more visit of this row outcome (R130). -/
def Tallies.count (t : Tallies) (o : ReadOutcome) : Tallies :=
  match o with
  | .clean => { t with visited := t.visited + 1 }
  | .corrected => { t with visited := t.visited + 1, corrected := tally t.corrected }
  | .uncorrectable => { t with visited := t.visited + 1, unc := tally t.unc }

/-- A visit ends, as one action (R130), with the restart of R136 or the halt of R137 where one waits. -/
def Chip.endVisit (c : Chip) (o : ReadOutcome) : Chip :=
  let c0 := c.clearPatrolClaim
  if c0.pat.restartRequest then ((c0.restartPass).endPatrolRestart).patrolOn
  else
    let c1 := (c0.setPat { c0.pat with tallies := c0.pat.tallies.count o }).advanceCursor
    if c1.pat.st = .stopped then c1.endPatrolHalt
    else if c.pat.st = .halting then (c1.stopPatrol .halted).endPatrolHalt
    else (c1.setPat { c1.pat with st := .pacing }).patrolOn

/-- The visit's read completed with DONE: the report, and then the conditioned scrub or the visit's end (R128). -/
def Chip.visitRead (c : Chip) (p : PhysRow) (d : Delivered) : Chip :=
  let c1 := c.report { row := c.pat.cursor, phys := p, outcome := d.outcome, path := .patrol, readBack := false }
  match d.outcome with
  | .corrected => c1.issue .patrolScrub p (some d.words)
  | .clean => c1.endVisit .clean
  | .uncorrectable => c1.endVisit .uncorrectable

/-- A TIMEOUT on the visit's read or scrub stops the patrol (R132); a waiting restart is then carried out as on a
stopped patrol, with the mode it gave (R136). -/
def Chip.patrolTimeout (c : Chip) : Chip :=
  let c1 := (c.clearPatrolClaim).stopPatrol .timeout
  if c.pat.restartRequest then
    (((c1.setPat { c1.pat with mode := c.pat.mode }).restartPass).endPatrolRestart).patrolOn
  else c1.endPatrolHalt

/-- The pace timer runs out (R126); a timer that is stopped cannot (log entry 6). -/
def Chip.paceRunsOut (c : Chip) : Chip :=
  match c.pat.paceTimer with
  | none => c
  | some _ => (c.setPat { c.pat with paceTimer := none, intervalOut := true }).patrolOn

/-! ## Soft reset (R133) -/

/-- The visit in flight is abandoned: WAITING withdrawn, the completion of one IN_PROGRESS discarded. -/
def Chip.abandonVisit (c : Chip) : Chip :=
  { c.clearPatrolClaim with seq := { c.seq with patrol := c.seq.patrol.abandon } }

/-- The interval is set as run out in PACING (R133). -/
def Chip.paceNow (c : Chip) : Chip :=
  c.setPat { c.pat with st := .pacing, restartRequest := false, paceTimer := none, intervalOut := true }

/-- A soft reset reaches the patrol engine (R133). -/
def Chip.softResetPatrol (c : Chip) : Chip :=
  match c.pat.st with
  | .stopped => c
  | .pacing => (c.paceNow).patrolOn
  | .visiting => ((c.abandonVisit).paceNow).patrolOn
  | .halting =>
    let c1 := c.abandonVisit
    (c1.setPat { c1.pat with restartRequest := false }).stopPatrol .halted

/-! ## PATROL START, PATROL HALT, PATROL REPORT (R135 to R138) -/

/-- The mode a PATROL START parameter names (R135). -/
def patrolModeOf (w : Word) : Option PatrolMode :=
  if w = 1 then some .single else if w = 2 then some .continuous else none

/-- PATROL START has passed its checks (R135, R136). -/
def Chip.startPatrol (c : Chip) (mode : PatrolMode) (pace : Nat) (restart : Bool) : Chip :=
  let c1 := c.setPat { c.pat with mode := mode, pace := pace }
  match c.pat.st with
  | .stopped =>
    let c2 := if restart then c1.restartPass else c1.paceNow
    (c2.endCommand .ok c2.patrolResults).patrolOn
  | .pacing =>
    let c2 := if restart then c1.restartPass else c1
    (c2.endCommand .ok c2.patrolResults).patrolOn
  | .visiting | .halting =>
    let c2 := c1.setPat { c1.pat with st := .visiting }
    if restart then (c2.setPat { c2.pat with restartRequest := true }).setWork .patrolRestart
    else c2.endCommand .ok c2.patrolResults

/-- PATROL HALT (R137). -/
def Chip.haltPatrol (c : Chip) : Chip :=
  match c.pat.st with
  | .stopped => c.endCommand .ok c.patrolResults
  | .pacing =>
    let c1 := c.stopPatrol .halted
    c1.endCommand .ok c1.patrolResults
  | .visiting | .halting => (c.setPat { c.pat with st := .halting }).setWork .patrolHalt

/-- Result registers of PATROL REPORT part 0 (R138, Table 11-5). -/
def Chip.reportCurrent (c : Chip) : Results :=
  ⟨word (c.pat.mode.code + 16 * c.pat.st.code + 128 * bit c.pat.whole + 256 * c.pat.tallies.skipped),
   word c.pat.cursor, word c.pat.tallies.visited,
   word (c.pat.tallies.corrected + 256 * c.pat.tallies.unc)⟩

/-- Result registers of PATROL REPORT part 1 (R138, Table 11-5). -/
def Chip.reportLast (c : Chip) : Results :=
  match c.pat.lastPass with
  | none => ⟨c.pat.pass, absentWord, 0, 0⟩
  | some r =>
    ⟨c.pat.pass, word r.tallies.visited, word (r.tallies.skipped + 32768 * bit r.complete),
     word (r.tallies.corrected + 256 * r.tallies.unc)⟩

end Sys2Proof.Machine
end

