-- ==== Sys2Proof/Machine/Load.lean ====
section
/-! DEFINITION. Loading after power-on and RSTn: the reads of both copies, their validity, the choice of copy and the hand-over of its content (R141, R156 to R160, R182). -/

namespace Sys2Proof.Machine

/-! ## Reading a stored copy (section 11.5) -/

/-- A word of a copy as read, by image row and word. -/
def copyWord (rows : List (List Word)) (k i : Nat) : Word := (rows.getD k []).getD i 0

/-- The elements of a list of options, if all are present. -/
def allSome {α : Type} : List (Option α) → Option (List α)
  | [] => some []
  | none :: _ => none
  | some x :: rest => (allSome rest).map (x :: ·)

/-- The stored remap entry of slot i; none when a code names nothing, and for a SPARED entry whose target word is FFFFh, which
stands for no spare and so names none that is IN_USE (Table 11-6, section 11.2, R182, log entry 18). -/
def storedRemap (rows : List (List Word)) (i : Nat) : Option RemapEntry :=
  let w := fun k => copyWord rows (1 + i / 8) (4 * (i % 8) + k)
  match Origin.ofCode (field (w 2) 4 3) with
  | none => none
  | some origin =>
    if field (w 2) 0 2 = 1 then
      if w 1 = absentWord then none
      else some { row := (w 0).toNat, place := .spared (SpareId.unpack (w 1)), origin, stamp := w 3 }
    else if field (w 2) 0 2 = 2 then some { row := (w 0).toNat, place := .retired, origin, stamp := w 3 }
    else none

/-- The stored pending entry of slot i, with restarts 0; none when a code names nothing (Table 11-7, R98, R182). -/
def storedPending (rows : List (List Word)) (i : Nat) : Option PendingEntry :=
  let w := fun k => copyWord rows (81 + i / 8) (4 * (i % 8) + k)
  match Cause.ofCode (field (w 1) 0 2), Origin.ofCode (field (w 1) 4 3) with
  | some cause, some source =>
    some { row := (w 0).toNat, cause, source, added := w 2, starved := (w 1).getLsbD 8, stuck := (w 1).getLsbD 9, restarts := 0 }
  | none, _ => none
  | some _, none => none

/-- The stored zone of a global zone number; grade and mark are not stored (Table 11-13, R182). -/
def storedZone (rows : List (List Word)) (g : Nat) : Zone :=
  let w := fun k => copyWord rows (85 + g / 2) (16 * (g % 2) + k)
  { spares := (List.range 16).map fun i => SpareState.ofCode (field (w (i / 8)) (2 * (i % 8)) 2)
    lentOut := (w 5).toNat, borrowedIn := (w 6).toNat, retiredRows := (w 7).toNat, uncEvents := (w 8).toNat
    grade := .good, exhausted := false }

/-- A value in its range, or its default. -/
def orDefault (lo hi default n : Nat) : Nat := if lo ≤ n ∧ n ≤ hi then n else default

/-- The policy a copy holds, with out-of-range values and limits out of order replaced (R159, R169, log entry 18). -/
def storedPolicy (rows : List (List Word)) : Policy :=
  let w := copyWord rows 0
  let caution := orDefault 1 16 Policy.default.cautionLimit (field (w 8) 0 5)
  let critical := orDefault 0 15 Policy.default.criticalLimit (field (w 8) 8 5)
  let ordered : Bool := decide (field (w 8) 8 5 < field (w 8) 0 5) && decide (critical < caution)
  { watchThreshold := orDefault 2 15 Policy.default.watchThreshold (w 4).toNat
    forgetSpan := orDefault 1 15 Policy.default.forgetSpan (w 5).toNat
    lendReserve := orDefault 0 16 Policy.default.lendReserve (w 6).toNat
    borrow := (w 7).getLsbD 0, autoRepair := (w 7).getLsbD 1, scrubOnRead := (w 7).getLsbD 2
    cautionLimit := if ordered then caution else Policy.default.cautionLimit
    criticalLimit := if ordered then critical else Policy.default.criticalLimit
    commitDelay := orDefault 0 255 Policy.default.commitDelay (w 9).toNat }

/-- The content of a copy as its owners take it (R159, R182). -/
structure Loaded where
  seq         : BitVec 32
  devices     : Nat
  policy      : Policy
  mode        : PatrolMode
  pace        : Nat
  cursor      : Nat
  pass        : Word
  remap       : List RemapEntry
  pendingList : List PendingEntry
  zones       : List Zone
  deriving DecidableEq, Repr

/-- The patrol mode of a stored code; above 2 is taken as OFF (R182). -/
def PatrolMode.ofCode : Nat → PatrolMode
  | 1 => .single | 2 => .continuous | _ => .off

/-- The content of a copy, with counts above capacity taken as the capacity (R182). -/
def readContent (rows : List (List Word)) : Option Loaded :=
  let w := copyWord rows 0
  let entries := min Config.sparedLimit (w 14).toNat + min Config.retiredLimit (w 15).toNat
  match allSome ((List.range entries).map (storedRemap rows)),
      allSome ((List.range (min Config.pendingLimit (w 16).toNat)).map (storedPending rows)) with
  | some remap, some pendingList =>
    some
      { seq := w 1 ++ w 2, devices := (w 3).toNat, policy := storedPolicy rows
        mode := PatrolMode.ofCode (w 10).toNat, pace := min 255 (w 11).toNat, cursor := (w 12).toNat, pass := w 13
        remap, pendingList
        zones := (List.range 32).map fun g => if g < 8 * (w 3).toNat then storedZone rows g else Zone.absent }
  | none, _ => none
  | some _, none => none

/-! ## Breaches of a law (R182) -/

/-- Numbers in strictly ascending order. -/
def strictlyAscending : List Nat → Bool
  | [] => true
  | [_] => true
  | a :: b :: rest => decide (a < b) && strictlyAscending (b :: rest)

/-- No element repeats. -/
def noRepeats {α : Type} [DecidableEq α] : List α → Bool
  | [] => true
  | a :: rest => decide (a ∉ rest) && noRepeats rest

/-- The targets of the SPARED entries. -/
def sparedTargets (remap : List RemapEntry) : List SpareId :=
  remap.filterMap fun e =>
    match e.place with
    | .spared t => some t
    | .retired => none

/-- The spares stored IN_USE. -/
def inUseSpares (zones : List Zone) : List SpareId :=
  (zones.zipIdx.flatMap fun zg => zg.1.spares.zipIdx.filterMap fun si =>
    if si.1 = .inUse then some (spareOf zg.2 si.2) else none)

/-- The SPARED entries whose target lies in another zone than the row's home zone, as (target zone, home zone). -/
def borrowedPairs (remap : List RemapEntry) : List (Nat × Nat) :=
  remap.filterMap fun e =>
    match e.place with
    | .spared t => if t.globalZone = homeZone e.row then none else some (t.globalZone, homeZone e.row)
    | .retired => none

/-- A zone's stored counts agree with the remap entries (R182). -/
def zoneCountsAgree (remap : List RemapEntry) (z : Zone) (g : Nat) : Bool :=
  decide (z.lentOut = (borrowedPairs remap).countP fun p => decide (p.1 = g))
    && decide (z.borrowedIn = (borrowedPairs remap).countP fun p => decide (p.2 = g))
    && decide (z.retiredRows = remap.countP fun e => decide (e.place = .retired) && decide (homeZone e.row = g))

/-- The content breaks no law that the readings do not restore (R182). -/
def Loaded.lawful (l : Loaded) : Bool :=
  let limit := Config.rowsPerDevice * l.devices
  strictlyAscending (l.remap.map RemapEntry.row)
    && l.remap.all (fun e => decide (e.row < limit))
    && (sparedTargets l.remap).all (fun t => decide (t.device.val < l.devices)
        && decide ((l.zones.getD t.globalZone Zone.absent).spares[t.index.val]? = some .inUse))
    && noRepeats (sparedTargets l.remap)
    && (inUseSpares l.zones).all (fun t => decide (t ∈ sparedTargets l.remap))
    && noRepeats (l.pendingList.map PendingEntry.row)
    && l.pendingList.all (fun e => decide (e.row < limit)
        && !(l.remap.any fun x => decide (x.row = e.row) && decide (x.place = .retired))
        && (!e.starved || decide (e.cause ≠ .unc)) && (!e.stuck || decide (e.cause = .unc)))
    && decide (l.remap.countP (fun e => decide (e.place = .retired)) ≤ Config.retiredLimit)
    && decide ((sparedTargets l.remap).length ≤ Config.sparedLimit)
    && decide (l.seq ≠ 0)
    && l.zones.zipIdx.all (fun zg => decide (8 * l.devices ≤ zg.2) || zoneCountsAgree l.remap zg.1 zg.2)

/-! ## Validity and the choice of copy (R141, R158) -/

/-- The four tests of R141 on the rows of a copy, `readsOk` saying whether every read passed test 1. -/
def copyPasses (readsOk : Bool) (rows : List (List Word)) : Bool :=
  readsOk && decide (copyWord rows 0 0 = Config.layoutVersion)
    && decide (copyWord rows 0 1 = copyWord rows 101 0 ∧ copyWord rows 0 2 = copyWord rows 101 1)
    && decide (wordSum rows = 0)

/-- What a copy holds, if it is held valid at the load (R141, R158, R182). -/
def judgeCopy (readsOk : Bool) (rows : List (List Word)) : Option Loaded :=
  if copyPasses readsOk rows then
    match readContent rows with
    | some l => if l.lawful then some l else none
    | none => none
  else none

/-- The zones as taken by the allocator, graded under the loaded policy (R159). -/
def Loaded.gradedZones (l : Loaded) : List Zone :=
  l.zones.zipIdx.map fun zg =>
    if zg.2 < 8 * l.devices then { zg.1 with grade := zoneGrade l.policy zg.1.free } else zg.1

/-- The patrol engine as loaded (R125). -/
def Loaded.patrol (l : Loaded) (rows : Nat) : PatrolEngine :=
  { PatrolEngine.reset with
    mode := l.mode, pace := l.pace, pass := l.pass
    cursor := if l.cursor < rows then l.cursor else 0
    whole := decide ((if l.cursor < rows then l.cursor else 0) = 0)
    st := if l.mode = .off then .stopped else .pacing
    intervalOut := decide (l.mode ≠ .off) }

/-- The content of the chosen copy is handed to its owners as one action, with the grades computed and neither
GRADE_CHANGE nor the GRADE flag (R159); the watch table is empty, whatever copy is loaded (R91); then the patrol starts if
its mode is not OFF (R125). -/
def Chip.handOver (c : Chip) (l : Loaded) (st : OperatingState) : Chip :=
  let c1 : Chip :=
    { c with
      tr := { remap := l.remap, changes := 0, repairClaim := none, patrolClaim := none }
      trk := { watch := List.replicate 64 none, pendingList := l.pendingList }
      alloc := { zones := l.gradedZones }
      pat := l.patrol c.logicalRows
      health := { c.health with policy := l.policy } }
  let c2 : Chip := { c1 with health := { c1.health with grade := c1.computedGrade } }
  (c2.setOpState st).patrolOn

/-- The sequence a copy held valid keeps; 0 for an invalid copy (R142). -/
def seqOf (l : Option Loaded) : BitVec 32 := (l.map Loaded.seq).getD 0

/-- The 204th read has completed: the flags are settled, the newest copy chosen, and loading ends (R158 to R160). -/
def Chip.endLoad (c : Chip) : Chip :=
  let a := judgeCopy c.dir.loadOkA c.dir.loadBuffer
  let b0 := judgeCopy c.dir.loadOkB c.dir.image
  let b := if a.isSome ∧ seqOf a = seqOf b0 then none else b0
  let c1 := (c.setCopy .a a.isSome (seqOf a)).setCopy .b b.isSome (seqOf b)
  let c2 : Chip := { c1 with dir := { c1.dir with mode := .idle, image := [], loadBuffer := [] } }
  match (if seqOf a < seqOf b then b else a) with
  | none => c2.setOpState .unformatted
  | some l =>
    if l.devices = c.devices then c2.handOver l (if a.isSome && b.isSome then .ready else .degraded)
    else c2.setOpState .foreign

/-! ## The load reads (R157) -/

/-- The physical row of load read i: copy A's image rows, then copy B's (R157). -/
def loadPhys (i : Nat) : PhysRow :=
  if i < Config.imageRows then Copy.a.phys i else Copy.b.phys (i - Config.imageRows)

/-- Loading begins with its first read (R156). -/
def Chip.startLoading (c : Chip) : Chip := c.issue .loadRead (loadPhys 0) none

/-- A load read of LOADING has completed, with what it delivered or with a TIMEOUT (R157, log entry 27): its words enter
the buffer of its copy, and the next read is issued or the load ends. -/
def Chip.loadStep (c : Chip) (d : Option Delivered) : Chip :=
  let words := (d.map Delivered.words).getD zeroRow
  let ok := (d.map fun x => x.outcomes.all fun o => decide (o ≠ .uncorrectable)).getD false
  let c1 : Chip :=
    if c.dir.loadIndex < Config.imageRows then
      { c with dir := { c.dir with loadBuffer := c.dir.loadBuffer ++ [words], loadOkA := c.dir.loadOkA && ok } }
    else
      { c with dir := { c.dir with image := c.dir.image ++ [words], loadOkB := c.dir.loadOkB && ok } }
  if c.dir.loadIndex + 1 < 2 * Config.imageRows then
    Chip.issue { c1 with dir := { c1.dir with loadIndex := c.dir.loadIndex + 1 } } .loadRead (loadPhys (c.dir.loadIndex + 1)) none
  else c1.endLoad

/-- A load read has completed (R157). The directory unit makes load reads in LOADING alone, so one that completes in another
mode is no event of the load (log entry 6). -/
def Chip.loadRead (c : Chip) (d : Option Delivered) : Chip :=
  match c.dir.mode with
  | .loading => c.loadStep d
  | .idle | .committing => c

end Sys2Proof.Machine
end

