-- ==== Sys2Proof/Machine/Repair.lean ====
section
/-! DEFINITION. The repair engine: jobs from source to map update, overtaking, abandonment, the DISCARD no-spare path, and RELOCATE ROW (R108 to R120). -/

namespace Sys2Proof.Machine

/-! ## Write-repair's hold on allocation (R102) -/

/-- The phases in which a write-repair is in progress. -/
def RowPhase.writeRepair : RowPhase → Bool
  | .repairWait | .repairQualify | .repairData | .repairVerify | .inPlace | .readBack => true
  | .awaitSlot | .reading | .scrubbing | .offering _ | .dataIn | .writing => false

/-- A write-repair is in progress: from its first allocation request to the end of its handling of the row (R102). -/
def Chip.writeRepairActive (c : Chip) : Bool :=
  match c.cmd.work with
  | .transfer t => t.phase.writeRepair
  | .none | .listing _ | .relocate _ | .patrolRestart | .patrolHalt | .commitWait | .commitRun _ _ | .format => false

/-! ## The end of a job (R110, R111, R113 to R115, R118, R120) -/

/-- Result registers of RELOCATE ROW (R118). -/
def Chip.relocateResults (c : Chip) (l madeBad : Nat) : Results :=
  ⟨word (c.lookup l).code, (c.lookup l).targetWord, word madeBad, 0⟩

/-- The spare a job still holds returns to FREE. -/
def Chip.freeJobSpare (c : Chip) (j : Job) : Chip :=
  match j.spare with
  | some t => c.releaseSpare t
  | none => c

/-- The repair claim is emptied and the engine becomes IDLE; a COMMAND job still waiting stays so. -/
def Chip.idleRepair (c : Chip) : Chip :=
  { c with tr := { c.tr with repairClaim := none }, rep := { c.rep with st := .idle, job := none } }

/-- A job ends: a spare it holds returns to FREE, the claim is emptied, the engine is IDLE, and a COMMAND job's
command ends with the result, or with ABORTED once a STOP is pending (R118, R120, log entry 16). -/
def Chip.endJob (c : Chip) (j : Job) (code : ResultCode) : Chip :=
  let c1 := (c.freeJobSpare j).idleRepair
  if j.command then
    c1.endCommand (if c.cmd.stopRequest then .aborted else code) (c1.relocateResults j.row j.madeBad)
  else c1

/-- A job is abandoned: the restarts of its row's entry become 0 as well (R115). -/
def Chip.abandonJob (c : Chip) (j : Job) (code : ResultCode) : Chip := (c.setRestarts j.row 0).endJob j code

/-! ## Accesses of a job -/

/-- Put the job and the engine's state. -/
def Chip.putJob (c : Chip) (st : RepairState) (j : Job) : Chip := { c with rep := { c.rep with st := st, job := some j } }

/-- A STOP is pending for the job: STOP reaches COMMAND jobs alone (R120). -/
def Chip.jobStops (c : Chip) (j : Job) : Bool := j.command && c.cmd.stopRequest

/-- The next access of the job is issued, unless a STOP makes the engine abandon the job before it (R120). -/
def Chip.issueJob (c : Chip) (st : RepairState) (j : Job) (p : Purpose) (phys : PhysRow) (data : Option (List Word)) : Chip :=
  if c.jobStops j then c.abandonJob j .aborted else (c.putJob st j).issue p phys data

/-- COPY_WRITE: the job's data goes to the spare (R112). -/
def Chip.copyJob (c : Chip) (j : Job) (t : SpareId) : Chip := c.issueJob .copyWrite j .copyWrite t.phys j.data

/-! ## Moves between accesses -/

/-- The moves the engine makes between two accesses. -/
inductive RepairMove where
  /-- enter SOURCE_READ (R110) -/
  | source
  /-- enter ALLOCATE (R111) -/
  | allocate
  /-- the allocation request is served (R105, R111) -/
  | serve
  /-- the DISCARD no-spare path begins (R119) -/
  | noSpare
  /-- the job is overtaken (R114) -/
  | overtaken
  deriving DecidableEq, Repr

/-- With its data at hand the job goes to COPY_WRITE if it holds a qualified spare, otherwise to ALLOCATE (R110). -/
def Chip.withData (c : Chip) (j : Job) : Chip × Option (RepairMove × Job) :=
  match j.spare with
  | some t => (c.copyJob j t, none)
  | none => (c, some (.allocate, j))

/-- SOURCE_READ is entered: the four cases of R110. -/
def Chip.enterSource (c : Chip) (j : Job) : Chip × Option (RepairMove × Job) :=
  match (c.lookup j.row).phys, c.pendingOf j.row with
  | none, _ => (c.endJob j .retired, none)
  | some _, none => (c.endJob j .ok, none)
  | some p, some e =>
    if j.discard && decide (e.cause = .unc) then c.withData { j with data := some zeroRow }
    else (c.issueJob .sourceRead { j with discard := false } .sourceRead p none, none)

/-- ALLOCATE is entered: served at once, or held back by R102. -/
def Chip.enterAllocate (c : Chip) (j : Job) : Chip × Option (RepairMove × Job) :=
  if c.jobStops j then (c.abandonJob j .aborted, none)
  else if c.writeRepairActive || c.someTesting then (c.putJob .allocate j, none)
  else (c.putJob .allocate j, some (.serve, j))

/-- Allocation failed with NO_SPARE (R111). -/
def Chip.jobUnserved (c : Chip) (j : Job) : Chip × Option (RepairMove × Job) :=
  if c.isRetired j.row then (c.endJob j .retired, none)
  else
    match c.pendingOf j.row with
    | none => (c.endJob j .ok, none)
    | some e =>
      if j.discard then (c, some (.noSpare, j))
      else
        match e.cause with
        | .repeat | .host => (((c.setStarved j.row).setRestarts j.row 0).endJob j .noSpare, none)
        | .unc => ((c.setRestarts j.row 0).endJob j .noSpare, none)

/-- The allocation request is served (R105, R106, R111): QUALIFY begins, or NO_SPARE. -/
def Chip.serveJob (c : Chip) (j : Job) : Chip × Option (RepairMove × Job) :=
  match c.chooseSpare (homeZone j.row) with
  | some t =>
    ((c.takeSpare t).issueJob .qualify { j with spare := some t } (.qualification 0) t.phys (qualificationData 0), none)
  | none => (c.reportExhausted (homeZone j.row)).jobUnserved j

/-- The DISCARD no-spare path begins: the three cases of R119. -/
def Chip.enterNoSpare (c : Chip) (j : Job) : Chip × Option (RepairMove × Job) :=
  if claimMarked c.tr.repairClaim then (c, some (.overtaken, j))
  else
    match (c.lookup j.row).phys, c.pendingOf j.row with
    | some p, some e =>
      if e.cause = .unc then
        (((c.markPatrolClaim j.row).putJob .allocate j).issue .zeroWrite p (some zeroRow), none)
      else (c, some (.source, j))
    | some _, none => (c, some (.source, j))
    | none, _ => (c, some (.source, j))

/-- The repair claim is set to a row with its mark clear: at a job's start and when it is renewed (R18). -/
def Chip.setRepairClaim (c : Chip) (l : Nat) : Chip :=
  { c with tr := { c.tr with repairClaim := some { row := l, overtaken := false } } }

/-- The job is overtaken: restarted, or deferred after three restarts (R114). -/
def Chip.overtakeJob (c : Chip) (j : Job) : Chip × Option (RepairMove × Job) :=
  match c.pendingOf j.row with
  | none => (c, some (.source, j))
  | some e =>
    if e.restarts < Config.restartLimit then
      ((c.setRestarts j.row (e.restarts + 1)).setRepairClaim j.row, some (.source, j))
    else ((c.deferPending j.row).endJob j .deferred, none)

/-- One move. -/
def Chip.repairMove (c : Chip) (m : RepairMove) (j : Job) : Chip × Option (RepairMove × Job) :=
  match m with
  | .source => c.enterSource j
  | .allocate => c.enterAllocate j
  | .serve => c.serveJob j
  | .noSpare => c.enterNoSpare j
  | .overtaken => c.overtakeJob j

/-- Moves until an access is issued, the job waits or ends (log entry 22: eight moves always reach that point). -/
def Chip.repairRun : Nat → Chip × Option (RepairMove × Job) → Chip
  | _, (c, none) => c
  | 0, (c, some _) => c
  | n + 1, (c, some (m, j)) => Chip.repairRun n (c.repairMove m j)

/-- The engine goes on with this move. -/
def Chip.repairGo (c : Chip) (m : RepairMove) (j : Job) : Chip := Chip.repairRun 8 (c, some (m, j))

/-! ## Completions of a job's accesses (R107, R110, R112, R113, R119) -/

/-- A test of the job's spare failed: the spare is BAD and the job asks again with its data (R107, R112). -/
def Chip.failSpare (c : Chip) (j : Job) (t : SpareId) : Chip :=
  (c.spoilSpare t).repairGo .allocate { j with spare := none, madeBad := j.madeBad + 1 }

/-- The source read completed with DONE (R110). -/
def Chip.sourceRead (c : Chip) (j : Job) (p : PhysRow) (d : Delivered) : Chip :=
  let c1 := c.report { row := j.row, phys := p, outcome := d.outcome, path := j.origin, readBack := false }
  match d.outcome with
  | .uncorrectable => c1.abandonJob j .uncorrectable
  | .clean | .corrected => Chip.repairRun 8 (c1.withData { j with data := some d.words })

/-- Qualification access k completed with DONE (R107, R112); `d` is what a read delivered. -/
def Chip.qualified (c : Chip) (j : Job) (t : SpareId) (k : Nat) (d : Delivered) : Chip :=
  if k % 2 = 0 ∨ d.passes (qualificationPattern k) then
    if k < 3 then c.issueJob .qualify j (.qualification (k + 1)) t.phys (qualificationData (k + 1))
    else c.copyJob j t
  else c.failSpare j t

/-- The copy write completed with DONE: the mark is tested (R112, R20). -/
def Chip.copied (c : Chip) (j : Job) (t : SpareId) : Chip :=
  if claimMarked c.tr.repairClaim then c.repairGo .overtaken j
  else c.issueJob .verify j .verifyRead t.phys none

/-- The verify read completed with DONE: COMMIT_MAP with its test, or another spare (R112, R113). A row found RETIRED with the
mark clear has neither the insert of R13 nor the retarget of R14; its entry stays (R15), and the job ends without a map change,
as R110 and R111 give where they find the row RETIRED: the model's choice, log entry 31. -/
def Chip.verified (c : Chip) (j : Job) (t : SpareId) (d : Delivered) : Chip :=
  if d.passes (j.data.getD zeroRow) then
    if claimMarked c.tr.repairClaim then c.repairGo .overtaken j
    else if c.isRetired j.row then c.endJob j .retired
    else (c.relocateTo j.row t j.origin).endJob { j with spare := none } (if j.discard then .dataLost else .ok)
  else c.failSpare j t

/-- The zero write completed with DONE: its read-back is issued, whatever STOP says (R119, R120). -/
def Chip.zeroWritten (c : Chip) (p : PhysRow) : Chip := c.issue .zeroReadBack p none

/-- The zero read-back completed with DONE: the mark is tested in the same action, and the table of R119 follows;
a row found RETIRED already ends the job with RETIRED and no notice (log entry 20). -/
def Chip.zeroReadBack (c : Chip) (j : Job) (p : PhysRow) (d : Delivered) : Chip :=
  if claimMarked c.tr.repairClaim then c.repairGo .overtaken j
  else
    let c1 := c.report { row := j.row, phys := p, outcome := d.outcome, path := .write, readBack := true }
    match d.outcome with
    | .clean | .corrected => c1.endJob j .dataLost
    | .uncorrectable =>
      match c1.retireOrStick j.row .host with
      | (c2, .retired) => c2.endJob j .retired
      | (c2, .alreadyRetired) => c2.endJob j .retired
      | (c2, .tableFull) => c2.endJob j .noSpare

/-- The zero write completed with DROPPED (R119). -/
def Chip.zeroDropped (c : Chip) : Chip :=
  match c.rep.job with
  | some j => c.repairGo .overtaken j
  | none => c

/-- An access of the job completed with TIMEOUT (R115). -/
def Chip.repairTimeout (c : Chip) : Chip :=
  match c.rep.job with
  | some j => c.abandonJob j .arrayTimeout
  | none => c

/-! ## Starting a job (R109, R117) -/

/-- A job starts: the repair claim is set with its mark clear in the same action, and SOURCE_READ begins (R18, R109, R110). -/
def Chip.startJob (c : Chip) (j : Job) : Chip :=
  Chip.repairGo { c.setRepairClaim j.row with rep := { st := .sourceRead, job := some j, waiting := none } } .source j

/-- A COMMAND job at its start; its origin is HOST (R108). -/
def commandJob (l : Nat) (discard : Bool) : Job :=
  { row := l, command := true, discard, origin := .host, data := none, spare := none, madeBad := 0 }

/-- An AUTO job at its start; its origin is the source of the entry (R108). -/
def autoJob (e : PendingEntry) : Job :=
  { row := e.row, command := false, discard := false, origin := e.source, data := none, spare := none, madeBad := 0 }

/-- The waiting COMMAND job is withdrawn or turned away. -/
def Chip.dropWaiting (c : Chip) : Chip := { c with rep := { c.rep with waiting := none } }

/-- The waiting COMMAND job starts, with the test of its row (R117). -/
def Chip.startCommandJob (c : Chip) (l : Nat) (discard : Bool) : Chip :=
  if c.isRetired l then (c.dropWaiting).endCommand .retired (c.relocateResults l 0)
  else if (c.pendingOf l).isSome then c.startJob (commandJob l discard)
  else if c.pendingFull then (c.dropWaiting).endCommand .listFull (c.relocateResults l 0)
  else (c.addPending l .host .host).startJob (commandJob l discard)

/-- The entry auto repair takes: lowest index, cause REPEAT or HOST, STARVED clear (R109). -/
def Chip.autoEntry (c : Chip) : Option PendingEntry :=
  if c.health.policy.autoRepair then c.trk.pendingList.find? fun e => decide (e.cause ≠ .unc) && !e.starved else none

/-- The repair engine may start a job: READY or DEGRADED, IDLE, its slot empty (R109). -/
def Chip.repairReady (c : Chip) : Bool :=
  c.inService && decide (c.rep.st = .idle) && decide (c.seq.repair = .empty)

/-- The engine's tests for a job, in order (R109). -/
def Chip.jobStart (c : Chip) : Chip :=
  if c.repairReady then
    match c.rep.waiting with
    | some (l, discard) => c.startCommandJob l discard
    | none =>
      match c.autoEntry with
      | some e => c.startJob (autoJob e)
      | none => c
  else c

/-! ## Soft reset and STOP (R116, R120) -/

/-- A soft reset reaches the repair engine (R116). -/
def Chip.softResetRepair (c : Chip) : Chip :=
  let c1 : Chip := { c with seq := { c.seq with repair := c.seq.repair.abandon } }
  let c2 :=
    match c.rep.job with
    | some j => c1.freeJobSpare j
    | none => c1
  (((c2.idleRepair).dropWaiting).clearRestarts)

/-- The access of the running COMMAND job lets a STOP wait: one IN_PROGRESS, or the read-back of the no-spare path,
which runs with its write (R120, log entry 16). -/
def Slot.holdsStop : Slot → Bool
  | .empty => false
  | .waiting r => decide (r.purpose = .zeroReadBack)
  | .inProgress _ => true

/-- STOP while RELOCATE ROW runs; the stop request is set (R120). -/
def Chip.stopRelocate (c : Chip) (l : Nat) : Chip :=
  match c.rep.waiting, c.rep.job with
  | some _, _ => (c.dropWaiting).endCommand .aborted (c.relocateResults l 0)
  | none, some j =>
    if c.seq.repair.holdsStop then c
    else Chip.abandonJob { c with seq := { c.seq with repair := .empty } } j .aborted
  | none, none => c

end Sys2Proof.Machine
end

