-- ==== Sys2Proof/Machine/Transfer.lean ====
section
/-! DEFINITION. READ ROWS, WRITE ROWS and CHECK ROWS, with scrub on read and write-repair (R59 to R79). -/

namespace Sys2Proof.Machine

/-! ## Counting rows and ending the command (R59, R62, R64, R72) -/

/-- Put the transfer in progress. -/
def Chip.putTransfer (c : Chip) (t : Transfer) : Chip := c.setWork (.transfer t)

/-- The final result registers of a transfer command (R62). -/
def Transfer.results (t : Transfer) : Results :=
  ⟨word t.done,
   match t.firstFail with
     | some (r, _) => word r
     | none => absentWord,
   word t.fails, word t.extra⟩

/-- The result of a transfer command that ran to its end: the kind of the first failing row, or OK (R62). -/
def Transfer.code (t : Transfer) : ResultCode :=
  match t.firstFail with
  | some (_, k) => k
  | none => .ok

/-- The row is done: it is counted, as failing with its kind if it failed, and in RESULT3 if it counts there (R59, R62). -/
def Transfer.count (t : Transfer) (fail : Option ResultCode) (extra : Nat) : Transfer :=
  match fail with
  | none => { t with done := t.done + 1, extra := t.extra + extra, spare := none }
  | some k =>
    { t with
      done := t.done + 1, fails := t.fails + 1, extra := t.extra + extra, spare := none
      firstFail := if t.firstFail.isNone then some (t.row, k) else t.firstFail }

/-- The command ends (R62). -/
def Chip.endTransfer (c : Chip) (t : Transfer) (code : ResultCode) : Chip := c.endCommand code t.results

/-- A spare write-repair holds returns to FREE. -/
def Chip.freeTransferSpare (c : Chip) (t : Transfer) : Chip :=
  match t.spare with
  | some s => c.releaseSpare s
  | none => c

/-- The command ends during a row: a spare it holds returns to FREE and the row is not done (R59, R74, R75, R79). -/
def Chip.cutTransfer (c : Chip) (t : Transfer) (code : ResultCode) : Chip := (c.freeTransferSpare t).endTransfer t code

/-! ## Rows (R60, R63, R68, R69) -/

/-- READ ROWS offers a row (R63). -/
def Chip.offerRow (c : Chip) (t : Transfer) (k : RowKind) (ws : List Word) : Chip :=
  (c.putTransfer { t with phase := .offering k }).offer ws

/-- What a row counts as (R64). -/
def RowKind.fail : RowKind → Option ResultCode
  | .seen .clean => none
  | .seen .corrected => none
  | .seen .uncorrectable => some .uncorrectable
  | .retired => some .retired

/-- What a row adds to RESULT3 of READ ROWS and CHECK ROWS (R64). -/
def RowKind.extra : RowKind → Nat
  | .seen .clean => 0
  | .seen .corrected => 1
  | .seen .uncorrectable => 0
  | .retired => 0

/-- The read of a row is issued, or waits until a discarded completion has freed the slot (R53, log entry 21). -/
def Chip.readRow (c : Chip) (t : Transfer) (purpose : Purpose) (p : PhysRow) : Chip :=
  match c.seq.foreground with
  | .empty => (c.putTransfer { t with phase := .reading }).issue purpose p none
  | .waiting _ | .inProgress _ => c.putTransfer { t with phase := .awaitSlot }

/-- Row `t.row` is begun: READ ROWS and CHECK ROWS look it up, WRITE ROWS asks the host for its words (R60, R63,
R68, R69). A RETIRED row of CHECK ROWS is done at its lookup and the next is begun; a run has at most 256 rows. -/
def Chip.beginRow : Nat → Chip → Transfer → Chip
  | 0, c, t => c.putTransfer t
  | n + 1, c, t =>
    match t.kind with
    | .write => (c.putTransfer { t with phase := .dataIn }).askRow
    | .read =>
      match (c.lookup t.row).phys with
      | some p => c.readRow t .readRowsRead p
      | none => c.offerRow t .retired zeroRow
    | .check =>
      match (c.lookup t.row).phys with
      | some p => c.readRow t .checkRowsRead p
      | none =>
        let t1 := t.count (some .retired) 0
        let c1 := c.setResult0 t1.done
        if t1.row < t1.last then Chip.beginRow n c1 { t1 with row := t1.row + 1 } else c1.endTransfer t1 t1.code

/-- The row is done: RESULT0 rises; the command ends by STOP or after the last row, or begins the next row
(R59, R62, R66, R71, R79). -/
def Chip.rowDone (c : Chip) (t : Transfer) (fail : Option ResultCode) (extra : Nat) : Chip :=
  let t1 := t.count fail extra
  let c1 := c.setResult0 t1.done
  if c.cmd.stopRequest then c1.endTransfer t1 .aborted
  else if t1.row < t1.last then c1.beginRow 256 { t1 with row := t1.row + 1 }
  else c1.endTransfer t1 t1.code

/-! ## READ ROWS and CHECK ROWS (R61, R63, R65, R66, R68) -/

/-- The path of a transfer's reports (R61). -/
def TransferKind.path : TransferKind → Origin
  | .read => .read
  | .check => .check
  | .write => .write

/-- The row has been read and its scrub made or withheld: READ ROWS offers it, or ends there with a STOP pending (R66);
CHECK ROWS is done with it, STOP pending or not (R68), and a STOP then ends it at this row boundary (R52). -/
def Chip.rowRead (c : Chip) (t : Transfer) (o : ReadOutcome) (ws : List Word) : Chip :=
  match t.kind with
  | .read => if c.cmd.stopRequest then c.cutTransfer t .aborted else c.offerRow t (.seen o) ws
  | .check | .write => c.rowDone t (RowKind.seen o).fail (RowKind.seen o).extra

/-- A CORRECTED row is scrubbed: the policy allows it, the second lookup still gives the row read, and the repair
claim does not hold it (R65). -/
def Chip.scrubs (c : Chip) (l : Nat) (p : PhysRow) (o : ReadOutcome) : Bool :=
  decide (o = .corrected) && c.health.policy.scrubOnRead && decide ((c.lookup l).phys = some p)
    && !claimHolds c.tr.repairClaim l

/-- The row's read completed with DONE (R61, R63, R65, R66, R68). With a STOP pending a scrub that is due is not issued and
the row is not done. -/
def Chip.transferRead (c : Chip) (t : Transfer) (p : PhysRow) (d : Delivered) : Chip :=
  let c1 := c.report { row := t.row, phys := p, outcome := d.outcome, path := t.kind.path, readBack := false }
  if c1.scrubs t.row p d.outcome then
    if c1.cmd.stopRequest then c1.cutTransfer t .aborted
    else (c1.putTransfer { t with phase := .scrubbing }).issue .scrubWrite p (some d.words)
  else c1.rowRead t d.outcome d.words

/-- The scrub completed with DONE (R65, R66, R68); `ws` are the words it wrote. -/
def Chip.scrubbed (c : Chip) (t : Transfer) (ws : List Word) : Chip := c.rowRead t .corrected ws

/-! ## WRITE ROWS (R69 to R71) -/

/-- A foreground write lookup and its write of the buffer's words (R19, R70, R75, R77). -/
def Chip.hostWrite (c : Chip) (t : Transfer) (phase : RowPhase) (purpose : Purpose) (p : PhysRow) : Chip :=
  ((c.markClaims t.row).putTransfer { t with phase }).issueForeground purpose p (some c.bus.buffer)

/-- The no-spare path: the data is written in place (R77); a row found RETIRED ends there (R73). -/
def Chip.writeInPlace (c : Chip) (t : Transfer) : Chip :=
  match (c.lookup t.row).phys with
  | some p => c.hostWrite t .inPlace .inPlaceWrite p
  | none => c.rowDone t (some .retired) 0

/-- Qualification access k of write-repair is issued (R74, R107). -/
def Chip.qualifyForWrite (c : Chip) (t : Transfer) (s : SpareId) (k : Nat) : Chip :=
  (c.putTransfer { t with phase := .repairQualify, spare := some s }).issueForeground (.repairQualify k) s.phys
    (qualificationData k)

/-- Write-repair's allocation request is served (R73, R105, R106). -/
def Chip.allocateForWrite (c : Chip) (t : Transfer) : Chip :=
  match c.chooseSpare (homeZone t.row) with
  | some s => (c.takeSpare s).qualifyForWrite t s 0
  | none => (c.reportExhausted (homeZone t.row)).writeInPlace t

/-- Write-repair begins; it waits while a spare is TESTING (R73). -/
def Chip.beginWriteRepair (c : Chip) (t : Transfer) : Chip :=
  if c.someTesting then c.putTransfer { t with phase := .repairWait } else c.allocateForWrite t

/-- The row whose 32 words have arrived is classified (R69). -/
def Chip.classify (c : Chip) (t : Transfer) : Chip :=
  match (c.lookup t.row).phys with
  | none => c.rowDone t (some .retired) 0
  | some p => if c.pendingUnc t.row then c.beginWriteRepair t else c.hostWrite t .writing .ordinaryWrite p

/-- The ordinary write completed with DONE (R70, R71). -/
def Chip.written (c : Chip) (t : Transfer) : Chip := c.rowDone t none 0

/-! ## Write-repair (R73 to R79) -/

/-- A test of write-repair's spare failed: the spare is BAD; write-repair allocates again, or ends by STOP (R74, R75, R79). -/
def Chip.failWriteSpare (c : Chip) (t : Transfer) (s : SpareId) : Chip :=
  if c.cmd.stopRequest then (c.spoilSpare s).endTransfer t .aborted
  else (c.spoilSpare s).allocateForWrite { t with spare := none }

/-- Write-repair ends for a row found RETIRED: its spare returns to FREE (R73). -/
def Chip.writeFoundRetired (c : Chip) (t : Transfer) : Chip := (c.freeTransferSpare t).rowDone t (some .retired) 0

/-- The data write to the qualified spare, under a fresh foreground write lookup (R75). -/
def Chip.writeToSpare (c : Chip) (t : Transfer) (s : SpareId) : Chip :=
  if c.isRetired t.row then c.writeFoundRetired t else c.hostWrite t .repairData .repairDataWrite s.phys

/-- Qualification access k completed with DONE (R74); `d` is what a read delivered. -/
def Chip.writeQualified (c : Chip) (t : Transfer) (s : SpareId) (k : Nat) (d : Delivered) : Chip :=
  if k % 2 = 0 ∨ d.passes (qualificationPattern k) then
    if c.cmd.stopRequest then c.cutTransfer t .aborted
    else if k < 3 then c.qualifyForWrite t s (k + 1)
    else c.writeToSpare t s
  else c.failWriteSpare t s

/-- The data write to the spare completed with DONE (R75, R79). -/
def Chip.spareWritten (c : Chip) (t : Transfer) (s : SpareId) : Chip :=
  if c.cmd.stopRequest then c.cutTransfer t .aborted
  else (c.putTransfer { t with phase := .repairVerify }).issue .repairVerify s.phys none

/-- The verify read completed with DONE: the map update, whatever STOP says, or another spare (R75, R76, R79). -/
def Chip.spareVerified (c : Chip) (t : Transfer) (s : SpareId) (d : Delivered) : Chip :=
  if d.passes c.bus.buffer then
    if c.isRetired t.row then c.writeFoundRetired t
    else (c.relocateTo t.row s .write).rowDone { t with spare := none } none 1
  else c.failWriteSpare t s

/-- The in-place write completed with DONE: its read-back is issued, whatever STOP says (R77, R79). -/
def Chip.writtenInPlace (c : Chip) (t : Transfer) (p : PhysRow) : Chip :=
  (c.putTransfer { t with phase := .readBack }).issue .readBack p none

/-- The read-back of the no-spare path completed with DONE (R77, R78). -/
def Chip.writeReadBack (c : Chip) (t : Transfer) (p : PhysRow) (d : Delivered) : Chip :=
  let c1 := c.report { row := t.row, phys := p, outcome := d.outcome, path := .write, readBack := true }
  match d.outcome with
  | .clean | .corrected => c1.rowDone t none 0
  | .uncorrectable =>
    match c1.retireOrStick t.row .write with
    | (c2, .retired) => c2.rowDone t (some .retired) 0
    | (c2, .alreadyRetired) => c2.rowDone t (some .retired) 0
    | (c2, .tableFull) => c2.rowDone t (some .noSpare) 0

/-! ## STOP and soft reset (R66, R71, R79, R53) -/

/-- A WAITING request of the transfer is withdrawn by STOP; the read-back of the no-spare path runs with its write
(R79, log entry 16). -/
def Slot.withdrawnByStop : Slot → Bool
  | .empty => false
  | .waiting r => decide (r.purpose ≠ .readBack)
  | .inProgress _ => false

/-- STOP while a transfer command runs; the stop request is set (R52, R66, R71, R79). A command accepted after a soft reset
that still waits for the discarded access to free the foreground slot (phase awaitSlot, or a request held) ends with ABORTED
at once: the spec does not say whether that stop is taken at once or when the completion arrives, and this is the model's
choice (log entry 30). -/
def Chip.stopTransfer (c : Chip) (t : Transfer) : Chip :=
  match t.phase with
  | .offering _ | .dataIn | .awaitSlot | .repairWait => c.cutTransfer t .aborted
  | .reading | .scrubbing | .writing | .repairQualify | .repairData | .repairVerify | .inPlace | .readBack =>
    if c.cmd.held.isSome then c.cutTransfer t .aborted
    else if c.seq.foreground.withdrawnByStop then
      Chip.cutTransfer { c with seq := { c.seq with foreground := .empty } } t .aborted
    else c

end Sys2Proof.Machine
end

