-- ==== Sys2Proof/Machine/Lists.lean ====
section
/-! DEFINITION. The list commands, QUERY ROW and NOMINATE ROW (R51, R80, R99, R100, R121, R122). -/

namespace Sys2Proof.Machine

/-! ## Collections and fills (R51, R100, R121, R122) -/

/-- The watch records, by ascending slot (R100). -/
def watchRecords (watch : List (Option WatchEntry)) : List (List Word) :=
  watch.zipIdx.filterMap fun p => p.1.map fun e => e.record p.2

/-- The records of a collection as it stands (R100, R121, R122). -/
def Chip.records (c : Chip) : ListKind → List (List Word)
  | .map => c.tr.remap.map RemapEntry.record
  | .pending => c.trk.pendingList.map fun e => e.record e.restarts
  | .watch => watchRecords c.trk.watch
  | .zones => (List.range 32).map fun g => (c.zone g).record g

/-- Records a fill holds (R51). -/
def ListKind.capacity : ListKind → Nat
  | .zones => 4
  | .map | .pending | .watch => 8

/-- The records of the next fill (R100). -/
def Chip.fillRecords (c : Chip) (l : Listing) : List (List Word) :=
  ((c.records l.kind).drop l.index).take (min l.kind.capacity l.want)

/-- A fill: records from word 0 upward, unused slots FFFFh (R51). -/
def fillWords (rs : List (List Word)) : List Word := rs.flatten ++ List.replicate (32 - rs.flatten.length) absentWord

/-- The result registers of a list command (R100, R121, R122). -/
def Chip.listResults (c : Chip) (l : Listing) : Results :=
  match l.kind with
  | .map => ⟨word l.delivered, word c.tr.remap.length, word c.sparedCount, word c.retiredCount⟩
  | .pending => ⟨word l.delivered, word c.trk.pendingList.length, 0, 0⟩
  | .watch => ⟨word l.delivered, word (c.records .watch).length, 0, 0⟩
  | .zones => ⟨word l.delivered, word (8 * c.devices), 0, 0⟩

/-- The next fill is made and offered, or the command ends with OK (R100). -/
def Chip.nextFill (c : Chip) (l : Listing) : Chip :=
  if c.fillRecords l = [] then c.endCommand .ok (c.listResults l)
  else
    (c.setWork (.listing { l with fill := (c.fillRecords l).length })).offer (fillWords (c.fillRecords l))

/-- The fill on offer has been read: its records are delivered (R100). -/
def Chip.fillRead (c : Chip) (l : Listing) : Chip :=
  c.nextFill { l with index := l.index + l.fill, want := l.want - l.fill, delivered := l.delivered + l.fill, fill := 0 }

/-- A list command with this start index and count begins (R100). -/
def Chip.startListing (c : Chip) (kind : ListKind) (start count : Nat) : Chip :=
  c.nextFill { kind, index := start, want := count, delivered := 0, fill := 0 }

/-! ## QUERY ROW (R80) -/

/-- The result registers of QUERY ROW. -/
def Chip.queryResults (c : Chip) (l : Nat) : Results :=
  ⟨word (c.lookup l).code, (c.lookup l).targetWord,
   match c.pendingOf l with
     | some e => e.flagsWord e.restarts
     | none => absentWord,
   match c.watchOf l with
     | some e => word e.count
     | none => 0⟩

/-! ## NOMINATE ROW (R99) -/

/-- The index of a row's pending entry, FFFFh when it has none. -/
def Chip.pendingIndexWord (c : Chip) (l : Nat) : Word :=
  match c.trk.pendingList.findIdx? fun e => decide (e.row = l) with
  | some i => word i
  | none => absentWord

/-- NOMINATE ROW ends with a result; RESULT1 is an index for OK and ALREADY (R99). -/
def Chip.endNominate (c : Chip) (code : ResultCode) (index : Word) : Chip :=
  c.endCommand code ⟨word c.trk.pendingList.length, index, 0, 0⟩

/-- NOMINATE ROW, by the tests of R99 in order. -/
def Chip.nominate (c : Chip) (l : Nat) : Chip :=
  if c.isRetired l then c.endNominate .retired absentWord
  else if (c.pendingOf l).isSome then c.endNominate .already (c.pendingIndexWord l)
  else if c.pendingFull then c.endNominate .listFull absentWord
  else
    let c1 := c.addPending l .host .host
    c1.endNominate .ok (c1.pendingIndexWord l)

end Sys2Proof.Machine
end

