-- ==== Sys2Proof/Machine/Access.lean ====
section
/-! DEFINITION. The end of an access: the slot freed, the next grant, the completion delivered, and what a timeout or a cut-off write leaves in the array (R26, R28, R31 to R36). -/

namespace Sys2Proof.Machine

/-! ## Settling the port (R26, R28) -/

/-- A completion with DROPPED is delivered to its requester (R28, R119, R129). -/
def Chip.dropped (c : Chip) (p : Purpose) : Chip :=
  match p with
  | .patrolScrub => c.endVisit .corrected
  | .zeroWrite => c.zeroDropped
  | .readRowsRead | .checkRowsRead | .scrubWrite | .ordinaryWrite | .repairQualify _ | .repairDataWrite
  | .repairVerify | .inPlaceWrite | .readBack | .rowInit | .loadRead | .commitWrite | .commitReadBack
  | .invalidatingWrite | .sourceRead | .qualification _ | .copyWrite | .verifyRead | .zeroReadBack | .visitRead => c

/-- The last act of a step: an idle port grants the highest WAITING request, and a request that leaves its slot with
DROPPED is told to its requester, whose next request takes part in the next grant (log entries 9, 22). -/
def Chip.settle : Nat → Chip → Chip
  | 0, c => c
  | n + 1, c =>
    match c.seq.current with
    | some _ => c
    | none =>
      if (c.grant 4).2 = [] then (c.grant 4).1
      else Chip.settle n ((c.grant 4).2.foldl Chip.dropped (c.grant 4).1)

/-- A step of the part alone: the chip acts, then the port settles; array and queue are as they were. -/
def State.onChip (s : State) (f : Chip → Chip) : State := { s with toChip := (f s.toChip).settle 8 }

/-! ## Completions (R33, R53, R116, R133) -/

/-- The row initialisation in progress has been asked to end by a soft reset, and its write was the access discarded:
the row boundary of R167. A format in its invalidation ends at its own row 0 write, not here. -/
def Chip.initialisationEnds (c : Chip) : Bool :=
  match c.dir.format with
  | none => false
  | some f =>
    match f.phase with
    | .rowInit _ => f.ending
    | .waitCommit | .invalidating _ | .committing _ => false

/-- A completion whose requester has abandoned the work: it is discarded, and its slot is free again. A prepared write
that waited for the slot enters it, and a command that waited for it makes its first request (R53); a row
initialisation asked to end by soft reset ends at this boundary (R167); the patrol that waited for its slot goes on
(R133). -/
def Chip.discarded (c : Chip) (k : AccessClass) : Chip :=
  match k with
  | .foreground =>
    match c.cmd.held, c.cmd.work with
    | some r, _ => Chip.putSlot { c with cmd := { c.cmd with held := none } } .foreground (.waiting r)
    | none, .transfer t => if t.phase = .awaitSlot then c.beginRow 256 t else c
    | none, .none | none, .listing _ | none, .relocate _ | none, .patrolRestart | none, .patrolHalt
    | none, .commitWait | none, .commitRun _ _ | none, .format =>
      if c.initialisationEnds then c.endFormatEarly .aborted else c
  | .patrol => c.patrolOn
  | .directory | .repair => c

/-- An access ends: its slot is emptied and the timer stopped. The next grant is made, a request it finds DROPPED is told
to its requester at once (R28), then the completion is delivered and the port settles (R26, R33, log entry 9). A completion
that is discarded frees its slot before the grant, so that a host write held for the slot is granted ahead of a read that
a claim taken later asks for (R19, R53, log entry 21). -/
def Chip.finishAccess (c : Chip) (k : AccessClass) (r : Request) (act : Chip → Chip) : Chip :=
  let c1 : Chip := { c with seq := { c.seq.put k .empty with readyTimer := false } }
  if r.abandoned then (c1.discarded k).settle 8
  else (act ((c1.grant 4).2.foldl Chip.dropped (c1.grant 4).1)).settle 8

/-- What an access that completes with DONE leaves in the array (R29, R30). -/
def Memory.afterDone (m : Memory) (r : Request) : Memory :=
  match r.data with
  | some ws => m.write r.phys ws
  | none => m

/-- What a write that did not complete leaves in the array, if its row exists (R32, R36). -/
def Memory.afterCut (m : Memory) (n : Nat) (r : Request) (left : RowPatch) : Memory :=
  match r.data with
  | some _ => if r.phys.inArray n then m.tear r.phys left else m
  | none => m

/-- A completion with DONE of the access in progress, for a row of the table that covers its purpose. `act` is the
requester's handling; `flips` are the stored bits a read finds changed (R7, R24). The event of another access than
the one in progress does not occur (log entry 6). -/
def State.complete (s : State) (covers : Purpose → Bool) (flips : RowPatch)
    (act : Request → Delivered → Chip → Chip) : Host.Outcome State Fault Refusal :=
  match s.seq.current with
  | none => .next s
  | some (k, r) =>
    if covers r.purpose then
      if r.phys.inArray s.devices then
        .next { s with
          toChip := s.toChip.finishAccess k r (act r (s.array.deliver r.phys flips))
          array := s.array.afterDone r }
      else .fault .noSuchRow
    else .next s

/-! ## Handlers that need the work in progress -/

/-- Act on the transfer in progress. -/
def Chip.onTransfer (c : Chip) (f : Chip → Transfer → Chip) : Chip :=
  match c.cmd.work with
  | .transfer t => f c t
  | .none | .listing _ | .relocate _ | .patrolRestart | .patrolHalt | .commitWait | .commitRun _ _ | .format => c

/-- Act on the transfer in progress and the spare its write-repair holds. -/
def Chip.onWriteRepair (c : Chip) (f : Chip → Transfer → SpareId → Chip) : Chip :=
  c.onTransfer fun c t =>
    match t.spare with
    | some s => f c t s
    | none => c

/-- Act on the job in flight. -/
def Chip.onJob (c : Chip) (f : Chip → Job → Chip) : Chip :=
  match c.rep.job with
  | some j => f c j
  | none => c

/-- Act on the job in flight and the spare it holds. -/
def Chip.onJobSpare (c : Chip) (f : Chip → Job → SpareId → Chip) : Chip :=
  c.onJob fun c j =>
    match j.spare with
    | some t => f c j t
    | none => c

/-! ## Timeouts (R31, R32, R67, R71, R74, R75, R77, R115, R132, R149, R157, R166, R167) -/

/-- A completion with TIMEOUT is delivered to its requester. -/
def Chip.timedOut (c : Chip) (p : Purpose) : Chip :=
  match p with
  | .readRowsRead | .checkRowsRead | .scrubWrite | .ordinaryWrite | .repairQualify _ | .repairDataWrite
  | .repairVerify | .inPlaceWrite | .readBack => c.onTransfer fun c t => c.cutTransfer t .arrayTimeout
  | .rowInit | .invalidatingWrite => c.endFormatEarly .arrayTimeout
  | .loadRead => c.loadRead none
  | .commitWrite | .commitReadBack => c.commitEnds (some .timeout)
  | .sourceRead | .qualification _ | .copyWrite | .verifyRead | .zeroWrite | .zeroReadBack => c.repairTimeout
  | .visitRead | .patrolScrub => c.patrolTimeout

/-- The ready timer expires in a ready wait (R31, R32): `second` for the second ready wait of a write, after its
program strobe. A stopped timer does not expire. -/
def State.readyExpires (s : State) (second : Bool) (left : RowPatch) : State :=
  match s.seq.current with
  | none => s
  | some (k, r) =>
    if s.seq.readyTimer then
      { s with
        toChip := s.toChip.finishAccess k r (fun c => c.timedOut r.purpose)
        array := if second then s.array.afterCut s.devices r left else s.array }
    else s

/-- The array after the access in progress is cut off by RSTn or loss of supply (R36). -/
def State.cutArray (s : State) (left : RowPatch) : Memory :=
  match s.seq.current with
  | none => s.array
  | some (_, r) => s.array.afterCut s.devices r left

/-! ## Allocation served later (R73, R102, log entry 10) -/

/-- The job waiting in ALLOCATE is served (R102, R111). -/
def Chip.serveWaitingJob (c : Chip) : Chip :=
  match c.rep.job with
  | some j => if c.rep.st = .allocate ∧ c.seq.repair = .empty ∧ ¬ c.someTesting then c.repairGo .serve j else c
  | none => c

/-- A waiting allocation request is served: write-repair's first, which classifies its row again (R73); otherwise the
repair engine's, once no spare is TESTING and no write-repair is in progress (R102). -/
def Chip.allocationServed (c : Chip) : Chip :=
  match c.cmd.work with
  | .transfer t =>
    if t.phase = .repairWait then (if c.someTesting then c else c.classify t)
    else if t.phase.writeRepair then c
    else c.serveWaitingJob
  | .none | .listing _ | .relocate _ | .patrolRestart | .patrolHalt | .commitWait | .commitRun _ _ | .format =>
    c.serveWaitingJob

end Sys2Proof.Machine
end

