-- ==== Sys2Proof/Machine/Window.lean ====
section
/-! DEFINITION. The register window: taking a command and its checks, STOP, soft reset, the data port, events, IDENT, and plain register writes (R38 to R58, R117, R138, R152, R162, R170, R171, R178, R180, R181). -/

namespace Sys2Proof.Machine

/-! ## Taking a command (R43, R44, R46) -/

/-- A COMMAND write is refused: CMD_REFUSED is set and nothing else changes (R43). -/
def Chip.refuseCommand (c : Chip) : Chip := { c with bus := { c.bus with cmdRefused := true } }

/-- A COMMAND write is accepted: the parameters are copied, the result registers cleared, and the engine enters
EXECUTING (R41, R43, R47). -/
def Chip.acceptCommand (c : Chip) : Chip :=
  { c with cmd := { c.cmd with
      st := .executing, copy := c.cmd.params, results := Results.zero, stopRequest := false, work := .none, held := none } }

/-- A command ended by a check: RESULT0 to RESULT3 keep 0000h (R44, R46, log entry 17). -/
def Chip.endByCheck (c : Chip) (code : ResultCode) : Chip := c.endCommand code Results.zero

/-- READY and DEGRADED pass every command (R44). -/
def OperatingState.serves : OperatingState → Bool
  | .ready => true
  | .degraded => true
  | .loading | .unformatted | .foreign | .formatting => false

/-- A COMMAND write of a command's code: refused or accepted, and then checked in the order state, parameter values,
row range; a command that passes runs on its copy of the parameters (R43, R44). -/
def Chip.takeCommand (c : Chip) (inState : OperatingState → Bool) (params : Params → Bool)
    (range : Chip → Params → Bool) (run : Chip → Params → Chip) : Chip :=
  if c.busy then c.refuseCommand
  else if inState c.dir.opState then
    if params c.cmd.params then
      if range c c.cmd.params then run c.acceptCommand c.cmd.params else c.acceptCommand.endByCheck .range
    else c.acceptCommand.endByCheck .param
  else c.acceptCommand.endByCheck .state

/-- A command with no parameter value to check passes step 3. -/
def anyParams : Params → Bool := fun _ => true

/-- A command that names no row passes step 4. -/
def anyRange : Chip → Params → Bool := fun _ _ => true

/-- The logical row of PARAM0 exists (R44). -/
def rowInRange : Chip → Params → Bool := fun c p => decide (p.p0.toNat < c.logicalRows)

/-- The last row of the run of PARAM0 and PARAM1 exists (R44, R59). -/
def runInRange : Chip → Params → Bool := fun c p => decide (p.p0.toNat + p.p1.toNat - 1 < c.logicalRows)

/-- A row count of 1 to 256 (R59). -/
def rowCount : Params → Bool := fun p => decide (1 ≤ p.p1.toNat ∧ p.p1.toNat ≤ 256)

/-- A record count other than 0 (R100). -/
def recordCount : Params → Bool := fun p => decide (p.p1 ≠ 0)

/-- The transfer a READ ROWS, WRITE ROWS or CHECK ROWS starts with (R59). -/
def Transfer.first (kind : TransferKind) (p : Params) : Transfer :=
  { kind, row := p.p0.toNat, last := p.p0.toNat + p.p1.toNat - 1, done := 0, firstFail := none, fails := 0, extra := 0,
    phase := .awaitSlot, spare := none }

/-- READ ROWS, WRITE ROWS, CHECK ROWS (R59). -/
def Chip.transferCommand (c : Chip) (kind : TransferKind) : Chip :=
  c.takeCommand OperatingState.serves rowCount runInRange fun c p => c.beginRow 256 (Transfer.first kind p)

/-- QUERY ROW (R80). -/
def Chip.queryCommand (c : Chip) : Chip :=
  c.takeCommand OperatingState.serves anyParams rowInRange fun c p => c.endCommand .ok (c.queryResults p.p0.toNat)

/-- NOMINATE ROW (R99). -/
def Chip.nominateCommand (c : Chip) : Chip :=
  c.takeCommand OperatingState.serves anyParams rowInRange fun c p => c.nominate p.p0.toNat

/-- LIST MAP, LIST PENDING, LIST WATCH, LIST ZONES (R100, R121, R122). -/
def Chip.listCommand (c : Chip) (kind : ListKind) : Chip :=
  c.takeCommand OperatingState.serves recordCount anyRange fun c p => c.startListing kind p.p0.toNat p.p1.toNat

/-- The options of RELOCATE ROW (R117, R181). -/
def relocateOption : Params → Bool := fun p => decide (p.p1 = 0 ∨ p.p1 = 1)

/-- RELOCATE ROW has passed its checks: the look at the row (R117). -/
def Chip.relocateLook (c : Chip) (l : Nat) (discard : Bool) : Chip :=
  if c.isRetired l then c.endCommand .retired Results.zero
  else if discard && !c.pendingUnc l then c.endCommand .param Results.zero
  else Chip.setWork { c with rep := { c.rep with waiting := some (l, discard) } } (.relocate l)

/-- RELOCATE ROW (R117). -/
def Chip.relocateCommand (c : Chip) : Chip :=
  c.takeCommand OperatingState.serves relocateOption rowInRange fun c p => c.relocateLook p.p0.toNat (decide (p.p1 = 1))

/-- The parameters of PATROL START (R135, R181). -/
def patrolParams : Params → Bool :=
  fun p => (patrolModeOf p.p0).isSome && decide (p.p1.toNat ≤ 255) && decide (p.p2 = 0 ∨ p.p2 = 1)

/-- PATROL START (R135, R136). -/
def Chip.patrolStartCommand (c : Chip) : Chip :=
  c.takeCommand OperatingState.serves patrolParams anyRange fun c p =>
    c.startPatrol ((patrolModeOf p.p0).getD .single) p.p1.toNat (decide (p.p2 = 1))

/-- PATROL HALT (R137). -/
def Chip.patrolHaltCommand (c : Chip) : Chip :=
  c.takeCommand OperatingState.serves anyParams anyRange fun c _ => c.haltPatrol

/-- The parts of PATROL REPORT (R138, R181). -/
def reportPart : Params → Bool := fun p => decide (p.p0 = 0 ∨ p.p0 = 1)

/-- PATROL REPORT (R138). -/
def Chip.patrolReportCommand (c : Chip) : Chip :=
  c.takeCommand OperatingState.serves reportPart anyRange fun c p =>
    c.endCommand .ok (if p.p0 = 0 then c.reportCurrent else c.reportLast)

/-- COMMIT DIRECTORY: a commit trigger that the command waits behind (R145, R152). -/
def Chip.commitCommand (c : Chip) : Chip :=
  c.takeCommand OperatingState.serves anyParams anyRange fun c _ => (c.setWork .commitWait).trigger

/-- FORMAT ARRAY runs in every state a command can be accepted in (R44, R162). -/
def Chip.formatCommand (c : Chip) : Chip :=
  c.takeCommand (fun _ => true) anyParams anyRange fun c _ => c.startFormat

/-! ## SET POLICY (R170, R171) -/

/-- The number of pending entries with STARVED set. -/
def Chip.starvedCount (c : Chip) : Nat := c.trk.pendingList.countP fun e => e.starved

/-- The lend reserve or BORROW changes: STARVED is cleared on every entry and every ZONE_EXHAUSTED mark is cleared (R171). -/
def Chip.clearStarved (c : Chip) : Chip :=
  { c with
    trk := { c.trk with pendingList := c.trk.pendingList.map fun e => { e with starved := false } }
    alloc := { zones := c.alloc.zones.map fun z => { z with exhausted := false } } }

/-- Every present zone and the device are regraded (R171, R174). -/
def Chip.regradeAll (c : Chip) : Chip :=
  Chip.regradeDevice
    { c with alloc := { zones := c.alloc.zones.zipIdx.map fun zg =>
        if zg.2 < 8 * c.devices then { zg.1 with grade := zoneGrade c.health.policy zg.1.free } else zg.1 } }

/-- A change of commit delay restarts or stops the timer (R144, R171). -/
def Chip.restartDelay (c : Chip) : Chip :=
  { c with dir := { c.dir with commitTimer := startDelay c.health.policy.commitDelay } }

/-- The lend reserve or BORROW differs. -/
def Policy.lendingDiffers (a b : Policy) : Bool := decide (a.lendReserve ≠ b.lendReserve) || decide (a.borrow ≠ b.borrow)

/-- One of the two limits differs. -/
def Policy.limitsDiffer (a b : Policy) : Bool :=
  decide (a.cautionLimit ≠ b.cautionLimit) || decide (a.criticalLimit ≠ b.criticalLimit)

/-- A SET POLICY that passes its checks takes effect in one action (R171). -/
def Chip.applyPolicy (c : Chip) (p : Policy) : Chip :=
  let old := c.health.policy
  let c1 := Chip.setDirty { c with health := { c.health with policy := p } }
  let c2 := if old.commitDelay = p.commitDelay then c1 else c1.restartDelay
  let c3 := if old.lendingDiffers p then c2.clearStarved else c2
  let c4 := if old.limitsDiffer p then c3.regradeAll else c3
  c4.endCommand .ok
    ⟨word (if old.lendingDiffers p then c.starvedCount else 0), word c4.health.grade.code, 0, 0⟩

/-- SET POLICY (R170, R171, R181). -/
def Chip.setPolicyCommand (c : Chip) : Chip :=
  c.takeCommand OperatingState.serves (fun p => (Policy.ofParams p).inRange) anyRange fun c p =>
    c.applyPolicy (Policy.ofParams p)

/-- A COMMAND write of a word that names no command ends with PARAM at step 1 (R44). -/
def Chip.unknownCommand (c : Chip) : Chip :=
  if c.busy then c.refuseCommand else c.acceptCommand.endByCheck .param

/-- A COMMAND write, by its code (Table 11-4). -/
def Chip.writeCommand (c : Chip) (w : Word) : Chip :=
  match w.toNat with
  | 0x10 => c.transferCommand .read
  | 0x11 => c.transferCommand .write
  | 0x12 => c.transferCommand .check
  | 0x13 => c.queryCommand
  | 0x20 => c.nominateCommand
  | 0x21 => c.relocateCommand
  | 0x30 => c.listCommand .map
  | 0x31 => c.listCommand .pending
  | 0x32 => c.listCommand .watch
  | 0x33 => c.listCommand .zones
  | 0x40 => c.commitCommand
  | 0x41 => c.setPolicyCommand
  | 0x50 => c.patrolStartCommand
  | 0x51 => c.patrolHaltCommand
  | 0x52 => c.patrolReportCommand
  | 0x7F => c.formatCommand
  | _ => c.unknownCommand

/-! ## CONTROL: STOP (R52) -/

/-- STOP while FORMAT ARRAY runs (R167). -/
def Chip.stopFormat (c : Chip) : Chip :=
  match c.dir.format with
  | none => c
  | some f =>
    match f.phase with
    | .waitCommit | .committing _ => c.endFormatEarly .aborted
    | .invalidating _ => c
    | .rowInit _ =>
      if c.cmd.held.isSome then c.endFormatEarly .aborted
      else
        match c.seq.foreground with
        | .waiting _ => Chip.endFormatEarly { c with seq := { c.seq with foreground := .empty } } .aborted
        | .empty | .inProgress _ => c

/-- The command in progress takes a stop request at the point its chapter gives (R52). -/
def Chip.stopWork (c : Chip) : Chip :=
  match c.cmd.work with
  | .none => c
  | .transfer t => c.stopTransfer t
  | .listing l => c.endCommand .aborted (c.listResults l)
  | .relocate l => c.stopRelocate l
  | .patrolRestart =>
    let c1 := c.setPat { c.pat with restartRequest := false }
    c1.endCommand .aborted c1.patrolResults
  | .patrolHalt => c.endCommand .aborted c.patrolResults
  | .commitWait | .commitRun _ _ => c.endCommand .aborted Results.zero
  | .format => c.stopFormat

/-- STOP: no effect in IDLE; otherwise the stop request is set and taken (R52). -/
def Chip.stopCommand (c : Chip) : Chip :=
  if c.cmd.st = .idle then c else Chip.stopWork { c with cmd := { c.cmd with stopRequest := true } }

/-! ## CONTROL: SOFT RESET (R53, R54, Table 3-4) -/

/-- The bus interface takes a soft reset (R54). -/
def BusInterface.softReset (b : BusInterface) : BusInterface :=
  { b with
    buffer := zeroRow, pointer := 0, cmdDone := false, cmdRefused := false, portMisuse := false,
    gradeFlag := false, stateFlag := false }

/-- The command engine takes a soft reset: the PARAM registers and the copy of them stay (R53). -/
def CommandEngine.softReset (e : CommandEngine) : CommandEngine :=
  { e with st := .idle, results := Results.zero, lastResult := .none, stopRequest := false, work := .none, held := none }

/-- The command engine ends the command in progress without a result; its foreground request is withdrawn or its
completion will be discarded, and a spare of write-repair returns to FREE (R53, R79). -/
def Chip.softResetEngine (c : Chip) : Chip :=
  let c1 : Chip := { c with cmd := c.cmd.softReset, seq := { c.seq with foreground := c.seq.foreground.abandon } }
  match c.cmd.work with
  | .transfer t => c1.freeTransferSpare t
  | .none | .listing _ | .relocate _ | .patrolRestart | .patrolHalt | .commitWait | .commitRun _ _ | .format => c1

/-- FORMAT ARRAY in flight takes a soft reset (R167). -/
def Chip.softResetFormat (c : Chip) : Chip :=
  match c.dir.format with
  | none => c
  | some f =>
    match f.phase with
    | .waitCommit | .committing _ => c.endFormatEarly .aborted
    | .invalidating _ => c.setFormat (some { f with ending := true })
    | .rowInit _ =>
      match c.seq.foreground with
      | .inProgress _ => c.setFormat (some { f with ending := true })
      | .empty | .waiting _ => c.endFormatEarly .aborted

/-- A soft reset, block by block: flags first (R54, log entry 14), then command engine, format, repair engine, patrol
engine and error tracker (Table 3-4). -/
def Chip.softReset (c : Chip) : Chip :=
  ((((Chip.softResetEngine { c with bus := c.bus.softReset }).softResetFormat).softResetRepair).softResetPatrol)

/-- A CONTROL write: SOFT RESET wins over STOP; bits 15:2 are ignored (R52, R53, R180). -/
def Chip.writeControl (c : Chip) (w : Word) : Chip :=
  if w.getLsbD 1 then c.softReset else if w.getLsbD 0 then c.stopCommand else c

/-! ## DATA (R48, R49, R50) -/

/-- A data port misuse (R50). -/
def Chip.misuse (c : Chip) : Chip := { c with bus := { c.bus with portMisuse := true } }

/-- The offer has been read: the engine enters EXECUTING and the command goes on (R48). -/
def Chip.offerEnds (c : Chip) : Chip :=
  let c1 : Chip := { c with bus := { c.bus with pointer := 0 }, cmd := { c.cmd with st := .executing } }
  match c1.cmd.work with
  | .transfer t =>
    match t.phase with
    | .offering k => c1.rowDone t k.fail k.extra
    | .awaitSlot | .reading | .scrubbing | .dataIn | .writing | .repairWait | .repairQualify | .repairData
    | .repairVerify | .inPlace | .readBack => c1
  | .listing l => c1.fillRead l
  | .none | .relocate _ | .patrolRestart | .patrolHalt | .commitWait | .commitRun _ _ | .format => c1

/-- A read of DATA: the word at the pointer, or 0000h and a misuse (R48, R50). -/
def Chip.readData (c : Chip) : Chip :=
  let c1 : Chip := { c with bus := { c.bus with dataOut := some c.dataWord } }
  if c.cmd.st = .dataOut then
    if c.bus.pointer < 31 then { c1 with bus := { c1.bus with pointer := c.bus.pointer + 1 } } else c1.offerEnds
  else c1.misuse

/-- The host has written word 31: the engine enters EXECUTING and the command takes the row (R49). -/
def Chip.transferEnds (c : Chip) : Chip :=
  Chip.onTransfer { c with bus := { c.bus with pointer := 0 }, cmd := { c.cmd with st := .executing } } Chip.classify

/-- A write of DATA: stored at the pointer, or ignored and a misuse (R49, R50). -/
def Chip.writeData (c : Chip) (w : Word) : Chip :=
  if c.cmd.st = .dataIn then
    let c1 : Chip := { c with bus := { c.bus with buffer := c.bus.buffer.set c.bus.pointer w } }
    if c.bus.pointer < 31 then { c1 with bus := { c1.bus with pointer := c.bus.pointer + 1 } } else c1.transferEnds
  else c.misuse

/-! ## The other registers (R39 to R41, R55, R56, R178, R180) -/

/-- A write to EVENTS clears the write-1 flags whose places hold a 1 (R55). -/
def Chip.writeEvents (c : Chip) (w : Word) : Chip :=
  { c with bus := { c.bus with
      cmdDone := c.bus.cmdDone && !w.getLsbD 0
      cmdRefused := c.bus.cmdRefused && !w.getLsbD 1
      portMisuse := c.bus.portMisuse && !w.getLsbD 2
      gradeFlag := c.bus.gradeFlag && !w.getLsbD 3
      stateFlag := c.bus.stateFlag && !w.getLsbD 4 } }

/-- A write to EVENT_ENABLE stores all 16 bits (R56, R180). -/
def Chip.writeEnable (c : Chip) (w : Word) : Chip := { c with bus := { c.bus with enable := w } }

/-- A pop: the head record goes; NOTICE_LOST is cleared when that empties the queue; an empty queue is left alone (R178). -/
def Chip.popNotice (c : Chip) : Chip :=
  match c.health.queue with
  | [] => c
  | _ :: rest => { c with health := { c.health with queue := rest, lost := c.health.lost && !rest.isEmpty } }

/-- A write to IDENT moves the selector for 0000h and 0001h (R40). -/
def Chip.writeIdent (c : Chip) (w : Word) : Chip :=
  if w = 0 then { c with bus := { c.bus with identRevision := false } }
  else if w = 1 then { c with bus := { c.bus with identRevision := true } }
  else c

/-- A PARAM register takes a word (R41). -/
def Params.set (p : Params) (i : Nat) (w : Word) : Params :=
  match i with
  | 0 => { p with p0 := w }
  | 1 => { p with p1 := w }
  | 2 => { p with p2 := w }
  | 3 => { p with p3 := w }
  | 4 => { p with p4 := w }
  | 5 => { p with p5 := w }
  | _ => p

/-- A write to PARAM0 to PARAM5 (R41). -/
def Chip.writeParam (c : Chip) (i : Nat) (w : Word) : Chip := { c with cmd := { c.cmd with params := c.cmd.params.set i w } }

/-- A write cycle to an offset of the window (R39, R41, R180). The rows that cover one register alone act by the same
operations; a write to a read-only or unused offset is ignored. -/
def Chip.writeRegister (c : Chip) (offset : BitVec 5) (w : Word) : Chip :=
  match offset.toNat with
  | 0x01 => c.writeCommand w
  | 0x02 => c.writeParam 0 w
  | 0x03 => c.writeParam 1 w
  | 0x04 => c.writeParam 2 w
  | 0x05 => c.writeParam 3 w
  | 0x06 => c.writeParam 4 w
  | 0x07 => c.writeParam 5 w
  | 0x0C => c.writeData w
  | 0x0D => c.writeControl w
  | 0x0E => c.writeEvents w
  | 0x0F => c.writeEnable w
  | 0x14 => c.popNotice
  | 0x18 => c.writeIdent w
  | _ => c

/-- The row of the table a COMMAND write is (Table 11-4); a word that names no command is a write to a plain register. -/
def commandRow (w : Word) : Instr :=
  match w.toNat with
  | 0x10 => .readRows
  | 0x11 => .writeRows
  | 0x12 => .checkRows
  | 0x13 => .queryRow
  | 0x20 => .nominateRow
  | 0x21 => .relocateRow
  | 0x30 => .listMap
  | 0x31 => .listPending
  | 0x32 => .listWatch
  | 0x33 => .listZones
  | 0x40 => .commitDirectory
  | 0x41 => .setPolicy
  | 0x50 => .patrolStart
  | 0x51 => .patrolHalt
  | 0x52 => .patrolReport
  | 0x7F => .formatArray
  | _ => .registerWrite 0x01 w

/-- The row of the table a write cycle to an offset is (Table 3-1, section 3.7). -/
def writeRow (offset : BitVec 5) (w : Word) : Instr :=
  match offset.toNat with
  | 0x01 => commandRow w
  | 0x0C => .dataWrite w
  | 0x0D => if w.getLsbD 1 then .softReset (w.getLsbD 0) else if w.getLsbD 0 then .stop else .registerWrite 0x0D w
  | 0x0E => .eventsWrite w
  | 0x0F => .eventEnableWrite w
  | 0x14 => .noticePop w
  | 0x18 => .identWrite w
  | _ => .registerWrite offset w

/-- The row of the table a bus cycle is, if it has an effect (R38, R39): a write falls on the offset at its end, a read on the
offset at its start, and only a read of DATA has an effect. A cycle with RDn and WRn both asserted takes no write (R38); that a read
of DATA so overlapped neither moves the word pointer nor sets PORT_MISUSE is the model's choice (log entry 23). -/
def BusCycle.row (y : BusCycle) : Option Instr :=
  if y.overlap then none
  else if y.write then some (writeRow y.last y.data)
  else if y.first = 0x0C then some .dataRead
  else none

/-- A bus cycle reaches the part while it is supplied and RSTn is released; otherwise it takes no write and drives no
data (R38, log entry 8). -/
def State.onBus (s : State) (f : Chip → Chip) : State := if s.running then s.onChip f else s

end Sys2Proof.Machine
end

