-- ==== Sys2Proof/Machine/Commands.lean ====
section
/-! DEFINITION. The rows the host bus brings: the sixteen COMMAND writes, STOP, SOFT_RESET, and the other register accesses. -/

namespace Sys2Proof.Machine

/-! ## COMMAND writes (R43, R44) -/

/-- READ_ROWS (R63). -/
def execReadRows (s : State) : Host.Outcome State Fault Refusal := .next (s.onBus fun c => c.transferCommand .read)

/-- WRITE_ROWS (R69). -/
def execWriteRows (s : State) : Host.Outcome State Fault Refusal := .next (s.onBus fun c => c.transferCommand .write)

/-- CHECK_ROWS (R68). -/
def execCheckRows (s : State) : Host.Outcome State Fault Refusal := .next (s.onBus fun c => c.transferCommand .check)

/-- QUERY_ROW (R80). -/
def execQueryRow (s : State) : Host.Outcome State Fault Refusal := .next (s.onBus Chip.queryCommand)

/-- NOMINATE_ROW (R99). -/
def execNominateRow (s : State) : Host.Outcome State Fault Refusal := .next (s.onBus Chip.nominateCommand)

/-- LIST_PENDING (R100). -/
def execListPending (s : State) : Host.Outcome State Fault Refusal := .next (s.onBus fun c => c.listCommand .pending)

/-- LIST_WATCH (R100). -/
def execListWatch (s : State) : Host.Outcome State Fault Refusal := .next (s.onBus fun c => c.listCommand .watch)

/-- RELOCATE_ROW (R117). -/
def execRelocateRow (s : State) : Host.Outcome State Fault Refusal := .next (s.onBus Chip.relocateCommand)

/-- LIST_MAP (R121). -/
def execListMap (s : State) : Host.Outcome State Fault Refusal := .next (s.onBus fun c => c.listCommand .map)

/-- LIST_ZONES (R122). -/
def execListZones (s : State) : Host.Outcome State Fault Refusal := .next (s.onBus fun c => c.listCommand .zones)

/-- PATROL_START (R135, R136). -/
def execPatrolStart (s : State) : Host.Outcome State Fault Refusal := .next (s.onBus Chip.patrolStartCommand)

/-- PATROL_HALT (R137). -/
def execPatrolHalt (s : State) : Host.Outcome State Fault Refusal := .next (s.onBus Chip.patrolHaltCommand)

/-- PATROL_REPORT (R138). -/
def execPatrolReport (s : State) : Host.Outcome State Fault Refusal := .next (s.onBus Chip.patrolReportCommand)

/-- COMMIT_DIRECTORY (R152). -/
def execCommitDirectory (s : State) : Host.Outcome State Fault Refusal := .next (s.onBus Chip.commitCommand)

/-- FORMAT_ARRAY (R162). -/
def execFormatArray (s : State) : Host.Outcome State Fault Refusal := .next (s.onBus Chip.formatCommand)

/-- SET_POLICY (R171). -/
def execSetPolicy (s : State) : Host.Outcome State Fault Refusal := .next (s.onBus Chip.setPolicyCommand)

/-! ## CONTROL writes (R52, R53) -/

/-- STOP (R52). -/
def execStop (s : State) : Host.Outcome State Fault Refusal := .next (s.onBus Chip.stopCommand)

/-- SOFT_RESET (R53): bit 0 beside bit 1 has no further effect. -/
def execSoftReset (_withStop : Bool) (s : State) : Host.Outcome State Fault Refusal := .next (s.onBus Chip.softReset)

/-! ## Other register accesses -/

/-- DATA_READ (R48, R50). -/
def execDataRead (s : State) : Host.Outcome State Fault Refusal := .next (s.onBus Chip.readData)

/-- DATA_WRITE (R49, R50). -/
def execDataWrite (w : Word) (s : State) : Host.Outcome State Fault Refusal := .next (s.onBus fun c => c.writeData w)

/-- EVENTS_WRITE (R55). -/
def execEventsWrite (w : Word) (s : State) : Host.Outcome State Fault Refusal := .next (s.onBus fun c => c.writeEvents w)

/-- EVENT_ENABLE_WRITE (R56). -/
def execEventEnableWrite (w : Word) (s : State) : Host.Outcome State Fault Refusal :=
  .next (s.onBus fun c => c.writeEnable w)

/-- NOTICE_POP (R178): the value written does not matter. -/
def execNoticePop (_w : Word) (s : State) : Host.Outcome State Fault Refusal := .next (s.onBus Chip.popNotice)

/-- IDENT_WRITE (R40). -/
def execIdentWrite (w : Word) (s : State) : Host.Outcome State Fault Refusal := .next (s.onBus fun c => c.writeIdent w)

/-- REGISTER_WRITE (R39, R41, R44, R180). -/
def execRegisterWrite (offset : BitVec 5) (w : Word) (s : State) : Host.Outcome State Fault Refusal :=
  .next (s.onBus fun c => c.writeRegister offset w)

end Sys2Proof.Machine
end

