-- ==== Sys2Proof/Machine/Completions.lean ====
section
/-! DEFINITION. The completion rows: a completion with DONE of the access in progress, by what the access is for (R33). -/

namespace Sys2Proof.Machine

/-! ## Foreground class -/

/-- READ_ROWS_READ_DONE (R63). -/
def execReadRowsReadDone (flips : RowPatch) (s : State) : Host.Outcome State Fault Refusal :=
  s.complete (fun p => decide (p = .readRowsRead)) flips fun r d c => c.onTransfer fun c t => c.transferRead t r.phys d

/-- CHECK_ROWS_READ_DONE (R68). -/
def execCheckRowsReadDone (flips : RowPatch) (s : State) : Host.Outcome State Fault Refusal :=
  s.complete (fun p => decide (p = .checkRowsRead)) flips fun r d c => c.onTransfer fun c t => c.transferRead t r.phys d

/-- SCRUB_WRITE_DONE (R65). -/
def execScrubWriteDone (s : State) : Host.Outcome State Fault Refusal :=
  s.complete (fun p => decide (p = .scrubWrite)) [] fun r _ c => c.onTransfer fun c t => c.scrubbed t (r.data.getD zeroRow)

/-- ORDINARY_WRITE_DONE (R70). -/
def execOrdinaryWriteDone (s : State) : Host.Outcome State Fault Refusal :=
  s.complete (fun p => decide (p = .ordinaryWrite)) [] fun _ _ c => c.onTransfer Chip.written

/-- The place of a qualification access in R107. -/
def Purpose.qualifyIndex : Purpose → Nat
  | .repairQualify k | .qualification k => k
  | .readRowsRead | .checkRowsRead | .scrubWrite | .ordinaryWrite | .repairDataWrite | .repairVerify | .inPlaceWrite
  | .readBack | .rowInit | .loadRead | .commitWrite | .commitReadBack | .invalidatingWrite | .sourceRead | .copyWrite
  | .verifyRead | .zeroWrite | .zeroReadBack | .visitRead | .patrolScrub => 0

/-- WRITE_REPAIR_QUALIFY_DONE (R74). -/
def execWriteRepairQualifyDone (flips : RowPatch) (s : State) : Host.Outcome State Fault Refusal :=
  s.complete (fun p => decide (p = .repairQualify p.qualifyIndex)) flips fun r d c =>
    c.onWriteRepair fun c t sp => c.writeQualified t sp r.purpose.qualifyIndex d

/-- WRITE_REPAIR_DATA_WRITE_DONE (R75). -/
def execWriteRepairDataWriteDone (s : State) : Host.Outcome State Fault Refusal :=
  s.complete (fun p => decide (p = .repairDataWrite)) [] fun _ _ c => c.onWriteRepair Chip.spareWritten

/-- WRITE_REPAIR_VERIFY_DONE (R75, R76). -/
def execWriteRepairVerifyDone (flips : RowPatch) (s : State) : Host.Outcome State Fault Refusal :=
  s.complete (fun p => decide (p = .repairVerify)) flips fun _ d c => c.onWriteRepair fun c t sp => c.spareVerified t sp d

/-- IN_PLACE_WRITE_DONE (R77). -/
def execInPlaceWriteDone (s : State) : Host.Outcome State Fault Refusal :=
  s.complete (fun p => decide (p = .inPlaceWrite)) [] fun r _ c => c.onTransfer fun c t => c.writtenInPlace t r.phys

/-- READ_BACK_DONE (R77, R78). -/
def execReadBackDone (flips : RowPatch) (s : State) : Host.Outcome State Fault Refusal :=
  s.complete (fun p => decide (p = .readBack)) flips fun r d c => c.onTransfer fun c t => c.writeReadBack t r.phys d

/-- ROW_INITIALISATION_DONE (R165). -/
def execRowInitialisationDone (s : State) : Host.Outcome State Fault Refusal :=
  s.complete (fun p => decide (p = .rowInit)) [] fun _ _ c => c.rowInitialised

/-! ## Directory class -/

/-- LOAD_READ_DONE (R157). -/
def execLoadReadDone (flips : RowPatch) (s : State) : Host.Outcome State Fault Refusal :=
  s.complete (fun p => decide (p = .loadRead)) flips fun _ d c => c.loadRead (some d)

/-- COMMIT_WRITE_DONE (R148). -/
def execCommitWriteDone (s : State) : Host.Outcome State Fault Refusal :=
  s.complete (fun p => decide (p = .commitWrite)) [] fun _ _ c => c.commitWritten

/-- COMMIT_READ_BACK_DONE (R149). -/
def execCommitReadBackDone (flips : RowPatch) (s : State) : Host.Outcome State Fault Refusal :=
  s.complete (fun p => decide (p = .commitReadBack)) flips fun _ d c => c.commitReadBack d

/-- INVALIDATING_WRITE_DONE (R163). -/
def execInvalidatingWriteDone (s : State) : Host.Outcome State Fault Refusal :=
  s.complete (fun p => decide (p = .invalidatingWrite)) [] fun _ _ c => c.invalidated

/-! ## Repair class -/

/-- SOURCE_READ_DONE (R110). -/
def execSourceReadDone (flips : RowPatch) (s : State) : Host.Outcome State Fault Refusal :=
  s.complete (fun p => decide (p = .sourceRead)) flips fun r d c => c.onJob fun c j => c.sourceRead j r.phys d

/-- QUALIFICATION_ACCESS_DONE (R107). -/
def execQualificationAccessDone (flips : RowPatch) (s : State) : Host.Outcome State Fault Refusal :=
  s.complete (fun p => decide (p = .qualification p.qualifyIndex)) flips fun r d c =>
    c.onJobSpare fun c j t => c.qualified j t r.purpose.qualifyIndex d

/-- COPY_WRITE_DONE (R112). -/
def execCopyWriteDone (s : State) : Host.Outcome State Fault Refusal :=
  s.complete (fun p => decide (p = .copyWrite)) [] fun _ _ c => c.onJobSpare Chip.copied

/-- VERIFY_READ_DONE (R112, R113). -/
def execVerifyReadDone (flips : RowPatch) (s : State) : Host.Outcome State Fault Refusal :=
  s.complete (fun p => decide (p = .verifyRead)) flips fun _ d c => c.onJobSpare fun c j t => c.verified j t d

/-- ZERO_WRITE_DONE (R119). -/
def execZeroWriteDone (s : State) : Host.Outcome State Fault Refusal :=
  s.complete (fun p => decide (p = .zeroWrite)) [] fun r _ c => c.zeroWritten r.phys

/-- ZERO_READ_BACK_DONE (R119). -/
def execZeroReadBackDone (flips : RowPatch) (s : State) : Host.Outcome State Fault Refusal :=
  s.complete (fun p => decide (p = .zeroReadBack)) flips fun r d c => c.onJob fun c j => c.zeroReadBack j r.phys d

/-! ## Patrol class -/

/-- VISIT_READ_DONE (R128). -/
def execVisitReadDone (flips : RowPatch) (s : State) : Host.Outcome State Fault Refusal :=
  s.complete (fun p => decide (p = .visitRead)) flips fun r d c => c.visitRead r.phys d

/-- PATROL_SCRUB_DONE (R129). -/
def execPatrolScrubDone (s : State) : Host.Outcome State Fault Refusal :=
  s.complete (fun p => decide (p = .patrolScrub)) [] fun _ _ c => c.endVisit .corrected

end Sys2Proof.Machine
end

