-- ==== Sys2Proof/Machine/Events.lean ====
section
/-! DEFINITION. The rows of supply, RSTn, timers and idle engines. -/

namespace Sys2Proof.Machine

/-! ## Supply and RSTn (R1, R36, R58, R156) -/

/-- The device count of a strap value (R1). -/
def deviceCount (straps : BitVec 2) : Nat := straps.toNat + 1

/-- The part with every block at its reset value and the straps sampled; with RSTn released, loading begins with its
first read (R1, R156). -/
def bringUp (rstAsserted : Bool) (straps : BitVec 2) : Chip :=
  if rstAsserted then Chip.resetBlocks true true (deviceCount straps)
  else (Chip.resetBlocks true false (deviceCount straps)).startLoading.settle 8

/-- POWER_ON (R1, R58, R156). -/
def execPowerOn (straps : BitVec 2) (s : State) : Host.Outcome State Fault Refusal :=
  .next { s with toChip := bringUp s.rstAsserted straps }

/-- RSTN_ASSERT (R36, R58). -/
def execRstnAssert (left : RowPatch) (s : State) : Host.Outcome State Fault Refusal :=
  .next { s with toChip := Chip.resetBlocks s.powered true s.devices, array := s.cutArray left }

/-- RSTN_RELEASE (R1, R58, R156): without supply only the pin changes; a pin that is not asserted cannot be released. -/
def execRstnRelease (straps : BitVec 2) (s : State) : Host.Outcome State Fault Refusal :=
  if s.rstAsserted then
    if s.powered then .next { s with toChip := bringUp false straps } else .next { s with rstAsserted := false }
  else .next s

/-- POWER_LOSS (R36, R154, log entry 8). -/
def execPowerLoss (left : RowPatch) (s : State) : Host.Outcome State Fault Refusal :=
  .next { s with toChip := Chip.resetBlocks false s.rstAsserted s.devices, array := s.cutArray left }

/-! ## Timers (R31, R126, R144) -/

/-- READY_TIMEOUT (R31, R32). -/
def execReadyTimeout (second : Bool) (left : RowPatch) (s : State) : Host.Outcome State Fault Refusal :=
  .next (s.readyExpires second left)

/-- PACE_EXPIRY (R126, R127). -/
def execPaceExpiry (s : State) : Host.Outcome State Fault Refusal := .next (s.onChip Chip.paceRunsOut)

/-- The commit delay timer runs out: a commit trigger (R144, R145). A timer that is stopped cannot. -/
def Chip.delayRunsOut (c : Chip) : Chip :=
  match c.dir.commitTimer with
  | none => c
  | some _ => Chip.trigger { c with dir := { c.dir with commitTimer := none } }

/-- COMMIT_DELAY_EXPIRY (R144). -/
def execCommitDelayExpiry (s : State) : Host.Outcome State Fault Refusal := .next (s.onChip Chip.delayRunsOut)

/-! ## Idle engines (R102, R109) -/

/-- REPAIR_JOB_START (R109). -/
def execRepairJobStart (s : State) : Host.Outcome State Fault Refusal := .next (s.onChip Chip.jobStart)

/-- ALLOCATION_SERVED (R73, R102). -/
def execAllocationServed (s : State) : Host.Outcome State Fault Refusal := .next (s.onChip Chip.allocationServed)

end Sys2Proof.Machine
end

