-- ==== Sys2Proof/Machine/Dispatch.lean ====
section
/-! DEFINITION. The meaning of every command: one arm per constructor of Instr. -/

namespace Sys2Proof.Machine

def exec (i : Instr) (s : State) : Host.Outcome State Fault Refusal :=
  match i with
  | .powerOn straps => Sys2Proof.Machine.execPowerOn straps s
  | .rstnAssert left => Sys2Proof.Machine.execRstnAssert left s
  | .rstnRelease straps => Sys2Proof.Machine.execRstnRelease straps s
  | .readRows => Sys2Proof.Machine.execReadRows s
  | .writeRows => Sys2Proof.Machine.execWriteRows s
  | .checkRows => Sys2Proof.Machine.execCheckRows s
  | .queryRow => Sys2Proof.Machine.execQueryRow s
  | .nominateRow => Sys2Proof.Machine.execNominateRow s
  | .listPending => Sys2Proof.Machine.execListPending s
  | .listWatch => Sys2Proof.Machine.execListWatch s
  | .relocateRow => Sys2Proof.Machine.execRelocateRow s
  | .listMap => Sys2Proof.Machine.execListMap s
  | .listZones => Sys2Proof.Machine.execListZones s
  | .patrolStart => Sys2Proof.Machine.execPatrolStart s
  | .patrolHalt => Sys2Proof.Machine.execPatrolHalt s
  | .patrolReport => Sys2Proof.Machine.execPatrolReport s
  | .commitDirectory => Sys2Proof.Machine.execCommitDirectory s
  | .formatArray => Sys2Proof.Machine.execFormatArray s
  | .setPolicy => Sys2Proof.Machine.execSetPolicy s
  | .stop => Sys2Proof.Machine.execStop s
  | .softReset withStop => Sys2Proof.Machine.execSoftReset withStop s
  | .dataRead => Sys2Proof.Machine.execDataRead s
  | .dataWrite w => Sys2Proof.Machine.execDataWrite w s
  | .eventsWrite w => Sys2Proof.Machine.execEventsWrite w s
  | .eventEnableWrite w => Sys2Proof.Machine.execEventEnableWrite w s
  | .noticePop w => Sys2Proof.Machine.execNoticePop w s
  | .identWrite w => Sys2Proof.Machine.execIdentWrite w s
  | .registerWrite offset w => Sys2Proof.Machine.execRegisterWrite offset w s
  | .readyTimeout second left => Sys2Proof.Machine.execReadyTimeout second left s
  | .paceExpiry => Sys2Proof.Machine.execPaceExpiry s
  | .commitDelayExpiry => Sys2Proof.Machine.execCommitDelayExpiry s
  | .readRowsReadDone flips => Sys2Proof.Machine.execReadRowsReadDone flips s
  | .checkRowsReadDone flips => Sys2Proof.Machine.execCheckRowsReadDone flips s
  | .scrubWriteDone => Sys2Proof.Machine.execScrubWriteDone s
  | .ordinaryWriteDone => Sys2Proof.Machine.execOrdinaryWriteDone s
  | .writeRepairQualifyDone flips => Sys2Proof.Machine.execWriteRepairQualifyDone flips s
  | .writeRepairDataWriteDone => Sys2Proof.Machine.execWriteRepairDataWriteDone s
  | .writeRepairVerifyDone flips => Sys2Proof.Machine.execWriteRepairVerifyDone flips s
  | .inPlaceWriteDone => Sys2Proof.Machine.execInPlaceWriteDone s
  | .readBackDone flips => Sys2Proof.Machine.execReadBackDone flips s
  | .rowInitialisationDone => Sys2Proof.Machine.execRowInitialisationDone s
  | .loadReadDone flips => Sys2Proof.Machine.execLoadReadDone flips s
  | .commitWriteDone => Sys2Proof.Machine.execCommitWriteDone s
  | .commitReadBackDone flips => Sys2Proof.Machine.execCommitReadBackDone flips s
  | .invalidatingWriteDone => Sys2Proof.Machine.execInvalidatingWriteDone s
  | .sourceReadDone flips => Sys2Proof.Machine.execSourceReadDone flips s
  | .qualificationAccessDone flips => Sys2Proof.Machine.execQualificationAccessDone flips s
  | .copyWriteDone => Sys2Proof.Machine.execCopyWriteDone s
  | .verifyReadDone flips => Sys2Proof.Machine.execVerifyReadDone flips s
  | .zeroWriteDone => Sys2Proof.Machine.execZeroWriteDone s
  | .zeroReadBackDone flips => Sys2Proof.Machine.execZeroReadBackDone flips s
  | .visitReadDone flips => Sys2Proof.Machine.execVisitReadDone flips s
  | .patrolScrubDone => Sys2Proof.Machine.execPatrolScrubDone s
  | .repairJobStart => Sys2Proof.Machine.execRepairJobStart s
  | .allocationServed => Sys2Proof.Machine.execAllocationServed s
  | .powerLoss left => Sys2Proof.Machine.execPowerLoss left s

end Sys2Proof.Machine
end

