-- ==== Sys2Proof/Safety.lean ====
section
/-! DEFINITION. What counts as a safe run, and the conditions on a state that claims name. -/

namespace Sys2Proof.Machine

/-! ## Safe runs -/

/-- A step is safe when it answers a next state: neither a fault nor a refusal. -/
def SafeStep (s : State) : Prop := ∃ t, step s = .next t

/-- The machine runs its queue safely for a number of steps. -/
def SafeRun : Nat → State → Prop
  | 0, _ => True
  | n + 1, s => ∃ t, step s = .next t ∧ SafeRun n t

/-! ## The array port -/

/-- No request waits at an idle port (R26): the invariant every step keeps. -/
def Sequencer.settled (q : Sequencer) : Bool := q.current.isSome || q.firstWaiting.isNone

/-- The port carries this access alone: its slot is IN_PROGRESS, the other slots are empty, the ready timer is armed. -/
def Sequencer.carrying (r : Request) : Sequencer :=
  { Sequencer.reset.put r.purpose.cls (.inProgress r) with readyTimer := true }

/-- The request of an access that its requester has not abandoned. -/
def request (p : Purpose) (phys : PhysRow) (data : Option (List Word)) : Request :=
  { purpose := p, phys := phys, data := data, abandoned := false }

/-! ## Commands -/

/-- A COMMAND write is accepted and passes the check of the operating state: the part is running, the engine IDLE, and
the state READY or DEGRADED (R43, R44). -/
def State.accepts (s : State) : Bool := s.running && decide (s.cmd.st = .idle) && s.inService

/-- A COMMAND write is refused: the part is running, and the engine is not IDLE or the state is LOADING or FORMATTING (R43). -/
def State.refuses (s : State) : Bool := s.running && s.toChip.busy

/-- The state after a command that was accepted and ended at once, with its result and result registers: the parameters
are copied, the engine is IDLE with no stop request, and CMD_DONE is set (R41, R43, R46). -/
def State.ended (s : State) (code : ResultCode) (res : Results) : State :=
  { s with
    cmd := { s.cmd with
      st := .idle, copy := s.cmd.params, results := res, lastResult := code, stopRequest := false, work := .none
      held := none }
    bus := { s.bus with cmdDone := true } }

/-- The command engine after acceptance, in EXECUTING with this work (R41, R43, R47). -/
def CommandEngine.accepted (e : CommandEngine) (w : Work) : CommandEngine :=
  { e with
    st := .executing, copy := e.params, results := Results.zero, stopRequest := false, work := w, held := none }

/-- The command engine after the command in progress has ended with a result and result registers (R46). -/
def CommandEngine.finished (e : CommandEngine) (code : ResultCode) (res : Results) : CommandEngine :=
  { e with st := .idle, results := res, lastResult := code, stopRequest := false, work := .none, held := none }

/-- The bus interface after a command has ended (R46). -/
def BusInterface.commandDone (b : BusInterface) : BusInterface := { b with cmdDone := true }

/-- The part with the finished access's slot emptied and no other request (R33). -/
def Chip.portFreed (c : Chip) : Chip := { c with seq := Sequencer.reset }

/-- The sixteen COMMAND writes of the table (Table 11-4). -/
def commandWrites : List Instr :=
  [.readRows, .writeRows, .checkRows, .queryRow, .nominateRow, .listPending, .listWatch, .relocateRow,
   .listMap, .listZones, .patrolStart, .patrolHalt, .patrolReport, .commitDirectory, .formatArray, .setPolicy]

/-! ## The end of an access -/

/-- The row of the table that is the completion with DONE of an access of this purpose (R33). -/
def Completes (i : Instr) : Purpose → Prop
  | .readRowsRead => ∃ flips, i = .readRowsReadDone flips
  | .checkRowsRead => ∃ flips, i = .checkRowsReadDone flips
  | .scrubWrite => i = .scrubWriteDone
  | .ordinaryWrite => i = .ordinaryWriteDone
  | .repairQualify _ => ∃ flips, i = .writeRepairQualifyDone flips
  | .repairDataWrite => i = .writeRepairDataWriteDone
  | .repairVerify => ∃ flips, i = .writeRepairVerifyDone flips
  | .inPlaceWrite => i = .inPlaceWriteDone
  | .readBack => ∃ flips, i = .readBackDone flips
  | .rowInit => i = .rowInitialisationDone
  | .loadRead => ∃ flips, i = .loadReadDone flips
  | .commitWrite => i = .commitWriteDone
  | .commitReadBack => ∃ flips, i = .commitReadBackDone flips
  | .invalidatingWrite => i = .invalidatingWriteDone
  | .sourceRead => ∃ flips, i = .sourceReadDone flips
  | .qualification _ => ∃ flips, i = .qualificationAccessDone flips
  | .copyWrite => i = .copyWriteDone
  | .verifyRead => ∃ flips, i = .verifyReadDone flips
  | .zeroWrite => i = .zeroWriteDone
  | .zeroReadBack => ∃ flips, i = .zeroReadBackDone flips
  | .visitRead => ∃ flips, i = .visitReadDone flips
  | .patrolScrub => i = .patrolScrubDone

/-- The access ends by this row of the table, by its completion with DONE or by a TIMEOUT, and leaves this array (R29 to
R33). -/
def State.accessEnds (s : State) (i : Instr) (r : Request) (arr : Memory) : Prop :=
  Completes i r.purpose ∧ r.phys.inArray s.devices = true ∧ arr = s.array.afterDone r
  ∨ ∃ second left, i = .readyTimeout second left
      ∧ arr = if second then s.array.afterCut s.devices r left else s.array

/-! ## Invariants -/

/-- The device count is 1 to 4 (R1). -/
def State.countLegal (s : State) : Bool := decide (1 ≤ s.devices ∧ s.devices ≤ 4)

/-- Every collection of the part stands within its limit: the pending list (R86), the watch table (R87), the notice queue
(R177), and the patrol cursor (R123). -/
def Chip.withinLimits (c : Chip) : Bool :=
  decide (c.trk.pendingList.length ≤ 32) && decide (c.trk.watch.length = 64) && decide (c.health.queue.length ≤ 16)
    && decide (c.pat.cursor < c.logicalRows)

/-- The law of the error tracker (R86): no logical row is in the watch table and in the pending list at once, and no row with a
RETIRED entry is in either. -/
def Chip.watchLaw (c : Chip) : Prop :=
  (∀ e w, e ∈ c.trk.pendingList → some w ∈ c.trk.watch → w.row ≠ e.row)
  ∧ ∀ l, c.isRetired l = true → (∀ e, e ∈ c.trk.pendingList → e.row ≠ l) ∧ ∀ w, some w ∈ c.trk.watch → w.row ≠ l

/-- The state of a spare; none for a spare of an absent device (R3, R101). -/
def Chip.spareState (c : Chip) (t : SpareId) : Option SpareState := (c.zone t.globalZone).spares[t.index.val]?

/-- The law of the remap table and of its spares: entries rise strictly by logical row (R9), the targets are distinct and are
exactly the spares IN_USE (R10, R11), at most 512 entries are SPARED, 128 RETIRED and 640 in all (R10), and the uncommitted
change count is at most 16 (R16). -/
def Chip.tableLaw (c : Chip) : Prop :=
  (c.tr.remap.map RemapEntry.row).Pairwise (· < ·)
  ∧ (sparedTargets c.tr.remap).Nodup ∧ (∀ t, t ∈ sparedTargets c.tr.remap ↔ c.spareState t = some .inUse)
  ∧ c.sparedCount ≤ 512 ∧ c.retiredCount ≤ 128 ∧ c.tr.remap.length ≤ 640 ∧ c.tr.changes ≤ 16

/-- The spare the work in progress holds: write-repair's (R73). -/
def Work.spare : Work → Option SpareId
  | .transfer t => t.spare
  | .none | .listing _ | .relocate _ | .patrolRestart | .patrolHalt | .commitWait | .commitRun _ _ | .format => Option.none

/-- The work in progress is READ ROWS, WRITE ROWS or CHECK ROWS. -/
def Work.isTransfer : Work → Bool
  | .transfer _ => true
  | .none | .listing _ | .relocate _ | .patrolRestart | .patrolHalt | .commitWait | .commitRun _ _ | .format => false

/-- The law of spares: at most one spare is TESTING, the spare that write-repair or the job in flight holds is TESTING, and
they do not both hold one (R73, R102); there are 32 zones, and the four counts of a zone sum to 16 where its device is present
and to 0 where it is absent (R103). -/
def Chip.testingLaw (c : Chip) : Prop :=
  (∀ a b, c.spareState a = some .testing → c.spareState b = some .testing → a = b)
  ∧ (∀ t, c.cmd.work.spare = some t → c.spareState t = some .testing)
  ∧ (∀ t, c.rep.job.bind Job.spare = some t → c.spareState t = some .testing)
  ∧ (c.cmd.work.spare = none ∨ c.rep.job.bind Job.spare = none)
  ∧ c.alloc.zones.length = 32
  ∧ ∀ g, g < 32 → (c.zone g).countOf .free + (c.zone g).countOf .testing + (c.zone g).countOf .inUse + (c.zone g).countOf .bad
      = if g < 8 * c.devices then 16 else 0

/-- What goes with the modes: a format in flight stands in FORMATTING, and READ ROWS, WRITE ROWS and CHECK ROWS do not run
then (R44, R162); while the directory unit is LOADING so is the part, and no transfer, job or format is in flight (R109,
R156); a commit is in flight only in COMMITTING (R146); FORMAT ARRAY's own commits run while it does, and it waits for
another (R155, R162, R166). -/
def Chip.modeLaw (c : Chip) : Prop :=
  (c.dir.format ≠ none → c.dir.opState = .formatting ∧ c.cmd.work.isTransfer = false)
  ∧ (c.dir.mode = .loading →
      c.dir.opState = .loading ∧ c.cmd.work.isTransfer = false ∧ c.rep.job = none ∧ c.dir.format = none)
  ∧ (c.dir.mode ≠ .committing → c.dir.commit = none)
  ∧ (∀ j, c.dir.commit = some j → j.detached = false →
      (j.ofFormat = true → c.dir.format ≠ none)
      ∧ (j.ofFormat = false → ∀ f, c.dir.format = some f → f.phase = .waitCommit))

/-- Every collection stands within its limits and keeps its law. -/
def Chip.lawful (c : Chip) : Prop := c.withinLimits = true ∧ c.watchLaw ∧ c.tableLaw ∧ c.testingLaw ∧ c.modeLaw

/-- The array list stands in its canonical form (log entry 3). -/
def State.arrayCanonical (s : State) : Bool := s.array.wf

end Sys2Proof.Machine
end

