-- ==== Sys2Proof/WellFormed.lean ====
section
/-! DEFINITION. Which commands are well formed. An ill-formed command still has a meaning (exec is total); these checks say which descriptions of an event are the plain ones. -/

namespace Sys2Proof

/-- The word addresses of a patch strictly rise, so that no word is described twice. -/
def RowPatch.rising : RowPatch → Bool
  | [] => true
  | [_] => true
  | (i, _) :: (j, w) :: rest => decide (i.toNat < j.toNat) && RowPatch.rising ((j, w) :: rest)

/-- A description of changed bits names only words in which a bit has changed. -/
def RowPatch.changes (p : RowPatch) : Bool := p.all fun e => decide (e.2 ≠ 0)

/-- The command codes of Table 11-4. -/
def commandCodes : List Word :=
  [0x0010, 0x0011, 0x0012, 0x0013, 0x0020, 0x0021, 0x0030, 0x0031,
   0x0032, 0x0033, 0x0040, 0x0041, 0x0050, 0x0051, 0x0052, 0x007F]

/-- A REGISTER_WRITE is a write that no other row of the table covers: not DATA, EVENTS, EVENT_ENABLE,
NOTICE_CTRL or IDENT, not a CONTROL write with STOP or SOFT RESET, not a COMMAND write of a command's code. -/
def plainRegister (offset : BitVec 5) (w : Word) : Bool :=
  !(offset == 0x0C || offset == 0x0E || offset == 0x0F || offset == 0x14 || offset == 0x18)
  && !(offset == 0x0D && (w.getLsbD 0 || w.getLsbD 1))
  && !(offset == 0x01 && commandCodes.contains w)

/-- The well-formed commands. -/
def Instr.wellFormed : Instr → Bool
  | .rstnAssert p | .powerLoss p => RowPatch.rising p
  | .readyTimeout second p => RowPatch.rising p && (second || p.isEmpty)
  | .registerWrite o w => plainRegister o w
  | .readRowsReadDone p | .checkRowsReadDone p | .writeRepairQualifyDone p | .writeRepairVerifyDone p
  | .readBackDone p | .loadReadDone p | .commitReadBackDone p | .sourceReadDone p
  | .qualificationAccessDone p | .verifyReadDone p | .zeroReadBackDone p | .visitReadDone p =>
    RowPatch.rising p && RowPatch.changes p
  | .powerOn _ | .rstnRelease _ | .readRows | .writeRows | .checkRows | .queryRow | .nominateRow
  | .listPending | .listWatch | .relocateRow | .listMap | .listZones | .patrolStart | .patrolHalt
  | .patrolReport | .commitDirectory | .formatArray | .setPolicy | .stop | .softReset _ | .dataRead
  | .dataWrite _ | .eventsWrite _ | .eventEnableWrite _ | .noticePop _ | .identWrite _ | .paceExpiry
  | .commitDelayExpiry | .scrubWriteDone | .ordinaryWriteDone | .writeRepairDataWriteDone
  | .inPlaceWriteDone | .rowInitialisationDone | .commitWriteDone | .invalidatingWriteDone
  | .copyWriteDone | .zeroWriteDone | .patrolScrubDone | .repairJobStart | .allocationServed => true

end Sys2Proof
end

