-- ==== Sys2Proof/Certificates/Slice0/Obligations.lean ====
section
/-! DEFINITION. The statements for the provers, one Prop each; OBLIGATIONS.json lists them with what they rest on.

Premises used throughout: `s.running` (supplied, RSTn released); `s.accepts` (R43, R44 step 2: a COMMAND write is accepted
and passes the state check); `s.seq.settled` (no request waits at an idle port: every step keeps it); `s.seq =
Sequencer.reset` (no request at all); `s.seq = Sequencer.carrying r` (the access r is in progress and nothing else). -/

open Sys2Proof Sys2Proof.Machine

/-! ## The step -/

/-- A step runs the command at the front of the queue on the state with the queue's rest; with an empty queue the block idles
(idling is the model's choice, log entry 1). -/
def Obligations.StepTakesTheFrontCommand : Prop :=
  (∀ (c : Instr) (rest : List Instr) (s : State),
      step { s with pending := c :: rest } = exec c { s with pending := rest })
  ∧ (∀ s : State, s.pending = [] → step s = .next s)

/-- Every command answers a next state with the queue as it was, or the one fault: a completion of an access whose row no
present device has (log entry 7). No command is refused. -/
def Obligations.EveryCommandGoesOnUnlessItsRowIsMissing : Prop :=
  ∀ (c : Instr) (s : State),
    (∃ t, exec c s = .next t ∧ t.pending = s.pending) ∨
      (exec c s = .fault .noSuchRow ∧ ∃ k r, s.seq.current = some (k, r) ∧ r.phys.inArray s.devices = false)

/-! ## Invariants -/

/-- The state after reset keeps the four invariants: the array list is canonical, no request waits at an idle port, the device
count is 1 to 4, and every collection stands within its limits and keeps its law. -/
def Obligations.ResetMeetsTheInvariants : Prop :=
  State.reset.arrayCanonical = true ∧ State.reset.seq.settled = true ∧ State.reset.countLegal = true ∧ State.reset.lawful

/-- Every step keeps the array list in its canonical form (the model's own form, log entry 3). -/
def Obligations.ArrayStaysCanonical : Prop :=
  ∀ s t : State, s.arrayCanonical = true → step s = .next t → t.arrayCanonical = true

/-- After every step no request waits at an idle port (R26). -/
def Obligations.PortStaysSettled : Prop :=
  ∀ s t : State, s.seq.settled = true → step s = .next t → t.seq.settled = true

/-- Every step keeps the pending list at 32 entries or fewer, the watch table at 64 slots, the notice queue at 16 records or
fewer and the patrol cursor below the logical row count (R86, R87, R123, R177), whatever the rest of the state; and every
step keeps the laws of the collections together. No row is watched and pending at once, and no RETIRED row is either (R86;
that a watch entry a row still has goes with its retirement is log entry 32, DEDUCED). The remap table's entries rise
strictly by logical row (R9); its targets are distinct and are exactly the spares IN_USE; at most 512 entries are SPARED, 128
RETIRED and 640 in all (R10); the uncommitted change count is at most 16 (R16). At most one spare is TESTING, write-repair's
or the job's is, and they do not both hold one (R73, R102); there are 32 zones, and free, testing, in-use and bad sum to 16
in each zone of a present device and to 0 in each of an absent one (R103). With them go the modes the laws rest on: a format
stands in FORMATTING, nothing runs while the directory unit loads, a commit is in flight only in COMMITTING (R44, R109, R146,
R155, R156, R162). -/
def Obligations.CollectionsStayWithinTheirLimits : Prop :=
  (∀ s t : State, s.withinLimits = true → step s = .next t → t.withinLimits = true)
    ∧ ∀ s t : State, s.lawful → step s = .next t → t.lawful

/-- Only POWER_ON, RSTN_ASSERT, RSTN_RELEASE and POWER_LOSS change the supply, the RSTn pin or the device count, and every
step keeps the device count between 1 and 4 (R1). Whatever the command, the only row of the array that can change is the row
of a write in progress. -/
def Obligations.BoardAndArrayChangeOnlyByTheirCommands : Prop :=
  ((∀ (c : Instr) (s t : State), (∀ b, c ≠ .powerOn b) → (∀ p, c ≠ .rstnAssert p) → (∀ b, c ≠ .rstnRelease b) →
        (∀ p, c ≠ .powerLoss p) → exec c s = .next t →
          t.powered = s.powered ∧ t.rstAsserted = s.rstAsserted ∧ t.devices = s.devices)
    ∧ (∀ s t : State, s.countLegal = true → step s = .next t → t.countLegal = true))
  ∧ (∀ (c : Instr) (s t : State) (key : Nat), s.arrayCanonical = true → exec c s = .next t →
      t.array.read key = s.array.read key ∨
        ∃ k r ws, s.seq.current = some (k, r) ∧ r.data = some ws ∧ r.phys.inArray s.devices = true ∧ key = r.phys.key)

/-! ## Supply, RSTn, reset values -/

/-- The window after reset reads as Table 11-1 gives, and INTn is released. The reset value of every block, whatever the
supply, the pin and the device count (R17, R58, R91, R98, R106, R108, R125, R156, R169, R175, R179). -/
def Obligations.WindowAndBlocksAfterReset : Prop :=
  ((∀ o : BitVec 5, State.reset.readRegister o =
      if o = 0x00 then 0xF001
      else if 0x10 ≤ o ∧ o ≤ 0x13 then 0xFFFF
      else if o = 0x18 then 0x2416
      else 0) ∧
    State.reset.intAsserted = false)
  ∧ (∀ (p r : Bool) (n : Nat),
      let c := Chip.resetBlocks p r n
      c.bus.buffer = List.replicate 32 0 ∧ c.bus.pointer = 0 ∧ c.bus.enable = 0 ∧ c.eventsWord = 0
      ∧ c.cmd.st = .idle ∧ c.cmd.stopRequest = false ∧ c.cmd.lastResult = .none ∧ c.cmd.results = ⟨0, 0, 0, 0⟩
      ∧ c.cmd.params = ⟨0, 0, 0, 0, 0, 0⟩
      ∧ c.seq = ⟨.empty, .empty, .empty, .empty, false⟩
      ∧ c.tr = ⟨[], 0, none, none⟩
      ∧ c.trk.pendingList = [] ∧ c.trk.watch = List.replicate 64 none
      ∧ (∀ g, g < 8 * n → g < 32 →
          (c.zone g).free = 16 ∧ (c.zone g).lentOut = 0 ∧ (c.zone g).borrowedIn = 0 ∧ (c.zone g).retiredRows = 0
            ∧ (c.zone g).uncEvents = 0 ∧ (c.zone g).grade = .good ∧ (c.zone g).exhausted = false)
      ∧ c.rep.st = .idle ∧ c.rep.job = none ∧ c.rep.waiting = none
      ∧ c.pat.mode = .off ∧ c.pat.st = .stopped ∧ c.pat.cursor = 0 ∧ c.pat.pass = 0 ∧ c.pat.pace = 0
      ∧ c.pat.tallies = ⟨0, 0, 0, 0⟩ ∧ c.pat.whole = true ∧ c.pat.lastPass = none ∧ c.pat.restartRequest = false
      ∧ c.pat.paceTimer = none
      ∧ c.dir.mode = .loading ∧ c.dir.opState = .loading ∧ c.dir.validA = false ∧ c.dir.validB = false
      ∧ c.dir.seqA = 0 ∧ c.dir.seqB = 0 ∧ c.dir.dirty = false ∧ c.dir.commitRequest = false ∧ c.dir.commitTimer = none
      ∧ c.dir.image = [] ∧ c.dir.loadBuffer = []
      ∧ c.health.policy = ⟨3, 4, 4, true, true, true, 8, 2, 10⟩ ∧ c.health.grade = .good ∧ c.health.queue = []
      ∧ c.health.lost = false)

/-- POWER_ON, and RSTN_RELEASE of a supplied part, sample the straps (N is their value plus 1), leave every block at its reset
value and begin the load with its first read; the array and the queue are as they were. POWER_ON with RSTn held begins no
load, RSTN_RELEASE without supply changes the pin alone, and without an assertion changes nothing (log entries 8, 26).
RSTN_ASSERT and POWER_LOSS leave every block at its reset value with the device count held. An access in progress ends
there: a read, and an idle port, leave the array as it was; a write leaves in its own row, and in no other, what the device
stored (the operand, log entry 4). That POWER_LOSS puts every block at its reset value at once and holds the device count is
the model's choice (log entry 8). -/
def Obligations.SupplyAndResetPinActAtOnce : Prop :=
  (∀ (straps : BitVec 2) (s : State),
      let n := straps.toNat + 1
      let loading : State :=
        { s with toChip := { Chip.resetBlocks true false n with
            seq := Sequencer.carrying (request .loadRead ⟨0, 8192⟩ none) } }
      (s.rstAsserted = false → exec (.powerOn straps) s = .next loading)
      ∧ (s.rstAsserted = true → exec (.powerOn straps) s = .next { s with toChip := Chip.resetBlocks true true n })
      ∧ (s.rstAsserted = true → s.powered = true → exec (.rstnRelease straps) s = .next loading)
      ∧ (s.rstAsserted = true → s.powered = false → exec (.rstnRelease straps) s = .next { s with rstAsserted := false })
      ∧ (s.rstAsserted = false → exec (.rstnRelease straps) s = .next s))
  ∧ (∀ (left : RowPatch) (s : State), s.arrayCanonical = true →
      ∃ m : Memory,
        exec (.rstnAssert left) s = .next { s with toChip := Chip.resetBlocks s.powered true s.devices, array := m }
        ∧ exec (.powerLoss left) s = .next { s with toChip := Chip.resetBlocks false s.rstAsserted s.devices, array := m }
        ∧ (s.seq.current = none → m = s.array)
        ∧ (∀ k r, s.seq.current = some (k, r) → r.data = none → m = s.array)
        ∧ (∀ k r ws, s.seq.current = some (k, r) → r.data = some ws → r.phys.inArray s.devices = true →
            m.read r.phys.key = (List.range 32).map (fun i => RowPatch.wordAt left i ((s.array.read r.phys.key).getD i 0))
            ∧ ∀ key, key ≠ r.phys.key → m.read key = s.array.read key))

/-! ## The check code and the array -/

/-- R23: the stored word of a data word, for every word of a row. -/
def Obligations.StoredWordCarriesItsCheckCode : Prop :=
  (∀ (ws : List Word) (i : Nat), i < 32 → (storedRow ws)[i]? = some (encodeWord (ws.getD i 0)))
  ∧ (∀ d : Word,
      dataBits (encodeWord d) = d
      ∧ (encodeWord d).getLsbD 16 = (d.getLsbD 0 ^^ d.getLsbD 1 ^^ d.getLsbD 3 ^^ d.getLsbD 4 ^^ d.getLsbD 6
          ^^ d.getLsbD 8 ^^ d.getLsbD 10 ^^ d.getLsbD 11 ^^ d.getLsbD 13 ^^ d.getLsbD 15)
      ∧ (encodeWord d).getLsbD 17 = (d.getLsbD 0 ^^ d.getLsbD 2 ^^ d.getLsbD 3 ^^ d.getLsbD 5 ^^ d.getLsbD 6
          ^^ d.getLsbD 9 ^^ d.getLsbD 10 ^^ d.getLsbD 12 ^^ d.getLsbD 13)
      ∧ (encodeWord d).getLsbD 18 = (d.getLsbD 1 ^^ d.getLsbD 2 ^^ d.getLsbD 3 ^^ d.getLsbD 7 ^^ d.getLsbD 8
          ^^ d.getLsbD 9 ^^ d.getLsbD 10 ^^ d.getLsbD 14 ^^ d.getLsbD 15)
      ∧ (encodeWord d).getLsbD 19 = (d.getLsbD 4 ^^ d.getLsbD 5 ^^ d.getLsbD 6 ^^ d.getLsbD 7 ^^ d.getLsbD 8
          ^^ d.getLsbD 9 ^^ d.getLsbD 10)
      ∧ (encodeWord d).getLsbD 20 = (d.getLsbD 11 ^^ d.getLsbD 12 ^^ d.getLsbD 13 ^^ d.getLsbD 14 ^^ d.getLsbD 15)
      ∧ (encodeWord d).getLsbD 21 = (parity d ^^ (encodeWord d).getLsbD 16 ^^ (encodeWord d).getLsbD 17
          ^^ (encodeWord d).getLsbD 18 ^^ (encodeWord d).getLsbD 19 ^^ (encodeWord d).getLsbD 20)
      ∧ parity (encodeWord d) = false)
  ∧ encodeWord 0 = 0 ∧ storedRow zeroRow = List.replicate 32 0

/-- R24: the six lines of its table, the meaning of the syndrome, and the two laws of changed bits that follow. -/
def Obligations.WordsAreJudgedByTheSyndromeTable : Prop :=
  (∀ (x : Stored) (j : Nat), j < 5 → (syndrome x).getLsbD j = (x.getLsbD (16 + j) ^^ checkBit (dataBits x) j))
  ∧ (∀ x : Stored, syndrome x = 0 → parity x = false → decodeWord x = (.clean, dataBits x))
  ∧ (∀ x : Stored, syndrome x = 0 → parity x = true → decodeWord x = (.corrected, dataBits x))
  ∧ (∀ x : Stored, (syndrome x).toNat ∈ [1, 2, 4, 8, 16] → parity x = true → decodeWord x = (.corrected, dataBits x))
  ∧ (∀ (x : Stored) (i : Nat), i < 16 →
      (syndrome x).toNat = [3, 5, 6, 7, 9, 10, 11, 12, 13, 14, 15, 17, 18, 19, 20, 21].getD i 0 → parity x = true →
      decodeWord x = (.corrected, dataBits x ^^^ BitVec.twoPow 16 i))
  ∧ (∀ x : Stored, 22 ≤ (syndrome x).toNat → parity x = true → decodeWord x = (.uncorrectable, dataBits x))
  ∧ (∀ x : Stored, syndrome x ≠ 0 → parity x = false → decodeWord x = (.uncorrectable, dataBits x))
  ∧ (∀ (d : Word) (i : Nat), i < 22 → decodeWord (encodeWord d ^^^ BitVec.twoPow 22 i) = (.corrected, d))
  ∧ (∀ (d : Word) (i j : Nat), i < 22 → j < 22 → i ≠ j →
      decodeWord (encodeWord d ^^^ BitVec.twoPow 22 i ^^^ BitVec.twoPow 22 j) =
        (.uncorrectable, dataBits (encodeWord d ^^^ BitVec.twoPow 22 i ^^^ BitVec.twoPow 22 j)))
  ∧ (∀ row : List Stored,
      (deliver row).words = row.map (fun x => (decodeWord x).2)
      ∧ (deliver row).outcome = rowOutcome (row.map fun x => (decodeWord x).1))

/-- A row written with DONE reads back CLEAN with the words written, and no other physical row changes (R27, R29, R30);
distinct rows of the present devices have distinct keys (R2, R22); a row outcome is the worst of its word outcomes (R8). Home
rows and spare rows lie where Table 1-1 puts them, inside the array where their device is present, and no home row is a spare
row (R2 to R6). -/
def Obligations.RowsLieApartReadBackAndAreJudged : Prop :=
  (((∀ (m : Memory) (p : PhysRow) (ws : List Word), m.wf = true → ws.length = 32 →
         ((m.write p ws).deliver p []).words = ws
         ∧ (∀ o ∈ ((m.write p ws).deliver p []).outcomes, o = .clean)
         ∧ ((m.write p ws).deliver p []).outcomes.length = 32
         ∧ ∀ key, key ≠ p.key → (m.write p ws).read key = m.read key)
     ∧ (∀ (n : Nat) (p q : PhysRow), p.inArray n = true → q.inArray n = true → p.key = q.key → p = q))
   ∧ (∀ os : List ReadOutcome,
       (.uncorrectable ∈ os → rowOutcome os = .uncorrectable)
       ∧ (.uncorrectable ∉ os → .corrected ∈ os → rowOutcome os = .corrected)
       ∧ (.uncorrectable ∉ os → .corrected ∉ os → rowOutcome os = .clean)))
  ∧ ((∀ (n l : Nat), l < 8064 * n →
         (homePhys l).inArray n = true
         ∧ (homePhys l).device = l / 8064
         ∧ (homePhys l).row = l % 8064 / 1008 * 1024 + l % 8064 % 1008
         ∧ homeZone l = 8 * (l / 8064) + l % 8064 / 1008)
     ∧ (∀ l l' : Nat, homePhys l = homePhys l' → l = l')
     ∧ (∀ t : SpareId, t.phys = ⟨t.device.val, t.zone.val * 1024 + 1008 + t.index.val⟩
         ∧ t.globalZone = 8 * t.device.val + t.zone.val)
     ∧ (∀ t u : SpareId, t.phys = u.phys → t = u)
     ∧ (∀ (l : Nat) (t : SpareId), homePhys l ≠ t.phys)
     ∧ (∀ (n : Nat) (t : SpareId), t.device.val < n → t.phys.inArray n = true))

/-! ## Taking a command -/

/-- A COMMAND write of any of the sixteen commands, and of any other word, that finds the engine busy or the part LOADING or
FORMATTING sets CMD_REFUSED and changes nothing else (R43). In UNFORMATTED and FOREIGN every command but FORMAT ARRAY ends
with STATE and changes nothing but the engine's copy of the parameters, the results, the last result and CMD_DONE (R44 step
2); a COMMAND write of a word that names no command, accepted in any of the four states, ends with PARAM (R44 step 1). A
parameter outside its values ends its command with PARAM (R44 step 3, R59, R100, R117, R121, R122, R135, R138, R169, R170),
and a row at or past 8,064 × N ends it with RANGE after the parameter values have passed (R5, R44 step 4). That the result
registers then read 0000h is the model's choice (log entry 17). -/
def Obligations.BusyRefusalsAndFailedChecksTurnCommandsAway : Prop :=
  (∀ s : State, s.refuses = true → s.seq.settled = true →
     (∀ c ∈ commandWrites, exec c s = .next { s with bus := { s.bus with cmdRefused := true } })
     ∧ ∀ w : Word, exec (.registerWrite 0x01 w) s = .next { s with bus := { s.bus with cmdRefused := true } })
  ∧ ((∀ (s : State) (c : Instr), c ∈ commandWrites → c ≠ .formatArray → s.running = true → s.cmd.st = .idle →
        s.dir.opState = .unformatted ∨ s.dir.opState = .foreign → s.seq.settled = true →
          exec c s = .next (s.ended .state Results.zero))
    ∧ (∀ (s : State) (w : Word), s.running = true → s.cmd.st = .idle → s.dir.opState ≠ .loading →
        s.dir.opState ≠ .formatting → w ∉ commandCodes → s.seq.settled = true →
          exec (.registerWrite 0x01 w) s = .next (s.ended .param Results.zero)))
  ∧ ((∀ s : State, s.accepts = true → s.seq.settled = true →
        let p := s.cmd.params
        let refused := s.ended .param Results.zero
        (p.p1.toNat = 0 ∨ 256 < p.p1.toNat →
          exec .readRows s = .next refused ∧ exec .writeRows s = .next refused ∧ exec .checkRows s = .next refused)
        ∧ (p.p1 = 0 →
          exec .listMap s = .next refused ∧ exec .listPending s = .next refused ∧ exec .listWatch s = .next refused
            ∧ exec .listZones s = .next refused)
        ∧ (p.p1 ≠ 0 ∧ p.p1 ≠ 1 → exec .relocateRow s = .next refused)
        ∧ ((p.p0 ≠ 1 ∧ p.p0 ≠ 2) ∨ 255 < p.p1.toNat ∨ (p.p2 ≠ 0 ∧ p.p2 ≠ 1) → exec .patrolStart s = .next refused)
        ∧ (p.p0 ≠ 0 ∧ p.p0 ≠ 1 → exec .patrolReport s = .next refused)
        ∧ (p.p0.toNat < 2 ∨ 15 < p.p0.toNat ∨ p.p1.toNat < 1 ∨ 15 < p.p1.toNat ∨ 16 < p.p2.toNat
            ∨ p.p4.toNat % 32 < 1 ∨ 16 < p.p4.toNat % 32 ∨ 15 < p.p4.toNat / 256 % 32
            ∨ p.p4.toNat % 32 ≤ p.p4.toNat / 256 % 32 ∨ 255 < p.p5.toNat →
          exec .setPolicy s = .next refused))
    ∧ (∀ s : State, s.accepts = true → s.seq.settled = true →
        let p := s.cmd.params
        let refused := s.ended .range Results.zero
        (1 ≤ p.p1.toNat → p.p1.toNat ≤ 256 → 8064 * s.devices ≤ p.p0.toNat + p.p1.toNat - 1 →
          exec .readRows s = .next refused ∧ exec .writeRows s = .next refused ∧ exec .checkRows s = .next refused)
        ∧ (8064 * s.devices ≤ p.p0.toNat →
          exec .queryRow s = .next refused ∧ exec .nominateRow s = .next refused
            ∧ (p.p1 = 0 ∨ p.p1 = 1 → exec .relocateRow s = .next refused))))

/-! ## The data port -/

/-- R50: a read of DATA outside DATA_OUT returns 0000h, a write outside DATA_IN is ignored, PORT_MISUSE is set, and nothing
else changes (what the part drove is the model's own field, log entry 5). -/
def Obligations.DataMisuseSetsTheFlagAlone : Prop :=
  ∀ s : State, s.running = true → s.seq.settled = true →
    (s.cmd.st ≠ .dataOut →
      exec .dataRead s = .next { s with bus := { s.bus with portMisuse := true, dataOut := some 0 } })
    ∧ (∀ w : Word, s.cmd.st ≠ .dataIn →
      exec (.dataWrite w) s = .next { s with bus := { s.bus with portMisuse := true } })

/-- Before word 31 a read of an offer returns the word at the pointer and a write of a transfer stores it there; the pointer
rises by 1 and nothing else changes (R48, R49). -/
def Obligations.DataPortMovesOneWord : Prop :=
  ∀ s : State, s.running = true → s.seq.settled = true → s.bus.pointer < 31 →
    (s.cmd.st = .dataOut →
      exec .dataRead s = .next { s with
        bus := { s.bus with pointer := s.bus.pointer + 1, dataOut := some (s.bus.buffer.getD s.bus.pointer 0) } })
    ∧ (∀ w : Word, s.cmd.st = .dataIn →
      exec (.dataWrite w) s = .next { s with
        bus := { s.bus with buffer := s.bus.buffer.set s.bus.pointer w, pointer := s.bus.pointer + 1 } })

/-- Word 31 of a row. Of an offer: the row is done and counted, and after the last row READ ROWS ends with its results,
otherwise the next row, if it has a physical row, is read at once from an idle port (R48, R62, R63, R64). Of a transfer to a
row with a physical row that is not pending UNC: the ordinary write of the 32 buffer words is issued and granted, and every
claim that holds the row is marked (R19, R49, R69, R70). Then what a done row adds to the counts, and the final registers
and result of a transfer command (R59, R62, R64). Word 31 of a list fill: the next fill is offered, or the command ends with
OK and its results (R48, R100). A RETIRED next row of READ ROWS is offered as zeros at once (R63). Of a transfer to a
RETIRED row: the row is done and counts as failing, and the next is asked for or the command ends; to a row pending UNC:
write-repair waits while a spare is TESTING, and otherwise takes a spare and qualifies it, or without one writes the row in
place, with ZONE_EXHAUSTED where it is due (R69, R73, R77, R106). -/
def Obligations.Word31EndsTheDataPhase : Prop :=
  (∀ (s : State) (t : Transfer) (k : RowKind), s.running = true → s.cmd.st = .dataOut → s.bus.pointer = 31 →
      s.cmd.work = .transfer t → t.kind = .read → t.phase = .offering k → s.cmd.stopRequest = false →
      let u := t.count k.fail k.extra
      let bus := { s.bus with pointer := 0, dataOut := some (s.bus.buffer.getD 31 0) }
      (t.last ≤ t.row → s.seq.settled = true →
        exec .dataRead s = .next { s with bus := bus.commandDone, cmd := s.cmd.finished u.code u.results })
      ∧ (∀ p, t.row < t.last → (s.lookup (t.row + 1)).phys = some p → s.seq = Sequencer.reset →
        exec .dataRead s = .next { s with
          bus := bus
          cmd := { s.cmd with
            st := .executing, results := { s.cmd.results with r0 := word (t.done + 1) }
            work := .transfer { u with row := t.row + 1, phase := .reading } }
          seq := Sequencer.carrying (request .readRowsRead p none) }))
  ∧ (∀ (s : State) (t : Transfer) (w : Word) (p : PhysRow), s.running = true → s.cmd.st = .dataIn → s.bus.pointer = 31 →
      s.cmd.work = .transfer t → (s.lookup t.row).phys = some p → s.pendingUnc t.row = false → s.seq = Sequencer.reset →
        exec (.dataWrite w) s = .next { s with
          bus := { s.bus with buffer := s.bus.buffer.set 31 w, pointer := 0 }
          cmd := { s.cmd with st := .executing, work := .transfer { t with phase := .writing } }
          tr := { s.tr with repairClaim := markClaim t.row s.tr.repairClaim, patrolClaim := markClaim t.row s.tr.patrolClaim }
          seq := Sequencer.carrying (request .ordinaryWrite p (some (s.bus.buffer.set 31 w))) })
  ∧ (∀ (t : Transfer) (n : Nat),
      let ok := t.count none n
      ok.done = t.done + 1 ∧ ok.fails = t.fails ∧ ok.firstFail = t.firstFail ∧ ok.extra = t.extra + n
      ∧ (∀ k, let bad := t.count (some k) n
          bad.done = t.done + 1 ∧ bad.fails = t.fails + 1 ∧ bad.extra = t.extra + n
          ∧ (t.firstFail = none → bad.firstFail = some (t.row, k)) ∧ (∀ f, t.firstFail = some f → bad.firstFail = some f))
      ∧ (t.firstFail = none → t.code = .ok ∧ t.results = ⟨word t.done, 0xFFFF, word t.fails, word t.extra⟩)
      ∧ (∀ r k, t.firstFail = some (r, k) → t.code = k ∧ t.results = ⟨word t.done, word r, word t.fails, word t.extra⟩))
  ∧ ((∀ (s : State) (l : Listing), s.running = true → s.cmd.st = .dataOut → s.bus.pointer = 31 → s.cmd.work = .listing l →
        s.seq.settled = true →
        let next := { l with index := l.index + l.fill, want := l.want - l.fill, delivered := l.delivered + l.fill }
        let fill := ((s.records l.kind).drop next.index).take (min (if l.kind = .zones then 4 else 8) next.want)
        let bus := { s.bus with pointer := 0, dataOut := some (s.bus.buffer.getD 31 0) }
        (fill = [] →
          exec .dataRead s = .next { s with
            bus := bus.commandDone
            cmd := s.cmd.finished .ok
              (match l.kind with
                | .map => ⟨word next.delivered, word s.tr.remap.length, word s.sparedCount, word s.retiredCount⟩
                | .pending => ⟨word next.delivered, word s.trk.pendingList.length, 0, 0⟩
                | .watch => ⟨word next.delivered, word (s.records .watch).length, 0, 0⟩
                | .zones => ⟨word next.delivered, word (8 * s.devices), 0, 0⟩) })
        ∧ (fill ≠ [] →
          exec .dataRead s = .next { s with
            bus := { bus with buffer := fill.flatten ++ List.replicate (32 - fill.flatten.length) 0xFFFF }
            cmd := { s.cmd with work := .listing { next with fill := fill.length } } }))
    ∧ (∀ (s : State) (t : Transfer) (k : RowKind), s.running = true → s.cmd.st = .dataOut → s.bus.pointer = 31 →
        s.cmd.work = .transfer t → t.kind = .read → t.phase = .offering k → s.cmd.stopRequest = false → s.seq.settled = true →
        t.row < t.last → s.lookup (t.row + 1) = .retired →
          exec .dataRead s = .next { s with
            bus := { s.bus with buffer := zeroRow, pointer := 0, dataOut := some (s.bus.buffer.getD 31 0) }
            cmd := { s.cmd with
              results := { s.cmd.results with r0 := word (t.done + 1) }
              work := .transfer { t.count k.fail k.extra with row := t.row + 1, phase := .offering .retired } } })
    ∧ (∀ (s : State) (t : Transfer) (w : Word), s.running = true → s.cmd.st = .dataIn → s.bus.pointer = 31 →
        s.cmd.work = .transfer t → t.kind = .write → s.cmd.stopRequest = false →
        let bus := { s.bus with buffer := s.bus.buffer.set 31 w, pointer := 0 }
        let u := t.count (some .retired) 0
        (s.lookup t.row = .retired → s.seq.settled = true →
          (t.last ≤ t.row →
            exec (.dataWrite w) s = .next { s with bus := bus.commandDone, cmd := s.cmd.finished u.code u.results })
          ∧ (t.row < t.last →
            exec (.dataWrite w) s = .next { s with
              bus := bus
              cmd := { s.cmd with
                results := { s.cmd.results with r0 := word (t.done + 1) }
                work := .transfer { u with row := t.row + 1, phase := .dataIn } } }))
        ∧ (∀ x, (s.lookup t.row).phys = some x → s.pendingUnc t.row = true → s.seq = Sequencer.reset →
          (s.someTesting = true →
            exec (.dataWrite w) s = .next { s with
              bus := bus, cmd := { s.cmd with st := .executing, work := .transfer { t with phase := .repairWait } } })
          ∧ (∀ sp, s.someTesting = false → s.chooseSpare (homeZone t.row) = some sp →
            let c := s.takeSpare sp
            exec (.dataWrite w) s = .next { s with
              alloc := c.alloc, health := c.health, bus := { bus with gradeFlag := c.bus.gradeFlag }
              cmd := { s.cmd with st := .executing, work := .transfer { t with phase := .repairQualify, spare := some sp } }
              seq := Sequencer.carrying (request (.repairQualify 0) sp.phys (some (patternRow 0xAAAA 0x5555))) })
          ∧ (s.someTesting = false → s.chooseSpare (homeZone t.row) = none →
            let c := s.reportExhausted (homeZone t.row)
            exec (.dataWrite w) s = .next { s with
              alloc := c.alloc, health := c.health, bus := bus
              cmd := { s.cmd with st := .executing, work := .transfer { t with phase := .inPlace } }
              tr := { s.tr with repairClaim := markClaim t.row s.tr.repairClaim, patrolClaim := markClaim t.row s.tr.patrolClaim }
              seq := Sequencer.carrying (request .inPlaceWrite x (some (s.bus.buffer.set 31 w))) }))))

/-! ## The window: cycles, events, IDENT, notices, plain registers -/

/-- What the part drives in a read cycle: the word of the register the cycle began with, and nothing while the part is
unsupplied, in reset, in a write cycle or with both strobes asserted; which command each cycle is, a read of DATA and every
write having an effect; and no register command changes anything while the part is unsupplied or in reset (R38, R39). That
nothing is driven and no write taken while both strobes are asserted is R38's; that a read of DATA so overlapped neither
moves the word pointer nor sets PORT_MISUSE is the model's choice, R38 leaving it open (log entry 23, DESIGN CHOICE). A write
to EVENTS clears the write-1 flags whose places hold a 1, and nothing else; the register at 0Eh reads the seven flags in the
places of Table 11-1 (R55). The register at 0Ch reads the buffer word at the pointer in DATA_OUT and 0000h otherwise (R48,
R50). EVENT_ENABLE holds what was written; INTn is asserted exactly while a flag is both set and enabled and the part is
supplied and not in reset; the mask is 0000h after reset and soft reset keeps it (R56). A write to PARAM0 to PARAM5 stores
the word, which reads back; a write to a read-only or unused offset, and a CONTROL write with neither request, change nothing
(R39, R41, R180). In every state STATUS reads BUSY, DRQ, the operating state, the device grade and the last result in their
places, RESULT0 to RESULT3 the result registers, PATROL_STATE, PATROL_CURSOR and DIR_STATE the patrol's and the directory
unit's fields, every other bit of them 0; the write-only and the unused offsets read 0000h (R39, R42, R47, R57, R180, Tables
11-1 to 11-3). -/
def Obligations.WindowCyclesEventsAndPlainRegisters : Prop :=
  ((∀ (c : Chip) (y : BusCycle),
        (c.powered = false ∨ c.rstAsserted = true ∨ y.write = true ∨ y.overlap = true → c.driven y = none)
        ∧ (c.powered = true → c.rstAsserted = false → y.write = false → y.overlap = false →
            c.driven y = some (c.readRegister y.first)))
    ∧ (∀ y : BusCycle,
        (y.overlap = true → y.row = none)
        ∧ (y.overlap = false → y.write = false → y.row = if y.first = 0x0C then some .dataRead else none)
        ∧ (y.overlap = false → y.write = true → y.row = some (writeRow y.last y.data)))
    ∧ (∀ (s : State) (w : Word), s.powered = false ∨ s.rstAsserted = true → ∀ o : BitVec 5, exec (writeRow o w) s = .next s)
    ∧ (∀ s : State, s.powered = false ∨ s.rstAsserted = true → exec .dataRead s = .next s)
    ∧ (∀ (s : State) (o : BitVec 5) (w : Word), exec (writeRow o w) s = exec (.registerWrite o w) s))
  ∧ (((∀ (s : State) (w : Word), s.running = true → s.seq.settled = true →
        exec (.eventsWrite w) s = .next { s with bus := { s.bus with
          cmdDone := s.bus.cmdDone && !w.getLsbD 0
          cmdRefused := s.bus.cmdRefused && !w.getLsbD 1
          portMisuse := s.bus.portMisuse && !w.getLsbD 2
          gradeFlag := s.bus.gradeFlag && !w.getLsbD 3
          stateFlag := s.bus.stateFlag && !w.getLsbD 4 } })
      ∧ (∀ c : Chip,
          (c.eventsWord.getLsbD 0 = c.bus.cmdDone) ∧ (c.eventsWord.getLsbD 1 = c.bus.cmdRefused)
          ∧ (c.eventsWord.getLsbD 2 = c.bus.portMisuse) ∧ (c.eventsWord.getLsbD 3 = c.bus.gradeFlag)
          ∧ (c.eventsWord.getLsbD 4 = c.bus.stateFlag)
          ∧ (c.eventsWord.getLsbD 5 = decide (c.cmd.st = .dataOut ∨ c.cmd.st = .dataIn))
          ∧ (c.eventsWord.getLsbD 6 = decide (c.health.queue ≠ []))
          ∧ (∀ i, 7 ≤ i → c.eventsWord.getLsbD i = false)
          ∧ c.readRegister 0x0E = c.eventsWord
          ∧ (c.cmd.st = .dataOut → c.readRegister 0x0C = c.bus.buffer.getD c.bus.pointer 0)
          ∧ (c.cmd.st ≠ .dataOut → c.readRegister 0x0C = 0)))
    ∧ ((∀ (s : State) (w : Word), s.running = true → s.seq.settled = true →
        exec (.eventEnableWrite w) s = .next { s with bus := { s.bus with enable := w } })
      ∧ (∀ c : Chip, c.readRegister 0x0F = c.bus.enable)
      ∧ (∀ c : Chip, c.intAsserted = true ↔
          c.powered = true ∧ c.rstAsserted = false ∧ ∃ i, i < 7 ∧ c.eventsWord.getLsbD i = true
              ∧ c.bus.enable.getLsbD i = true)
      ∧ (∀ p r n, (Chip.resetBlocks p r n).bus.enable = 0)
      ∧ (∀ b : BusInterface, b.softReset.enable = b.enable)))
  ∧ (∀ (s : State) (w : Word), s.running = true → s.seq.settled = true →
      (∀ i : Nat, i < 6 →
        exec (.registerWrite (BitVec.ofNat 5 (2 + i)) w) s =
          .next { s with cmd := { s.cmd with params := s.cmd.params.set i w } }
        ∧ Chip.readRegister { s.toChip with cmd := { s.cmd with params := s.cmd.params.set i w } } (BitVec.ofNat 5 (2 + i)) = w
        ∧ ∀ j : Nat, j < 6 → j ≠ i →
            Chip.readRegister { s.toChip with cmd := { s.cmd with params := s.cmd.params.set i w } } (BitVec.ofNat 5 (2 + j))
              = s.readRegister (BitVec.ofNat 5 (2 + j)))
      ∧ (∀ o : BitVec 5, o = 0x00 ∨ (0x08 ≤ o ∧ o ≤ 0x0B) ∨ (0x10 ≤ o ∧ o ≤ 0x13) ∨ (0x15 ≤ o ∧ o ≤ 0x17) ∨ 0x19 ≤ o →
        exec (.registerWrite o w) s = .next s)
      ∧ (w.getLsbD 0 = false → w.getLsbD 1 = false → exec (.registerWrite 0x0D w) s = .next s))
  ∧ (∀ c : Chip,
      let bits := fun (o : BitVec 5) (lo width : Nat) => ((c.readRegister o).extractLsb' lo width).toNat
      (bits 0x00 0 1 = (if c.cmd.st ≠ .idle ∨ c.dir.opState = .loading ∨ c.dir.opState = .formatting then 1 else 0)
        ∧ bits 0x00 1 1 = (if c.cmd.st = .dataOut ∨ c.cmd.st = .dataIn then 1 else 0)
        ∧ bits 0x00 2 3 = (match c.dir.opState with
          | .loading => 0 | .ready => 1 | .degraded => 2 | .unformatted => 3 | .foreign => 4 | .formatting => 5)
        ∧ bits 0x00 5 1 = 0
        ∧ bits 0x00 6 2 = (match c.health.grade with | .good => 0 | .caution => 1 | .critical => 2 | .failing => 3)
        ∧ bits 0x00 8 4 = 0
        ∧ bits 0x00 12 4 = (match c.cmd.lastResult with
          | .ok => 0 | .param => 1 | .range => 2 | .state => 3 | .uncorrectable => 4 | .retired => 5 | .arrayTimeout => 6
          | .aborted => 7 | .listFull => 8 | .already => 9 | .noSpare => 10 | .deferred => 11 | .directoryFail => 12
          | .dataLost => 13 | .none => 15))
      ∧ (c.readRegister 0x08 = c.cmd.results.r0 ∧ c.readRegister 0x09 = c.cmd.results.r1
        ∧ c.readRegister 0x0A = c.cmd.results.r2 ∧ c.readRegister 0x0B = c.cmd.results.r3)
      ∧ (bits 0x15 0 2 = (match c.pat.mode with | .off => 0 | .single => 1 | .continuous => 2)
        ∧ bits 0x15 2 2 = 0
        ∧ bits 0x15 4 2 = (match c.pat.st with | .stopped => 0 | .pacing => 1 | .visiting => 2 | .halting => 3)
        ∧ bits 0x15 6 10 = 0
        ∧ (c.pat.cursor < 65536 → bits 0x16 0 16 = c.pat.cursor))
      ∧ ((bits 0x17 0 1 = if c.dir.validA then 1 else 0) ∧ (bits 0x17 1 1 = if c.dir.validB then 1 else 0)
        ∧ (bits 0x17 2 1 = if c.dir.dirty then 1 else 0)
        ∧ (bits 0x17 3 1 = if c.dir.mode = .committing then 1 else 0)
        ∧ bits 0x17 4 4 = 0
        ∧ (c.tr.changes ≤ 16 → bits 0x17 8 5 = c.tr.changes ∧ bits 0x17 13 3 = 0))
      ∧ (c.readRegister 0x01 = 0 ∧ c.readRegister 0x0D = 0 ∧ ∀ o : BitVec 5, 0x19 ≤ o → c.readRegister o = 0))

/-- R40: IDENT reads the field its selector names, and a write moves the selector for 0000h and 0001h alone. -/
def Obligations.IdentReadsTheSelectedField : Prop :=
  (∀ c : Chip, c.readRegister 0x18 = if c.bus.identRevision then 0x0001 else 0x2416)
  ∧ (∀ (s : State) (w : Word), s.running = true → s.seq.settled = true →
      exec (.identWrite w) s = .next { s with bus := { s.bus with
        identRevision := if w = 0 then false else if w = 1 then true else s.bus.identRevision } })
  ∧ (∀ p r n, (Chip.resetBlocks p r n).bus.identRevision = false)
  ∧ (∀ b : BusInterface, b.softReset.identRevision = b.identRevision)

/-- R178: a pop, what NOTICE0 to NOTICE3 and NOTICE_CTRL show, and a pop and an arrival in either order. Beside it, how a
notice joins: at the tail with the current pass number while the queue holds fewer than 16 records, otherwise dropped with
NOTICE_LOST set (R177); and the four words of each of the eleven kinds at the head, kind and zone, row, value and pass number
(Tables 11-10 and 11-11). -/
def Obligations.NoticesJoinTheTailAndPopTakesTheHead : Prop :=
  ((∀ (s : State) (w : Word), s.running = true → s.seq.settled = true →
        (s.health.queue = [] → exec (.noticePop w) s = .next s)
        ∧ (∀ n rest, s.health.queue = n :: rest →
            exec (.noticePop w) s = .next { s with health := { s.health with
              queue := rest, lost := if rest = [] then false else s.health.lost } }))
    ∧ (∀ c : Chip,
        (c.health.queue = [] → ∀ o : BitVec 5, 0x10 ≤ o → o ≤ 0x13 → c.readRegister o = 0xFFFF)
        ∧ (∀ n rest, c.health.queue = n :: rest →
            c.readRegister 0x10 = word (n.body.kindCode + 256 * n.body.zoneByte) ∧ c.readRegister 0x11 = n.body.rowWord
              ∧ c.readRegister 0x12 = n.body.valueWord ∧ c.readRegister 0x13 = n.stamp)
        ∧ c.readRegister 0x14 = word (c.health.queue.length + if c.health.lost then 32768 else 0))
    ∧ (∀ (c : Chip) (b : NoticeBody),
        (c.health.queue = [] → c.popNotice = c ∧ (c.raise b).popNotice.health.queue = [])
        ∧ (∀ n rest, c.health.queue = n :: rest → c.health.queue.length ≤ 16 →
            (c.popNotice.raise b).health.queue = rest ++ [⟨b, c.pat.pass⟩])
        ∧ (∀ n rest, c.health.queue = n :: rest → c.health.queue.length < 16 →
            (c.raise b).popNotice.health.queue = rest ++ [⟨b, c.pat.pass⟩])
        ∧ (∀ n rest, c.health.queue = n :: rest → c.health.queue.length = 16 →
            (c.raise b).popNotice.health.queue = rest ∧ (c.raise b).popNotice.health.lost = true)))
  ∧ (∀ (c : Chip) (b : NoticeBody),
      (c.health.queue.length < 16 →
        c.raise b = { c with health := { c.health with queue := c.health.queue ++ [⟨b, c.pat.pass⟩] } })
      ∧ (16 ≤ c.health.queue.length → c.raise b = { c with health := { c.health with lost := true } }))
  ∧ (∀ (c : Chip) (n : Notice) (rest : List Notice), c.health.queue = n :: rest →
      let shows := fun (kind zone : Nat) (row value : Word) =>
        c.readRegister 0x10 = BitVec.ofNat 16 (kind + 256 * zone) ∧ c.readRegister 0x11 = row ∧ c.readRegister 0x12 = value
          ∧ c.readRegister 0x13 = n.stamp
      match n.body with
      | .repaired row zone t old => shows 0x01 zone (BitVec.ofNat 16 row)
          (BitVec.ofNat 16 (128 * t.device.val + 16 * t.zone.val + t.index.val + if old then 32768 else 0))
      | .spareBad zone index => shows 0x02 zone 0xFFFF (BitVec.ofNat 16 index)
      | .retired row => shows 0x03 0xFF (BitVec.ofNat 16 row) 0xFFFF
      | .stuck row => shows 0x04 0xFF (BitVec.ofNat 16 row) 0xFFFF
      | .uncFound row => shows 0x05 0xFF (BitVec.ofNat 16 row) 0xFFFF
      | .pendingFull row => shows 0x06 0xFF (BitVec.ofNat 16 row) 0xFFFF
      | .zoneExhausted zone => shows 0x07 zone 0xFFFF 0xFFFF
      | .gradeChange g => shows 0x08 0xFF 0xFFFF (match g with | .good => 0 | .caution => 1 | .critical => 2 | .failing => 3)
      | .directoryFail k why => shows 0x09 0xFF 0xFFFF
          ((match k with | .a => 0x0000 | .b => 0x0100) ||| match why with | .timeout => 1 | .verify => 2 | .sequence => 3)
      | .patrolStopped why => shows 0x0A 0xFF 0xFFFF
          (match why with | .halted => 1 | .singleDone => 2 | .timeout => 3 | .format => 4)
      | .passDone pass => shows 0x0B 0xFF 0xFFFF pass)

/-! ## STOP and SOFT RESET -/

/-- STOP in IDLE has no effect; while a row or a fill is on offer, or a row is being written by the host, the command ends at
once with ABORTED and the results of the rows or records before it (R52, R66, R71, R100). That the words of the discarded
buffer and the pointer stay as they are is the model's reading (log entry 25, DEDUCED). -/
def Obligations.StopEndsADataPhaseAtOnce : Prop :=
  ∀ s : State, s.running = true → s.seq.settled = true →
    (s.cmd.st = .idle → exec .stop s = .next s)
    ∧ (∀ t, s.cmd.st ≠ .idle → s.cmd.work = .transfer t → t.spare = none →
        t.phase = .dataIn ∨ (∃ k, t.phase = .offering k) →
        exec .stop s = .next { s with bus := s.bus.commandDone, cmd := s.cmd.finished .aborted t.results })
    ∧ (∀ l, s.cmd.st ≠ .idle → s.cmd.work = .listing l →
        exec .stop s = .next { s with bus := s.bus.commandDone, cmd := s.cmd.finished .aborted (s.listResults l) })

/-- STOP while a command is in EXECUTING. Of a transfer command: an access in progress records it; a request that waits is
withdrawn, a spare write-repair holds returns to FREE and the command ends with ABORTED and the results of the rows done
before; so does the wait for the TESTING resource (R52, R66, R71, R79). RELOCATE ROW: a job that waits is withdrawn; of one
that runs an access in progress records the STOP, and otherwise its request is withdrawn and the job abandoned (R115, R120).
A waiting PATROL START ends with its restart request cleared, a waiting PATROL HALT with the patrol left HALTING, a waiting
COMMIT DIRECTORY with the commit going on (R136, R137, R152). Each ends with ABORTED. The model's choices: a read-back of a
no-spare path that waits runs with its write (log entry 16), a transfer that waits for a discarded access ends at once (log
entry 30), and a withdrawn job ends with the registers of R118 (log entry 17). -/
def Obligations.StopInExecutingIsRecordedOrEndsTheCommand : Prop :=
  ∀ s : State, s.running = true → s.cmd.st ≠ .idle → s.seq.settled = true →
    let recorded : State := { s with cmd := { s.cmd with stopRequest := true } }
    let aborted := fun (c : Chip) (res : Results) =>
      ({ s with toChip := { c with bus := c.bus.commandDone, cmd := s.cmd.finished .aborted res } } : State)
    let giveBack := fun (o : Option SpareId) (c : Chip) => match o with
      | none => c
      | some sp => c.releaseSpare sp
    (∀ t, s.cmd.work = .transfer t →
      (t.phase = .repairWait ∨ t.phase = .awaitSlot →
        exec .stop s = .next (aborted (giveBack t.spare s.toChip) t.results))
      ∧ (t.phase ∈ [.reading, .scrubbing, .writing, .repairQualify, .repairData, .repairVerify, .inPlace, .readBack] →
        (s.cmd.held ≠ none → exec .stop s = .next (aborted (giveBack t.spare s.toChip) t.results))
        ∧ (∀ r, s.cmd.held = none → s.seq.foreground = .inProgress r → exec .stop s = .next recorded)
        ∧ (∀ r, s.cmd.held = none → s.seq.foreground = .waiting r →
          (r.purpose ≠ .readBack → exec .stop s =
            .next (aborted (giveBack t.spare { s.toChip with seq := { s.seq with foreground := .empty } }) t.results))
          ∧ (r.purpose = .readBack → exec .stop s = .next recorded))))
    ∧ (∀ l, s.cmd.work = .relocate l →
      (∀ w, s.rep.waiting = some w →
        exec .stop s = .next (aborted { s.toChip with rep := { s.rep with waiting := none } }
          ⟨word (s.lookup l).code, (s.lookup l).targetWord, 0, 0⟩))
      ∧ (∀ j, s.rep.waiting = none → s.rep.job = some j →
        (∀ r, s.seq.repair = .inProgress r → exec .stop s = .next recorded)
        ∧ (∀ r, s.seq.repair = .waiting r → r.purpose = .zeroReadBack → exec .stop s = .next recorded)
        ∧ (s.seq.repair = .empty ∨ (∃ r, s.seq.repair = .waiting r ∧ r.purpose ≠ .zeroReadBack) → j.command = true →
          let c := giveBack j.spare { s.toChip with
            seq := { s.seq with repair := .empty }
            trk := { s.trk with pendingList := s.trk.pendingList.map fun e =>
              if e.row = j.row then { e with restarts := 0 } else e } }
          exec .stop s = .next (aborted
            { c with tr := { s.tr with repairClaim := none }, rep := { s.rep with st := .idle, job := none } }
            ⟨word (s.lookup j.row).code, (s.lookup j.row).targetWord, word j.madeBad, 0⟩))))
    ∧ (s.cmd.work = .patrolRestart →
        exec .stop s = .next (aborted { s.toChip with pat := { s.pat with restartRequest := false } }
          ⟨word s.pat.cursor, s.pat.pass, 0, 0⟩))
    ∧ (s.cmd.work = .patrolHalt → exec .stop s = .next (aborted s.toChip ⟨word s.pat.cursor, s.pat.pass, 0, 0⟩))
    ∧ (s.cmd.work = .commitWait ∨ (∃ k n, s.cmd.work = .commitRun k n) →
        exec .stop s = .next (aborted s.toChip ⟨0, 0, 0, 0⟩))

/-- The completion of an access with a STOP pending. READ ROWS reports the row and ends without it; CHECK ROWS counts the row
unless a scrub is due; a scrub that completes ends READ ROWS without the row and counts for CHECK ROWS (R66, R68); an
ordinary write counts (R71). Write-repair gives its spare back after a qualification or data write, makes its map update
after a verify that passes, and handles a read-back in full, the row being done after these two (R79). Each ends with
ABORTED. A RELOCATE ROW job reports its source read, makes a spare that fails BAD, takes its map update after a verify that
passes, reads back a zero write, handles a zero read-back in full, and else is abandoned before its next access; the command
ends with ABORTED and the registers of R118 (R115, R118, R120). That a job whose verify passes on a row RETIRED meanwhile
makes no map update and gives its spare back is the model's choice (log entry 31). That a failed test of write-repair's spare
makes it BAD before the end, and that a job ends with ABORTED whatever its own result, are the model's choices (log entry
16). -/
def Obligations.StopPendingEndsAtTheCompletion : Prop :=
  (∀ (s : State) (t : Transfer) (x : PhysRow) (flips : RowPatch), s.cmd.work = .transfer t → s.cmd.stopRequest = true →
      x.inArray s.devices = true →
      let d := s.array.deliver x flips
      let ends := fun (c : Chip) (u : Transfer) (arr : Memory) =>
        ({ s with array := arr, toChip := { c with bus := c.bus.commandDone, cmd := s.cmd.finished .aborted u.results } }
          : State)
      let reported := fun path =>
        s.portFreed.report { row := t.row, phys := x, outcome := d.outcome, path, readBack := false }
      let scrubDue := d.outcome = .corrected ∧ s.health.policy.scrubOnRead = true ∧ (s.lookup t.row).phys = some x
        ∧ claimHolds s.tr.repairClaim t.row = false
      (t.spare = none →
        (s.seq = Sequencer.carrying (request .readRowsRead x none) → t.kind = .read →
          exec (.readRowsReadDone flips) s = .next (ends (reported .read) t s.array))
        ∧ (s.seq = Sequencer.carrying (request .checkRowsRead x none) → t.kind = .check →
          (scrubDue → exec (.checkRowsReadDone flips) s = .next (ends (reported .check) t s.array))
          ∧ (¬ scrubDue → exec (.checkRowsReadDone flips) s = .next (ends (reported .check)
              (t.count (RowKind.seen d.outcome).fail (RowKind.seen d.outcome).extra) s.array)))
        ∧ (∀ ws, s.seq = Sequencer.carrying (request .scrubWrite x (some ws)) →
          (t.kind = .read → exec .scrubWriteDone s = .next (ends s.portFreed t (s.array.write x ws)))
          ∧ (t.kind = .check → exec .scrubWriteDone s = .next (ends s.portFreed (t.count none 1) (s.array.write x ws))))
        ∧ (∀ ws, s.seq = Sequencer.carrying (request .ordinaryWrite x (some ws)) →
          exec .ordinaryWriteDone s = .next (ends s.portFreed (t.count none 0) (s.array.write x ws)))
        ∧ (s.seq = Sequencer.carrying (request .readBack x none) →
          let c := s.portFreed.report { row := t.row, phys := x, outcome := d.outcome, path := .write, readBack := true }
          (d.outcome ≠ .uncorrectable → exec (.readBackDone flips) s = .next (ends c (t.count none 0) s.array))
          ∧ (d.outcome = .uncorrectable →
            let r := c.retireOrStick t.row .write
            let u := t.count (some (if r.2 = .tableFull then .noSpare else .retired)) 0
            exec (.readBackDone flips) s = .next { s with
              toChip := Chip.settle 8 { r.1 with bus := r.1.bus.commandDone, cmd := s.cmd.finished .aborted u.results } })))
      ∧ (∀ sp, t.spare = some sp →
        (∀ k d', s.seq = Sequencer.carrying (request (.repairQualify k) x d') →
          let failed := k % 2 = 1 ∧ d.passes (if k < 2 then patternRow 0xAAAA 0x5555 else patternRow 0x5555 0xAAAA) = false
          let arr := match d' with | some ws => s.array.write x ws | none => s.array
          (¬ failed → exec (.writeRepairQualifyDone flips) s = .next (ends (s.portFreed.releaseSpare sp) t arr))
          ∧ (failed → exec (.writeRepairQualifyDone flips) s = .next (ends (s.portFreed.spoilSpare sp) t arr)))
        ∧ (∀ ws, s.seq = Sequencer.carrying (request .repairDataWrite x (some ws)) →
          exec .writeRepairDataWriteDone s = .next (ends (s.portFreed.releaseSpare sp) t (s.array.write x ws)))
        ∧ (s.seq = Sequencer.carrying (request .repairVerify x none) →
          (d.passes s.bus.buffer = true → s.lookup t.row ≠ .retired → s.tr.changes < 15 →
            exec (.writeRepairVerifyDone flips) s =
              .next (ends (s.portFreed.relocateTo t.row sp .write) (t.count none 1) s.array))
          ∧ (d.passes s.bus.buffer = true → s.lookup t.row = .retired →
            exec (.writeRepairVerifyDone flips) s =
              .next (ends (s.portFreed.releaseSpare sp) (t.count (some .retired) 0) s.array))
          ∧ (d.passes s.bus.buffer = false →
            exec (.writeRepairVerifyDone flips) s = .next (ends (s.portFreed.spoilSpare sp) t s.array)))))
  ∧ (∀ (s : State) (j : Job) (x : PhysRow) (flips : RowPatch), s.rep.job = some j → j.command = true →
      s.cmd.stopRequest = true → x.inArray s.devices = true →
      let d := s.array.deliver x flips
      let giveBack := fun (o : Option SpareId) (c : Chip) => match o with
        | none => c
        | some sp => c.releaseSpare sp
      let ends := fun (c : Chip) (madeBad : Nat) (arr : Memory) =>
        ({ s with
          array := arr
          toChip := { c with
            tr := { c.tr with repairClaim := none }, rep := { s.rep with st := .idle, job := none }
            bus := c.bus.commandDone
            cmd := s.cmd.finished .aborted ⟨word (c.lookup j.row).code, (c.lookup j.row).targetWord, word madeBad, 0⟩ } }
          : State)
      let abandoned := fun (c : Chip) (o : Option SpareId) => giveBack o { c with trk := { c.trk with
        pendingList := c.trk.pendingList.map fun e => if e.row = j.row then { e with restarts := 0 } else e } }
      (s.seq = Sequencer.carrying (request .sourceRead x none) →
        let c := s.portFreed.report { row := j.row, phys := x, outcome := d.outcome, path := j.origin, readBack := false }
        exec (.sourceReadDone flips) s = .next (ends (abandoned c j.spare) j.madeBad s.array))
      ∧ (∀ sp, j.spare = some sp →
        (∀ k d', s.seq = Sequencer.carrying (request (.qualification k) x d') →
          let failed := k % 2 = 1 ∧ d.passes (if k < 2 then patternRow 0xAAAA 0x5555 else patternRow 0x5555 0xAAAA) = false
          let arr := match d' with | some ws => s.array.write x ws | none => s.array
          (¬ failed → exec (.qualificationAccessDone flips) s = .next (ends (abandoned s.portFreed j.spare) j.madeBad arr))
          ∧ (failed → exec (.qualificationAccessDone flips) s =
              .next (ends (abandoned (s.portFreed.spoilSpare sp) none) (j.madeBad + 1) arr)))
        ∧ (∀ ws, s.seq = Sequencer.carrying (request .copyWrite x (some ws)) → claimMarked s.tr.repairClaim = false →
          exec .copyWriteDone s = .next (ends (abandoned s.portFreed j.spare) j.madeBad (s.array.write x ws)))
        ∧ (s.seq = Sequencer.carrying (request .verifyRead x none) →
          (d.passes (j.data.getD zeroRow) = true → claimMarked s.tr.repairClaim = false → s.lookup j.row ≠ .retired →
            s.tr.changes < 15 →
            exec (.verifyReadDone flips) s = .next (ends (s.portFreed.relocateTo j.row sp j.origin) j.madeBad s.array))
          ∧ (d.passes (j.data.getD zeroRow) = true → claimMarked s.tr.repairClaim = false → s.lookup j.row = .retired →
            exec (.verifyReadDone flips) s = .next (ends (s.portFreed.releaseSpare sp) j.madeBad s.array))
          ∧ (d.passes (j.data.getD zeroRow) = false →
            exec (.verifyReadDone flips) s =
              .next (ends (abandoned (s.portFreed.spoilSpare sp) none) (j.madeBad + 1) s.array))))
      ∧ (j.spare = none →
        (∀ ws, s.seq = Sequencer.carrying (request .zeroWrite x (some ws)) →
          exec .zeroWriteDone s = .next { s with
            array := s.array.write x ws, seq := Sequencer.carrying (request .zeroReadBack x none) })
        ∧ (s.seq = Sequencer.carrying (request .zeroReadBack x none) → claimMarked s.tr.repairClaim = false →
          let c := s.portFreed.report { row := j.row, phys := x, outcome := d.outcome, path := .write, readBack := true }
          (d.outcome ≠ .uncorrectable → exec (.zeroReadBackDone flips) s = .next (ends c j.madeBad s.array))
          ∧ (d.outcome = .uncorrectable → s.cmd.work ≠ .commitWait →
            let r := (c.retireOrStick j.row .host).1
            exec (.zeroReadBackDone flips) s = .next { s with
              toChip := Chip.settle 8 (ends r j.madeBad s.array).toChip }))))

/-- A soft reset, with or without the STOP bit, at a settled port. In every state the command ends without CMD_DONE, the
buffer and the write-1 flags are cleared, foreground and repair requests that wait are withdrawn and the completions of those
in progress will be discarded, a spare held by write-repair or by a job returns to FREE, the repair claim is emptied, its job
and its waiting row are dropped and every restarts count becomes 0 (R34, R35, R53, R54, R79, R96, R116). The patrol by its
state: STOPPED stays; HALTING stops with reason HALTED; VISITING and PACING go on in PACING with the interval run out, at
once with the visit of the cursor row where the patrol slot is free (R133). A format in flight ends at its next boundary
while an invalidating or initialisation write is in progress, and otherwise at once: UNFORMATTED with STATE, the copies
invalid, a commit in flight without effect, and the tables emptied if they were not (R167). That the flags are cleared before
the format's end sets STATE is the model's choice (log entry 14). -/
def Obligations.SoftResetActsBlockByBlock : Prop :=
  ∀ (b : Bool) (s : State), s.running = true → s.seq.settled = true →
    let out := fun (c : Chip) => exec (.softReset b) s = .next { s with toChip := c }
    let drop : Slot → Slot := fun q => match q with
      | .inProgress r => .inProgress { r with abandoned := true }
      | .waiting _ => .empty
      | .empty => .empty
    let giveBack := fun (o : Option SpareId) (c : Chip) => match o with
      | none => c
      | some sp => c.releaseSpare sp
    let cleared : Chip := { s.toChip with
      bus := { s.bus with
        buffer := zeroRow, pointer := 0, cmdDone := false, cmdRefused := false, portMisuse := false
        gradeFlag := false, stateFlag := false }
      cmd := { s.cmd with
        st := .idle, results := ⟨0, 0, 0, 0⟩, lastResult := .none, stopRequest := false, work := .none, held := none } }
    let held : Option SpareId := match s.cmd.work with
      | .transfer t => t.spare
      | _ => none
    let given := giveBack (s.rep.job.bind Job.spare) (giveBack held cleared)
    let reset : Chip := { given with
      tr := { s.tr with repairClaim := none }
      trk := { s.trk with pendingList := s.trk.pendingList.map fun e => { e with restarts := 0 } }
      rep := { st := .idle, job := none, waiting := none }
      seq := { s.seq with foreground := drop s.seq.foreground, repair := drop s.seq.repair } }
    let dropped : Chip := { reset with
      tr := { s.tr with repairClaim := none, patrolClaim := none }, seq := { reset.seq with patrol := drop s.seq.patrol } }
    let pacing : PatrolEngine := { s.pat with st := .pacing, restartRequest := false, paceTimer := none, intervalOut := true }
    (s.dir.format = none →
      (s.pat.st = .stopped → out reset)
      ∧ (s.pat.st = .halting → out { dropped with
          pat := { s.pat with mode := .off, st := .stopped, restartRequest := false, paceTimer := none }
          health := (given.raise (.patrolStopped .halted)).health })
      ∧ (∀ r, s.seq.patrol = .inProgress r → s.pat.st = .visiting → out { dropped with pat := pacing })
      ∧ (∀ r, s.seq.patrol = .inProgress r → s.pat.st = .pacing → out { reset with pat := pacing })
      ∧ (∀ x, (∀ r, s.seq.patrol ≠ .inProgress r) → (s.pat.st = .visiting ∨ s.pat.st = .pacing ∧ s.seq.patrol = .empty) →
          (s.lookup s.pat.cursor).phys = some x →
          let visiting : Chip := { reset with
            tr := { s.tr with repairClaim := none, patrolClaim := some { row := s.pat.cursor, overtaken := false } }
            pat := { s.pat with
              st := .visiting, restartRequest := false, paceTimer := if s.pat.pace = 0 then none else some s.pat.pace
              intervalOut := decide (s.pat.pace = 0) } }
          (s.seq = Sequencer.reset → out { visiting with seq := Sequencer.carrying (request .visitRead x none) })
          ∧ (s.seq.current ≠ none →
              out { visiting with seq := { reset.seq with patrol := .waiting (request .visitRead x none) } })))
    ∧ (∀ f, s.dir.format = some f → s.dir.opState = .formatting → s.pat.st = .stopped →
        (f.phase = .invalidating .a ∨ f.phase = .invalidating .b
            ∨ (∃ k, f.phase = .rowInit k) ∧ (∃ r, s.seq.foreground = .inProgress r) →
          out { reset with dir := { s.dir with format := some { f with ending := true } } })
        ∧ ((∃ k, f.phase = .rowInit k) ∧ (∀ r, s.seq.foreground ≠ .inProgress r) ∨ (∃ k, f.phase = .committing k) →
          out { reset with
            bus := { given.bus with stateFlag := true }
            dir := { s.dir with
              format := none, opState := .unformatted, validA := false, seqA := 0, validB := false, seqB := 0
              commit := s.dir.commit.map fun j => { j with detached := true } } })
        ∧ (f.phase = .waitCommit → held = none →
          out { cleared with
            tr := { remap := [], changes := 0, repairClaim := none, patrolClaim := none }
            rep := { st := .idle, job := none, waiting := none }
            seq := { s.seq with
              foreground := drop s.seq.foreground, repair := drop s.seq.repair, patrol := drop s.seq.patrol }
            alloc := { zones := freshZones s.devices }
            trk := { watch := List.replicate 64 none, pendingList := [] }
            pat := { PatrolEngine.reset with pace := s.pat.pace }
            bus := { cleared.bus with stateFlag := true, gradeFlag := decide (s.health.grade ≠ .good) }
            dir := { s.dir with
              dirty := false, commitRequest := false, commitTimer := none
              format := none, opState := .unformatted, validA := false, seqA := 0, validB := false, seqB := 0
              commit := s.dir.commit.map fun j => { j with detached := true } }
            health := {
              policy := Policy.default, lost := false, grade := .good
              queue := ⟨.patrolStopped .format, 0⟩ :: if s.health.grade = .good then [] else [⟨.gradeChange .good, 0⟩] } }))

/-! ## Commands that end at once -/

/-- QUERY ROW ends with RANGE for a row past the end, and otherwise at once with OK and the row's lookup result, target spare
id, pending entry and watch count, packed as section 11.2 gives, changing nothing else (R80, R181). PATROL REPORT of either
part ends at once with OK and the registers of R138, packed as Table 11-5 gives, changing nothing else; any other part ends
it with PARAM (R138, R181). The result registers of a command that ends with RANGE or PARAM are the model's choice (log
entry 17). -/
def Obligations.QueryRowAndPatrolReportShowTheState : Prop :=
  (∀ s : State, s.accepts = true → s.seq.settled = true →
      let l := s.cmd.params.p0.toNat
      (8064 * s.devices ≤ l → exec .queryRow s = .next (s.ended .range Results.zero))
      ∧ (l < 8064 * s.devices →
        exec .queryRow s = .next (s.ended .ok
          ⟨match s.lookup l with
             | .home _ => 0
             | .spared _ => 1
             | .retired => 2,
           match s.lookup l with
             | .spared t => t.pack
             | .home _ => 0xFFFF
             | .retired => 0xFFFF,
           match s.pendingOf l with
             | some e => word (e.cause.code + 16 * e.source.code + 256 * bit e.starved + 512 * bit e.stuck + 4096 * e.restarts)
             | none => 0xFFFF,
           match s.watchOf l with
             | some e => word e.count
             | none => 0⟩)))
  ∧ (∀ s : State, s.accepts = true → s.seq.settled = true →
      (s.cmd.params.p0 ≠ 0 → s.cmd.params.p0 ≠ 1 → exec .patrolReport s = .next (s.ended .param Results.zero))
      ∧ (s.cmd.params.p0 = 0 →
        exec .patrolReport s = .next (s.ended .ok
          ⟨word (s.pat.mode.code + 16 * s.pat.st.code + 128 * bit s.pat.whole + 256 * s.pat.tallies.skipped),
           word s.pat.cursor, word s.pat.tallies.visited, word (s.pat.tallies.corrected + 256 * s.pat.tallies.unc)⟩))
      ∧ (s.cmd.params.p0 = 1 → s.pat.lastPass = none →
        exec .patrolReport s = .next (s.ended .ok ⟨s.pat.pass, 0xFFFF, 0, 0⟩))
      ∧ (∀ r, s.cmd.params.p0 = 1 → s.pat.lastPass = some r →
        exec .patrolReport s = .next (s.ended .ok
          ⟨s.pat.pass, word r.tallies.visited, word (r.tallies.skipped + 32768 * bit r.complete),
           word (r.tallies.corrected + 256 * r.tallies.unc)⟩)))

/-- NOMINATE ROW by its four tests in order, with the results of each: a RETIRED row, a row that is pending, a full list, and
otherwise the row added at the tail with cause and source HOST, its watch entry removed and dirty set. A row past the end
ends it with RANGE (R44, R99); its result registers are then the model's choice (log entry 17). -/
def Obligations.NominateRowAddsTheRow : Prop :=
  ∀ s : State, s.accepts = true → s.seq.settled = true →
    let l := s.cmd.params.p0.toNat
    let count := s.trk.pendingList.length
    (8064 * s.devices ≤ l → exec .nominateRow s = .next (s.ended .range Results.zero))
    ∧ (l < 8064 * s.devices →
      (s.lookup l = .retired → exec .nominateRow s = .next (s.ended .retired ⟨word count, 0xFFFF, 0, 0⟩))
      ∧ (∀ i, s.lookup l ≠ .retired → (s.trk.pendingList.findIdx? fun e => decide (e.row = l)) = some i →
          exec .nominateRow s = .next (s.ended .already ⟨word count, word i, 0, 0⟩))
      ∧ (s.lookup l ≠ .retired → s.pendingOf l = none → 32 ≤ count →
          exec .nominateRow s = .next (s.ended .listFull ⟨word count, 0xFFFF, 0, 0⟩))
      ∧ (s.lookup l ≠ .retired → s.pendingOf l = none → count < 32 →
          exec .nominateRow s = .next (State.ended
            { s with
              trk := {
                watch := s.trk.watch.map fun o => if slotHolds l o then none else o
                pendingList := s.trk.pendingList ++
                  [{ row := l, cause := .host, source := .host, added := s.pat.pass, starved := false, stuck := false
                     restarts := 0 }] }
              dir := s.setDirty.dir }
            .ok ⟨word (count + 1), word count, 0, 0⟩)))

/-- The four list commands: the first fill is offered, its records from word 0 upward and FFFFh after them, or the command
ends with OK at once when the start lies at or past the end (R51, R100, R121, R122). The records of the four collections,
word by word: remap entries in ascending row order, pending entries in list order, watch entries with their slot, zones with
their grade and counts (R51, R100, R121, R122, section 11.2). -/
def Obligations.ListCommandsOfferTheirFirstFill : Prop :=
  (∀ (s : State) (c : Instr) (kind : ListKind),
      (c, kind) ∈ [(Instr.listMap, ListKind.map), (.listPending, .pending), (.listWatch, .watch), (.listZones, .zones)] →
      s.accepts = true → s.seq.settled = true → s.cmd.params.p1 ≠ 0 →
      let start := s.cmd.params.p0.toNat
      let want := s.cmd.params.p1.toNat
      let fill := ((s.records kind).drop start).take (min (if kind = .zones then 4 else 8) want)
      (fill = [] →
        exec c s = .next (s.ended .ok
          (match kind with
            | .map => ⟨0, word s.tr.remap.length, word s.sparedCount, word s.retiredCount⟩
            | .pending => ⟨0, word s.trk.pendingList.length, 0, 0⟩
            | .watch => ⟨0, word (s.records .watch).length, 0, 0⟩
            | .zones => ⟨0, word (8 * s.devices), 0, 0⟩)))
      ∧ (fill ≠ [] →
        exec c s = .next { s with
          cmd := { s.cmd.accepted (.listing { kind, index := start, want, delivered := 0, fill := fill.length }) with
            st := .dataOut }
          bus := { s.bus with
            buffer := fill.flatten ++ List.replicate (32 - fill.flatten.length) 0xFFFF, pointer := 0 } }))
  ∧ (∀ c : Chip,
      (c.records .map = c.tr.remap.map fun e =>
        match e.place with
          | .spared t => [word e.row, word (128 * t.device.val + 16 * t.zone.val + t.index.val), word (1 + 16 * e.origin.code), e.stamp]
          | .retired => [word e.row, 0xFFFF, word (2 + 16 * e.origin.code), e.stamp])
      ∧ (c.records .pending = c.trk.pendingList.map fun e =>
          [word e.row,
           word (e.cause.code + 16 * e.source.code + 256 * bit e.starved + 512 * bit e.stuck + 4096 * e.restarts), e.added, 0])
      ∧ (c.records .watch = c.trk.watch.zipIdx.filterMap fun p =>
          p.1.map fun e => [word e.row, word e.count, e.last, word p.2])
      ∧ (c.records .zones = (List.range 32).map fun g =>
          let z := c.zone g
          [word (g + 256 * z.grade.code), word (z.countOf .free + 256 * z.countOf .testing),
           word (z.countOf .inUse + 256 * z.countOf .bad), word z.lentOut, word z.borrowedIn, word z.retiredRows,
           word z.uncEvents, 0]))

/-- SET POLICY within its ranges: all nine settings at once, dirty set, the delay timer restarted when the delay changes,
STARVED flags and ZONE_EXHAUSTED marks cleared when lending changes. With the limits as they were no grade changes; a
changed limit regrades every present zone and then the device in the same action, and RESULT1 is the grade that leaves
(R171, R174). -/
def Obligations.SetPolicyTakesEffectAtOnce : Prop :=
  ∀ s : State, s.accepts = true → s.seq.settled = true → (Policy.ofParams s.cmd.params).inRange = true →
    let old := s.health.policy
    let new := Policy.ofParams s.cmd.params
    let lending := decide (old.lendReserve ≠ new.lendReserve ∨ old.borrow ≠ new.borrow)
    let cleared := word (if lending then s.trk.pendingList.countP (fun e => e.starved) else 0)
    let settled : State :=
      { s with
        health := { s.health with policy := new }
        dir := { s.dir with
          dirty := true
          commitTimer :=
            if s.dir.dirty ∧ old.commitDelay = new.commitDelay then s.dir.commitTimer
            else if new.commitDelay = 0 then none else some new.commitDelay }
        trk := { s.trk with
          pendingList := if lending then s.trk.pendingList.map (fun e => { e with starved := false })
            else s.trk.pendingList }
        alloc := { zones := if lending then s.alloc.zones.map (fun z => { z with exhausted := false })
            else s.alloc.zones } }
    (new.cautionLimit = old.cautionLimit → new.criticalLimit = old.criticalLimit →
      exec .setPolicy s = .next (settled.ended .ok ⟨cleared, word s.health.grade.code, 0, 0⟩))
    ∧ (new.cautionLimit ≠ old.cautionLimit ∨ new.criticalLimit ≠ old.criticalLimit →
      let c := Chip.regradeDevice { settled.toChip with
        alloc := { zones := settled.alloc.zones.zipIdx.map fun zg =>
          if zg.2 < 8 * s.devices then { zg.1 with grade := zoneGrade new zg.1.free } else zg.1 } }
      exec .setPolicy s = .next (State.ended { s with toChip := c } .ok ⟨cleared, word c.health.grade.code, 0, 0⟩))

/-- Zone grades follow the FREE spares and the two limits, and the device grade is FAILING exactly while a RETIRED or a STUCK
entry exists, otherwise the worst present zone (R172, R173). The grade a part shows: a regrade leaves it as it is, or takes
the computed one, sets GRADE and raises GRADE_CHANGE (R174); a spare put in a state changes its zone alone, whose grade
becomes that of its new free count; and after a spare is taken or returned, a relocation, a retirement, a change of a STUCK
flag, a regrade of every zone and the emptying of a format the grade shown is the computed one (R101, R103, R172 to R174).
-/
def Obligations.GradesFollowTheSpares : Prop :=
  (∀ (p : Policy) (free : Nat), p.criticalLimit < p.cautionLimit →
      (p.cautionLimit < free → zoneGrade p free = .good)
      ∧ (p.criticalLimit < free → free ≤ p.cautionLimit → zoneGrade p free = .caution)
      ∧ (free ≤ p.criticalLimit → zoneGrade p free = .critical))
  ∧ (∀ c : Chip, (∀ z ∈ c.alloc.zones.take (8 * c.devices), z.grade ≠ .failing) →
      (c.computedGrade = .failing ↔ (∃ e ∈ c.tr.remap, e.place = .retired) ∨ ∃ e ∈ c.trk.pendingList, e.stuck = true)
      ∧ (c.computedGrade ≠ .failing →
          (∀ z ∈ c.alloc.zones.take (8 * c.devices), z.grade.code ≤ c.computedGrade.code)
          ∧ (c.computedGrade = .good ∨ ∃ z ∈ c.alloc.zones.take (8 * c.devices), z.grade = c.computedGrade)))
  ∧ ((∀ c : Chip,
        (c.computedGrade = c.health.grade → c.regradeDevice = c)
        ∧ (c.computedGrade ≠ c.health.grade →
            c.regradeDevice = Chip.raise
              { c with health := { c.health with grade := c.computedGrade }, bus := { c.bus with gradeFlag := true } }
              (.gradeChange c.computedGrade)))
    ∧ (∀ (c : Chip) (t : SpareId) (st : SpareState),
        let d := c.setSpare t st
        (∀ g, g ≠ t.globalZone → d.zone g = c.zone g)
        ∧ (t.globalZone < c.alloc.zones.length →
            (d.zone t.globalZone).spares = (c.zone t.globalZone).spares.set t.index.val st
            ∧ ((d.zone t.globalZone).free ≠ (c.zone t.globalZone).free →
                (d.zone t.globalZone).grade = zoneGrade c.health.policy (d.zone t.globalZone).free)
            ∧ ((d.zone t.globalZone).free = (c.zone t.globalZone).free →
                (d.zone t.globalZone).grade = (c.zone t.globalZone).grade)))
    ∧ (∀ c : Chip,
        (∀ t, c.takeSpare t = (c.setSpare t .testing).regradeDevice ∧ c.releaseSpare t = (c.setSpare t .free).regradeDevice)
        ∧ (∀ d ∈ [c.regradeAll, c.emptyTables], d.health.grade = d.computedGrade)
        ∧ (∀ (t : SpareId) (l : Nat) (o : Origin), ∀ d ∈ [c.takeSpare t, c.releaseSpare t, c.relocateTo l t o, c.retireRow l o],
            d.health.grade = d.computedGrade)
        ∧ (∀ l, (c.pendingOf l).isSome → ∀ d ∈ [c.setStuck l, c.readableAgain l, c.reportCleanReadBack l],
            d.health.grade = d.computedGrade)
        ∧ (∀ g z, g < 8 * c.devices → c.alloc.zones[g]? = some z →
            c.regradeAll.alloc.zones[g]? = some { z with grade := zoneGrade c.health.policy z.free })))

/-! ## Commands that start work -/

/-- READ ROWS, CHECK ROWS and WRITE ROWS that pass their checks at an idle port: the first row is read, a RETIRED row of READ
ROWS is offered as zeros, and WRITE ROWS asks the host for its first row (R60, R63, R68, R69). A RETIRED first row of CHECK
ROWS makes no access and is done at once, failing with RETIRED: the command ends where it is the only row, and otherwise
reads the next (R62, R64, R68). RELOCATE ROW that passes its checks: a RETIRED row ends it with RETIRED, DISCARD of a row not
pending UNC with PARAM (the result registers are then the model's choice, log entry 17), and otherwise its job waits for the
repair engine (R117). -/
def Obligations.TransferAndRelocateCommandsBegin : Prop :=
  (∀ s : State, s.accepts = true → s.seq = Sequencer.reset →
      let p := s.cmd.params
      let first := fun kind phase => Work.transfer
        { kind, row := p.p0.toNat, last := p.p0.toNat + p.p1.toNat - 1, done := 0, firstFail := none, fails := 0
          extra := 0, phase, spare := none }
      1 ≤ p.p1.toNat → p.p1.toNat ≤ 256 → p.p0.toNat + p.p1.toNat ≤ 8064 * s.devices →
        (∀ x, (s.lookup p.p0.toNat).phys = some x →
          exec .readRows s = .next { s with
            cmd := s.cmd.accepted (first .read .reading), seq := Sequencer.carrying (request .readRowsRead x none) }
          ∧ exec .checkRows s = .next { s with
            cmd := s.cmd.accepted (first .check .reading), seq := Sequencer.carrying (request .checkRowsRead x none) })
        ∧ (s.lookup p.p0.toNat = .retired →
          exec .readRows s = .next { s with
            cmd := { s.cmd.accepted (first .read (.offering .retired)) with st := .dataOut }
            bus := { s.bus with buffer := zeroRow, pointer := 0 } })
        ∧ (s.lookup p.p0.toNat = .retired →
          (p.p1 = 1 → exec .checkRows s = .next (s.ended .retired ⟨1, p.p0, 1, 0⟩))
          ∧ (∀ x, 1 < p.p1.toNat → (s.lookup (p.p0.toNat + 1)).phys = some x →
            exec .checkRows s = .next { s with
              cmd := { s.cmd.accepted (.transfer
                  { kind := .check, row := p.p0.toNat + 1, last := p.p0.toNat + p.p1.toNat - 1, done := 1
                    firstFail := some (p.p0.toNat, .retired), fails := 1, extra := 0, phase := .reading, spare := none })
                with results := ⟨1, 0, 0, 0⟩ }
              seq := Sequencer.carrying (request .checkRowsRead x none) }))
        ∧ exec .writeRows s = .next { s with
            cmd := { s.cmd.accepted (first .write .dataIn) with st := .dataIn }, bus := { s.bus with pointer := 0 } })
  ∧ (∀ s : State, s.accepts = true → s.seq.settled = true → s.cmd.params.p0.toNat < 8064 * s.devices →
      s.cmd.params.p1 = 0 ∨ s.cmd.params.p1 = 1 →
      let l := s.cmd.params.p0.toNat
      let discard := decide (s.cmd.params.p1 = 1)
      (s.lookup l = .retired → exec .relocateRow s = .next (s.ended .retired Results.zero))
      ∧ (s.lookup l ≠ .retired → discard = true → s.pendingUnc l = false →
          exec .relocateRow s = .next (s.ended .param Results.zero))
      ∧ (s.lookup l ≠ .retired → discard = false ∨ s.pendingUnc l = true →
          exec .relocateRow s = .next { s with
            cmd := s.cmd.accepted (.relocate l), rep := { s.rep with waiting := some (l, discard) } }))

/-- PATROL START of a stopped patrol whose first row has a physical row and is not under the repair claim: the command ends
with OK, and at an idle port the visit's read is granted at once, RESTART from row 0 and CONTINUE from the cursor (R126,
R127, R135). PATROL HALT by the patrol's state: STOPPED ends at once, PACING stops with PATROL_STOPPED reason HALTED, and
VISITING or HALTING waits for the visit to end (R137). PATROL START of a patrol that runs: the mode and the pace are the new
ones in every state; CONTINUE of PACING goes on as it was, and of VISITING or HALTING goes on VISITING, ending with OK at
once; RESTART of PACING begins the pass again from row 0 at once, and of VISITING or HALTING it is recorded and the command
waits for the visit to end (R136). -/
def Obligations.PatrolStartAndHaltActByState : Prop :=
  (∀ (s : State) (mode : PatrolMode) (x : PhysRow), s.accepts = true → s.seq = Sequencer.reset → s.pat.st = .stopped →
      let p := s.cmd.params
      let restart := decide (p.p2 = 1)
      let cursor := if restart then 0 else s.pat.cursor
      (p.p0 = 1 ∧ mode = .single) ∨ (p.p0 = 2 ∧ mode = .continuous) → p.p1.toNat ≤ 255 → p.p2 = 0 ∨ p.p2 = 1 →
      (s.lookup cursor).phys = some x → claimHolds s.tr.repairClaim cursor = false →
        exec .patrolStart s = .next (State.ended
          { s with
            seq := Sequencer.carrying (request .visitRead x none)
            tr := { s.tr with patrolClaim := some { row := cursor, overtaken := false } }
            pat := { s.pat with
              mode := mode, st := .visiting, cursor := cursor, pace := p.p1.toNat
              tallies := if restart then ⟨0, 0, 0, 0⟩ else s.pat.tallies
              whole := restart || s.pat.whole, restartRequest := false
              paceTimer := if p.p1.toNat = 0 then none else some p.p1.toNat
              intervalOut := decide (p.p1.toNat = 0) } }
          .ok ⟨word cursor, s.pat.pass, 0, 0⟩))
  ∧ (∀ s : State, s.accepts = true → s.seq.settled = true →
      (s.pat.st = .stopped → exec .patrolHalt s = .next (s.ended .ok ⟨word s.pat.cursor, s.pat.pass, 0, 0⟩))
      ∧ (s.pat.st = .pacing →
          exec .patrolHalt s = .next (State.ended
            { s with
              pat := { s.pat with mode := .off, st := .stopped, paceTimer := none }
              health := (s.raise (.patrolStopped .halted)).health }
            .ok ⟨word s.pat.cursor, s.pat.pass, 0, 0⟩))
      ∧ (s.pat.st = .visiting ∨ s.pat.st = .halting →
          exec .patrolHalt s = .next { s with cmd := s.cmd.accepted .patrolHalt, pat := { s.pat with st := .halting } }))
  ∧ (∀ (s : State) (mode : PatrolMode), s.accepts = true →
      let p := s.cmd.params
      (p.p0 = 1 ∧ mode = .single) ∨ (p.p0 = 2 ∧ mode = .continuous) → p.p1.toNat ≤ 255 →
      let given : PatrolEngine := { s.pat with mode := mode, pace := p.p1.toNat }
      let ends := fun (t : State) => exec .patrolStart s = .next (t.ended .ok ⟨word t.pat.cursor, t.pat.pass, 0, 0⟩)
      (p.p2 = 0 → s.seq.settled = true →
        (s.pat.st = .pacing → s.pat.intervalOut = false ∨ s.seq.patrol ≠ .empty → ends { s with pat := given })
        ∧ (s.pat.st = .visiting ∨ s.pat.st = .halting → ends { s with pat := { given with st := .visiting } }))
      ∧ (p.p2 = 1 →
        let restarted : PatrolEngine :=
          { given with
            st := .pacing, cursor := 0, tallies := ⟨0, 0, 0, 0⟩, whole := true, restartRequest := false, paceTimer := none
            intervalOut := true }
        (s.pat.st = .pacing → s.seq.patrol ≠ .empty → s.seq.settled = true → ends { s with pat := restarted })
        ∧ (∀ x, s.pat.st = .pacing → s.seq = Sequencer.reset → (s.lookup 0).phys = some x →
            claimHolds s.tr.repairClaim 0 = false →
          ends { s with
            seq := Sequencer.carrying (request .visitRead x none)
            tr := { s.tr with patrolClaim := some { row := 0, overtaken := false } }
            pat := { restarted with
              st := .visiting, paceTimer := if p.p1.toNat = 0 then none else some p.p1.toNat
              intervalOut := decide (p.p1.toNat = 0) } })
        ∧ (s.pat.st = .visiting ∨ s.pat.st = .halting → s.seq.settled = true →
          exec .patrolStart s = .next { s with
            cmd := s.cmd.accepted .patrolRestart, pat := { given with st := .visiting, restartRequest := true } })))

/-- A commit trigger taken in READY or DEGRADED with the directory unit IDLE and the sequence limit not reached: COMMIT
DIRECTORY and COMMIT_DELAY_EXPIRY take the image with sequence H + 1, clear dirty and the change count, stop the timer, mark
the target invalid and have the first write granted at an idle port (R145, R146, R148, R152). A change of persisted content
sets dirty, and starts the commit delay timer when dirty was clear and the delay is not 0 (R143, R144). At the sequence
limit a trigger starts no commit: DIRECTORY_FAIL is raised with reason SEQUENCE, and COMMIT DIRECTORY ends with
DIRECTORY_FAIL (R146). While a commit is in flight a trigger is recorded as the commit request, and COMMIT DIRECTORY waits
(R145, R152); a delay that runs out while the part is not in service stops alone (R144). -/
def Obligations.DirtyAndCommitTriggersStartACommit : Prop :=
  ((∀ s : State, s.seq = Sequencer.reset → s.inService = true → s.dir.mode = .idle → s.highestSeq ≠ 0xFFFFFFFF →
        let target := s.commitTarget
        let seq := s.highestSeq + 1
        let image := s.imageOf seq
        let committing : State :=
          { s with
            seq := Sequencer.carrying (request .commitWrite (target.phys 0) (some (image.getD 0 [])))
            tr := { s.tr with changes := 0 }
            dir := { s.dir with
              mode := .committing, dirty := false, commitTimer := none, image := image
              commit := some { target, seq, index := 0, reading := false, detached := false, ofFormat := false }
              validA := s.dir.validA && decide (target = .b), seqA := if target = .a then 0 else s.dir.seqA
              validB := s.dir.validB && decide (target = .a), seqB := if target = .b then 0 else s.dir.seqB } }
        (s.accepts = true →
          exec .commitDirectory s = .next { committing with cmd := s.cmd.accepted (.commitRun target seq) })
        ∧ (∀ n, s.dir.commitTimer = some n → s.cmd.work ≠ .commitWait → exec .commitDelayExpiry s = .next committing))
    ∧ (∀ c : Chip,
        (c.dir.dirty = true → c.setDirty = c)
        ∧ (c.dir.dirty = false → c.health.policy.commitDelay ≠ 0 →
            c.setDirty = { c with dir := { c.dir with dirty := true, commitTimer := some c.health.policy.commitDelay } })
        ∧ (c.dir.dirty = false → c.health.policy.commitDelay = 0 →
            c.setDirty = { c with dir := { c.dir with dirty := true, commitTimer := none } })))
  ∧ ((∀ s : State, s.seq.settled = true → s.inService = true → s.dir.mode = .idle → s.highestSeq = 0xFFFFFFFF →
        let refused : State :=
          { s with
            dir := { s.dir with commitTimer := none }
            health := (s.raise (.directoryFail s.commitTarget .sequence)).health }
        (s.accepts = true →
          exec .commitDirectory s = .next (refused.ended .directoryFail ⟨word s.commitTarget.code, 0xFFFF, 0xFFFF, 3⟩))
        ∧ (∀ n, s.dir.commitTimer = some n → s.cmd.work ≠ .commitWait → exec .commitDelayExpiry s = .next refused))
    ∧ (∀ s : State, s.seq.settled = true → s.inService = true → s.dir.mode = .committing →
        (s.accepts = true →
          exec .commitDirectory s = .next { s with
            cmd := s.cmd.accepted .commitWait, dir := { s.dir with commitRequest := true } })
        ∧ (∀ n, s.dir.commitTimer = some n →
          exec .commitDelayExpiry s = .next { s with dir := { s.dir with commitTimer := none, commitRequest := true } }))
    ∧ (∀ (s : State) (n : Nat), s.seq.settled = true → s.inService = false → s.dir.commitTimer = some n →
        exec .commitDelayExpiry s = .next { s with dir := { s.dir with commitTimer := none } }))

/-- R147: the target of a commit is the invalid copy, or of two valid copies the one with the lower sequence number, so never
the copy that holds the highest. -/
def Obligations.CommitNeverTargetsTheNewestCopy : Prop :=
  ∀ c : Chip,
    (c.dir.validA = true → c.dir.validB = false → c.commitTarget = .b)
    ∧ (c.dir.validA = false → c.dir.validB = true → c.commitTarget = .a)
    ∧ (c.dir.validA = true → c.dir.validB = true → c.dir.seqA < c.dir.seqB → c.commitTarget = .a ∧ c.highestSeq = c.dir.seqB)
    ∧ (c.dir.validA = true → c.dir.validB = true → c.dir.seqB < c.dir.seqA → c.commitTarget = .b ∧ c.highestSeq = c.dir.seqA)

/-- The image takes 102 rows, the header first and the trailer last, and its words sum to 0 (R139, R140). Its words, place by
place: the header of row 0, the remap slots of rows 1 to 80 in ascending row order, the pending slots of rows 81 to 84 with
restarts as 0, the zone slots of rows 85 to 100 with TESTING stored and counted as FREE, and the trailer of row 101; every
other word is 0 (R139, R140, R182, section 11.3). -/
def Obligations.TheImageSumsToZero : Prop :=
  (∀ (c : Chip) (seq : BitVec 32),
      (c.imageOf seq).length = 102 ∧ wordSum (c.imageOf seq) = 0 ∧ (c.imageOf seq)[0]? = some (c.headerRow seq)
        ∧ ∃ sum, (c.imageOf seq)[101]? = some (trailerRow seq sum))
  ∧ (∀ (c : Chip) (seq : BitVec 32),
      let cell := fun (row i : Nat) => ((c.imageOf seq).getD row []).getD i 0
      (∀ i, cell 0 i =
        ([3, seq.extractLsb' 16 16, seq.extractLsb' 0 16, word c.devices, word c.health.policy.watchThreshold,
          word c.health.policy.forgetSpan, word c.health.policy.lendReserve, c.health.policy.switches, c.health.policy.limits,
          word c.health.policy.commitDelay, word c.pat.mode.code, word c.pat.pace, word c.pat.cursor, c.pat.pass,
          word c.sparedCount, word c.retiredCount, word c.trk.pendingList.length] : List Word).getD i 0)
      ∧ (∀ i k, i < 640 → k < 4 → cell (1 + i / 8) (4 * (i % 8) + k) =
          match c.tr.remap[i]? with
            | some e => e.record.getD k 0
            | none => 0)
      ∧ (∀ i k, i < 32 → k < 4 → cell (81 + i / 8) (4 * (i % 8) + k) =
          match c.trk.pendingList[i]? with
            | some e =>
              ([word e.row, word (e.cause.code + 16 * e.source.code + 256 * bit e.starved + 512 * bit e.stuck), e.added]
                : List Word).getD k 0
            | none => 0)
      ∧ (∀ g k, g < 32 → k < 16 →
          (8 * c.devices ≤ g → cell (85 + g / 2) (16 * (g % 2) + k) = 0)
          ∧ (g < 8 * c.devices → 2 ≤ k → cell (85 + g / 2) (16 * (g % 2) + k) =
              ([word ((c.zone g).countOf .free + (c.zone g).countOf .testing), word ((c.zone g).countOf .inUse),
                word ((c.zone g).countOf .bad), word (c.zone g).lentOut, word (c.zone g).borrowedIn,
                word (c.zone g).retiredRows, word (c.zone g).uncEvents] : List Word).getD (k - 2) 0)
          ∧ (∀ st, g < 8 * c.devices → (c.zone g).spares[k]? = some st →
              field (cell (85 + g / 2) (16 * (g % 2) + k / 8)) (2 * (k % 8)) 2 =
                if st = .inUse then 2 else if st = .bad then 3 else 0))
      ∧ (∀ i, i < 31 → cell 101 i = ([seq.extractLsb' 16 16, seq.extractLsb' 0 16] : List Word).getD i 0))

/-! ## Timers and idle engines -/

/-- The pace timer running out: in PACING, at an idle port, the cursor row is visited (its claim set, its read granted, the
timer started again); in VISITING and HALTING the expiry is recorded (R126, R127). A cursor row that is RETIRED or under the
repair claim is skipped and counted: the next row is visited at once, or, past the last row of a SINGLE pass, the pass ends,
watch entries age, and the patrol stops (R90, R127, R131). -/
def Obligations.PaceExpiryBeginsTheVisit : Prop :=
  (∀ (s : State) (n : Nat), s.pat.paceTimer = some n →
      (∀ x, s.pat.st = .pacing → s.seq = Sequencer.reset → (s.lookup s.pat.cursor).phys = some x →
        claimHolds s.tr.repairClaim s.pat.cursor = false →
          exec .paceExpiry s = .next { s with
            seq := Sequencer.carrying (request .visitRead x none)
            tr := { s.tr with patrolClaim := some { row := s.pat.cursor, overtaken := false } }
            pat := { s.pat with
              st := .visiting, paceTimer := if s.pat.pace = 0 then none else some s.pat.pace
              intervalOut := decide (s.pat.pace = 0) } })
      ∧ (s.pat.st = .visiting ∨ s.pat.st = .halting → s.seq.settled = true →
          exec .paceExpiry s = .next { s with pat := { s.pat with paceTimer := none, intervalOut := true } }))
  ∧ (∀ (s : State) (n : Nat), s.pat.paceTimer = some n → s.pat.st = .pacing → s.seq = Sequencer.reset →
    (s.lookup s.pat.cursor = .retired ∨ claimHolds s.tr.repairClaim s.pat.cursor = true) →
    let tallies := { s.pat.tallies with skipped := min 255 (s.pat.tallies.skipped + 1) }
    (∀ x, s.pat.cursor + 1 < 8064 * s.devices → (s.lookup (s.pat.cursor + 1)).phys = some x →
        claimHolds s.tr.repairClaim (s.pat.cursor + 1) = false →
      exec .paceExpiry s = .next { s with
        seq := Sequencer.carrying (request .visitRead x none)
        tr := { s.tr with patrolClaim := some { row := s.pat.cursor + 1, overtaken := false } }
        pat := { s.pat with
          st := .visiting, cursor := s.pat.cursor + 1, tallies := tallies
          paceTimer := if s.pat.pace = 0 then none else some s.pat.pace, intervalOut := decide (s.pat.pace = 0) } })
    ∧ (8064 * s.devices ≤ s.pat.cursor + 1 → s.pat.mode = .single →
      let ended : Chip := { s.toChip with
        trk := { s.trk with watch := s.trk.watch.map fun (w : Option WatchEntry) => w.filter (fun e =>
          decide ((s.pat.pass + 1 - e.last).toNat < s.health.policy.forgetSpan)) }
        pat := { s.pat with
          mode := .off, st := .stopped, paceTimer := none, intervalOut := true, cursor := 0
          lastPass := some { tallies := tallies, complete := s.pat.whole }, pass := s.pat.pass + 1
          tallies := ⟨0, 0, 0, 0⟩, whole := true } }
      exec .paceExpiry s = .next { s with
        trk := ended.trk, pat := ended.pat
        health := ((ended.raise (.passDone s.pat.pass)).raise (.patrolStopped .singleDone)).health }))

/-- The ready timer running out on an access of a transfer command that holds no spare ends the command with ARRAY_TIMEOUT and
the results of the rows done before it, without a report; on an access of write-repair that holds a spare it does the same and
the spare returns to FREE, its zone and the device graded anew (R74, R75, R101). That it does so with a STOP pending too is
the model's choice (log entry 16). On the visit's read or scrub it stops the patrol at the row with reason TIMEOUT and no
count; a waiting PATROL HALT then ends, and a restart request is carried out as on a stopped patrol (R132, R136, R137). A
first ready wait leaves the array as it was; a second leaves in a write's own row what the device stored (R32, R67, R71, R77,
log entry 4). -/
def Obligations.ReadyTimeoutEndsTheAccess : Prop :=
  (∀ (s : State) (second : Bool) (left : RowPatch) (x : PhysRow) (d : Option (List Word)),
      let r := fun p => request p x d
      let array := fun p => if second then s.array.afterCut s.devices (r p) left else s.array
      (∀ (p : Purpose) (t : Transfer), p ∈ [.readRowsRead, .checkRowsRead, .scrubWrite, .ordinaryWrite, .inPlaceWrite, .readBack] →
        s.seq = Sequencer.carrying (r p) → s.cmd.work = .transfer t → t.spare = none →
          exec (.readyTimeout second left) s = .next { s with
            seq := Sequencer.reset, bus := s.bus.commandDone, cmd := s.cmd.finished .arrayTimeout t.results
            array := array p })
      ∧ (∀ (p : Purpose) (t : Transfer) (sp : SpareId), (∃ k, p = .repairQualify k) ∨ p = .repairDataWrite ∨ p = .repairVerify →
        s.seq = Sequencer.carrying (r p) → s.cmd.work = .transfer t → t.spare = some sp →
          let c := s.portFreed.releaseSpare sp
          exec (.readyTimeout second left) s = .next { s with
            array := array p
            toChip := { c with bus := c.bus.commandDone, cmd := s.cmd.finished .arrayTimeout t.results } }))
  ∧ (∀ (s : State) (second : Bool) (left : RowPatch) (x : PhysRow) (d : Option (List Word)) (p : Purpose),
    p ∈ [.visitRead, .patrolScrub] → s.seq = Sequencer.carrying (request p x d) →
    let array := if second then s.array.afterCut s.devices (request p x d) left else s.array
    let stopped : Chip := { s.portFreed with
      tr := { s.tr with patrolClaim := none }
      pat := { s.pat with mode := .off, st := .stopped, paceTimer := none }
      health := (s.raise (.patrolStopped .timeout)).health }
    (s.pat.restartRequest = false →
      exec (.readyTimeout second left) s = .next { s with
        array := array
        toChip := { stopped with
          bus := if s.cmd.work = .patrolHalt then s.bus.commandDone else s.bus
          cmd := if s.cmd.work = .patrolHalt then s.cmd.finished .ok ⟨word s.pat.cursor, s.pat.pass, 0, 0⟩ else s.cmd } })
    ∧ (∀ y, s.pat.restartRequest = true → (s.lookup 0).phys = some y → claimHolds s.tr.repairClaim 0 = false →
      exec (.readyTimeout second left) s = .next { s with
        array := array
        toChip := { stopped with
          seq := Sequencer.carrying (request .visitRead y none)
          tr := { s.tr with patrolClaim := some { row := 0, overtaken := false } }
          pat := { s.pat with
            st := .visiting, cursor := 0, tallies := ⟨0, 0, 0, 0⟩, whole := true, restartRequest := false
            paceTimer := if s.pat.pace = 0 then none else some s.pat.pace, intervalOut := decide (s.pat.pace = 0) }
          bus := if s.cmd.work = .patrolRestart then s.bus.commandDone else s.bus
          cmd := if s.cmd.work = .patrolRestart then s.cmd.finished .ok ⟨0, s.pat.pass, 0, 0⟩ else s.cmd } }))

/-- REPAIR_JOB_START with no COMMAND job waiting takes the lowest pending entry that auto repair may take: the claim is set
with its mark clear and, at an idle port, the source read is granted (R18, R109, R110). A COMMAND job that waits goes first:
of a RETIRED row, and with a full list for a row not pending, its command ends; a row not pending joins the list as HOST; the
source is read, or, for DISCARD of a row pending UNC, a spare is taken for zeros (R109, R110, R117). That a RELOCATE ROW
turned away when its job starts ends with the registers of R118 for the row as it stands is the model's choice (log entry
17). -/
def Obligations.RepairJobStartReadsTheSource : Prop :=
  (∀ (s : State) (e : PendingEntry) (x : PhysRow), s.inService = true → s.rep.st = .idle → s.seq = Sequencer.reset →
      s.rep.waiting = none → s.health.policy.autoRepair = true →
      (s.trk.pendingList.find? fun y => decide (y.cause ≠ .unc) && !y.starved) = some e → (s.lookup e.row).phys = some x →
        exec .repairJobStart s = .next { s with
          tr := { s.tr with repairClaim := some { row := e.row, overtaken := false } }
          rep := { st := .sourceRead, waiting := none
                   job := some { row := e.row, command := false, discard := false, origin := e.source, data := none
                                 spare := none, madeBad := 0 } }
          seq := Sequencer.carrying (request .sourceRead x none) })
  ∧ (∀ (s : State) (l : Nat) (discard : Bool), s.inService = true → s.rep.st = .idle → s.seq = Sequencer.reset →
      s.rep.waiting = some (l, discard) → s.cmd.stopRequest = false →
      let ended := fun code : ResultCode =>
        { s with
          rep := { s.rep with waiting := none }, bus := s.bus.commandDone
          cmd := s.cmd.finished code ⟨word (s.lookup l).code, (s.lookup l).targetWord, 0, 0⟩ }
      let claimed := { s.tr with repairClaim := some { row := l, overtaken := false } }
      let job : Job :=
        { row := l, command := true, discard := false, origin := .host, data := none, spare := none, madeBad := 0 }
      (s.lookup l = .retired → exec .repairJobStart s = .next (ended .retired))
      ∧ (s.lookup l ≠ .retired → s.pendingOf l = none → 32 ≤ s.trk.pendingList.length →
          exec .repairJobStart s = .next (ended .listFull))
      ∧ (∀ x, (s.lookup l).phys = some x →
        (s.pendingOf l = none → s.trk.pendingList.length < 32 →
          exec .repairJobStart s = .next { s with
            trk := {
              watch := s.trk.watch.map fun o => if slotHolds l o then none else o
              pendingList := s.trk.pendingList ++
                [{ row := l, cause := .host, source := .host, added := s.pat.pass, starved := false, stuck := false
                   restarts := 0 }] }
            dir := s.setDirty.dir, tr := claimed
            rep := { st := .sourceRead, job := some job, waiting := none }
            seq := Sequencer.carrying (request .sourceRead x none) })
        ∧ (∀ e, s.pendingOf l = some e → discard = false ∨ e.cause ≠ .unc →
          exec .repairJobStart s = .next { s with
            tr := claimed, rep := { st := .sourceRead, job := some job, waiting := none }
            seq := Sequencer.carrying (request .sourceRead x none) })
        ∧ (∀ e sp, s.pendingOf l = some e → discard = true → e.cause = .unc → s.writeRepairActive = false →
            s.someTesting = false → s.chooseSpare (homeZone l) = some sp →
            let c := s.takeSpare sp
          exec .repairJobStart s = .next { s with
            alloc := c.alloc, health := c.health, bus := c.bus, tr := claimed
            rep := { st := .qualify, waiting := none
                     job := some { job with discard := true, data := some zeroRow, spare := some sp } }
            seq := Sequencer.carrying (request (.qualification 0) sp.phys (some (patternRow 0xAAAA 0x5555))) })))

/-- ALLOCATION_SERVED for a write-repair that waited for the TESTING resource: no spare being TESTING, its row pending UNC
and a spare to be had, the chosen spare becomes TESTING and, at an idle port, its first qualification write is granted (R73,
R74, R102, R105, R107); with no spare to be had the row is written in place, ZONE_EXHAUSTED being raised where it is due
(R73, R77, R106). For a repair job: a spare is qualified, or the job ends: RETIRED, OK for a row no longer pending, or
NO_SPARE, marking an entry that is not UNC STARVED (R111); a DISCARD job of a row still pending UNC writes zeros in place,
and of one that has become readable reads its source (R118, R119). -/
def Obligations.AllocationServedTakesASpareOrTheNoSparePath : Prop :=
  (∀ (s : State) (t : Transfer) (x : PhysRow) (sp : SpareId), s.cmd.work = .transfer t → t.phase = .repairWait →
      s.someTesting = false → s.seq = Sequencer.reset → (s.lookup t.row).phys = some x → s.pendingUnc t.row = true →
      s.chooseSpare (homeZone t.row) = some sp →
        exec .allocationServed s = .next { s with
          alloc := (s.takeSpare sp).alloc, health := (s.takeSpare sp).health, bus := (s.takeSpare sp).bus
          cmd := { s.cmd with work := .transfer { t with phase := .repairQualify, spare := some sp } }
          seq := Sequencer.carrying (request (.repairQualify 0) sp.phys (some (patternRow 0xAAAA 0x5555))) })
  ∧ ((∀ (s : State) (t : Transfer) (x : PhysRow), s.cmd.work = .transfer t → t.phase = .repairWait →
        s.someTesting = false → s.seq = Sequencer.reset → (s.lookup t.row).phys = some x → s.pendingUnc t.row = true →
        s.chooseSpare (homeZone t.row) = none →
        let c := s.reportExhausted (homeZone t.row)
        exec .allocationServed s = .next { s with
          alloc := c.alloc, health := c.health
          cmd := { s.cmd with work := .transfer { t with phase := .inPlace } }
          tr := { s.tr with repairClaim := markClaim t.row s.tr.repairClaim, patrolClaim := markClaim t.row s.tr.patrolClaim }
          seq := Sequencer.carrying (request .inPlaceWrite x (some s.bus.buffer)) })
    ∧ (∀ (s : State) (j : Job), s.rep.job = some j → s.rep.st = .allocate → s.seq = Sequencer.reset → s.someTesting = false →
        (∀ t, s.cmd.work ≠ .transfer t) → j.spare = none → s.cmd.stopRequest = false →
        (∀ sp, s.chooseSpare (homeZone j.row) = some sp →
          let c := s.takeSpare sp
          exec .allocationServed s = .next { s with
            alloc := c.alloc, health := c.health, bus := c.bus
            rep := { s.rep with st := .qualify, job := some { j with spare := some sp } }
            seq := Sequencer.carrying (request (.qualification 0) sp.phys (some (patternRow 0xAAAA 0x5555))) })
        ∧ (s.chooseSpare (homeZone j.row) = none →
          let c := s.reportExhausted (homeZone j.row)
          let ends := fun code : ResultCode =>
            { s with
              alloc := c.alloc, health := c.health, tr := { s.tr with repairClaim := none }
              rep := { s.rep with st := .idle, job := none }
              bus := if j.command then s.bus.commandDone else s.bus
              cmd := if j.command then
                  s.cmd.finished code ⟨word (s.lookup j.row).code, (s.lookup j.row).targetWord, word j.madeBad, 0⟩
                else s.cmd }
          (s.lookup j.row = .retired → exec .allocationServed s = .next (ends .retired))
          ∧ (s.lookup j.row ≠ .retired → s.pendingOf j.row = none → exec .allocationServed s = .next (ends .ok))
          ∧ (∀ e x, s.pendingOf j.row = some e → (s.lookup j.row).phys = some x →
            (j.discard = false → e.cause ≠ .unc →
              exec .allocationServed s = .next { ends .noSpare with
                trk := { s.trk with pendingList := s.trk.pendingList.map fun e =>
                  if e.row = j.row then { e with starved := true, restarts := 0 } else e }
                dir := s.setDirty.dir })
            ∧ (j.discard = false → e.cause = .unc →
              exec .allocationServed s = .next { ends .noSpare with
                trk := { s.trk with pendingList := s.trk.pendingList.map fun e =>
                  if e.row = j.row then { e with restarts := 0 } else e } })
            ∧ (j.discard = true → claimMarked s.tr.repairClaim = false → e.cause = .unc →
              exec .allocationServed s = .next { s with
                alloc := c.alloc, health := c.health, tr := { s.tr with patrolClaim := markClaim j.row s.tr.patrolClaim }
                seq := Sequencer.carrying (request .zeroWrite x (some zeroRow)) })
            ∧ (j.discard = true → claimMarked s.tr.repairClaim = false → e.cause ≠ .unc →
              exec .allocationServed s = .next { s with
                alloc := c.alloc, health := c.health
                rep := { s.rep with st := .sourceRead, job := some { j with discard := false } }
                seq := Sequencer.carrying (request .sourceRead x none) })))))

/-- An allocation takes the home zone's FREE spare of lowest index; without one, and with BORROW off, it finds none; with
BORROW on it takes the lowest FREE spare of the zone of the same device that has the most FREE spares above the lending
reserve, of several the lowest, and finds none where no zone may lend (R105). The spare becomes TESTING in the same action:
one FREE fewer, the zone and the device graded anew, no other zone touched, nothing made dirty (R101, R103, R174). A failed
allocation raises ZONE_EXHAUSTED once while the zone's mark is clear (R106). -/
def Obligations.AllocationChoosesAndTakesASpare : Prop :=
  (∀ (c : Chip) (home : Nat),
      (∀ i, i < 16 → home < 32 → (c.zone home).spares[i]? = some .free → (∀ j, j < i →
          (c.zone home).spares[j]? ≠ some .free) →
        ∃ sp, c.chooseSpare home = some sp ∧ sp.globalZone = home ∧ sp.index.val = i)
      ∧ (.free ∉ (c.zone home).spares → c.health.policy.borrow = false → c.chooseSpare home = none))
  ∧ ((∀ (c : Chip) (home : Nat), .free ∉ (c.zone home).spares → c.health.policy.borrow = true →
        let lends := fun g => g / 8 = home / 8 ∧ g ≠ home ∧ c.health.policy.lendReserve < (c.zone g).free
        (∀ g, g < 32 → (c.zone g).spares.length ≤ 16 → lends g →
            (∀ g', lends g' → (c.zone g').free < (c.zone g).free ∨ (c.zone g').free = (c.zone g).free ∧ g ≤ g') →
          ∃ sp, c.chooseSpare home = some sp ∧ sp.globalZone = g ∧ (c.zone g).spares[sp.index.val]? = some .free
            ∧ ∀ j, j < sp.index.val → (c.zone g).spares[j]? ≠ some .free)
        ∧ ((∀ g, ¬ lends g) → c.chooseSpare home = none))
    ∧ (∀ (c : Chip) (t : SpareId), t.globalZone < c.alloc.zones.length →
        (c.zone t.globalZone).spares[t.index.val]? = some .free →
        let d := c.takeSpare t
        let z := d.zone t.globalZone
        z.spares = (c.zone t.globalZone).spares.set t.index.val .testing
        ∧ z.free + 1 = (c.zone t.globalZone).free ∧ z.countOf .testing = (c.zone t.globalZone).countOf .testing + 1
        ∧ z.grade = zoneGrade c.health.policy z.free ∧ d.health.grade = d.computedGrade ∧ d.dir = c.dir
        ∧ ∀ g, g ≠ t.globalZone → d.zone g = c.zone g)
    ∧ (∀ (c : Chip) (home : Nat),
        ((c.zone home).exhausted = true → c.reportExhausted home = c)
        ∧ ((c.zone home).exhausted = false →
            c.reportExhausted home =
              Chip.raise { c with alloc := { zones := c.alloc.zones.modify home fun z => { z with exhausted := true } } }
                (.zoneExhausted home))))

/-! ## Reports -/

/-- A report that does not name the row's present physical row is discarded (R81). Otherwise: CLEAN of a row not pending UNC
changes nothing (R84); a first correction enters the watch table in its lowest empty slot with count 1 (R87, R89); CORRECTED
of a row pending REPEAT or HOST changes nothing (R83); UNCORRECTABLE of a row pending UNC counts an event in its zone alone
(R82); UNCORRECTABLE of a row not pending, with room, adds it with cause UNC and the report's path, removes its watch entry,
counts the event, raises UNC_FOUND and sets dirty (R82, R93). -/
def Obligations.ReportsFollowTheOutcomeRules : Prop :=
  ∀ (c : Chip) (l : Nat) (x : PhysRow) (path : Origin) (back : Bool),
    let report := fun o => c.report { row := l, phys := x, outcome := o, path := path, readBack := back }
    (∀ o, (c.lookup l).phys ≠ some x → report o = c)
    ∧ ((c.lookup l).phys = some x →
      (back = false → c.pendingUnc l = false → report .clean = c)
      ∧ (∀ i, c.pendingOf l = none → c.watchOf l = none → c.trk.watch.findIdx? Option.isNone = some i →
          report .corrected =
            { c with trk := { c.trk with watch := c.trk.watch.set i (some { row := l, count := 1, last := c.pat.pass }) } })
      ∧ (∀ e, c.pendingOf l = some e → e.cause ≠ .unc → report .corrected = c)
      ∧ (∀ e, c.pendingOf l = some e → e.cause = .unc →
          report .uncorrectable = c.modifyZone (homeZone l) fun z => { z with uncEvents := min 65535 (z.uncEvents + 1) })
      ∧ (c.pendingOf l = none → c.trk.pendingList.length < 32 →
          (report .uncorrectable).trk =
            { watch := c.trk.watch.map fun o => if slotHolds l o then none else o
              pendingList := c.trk.pendingList ++
                [{ row := l, cause := .unc, source := path, added := c.pat.pass, starved := false, stuck := false
                   restarts := 0 }] }
          ∧ (report .uncorrectable).health = (c.raise (.uncFound l)).health
          ∧ (report .uncorrectable).dir = c.setDirty.dir
          ∧ (report .uncorrectable).alloc = (c.countUnc l).alloc
          ∧ (report .uncorrectable).tr = c.tr ∧ (report .uncorrectable).cmd = c.cmd))

/-- Further reports of a row's present physical row. A pending row read UNCORRECTABLE becomes UNC with STARVED cleared; one
pending UNC read CORRECTED, or CLEAN by a read that is no read-back, becomes REPEAT with STUCK cleared and the device
regraded; a CLEAN read-back removes the entry (R82 to R85). Of a watched row a correction counts one more, at most 15, and
at the threshold the row is promoted to the list, or stays where the list is full (R88, R93). A full watch table gives up
its entry of lowest count, then greatest age, then lowest row (R89). UNCORRECTABLE with a full list displaces its first
entry that is neither UNC nor claimed, or, where there is none, raises PENDING_FULL and is not added (R94). Ageing at a pass
end removes the entries whose last correction is as many passes old as the forget span (R90). -/
def Obligations.ReportsChangeCausesCountAndEvict : Prop :=
  (∀ (c : Chip) (l : Nat) (x : PhysRow) (path : Origin) (back : Bool), (c.lookup l).phys = some x →
    let report := fun o => c.report { row := l, phys := x, outcome := o, path := path, readBack := back }
    let change := fun f : PendingEntry → PendingEntry =>
      { c with
        trk := { c.trk with pendingList := c.trk.pendingList.map fun (e : PendingEntry) => if e.row = l then f e else e }
        dir := c.setDirty.dir }
    let counted := c.alloc.zones.modify (homeZone l) fun z => { z with uncEvents := min 65535 (z.uncEvents + 1) }
    let unwatched := c.trk.watch.map fun o => if slotHolds l o then none else o
    let new := fun cause : Cause =>
      ({ row := l, cause := cause, source := path, added := c.pat.pass, starved := false, stuck := false, restarts := 0 }
        : PendingEntry)
    (∀ e, c.pendingOf l = some e →
      (e.cause ≠ .unc →
        report .uncorrectable =
          { change (fun e => { e with cause := .unc, starved := false }) with alloc := { zones := counted } })
      ∧ (e.cause = .unc →
        report .corrected = (change fun e => { e with cause := .repeat, stuck := false }).regradeDevice
        ∧ (back = false → report .clean = (change fun e => { e with cause := .repeat, stuck := false }).regradeDevice))
      ∧ (back = true → report .clean = Chip.regradeDevice { c with
          trk := { c.trk with pendingList := c.trk.pendingList.filter fun e => decide (e.row ≠ l) }, dir := c.setDirty.dir }))
    ∧ (c.pendingOf l = none →
      (back = true → report .clean = c)
      ∧ (∀ i e, c.watchOf l = some e → c.trk.watch.findIdx? (slotHolds l) = some i →
        let count := min 15 (e.count + 1)
        let kept := { c with trk := { c.trk with
          watch := c.trk.watch.set i (some { row := e.row, count := count, last := c.pat.pass }) } }
        (count < c.health.policy.watchThreshold → report .corrected = kept)
        ∧ (c.health.policy.watchThreshold ≤ count → 32 ≤ c.trk.pendingList.length → report .corrected = kept)
        ∧ (c.health.policy.watchThreshold ≤ count → c.trk.pendingList.length < 32 →
          report .corrected =
            { c with trk := { watch := unwatched, pendingList := c.trk.pendingList ++ [new .repeat] }, dir := c.setDirty.dir }))
      ∧ (∀ i v, c.watchOf l = none → c.trk.watch.findIdx? Option.isNone = none → c.trk.watch[i]? = some (some v) →
          (∀ j w, j ≠ i → c.trk.watch[j]? = some (some w) →
            let age := fun e : WatchEntry => (c.pat.pass - e.last).toNat
            v.count < w.count ∨ v.count = w.count ∧ (age w < age v ∨ age v = age w ∧ v.row < w.row)) →
          report .corrected =
            { c with trk := { c.trk with watch := c.trk.watch.set i (some { row := l, count := 1, last := c.pat.pass }) } })
      ∧ (32 ≤ c.trk.pendingList.length →
        (∀ v, (c.trk.pendingList.find? fun e => decide (e.cause ≠ .unc) && !claimHolds c.tr.repairClaim e.row) = some v →
          report .uncorrectable =
            { c with
              alloc := { zones := counted }, dir := c.setDirty.dir, health := (c.raise (.uncFound l)).health
              trk := {
                watch := unwatched
                pendingList := (c.trk.pendingList.filter fun e => decide (e.row ≠ v.row)) ++ [new .unc] } })
        ∧ ((∀ e ∈ c.trk.pendingList, e.cause = .unc ∨ claimHolds c.tr.repairClaim e.row = true) →
          report .uncorrectable =
            { c with
              alloc := { zones := counted }, health := (c.raise (.pendingFull l)).health
              trk := { c.trk with watch := unwatched } }))))
  ∧ (∀ c : Chip, c.ageWatch = { c with trk := { c.trk with
      watch := c.trk.watch.map fun o =>
        o.filter fun e => decide ((c.pat.pass - e.last).toNat < c.health.policy.forgetSpan) } })

/-! ## Grants and abandoned work -/

/-- Several requests waiting. A grant goes to the foreground request, then to the directory's, the repair engine's and the
patrol's; a patrol scrub whose claim is marked and a zero write whose claim is marked are DROPPED instead, and the grant
passes on (R26, R28). So when WRITE ROWS ends with its last ordinary write, the directory's request is granted before the
repair engine's and the patrol's; the foreground request that waits is granted at a commit write's completion, and the
commit's next write waits (R26, R27, R148); a command accepted during an access has its read wait (R27). A DROPPED zero write
restarts its job, whose source read then waits behind the patrol's read that took the grant (R28, R114, R119); a DROPPED
scrub ends its visit, which counts as corrected (R28, R129, R130). That a DROPPED is told before the completion is delivered
is the model's choice (log entry 9). -/
def Obligations.GrantsFollowTheClassOrder : Prop :=
  (∀ (c : Chip) (n : Nat),
      let idle := fun q : Slot => ∀ r, q ≠ .waiting r
      let next := fun (k : AccessClass) (r : Request) =>
        (c.conditionFails r.purpose = false →
          c.grant (n + 1) = ({ c with seq := { c.seq.put k (.inProgress r) with readyTimer := true } }, []))
        ∧ (c.conditionFails r.purpose = true →
          let rest := Chip.grant n { c with seq := c.seq.put k .empty }
          c.grant (n + 1) = (rest.1, r.purpose :: rest.2))
      (∀ p, c.conditionFails p = true ↔
        p = .patrolScrub ∧ claimMarked c.tr.patrolClaim = true ∨ p = .zeroWrite ∧ claimMarked c.tr.repairClaim = true)
      ∧ (∀ r, c.seq.foreground = .waiting r → next .foreground r)
      ∧ (∀ r, idle c.seq.foreground → c.seq.directory = .waiting r → next .directory r)
      ∧ (∀ r, idle c.seq.foreground → idle c.seq.directory → c.seq.repair = .waiting r → next .repair r)
      ∧ (∀ r, idle c.seq.foreground → idle c.seq.directory → idle c.seq.repair → c.seq.patrol = .waiting r → next .patrol r)
      ∧ (idle c.seq.foreground → idle c.seq.directory → idle c.seq.repair → idle c.seq.patrol → c.grant n = (c, [])))
  ∧ (∀ (s : State) (t : Transfer) (x : PhysRow) (ws : List Word), s.cmd.work = .transfer t → s.cmd.stopRequest = false →
      x.inArray s.devices = true → t.last ≤ t.row →
      s.seq.foreground = .inProgress (request .ordinaryWrite x (some ws)) →
      let free : Sequencer := { s.seq with foreground := .empty, readyTimer := false }
      let ended := fun q : Sequencer =>
        ({ s with
          array := s.array.write x ws, seq := q, bus := s.bus.commandDone
          cmd := s.cmd.finished (t.count none 0).code (t.count none 0).results } : State)
      (∀ r, s.seq.directory = .waiting r → s.conditionFails r.purpose = false →
        exec .ordinaryWriteDone s = .next (ended { free with directory := .inProgress r, readyTimer := true }))
      ∧ ((∀ r, s.seq.directory ≠ .waiting r) →
        (∀ r, s.seq.repair = .waiting r → s.conditionFails r.purpose = false →
          exec .ordinaryWriteDone s = .next (ended { free with repair := .inProgress r, readyTimer := true }))
        ∧ (∀ r, (∀ r, s.seq.repair ≠ .waiting r) → s.seq.patrol = .waiting r → s.conditionFails r.purpose = false →
          exec .ordinaryWriteDone s = .next (ended { free with patrol := .inProgress r, readyTimer := true }))
        ∧ (∀ (j : Job) (e : PendingEntry) (y z : PhysRow) (d : Option (List Word)) (r : Request),
            s.seq.repair = .waiting (request .zeroWrite y d) → claimMarked s.tr.repairClaim = true →
            s.seq.patrol = .waiting r → s.conditionFails r.purpose = false → s.rep.job = some j →
            s.pendingOf j.row = some e → e.restarts < 3 → e.cause ≠ .unc → (s.lookup j.row).phys = some z →
          exec .ordinaryWriteDone s = .next
            { ended { free with
                repair := .waiting (request .sourceRead z none), patrol := .inProgress r, readyTimer := true } with
              trk := { s.trk with pendingList := s.trk.pendingList.map fun a =>
                if a.row = j.row then { a with restarts := e.restarts + 1 } else a }
              tr := { s.tr with repairClaim := some { row := j.row, overtaken := false } }
              rep := { s.rep with st := .sourceRead, job := some { j with discard := false } } })
        ∧ (∀ (y : PhysRow) (d : Option (List Word)), (∀ r, s.seq.repair ≠ .waiting r) →
            s.seq.patrol = .waiting (request .patrolScrub y d) → claimMarked s.tr.patrolClaim = true →
            s.pat.st = .visiting → s.pat.restartRequest = false → s.pat.intervalOut = false →
            s.pat.cursor + 1 < 8064 * s.devices →
          exec .ordinaryWriteDone s = .next
            { ended { free with patrol := .empty } with
              tr := { s.tr with patrolClaim := none }
              pat := { s.pat with
                st := .pacing, cursor := s.pat.cursor + 1
                tallies := { s.pat.tallies with
                  visited := s.pat.tallies.visited + 1, corrected := min 255 (s.pat.tallies.corrected + 1) } } })))
  ∧ (∀ (s : State) (j : CommitJob) (r : Request) (x : PhysRow) (ws : List Word), s.dir.commit = some j →
      x.inArray s.devices = true → j.reading = false → j.index < 101 →
      s.seq.directory = .inProgress (request .commitWrite x (some ws)) → s.seq.foreground = .waiting r →
      s.conditionFails r.purpose = false →
        exec .commitWriteDone s = .next { s with
          array := s.array.write x ws
          dir := { s.dir with commit := some { j with index := j.index + 1 } }
          seq := { s.seq with
            foreground := .inProgress r, readyTimer := true
            directory := .waiting (request .commitWrite (j.target.phys (j.index + 1))
              (some (s.dir.image.getD (j.index + 1) []))) } })
  ∧ (∀ (s : State) (x : PhysRow) (k : AccessClass) (r : Request), s.accepts = true → s.seq.current = some (k, r) →
      s.seq.foreground = .empty → s.cmd.params.p1 = 1 → s.cmd.params.p0.toNat < 8064 * s.devices →
      (s.lookup s.cmd.params.p0.toNat).phys = some x →
        exec .readRows s = .next { s with
          cmd := s.cmd.accepted (.transfer
            { kind := .read, row := s.cmd.params.p0.toNat, last := s.cmd.params.p0.toNat, done := 0, firstFail := none
              fails := 0, extra := 0, phase := .reading, spare := none })
          seq := { s.seq with foreground := .waiting (request .readRowsRead x none) } })

/-- The completion, or the TIMEOUT, of an access its requester has abandoned: a write has stored its row, nothing is reported
or counted, and the slot is free (R34, R35, R53, R116, R133). A foreground request held for the slot then enters it and is
granted, and a row that waited for it is looked up and read, or offered as zeros if RETIRED (R53, R60, R63); a row
initialisation asked to end by a soft reset ends the format there (R167); the patrol that waited for its slot visits the
cursor row (R133). A commit that a format which ended early left without effect ends with nothing but the directory unit IDLE
and its image discarded (R167). The end of a commit that FORMAT ARRAY waits for begins the invalidation of both copies; a
commit of the part's own is judged first, a failure raising DIRECTORY_FAIL with dirty set and the delay started (R150, R155,
R162, R163). That held requests and waiting rows take the slot before the next grant is the model's reading (log entries 9
and 21). -/
def Obligations.AbandonedWorkEndsWithoutEffect : Prop :=
  (∀ (s : State) (r : Request) (i : Instr) (arr : Memory), s.seq = Sequencer.carrying r → r.abandoned = true →
      s.accessEnds i r arr →
      let freed : State := { s with array := arr, seq := Sequencer.reset }
      (r.purpose.cls = .repair → exec i s = .next freed)
      ∧ (r.purpose.cls = .foreground →
        (∀ h, s.cmd.held = some h → h.purpose.cls = .foreground →
          exec i s = .next { freed with cmd := { s.cmd with held := none }, seq := Sequencer.carrying h })
        ∧ (s.cmd.held = none →
          (∀ t, s.cmd.work = .transfer t → t.phase = .awaitSlot →
            (∀ x, (s.lookup t.row).phys = some x →
              let reading := { s.cmd with work := .transfer { t with phase := .reading } }
              (t.kind = .read →
                exec i s = .next { freed with cmd := reading, seq := Sequencer.carrying (request .readRowsRead x none) })
              ∧ (t.kind = .check →
                exec i s = .next { freed with cmd := reading, seq := Sequencer.carrying (request .checkRowsRead x none) }))
            ∧ (s.lookup t.row = .retired → t.kind = .read →
              exec i s = .next { freed with
                cmd := { s.cmd with st := .dataOut, work := .transfer { t with phase := .offering .retired } }
                bus := { s.bus with buffer := zeroRow, pointer := 0 } }))
          ∧ (∀ f k, s.dir.format = some f → f.phase = .rowInit k → f.ending = true → s.dir.opState = .formatting →
              s.cmd.work = .none →
            exec i s = .next { freed with
              bus := { s.bus with stateFlag := true }
              dir := { s.dir with
                format := none, opState := .unformatted, validA := false, seqA := 0, validB := false, seqB := 0
                commit := s.dir.commit.map fun j => { j with detached := true } } })
          ∧ ((∀ t, s.cmd.work = .transfer t → t.phase ≠ .awaitSlot) →
              (∀ f k, s.dir.format = some f → f.ending = true → f.phase ≠ .rowInit k) → exec i s = .next freed)))
      ∧ (r.purpose.cls = .patrol →
        (s.pat.st ≠ .pacing ∨ s.pat.intervalOut = false → exec i s = .next freed)
        ∧ (∀ x, s.pat.st = .pacing → s.pat.intervalOut = true → (s.lookup s.pat.cursor).phys = some x →
            claimHolds s.tr.repairClaim s.pat.cursor = false →
          exec i s = .next { freed with
            seq := Sequencer.carrying (request .visitRead x none)
            tr := { s.tr with patrolClaim := some { row := s.pat.cursor, overtaken := false } }
            pat := { s.pat with
              st := .visiting, paceTimer := if s.pat.pace = 0 then none else some s.pat.pace
              intervalOut := decide (s.pat.pace = 0) } })))
  ∧ (∀ (s : State) (j : CommitJob) (i : Instr) (why : Option CommitFailure) (arr : Memory), s.dir.commit = some j →
      (∃ x flips, x.inArray s.devices = true ∧
        (why = none ∧ i = .commitReadBackDone flips ∧ s.seq = Sequencer.carrying (request .commitReadBack x none)
            ∧ s.readBackPasses j (s.array.deliver x flips) = true ∧ j.index = 101 ∧ arr = s.array
          ∨ why = some .verify ∧ i = .commitReadBackDone flips ∧ s.seq = Sequencer.carrying (request .commitReadBack x none)
            ∧ s.readBackPasses j (s.array.deliver x flips) = false ∧ arr = s.array
          ∨ why = some .timeout ∧ ∃ p d second left, i = .readyTimeout second left ∧ (p = .commitWrite ∨ p = .commitReadBack)
            ∧ s.seq = Sequencer.carrying (request p x d)
            ∧ arr = if second then s.array.afterCut s.devices (request p x d) left else s.array)) →
      let closed : State :=
        { s with array := arr, seq := Sequencer.reset, dir := { s.dir with mode := .idle, commit := none, image := [] } }
      let invalidating := fun (t : State) =>
        ({ t with
          seq := Sequencer.carrying (request .invalidatingWrite ⟨0, 8192⟩ (some zeroRow))
          dir := { t.dir with
            validA := false, seqA := 0, validB := false, seqB := 0
            format := some { phase := .invalidating .a, ending := false } } } : State)
      ((∀ f, s.dir.format = some f → f.phase ≠ .waitCommit) → j.detached = true → exec i s = .next closed)
      ∧ (∀ f, s.dir.format = some f → f.phase = .waitCommit →
        (j.detached = true → exec i s = .next (invalidating closed))
        ∧ (j.detached = false → j.ofFormat = false →
          (why = none → exec i s = .next (invalidating closed))
          ∧ (∀ w, why = some w → exec i s = .next (invalidating { closed with
            health := (s.raise (.directoryFail j.target w)).health
            dir := { closed.dir with
              dirty := true
              commitTimer := if s.health.policy.commitDelay = 0 then none else some s.health.policy.commitDelay } })))))

/-! ## Completions of foreground accesses -/

/-- The completion of a row read of READ ROWS or CHECK ROWS, of a scrub, and of an ordinary write, with no STOP pending. A
read is reported with the command's path (R61). A CORRECTED row is scrubbed when SCRUB_ON_READ is on, its lookup still gives
the row read and the repair claim does not hold it: the delivered words are written back, for either command; otherwise the
scrub is not made or is withheld, and the row goes on at once (R65, R68). READ ROWS then offers the delivered words, whatever
the outcome (R63); CHECK ROWS is done with the row, and ends after the last, reads the next row at once, or, where that one
is RETIRED, counts it as failing with RETIRED without an access and goes on to the row after it (R62, R64, R68). A scrub that
completes stores its words, and the row goes on in the same way; an ordinary write that completes stores the host's words,
and WRITE ROWS asks for the next row or ends after the last (R30, R65, R69, R70). -/
def Obligations.RowReadsScrubsAndWritesGoOn : Prop :=
  ∀ (s : State) (t : Transfer) (x : PhysRow), s.cmd.work = .transfer t → s.cmd.stopRequest = false → x.inArray s.devices = true →
    let ends := fun (i : Instr) (c : Chip) (u : Transfer) (arr : Memory) =>
      exec i s = .next { s with array := arr, toChip := { c with
        cmd := s.cmd.finished u.code u.results, bus := c.bus.commandDone } }
    let reads := fun (i : Instr) (c : Chip) (u : Transfer) (arr : Memory) (y : PhysRow) =>
      exec i s = .next { s with array := arr, toChip := { c with
        cmd := { s.cmd with
          results := { s.cmd.results with r0 := word u.done }, work := .transfer { u with row := u.row + 1, phase := .reading } }
        seq := Sequencer.carrying (request .checkRowsRead y none) } }
    let goesOn := fun (i : Instr) (c : Chip) (u : Transfer) (arr : Memory) =>
      (t.last ≤ t.row → ends i c u arr)
      ∧ (∀ y, t.row < t.last → (s.lookup (t.row + 1)).phys = some y → reads i c u arr y)
      ∧ (t.row < t.last → s.lookup (t.row + 1) = .retired →
        let v := Transfer.count { u with row := t.row + 1 } (some .retired) 0
        (t.last ≤ t.row + 1 → ends i c v arr)
        ∧ ∀ y, t.row + 1 < t.last → (s.lookup (t.row + 2)).phys = some y → reads i c v arr y)
    (∀ flips : RowPatch,
      let d := s.array.deliver x flips
      let reported := fun path => s.portFreed.report { row := t.row, phys := x, outcome := d.outcome, path, readBack := false }
      let scrubDue := d.outcome = .corrected ∧ s.health.policy.scrubOnRead = true ∧ (s.lookup t.row).phys = some x
        ∧ claimHolds s.tr.repairClaim t.row = false
      let scrubs := fun (i : Instr) (c : Chip) =>
        exec i s = .next { s with toChip := { c with
          cmd := { s.cmd with work := .transfer { t with phase := .scrubbing } }
          seq := Sequencer.carrying (request .scrubWrite x (some d.words)) } }
      (s.seq = Sequencer.carrying (request .readRowsRead x none) → t.kind = .read →
        (¬ scrubDue → exec (.readRowsReadDone flips) s = .next { s with toChip := { reported .read with
          cmd := { s.cmd with st := .dataOut, work := .transfer { t with phase := .offering (.seen d.outcome) } }
          bus := { (reported .read).bus with buffer := d.words, pointer := 0 } } })
        ∧ (scrubDue → scrubs (.readRowsReadDone flips) (reported .read)))
      ∧ (s.seq = Sequencer.carrying (request .checkRowsRead x none) → t.kind = .check →
        (¬ scrubDue → goesOn (.checkRowsReadDone flips) (reported .check)
          (t.count (RowKind.seen d.outcome).fail (RowKind.seen d.outcome).extra) s.array)
        ∧ (scrubDue → scrubs (.checkRowsReadDone flips) (reported .check))))
    ∧ (∀ ws,
      (s.seq = Sequencer.carrying (request .scrubWrite x (some ws)) →
        (t.kind = .read → exec .scrubWriteDone s = .next { s with
          seq := Sequencer.reset, array := s.array.write x ws
          cmd := { s.cmd with st := .dataOut, work := .transfer { t with phase := .offering (.seen .corrected) } }
          bus := { s.bus with buffer := ws, pointer := 0 } })
        ∧ (t.kind = .check → goesOn .scrubWriteDone s.portFreed (t.count none 1) (s.array.write x ws)))
      ∧ (s.seq = Sequencer.carrying (request .ordinaryWrite x (some ws)) → t.kind = .write →
        (t.row < t.last →
          exec .ordinaryWriteDone s = .next { s with
            seq := Sequencer.reset, array := s.array.write x ws, bus := { s.bus with pointer := 0 }
            cmd := { s.cmd with
              st := .dataIn, results := { s.cmd.results with r0 := word (t.done + 1) }
              work := .transfer { t.count none 0 with row := t.row + 1, phase := .dataIn } } })
        ∧ (t.last ≤ t.row →
          exec .ordinaryWriteDone s = .next { s with
            seq := Sequencer.reset, array := s.array.write x ws, bus := s.bus.commandDone
            cmd := s.cmd.finished (t.count none 0).code (t.count none 0).results })))

/-- Write-repair's qualification and data write: a write, or a read that passes, is followed by the next of the four accesses;
after the fourth the row's words go to the spare under a foreground write lookup that marks the claims; after the data write
the verify read follows (R74, R75, R107). -/
def Obligations.WriteRepairQualifiesAndWrites : Prop :=
  ∀ (s : State) (t : Transfer) (x : PhysRow) (sp : SpareId) (flips : RowPatch), s.cmd.work = .transfer t →
    t.spare = some sp → s.cmd.stopRequest = false → x.inArray s.devices = true →
    (∀ ws, (s.seq = Sequencer.carrying (request (.repairQualify 0) x (some ws)) →
        exec (.writeRepairQualifyDone flips) s = .next { s with
          array := s.array.write x ws
          cmd := { s.cmd with work := .transfer { t with phase := .repairQualify } }
          seq := Sequencer.carrying (request (.repairQualify 1) sp.phys none) })
      ∧ (s.seq = Sequencer.carrying (request (.repairQualify 2) x (some ws)) →
        exec (.writeRepairQualifyDone flips) s = .next { s with
          array := s.array.write x ws
          cmd := { s.cmd with work := .transfer { t with phase := .repairQualify } }
          seq := Sequencer.carrying (request (.repairQualify 3) sp.phys none) })
      ∧ (s.seq = Sequencer.carrying (request .repairDataWrite x (some ws)) →
        exec .writeRepairDataWriteDone s = .next { s with
          array := s.array.write x ws
          cmd := { s.cmd with work := .transfer { t with phase := .repairVerify } }
          seq := Sequencer.carrying (request .repairVerify sp.phys none) }))
    ∧ (s.seq = Sequencer.carrying (request (.repairQualify 1) x none) →
        (s.array.deliver x flips).passes (patternRow 0xAAAA 0x5555) = true →
        exec (.writeRepairQualifyDone flips) s = .next { s with
          cmd := { s.cmd with work := .transfer { t with phase := .repairQualify } }
          seq := Sequencer.carrying (request (.repairQualify 2) sp.phys (some (patternRow 0x5555 0xAAAA))) })
    ∧ (s.seq = Sequencer.carrying (request (.repairQualify 3) x none) →
        (s.array.deliver x flips).passes (patternRow 0x5555 0xAAAA) = true → s.lookup t.row ≠ .retired →
        exec (.writeRepairQualifyDone flips) s = .next { s with
          cmd := { s.cmd with work := .transfer { t with phase := .repairData } }
          tr := { s.tr with repairClaim := markClaim t.row s.tr.repairClaim, patrolClaim := markClaim t.row s.tr.patrolClaim }
          seq := Sequencer.carrying (request .repairDataWrite sp.phys (some s.bus.buffer)) })

/-- Write-repair's verify of the last row passing: the relocation of R76 is made, the row counts in RESULT3 and the command
ends (R75, R76). A relocation of a row served by its home row: the new entry stands in the table with its origin and the pass
number, no other row's lookup changes, the pending entry is gone, the patrol claim is marked if it holds the row, the spare
is IN_USE, and lent out and borrowed in where it lies in another zone than the row's; the change is counted, and REPAIRED is
raised after the map update, its old-bad bit clear (R13, R76, R113). A regrade of the same action raises its GRADE_CHANGE
(R174), and a commit it triggers that is refused its DIRECTORY_FAIL, before REPAIRED joins: R177 lets notices of different
blocks join in either order, and this order is the model's choice (log entry 15, DESIGN CHOICE). -/
def Obligations.RelocationMovesTheRow : Prop :=
  (∀ (s : State) (t : Transfer) (x : PhysRow) (sp : SpareId) (flips : RowPatch), s.cmd.work = .transfer t →
      t.spare = some sp → s.cmd.stopRequest = false → x.inArray s.devices = true → s.lookup t.row ≠ .retired →
      s.tr.changes < 15 → t.last ≤ t.row →
      s.seq = Sequencer.carrying (request .repairVerify x none) → (s.array.deliver x flips).passes s.bus.buffer = true →
        let c := s.portFreed.relocateTo t.row sp .write
        let u := t.count none 1
        exec (.writeRepairVerifyDone flips) s = .next { s with toChip := { c with
          cmd := s.cmd.finished u.code u.results, bus := c.bus.commandDone } })
  ∧ (∀ (c : Chip) (l : Nat) (sp : SpareId) (o : Origin) (h : PhysRow), c.lookup l = .home h →
      let d := c.relocateTo l sp o
      let home := homeZone l
      d.lookup l = .spared sp
      ∧ d.entryOf l = some { row := l, place := .spared sp, origin := o, stamp := c.pat.pass }
      ∧ (∀ l', l' ≠ l → d.lookup l' = c.lookup l')
      ∧ d.trk.pendingList = c.trk.pendingList.filter (fun e => decide (e.row ≠ l))
      ∧ d.tr.patrolClaim = markClaim l c.tr.patrolClaim
      ∧ d.tr.repairClaim = c.tr.repairClaim
      ∧ (c.tr.changes < 15 → d.tr.changes = c.tr.changes + 1 ∧ d.dir.dirty = true)
      ∧ d = (c.mapUpdate l sp o).raise (.repaired l home sp false)
      ∧ ∀ g, g < c.alloc.zones.length →
        (d.zone g).spares =
          (if g = sp.globalZone then (c.zone g).spares.set sp.index.val .inUse else (c.zone g).spares)
        ∧ (d.zone g).lentOut = (c.zone g).lentOut + (if g = sp.globalZone ∧ g ≠ home then 1 else 0)
        ∧ (d.zone g).borrowedIn = (c.zone g).borrowedIn + (if g = home ∧ sp.globalZone ≠ home then 1 else 0)
        ∧ (d.zone g).retiredRows = (c.zone g).retiredRows)

/-- Retiring a row served by its home row: with fewer than 128 RETIRED entries the row's new entry is RETIRED with its origin
and the pass number, its pending entry is gone, and its watch entry if it has one (log entry 32, DEDUCED), the patrol claim
is marked if it holds the row, its zone counts one retired row more and no zone changes otherwise, the change is counted,
dirty is set, and the RETIRED notice is raised after that (R15, R78, R103); with 128 the map stays, the row's pending entry
is STUCK with dirty set, and the STUCK notice is raised (R15, R78, R95); a row RETIRED already is left alone (R78). A regrade
of the same action raises its GRADE_CHANGE (R174), and a commit it triggers that is refused its DIRECTORY_FAIL, before
RETIRED or STUCK joins: R177 lets notices of different blocks join in either order, and this order is the model's choice (log
entry 15, DESIGN CHOICE). -/
def Obligations.RetirementMarksTheRow : Prop :=
  ∀ (c : Chip) (l : Nat) (o : Origin),
    let d := (c.retireOrStick l o).1
    (∀ h, c.lookup l = .home h → c.retiredCount < 128 →
      (c.retireOrStick l o).2 = .retired
      ∧ d.lookup l = .retired
      ∧ d.entryOf l = some { row := l, place := .retired, origin := o, stamp := c.pat.pass }
      ∧ (∀ l', l' ≠ l → d.lookup l' = c.lookup l')
      ∧ d.trk.pendingList = c.trk.pendingList.filter (fun e => decide (e.row ≠ l))
      ∧ d.tr.patrolClaim = markClaim l c.tr.patrolClaim
      ∧ d.trk.watch = c.trk.watch.map (fun w => if slotHolds l w then none else w)
      ∧ d.tr.repairClaim = c.tr.repairClaim
      ∧ (c.tr.changes < 15 → d.tr.changes = c.tr.changes + 1 ∧ d.dir.dirty = true)
      ∧ d = (c.retireRow l o).raise (.retired l)
      ∧ ∀ g, g < c.alloc.zones.length →
        d.zone g = { c.zone g with retiredRows := (c.zone g).retiredRows + if g = homeZone l then 1 else 0 })
    ∧ (c.lookup l ≠ .retired → 128 ≤ c.retiredCount →
      (c.retireOrStick l o).2 = .tableFull ∧ d.tr = c.tr ∧ d.alloc = c.alloc
      ∧ d = (c.setStuck l).raise (.stuck l)
      ∧ d.trk.watch = c.trk.watch
      ∧ d.trk.pendingList = c.trk.pendingList.map (fun e => if e.row = l then { e with stuck := true } else e)
      ∧ (c.pendingOf l ≠ none → d.dir = c.setDirty.dir) ∧ (c.pendingOf l = none → d.dir = c.dir))
    ∧ (c.lookup l = .retired → c.retireOrStick l o = (c, .alreadyRetired))

/-- A row served by a spare, relocated to another or retired: the row's one entry takes the new place, origin and stamp and
no other row's lookup changes; the old spare becomes BAD and is no longer lent or borrowed, a new one becomes IN_USE and is
counted so, a retirement counts in the home zone; the pending entry goes, at a retirement with any watch entry the row still
has (log entry 32, DEDUCED), the patrol claim is marked, the change is counted (R13 to R15, R76, R78, R113). A change that
takes the count from 15 to 16 is a commit trigger: a commit starts and the count becomes 0, or while one is in flight the
request is recorded; at 16 the count stays and triggers nothing (R16, R145; the commit in the same action, log entry 24). A
regrade of the same action raises its GRADE_CHANGE (R174), and a commit it triggers that is refused its DIRECTORY_FAIL,
before REPAIRED joins: R177 lets notices of different blocks join in either order, and this order is the model's choice (log
entry 15, DESIGN CHOICE). -/
def Obligations.SparedRowsLeaveTheirSpare : Prop :=
  (∀ (c : Chip) (l : Nat) (old : SpareId) (o : Origin), c.lookup l = .spared old →
    c.tr.remap.Pairwise (fun a b => a.row < b.row) →
    let home := homeZone l
    let lost := fun (g n : Nat) => n - if g = old.globalZone ∧ g ≠ home then 1 else 0
    let back := fun (g n : Nat) => n - if g = home ∧ old.globalZone ≠ home then 1 else 0
    let spoiled := fun g => if g = old.globalZone then (c.zone g).spares.set old.index.val .bad else (c.zone g).spares
    let moved := fun (d : Chip) (place : Placement) (answer : Lookup) =>
      d.lookup l = answer
      ∧ d.entryOf l = some { row := l, place, origin := o, stamp := c.pat.pass }
      ∧ (∀ l', l' ≠ l → d.lookup l' = c.lookup l')
      ∧ d.tr.remap.map RemapEntry.row = c.tr.remap.map RemapEntry.row
      ∧ d.trk.pendingList = c.trk.pendingList.filter (fun e => decide (e.row ≠ l))
      ∧ d.tr.patrolClaim = markClaim l c.tr.patrolClaim
      ∧ d.tr.repairClaim = c.tr.repairClaim
      ∧ (c.tr.changes < 15 → d.tr.changes = c.tr.changes + 1 ∧ d.dir.dirty = true)
    (∀ sp, let d := c.relocateTo l sp o
      moved d (.spared sp) (.spared sp)
      ∧ d = (c.mapUpdate l sp o).raise (.repaired l home sp true)
      ∧ ∀ g, g < c.alloc.zones.length →
        (d.zone g).spares = (if g = sp.globalZone then (spoiled g).set sp.index.val .inUse else spoiled g)
        ∧ (d.zone g).lentOut = lost g (c.zone g).lentOut + (if g = sp.globalZone ∧ g ≠ home then 1 else 0)
        ∧ (d.zone g).borrowedIn = back g (c.zone g).borrowedIn + (if g = home ∧ sp.globalZone ≠ home then 1 else 0)
        ∧ (d.zone g).retiredRows = (c.zone g).retiredRows)
    ∧ (c.retiredCount < 128 →
      let d := (c.retireOrStick l o).1
      (c.retireOrStick l o).2 = .retired
      ∧ moved d .retired .retired
      ∧ d.trk.watch = c.trk.watch.map (fun w => if slotHolds l w then none else w)
      ∧ ∀ g, g < c.alloc.zones.length →
        (d.zone g).spares = spoiled g
        ∧ (d.zone g).lentOut = lost g (c.zone g).lentOut
        ∧ (d.zone g).borrowedIn = back g (c.zone g).borrowedIn
        ∧ (d.zone g).retiredRows = (c.zone g).retiredRows + (if g = home then 1 else 0)))
  ∧ (∀ (c d : Chip) (l : Nat) (o : Origin), c.inService = true →
      (∃ sp, d = c.relocateTo l sp o) ∨ c.lookup l ≠ .retired ∧ c.retiredCount < 128 ∧ d = (c.retireOrStick l o).1 →
      (c.tr.changes = 15 → c.dir.mode = .committing →
        d.tr.changes = 16 ∧ d.dir.mode = .committing ∧ d.dir.commitRequest = true)
      ∧ (c.tr.changes = 15 → c.dir.mode = .idle → c.highestSeq ≠ 0xFFFFFFFF → c.seq.directory = .empty →
        d.tr.changes = 0 ∧ d.dir.mode = .committing ∧ d.dir.dirty = false
        ∧ d.dir.commit = some {
            target := c.commitTarget, seq := c.highestSeq + 1, index := 0, reading := false, detached := false
            ofFormat := false }
        ∧ ∃ ws, d.seq.directory = .waiting (request .commitWrite (c.commitTarget.phys 0) (some ws)))
      ∧ (c.tr.changes = 16 →
        d.tr.changes = 16 ∧ d.dir.mode = c.dir.mode ∧ d.dir.commitRequest = c.dir.commitRequest ∧ d.seq = c.seq))

/-- The no-spare path of write-repair: the in-place write is followed by the read of the same row; a CLEAN or CORRECTED
read-back is reported as such, and the last row done ends the command (R77, R85). The DISCARD no-spare path: the zero write
is followed by its read-back; a CLEAN or CORRECTED read-back with the mark clear is reported as a read-back and ends the
job, and its RELOCATE ROW with DATA_LOST (R118, R119). An UNCORRECTABLE read-back of either path is reported, and the row is
retired, which counts as failing RETIRED or ends RELOCATE ROW with RETIRED; where the table is full the entry is STUCK and
the result NO_SPARE (R78, R119). That a zero read-back which finds its row RETIRED already ends RELOCATE ROW with RETIRED is
the model's choice, the table of R119 being silent (log entry 20, DEDUCED). -/
def Obligations.ReadBacksEndTheNoSparePaths : Prop :=
  (∀ (s : State) (t : Transfer) (x : PhysRow) (flips : RowPatch), s.cmd.work = .transfer t →
      x.inArray s.devices = true →
      (∀ ws, s.seq = Sequencer.carrying (request .inPlaceWrite x (some ws)) →
        exec .inPlaceWriteDone s = .next { s with
          array := s.array.write x ws
          cmd := { s.cmd with work := .transfer { t with phase := .readBack } }
          seq := Sequencer.carrying (request .readBack x none) })
      ∧ (s.seq = Sequencer.carrying (request .readBack x none) → s.cmd.stopRequest = false → t.last ≤ t.row →
        let d := s.array.deliver x flips
        d.outcome ≠ .uncorrectable →
          let c := s.portFreed.report { row := t.row, phys := x, outcome := d.outcome, path := .write, readBack := true }
          let u := t.count none 0
          exec (.readBackDone flips) s = .next { s with toChip := { c with
            cmd := s.cmd.finished u.code u.results, bus := c.bus.commandDone } }))
  ∧ (∀ (s : State) (j : Job) (x : PhysRow) (ws : List Word) (flips : RowPatch), s.rep.job = some j → j.spare = none →
      j.command = true → s.cmd.stopRequest = false → x.inArray s.devices = true →
      (s.seq = Sequencer.carrying (request .zeroWrite x (some ws)) →
        exec .zeroWriteDone s = .next { s with
          array := s.array.write x ws, seq := Sequencer.carrying (request .zeroReadBack x none) })
      ∧ (s.seq = Sequencer.carrying (request .zeroReadBack x none) → claimMarked s.tr.repairClaim = false →
        let d := s.array.deliver x flips
        d.outcome ≠ .uncorrectable →
          let c := s.portFreed.report { row := j.row, phys := x, outcome := d.outcome, path := .write, readBack := true }
          exec (.zeroReadBackDone flips) s = .next { s with toChip := { c with
            tr := { c.tr with repairClaim := none }, rep := { s.rep with st := .idle, job := none }
            bus := c.bus.commandDone
            cmd := s.cmd.finished .dataLost
              ⟨word (c.lookup j.row).code, (c.lookup j.row).targetWord, word j.madeBad, 0⟩ } }))
  ∧ ((∀ (s : State) (t : Transfer) (x : PhysRow) (flips : RowPatch), s.cmd.work = .transfer t → x.inArray s.devices = true →
        s.seq = Sequencer.carrying (request .readBack x none) → s.cmd.stopRequest = false → t.last ≤ t.row →
        (s.array.deliver x flips).outcome = .uncorrectable →
        let c := s.portFreed.report { row := t.row, phys := x, outcome := .uncorrectable, path := .write, readBack := true }
        let r := c.retireOrStick t.row .write
        let u := t.count (some (if r.2 = .tableFull then .noSpare else .retired)) 0
        exec (.readBackDone flips) s = .next { s with
          toChip := Chip.settle 8 { r.1 with cmd := s.cmd.finished u.code u.results, bus := r.1.bus.commandDone } })
    ∧ (∀ (s : State) (j : Job) (x : PhysRow) (flips : RowPatch), s.rep.job = some j → j.spare = none → j.command = true →
        s.cmd.work ≠ .commitWait → s.cmd.stopRequest = false → x.inArray s.devices = true →
        s.seq = Sequencer.carrying (request .zeroReadBack x none) → claimMarked s.tr.repairClaim = false →
        (s.array.deliver x flips).outcome = .uncorrectable →
        let c := s.portFreed.report { row := j.row, phys := x, outcome := .uncorrectable, path := .write, readBack := true }
        let r := c.retireOrStick j.row .host
        exec (.zeroReadBackDone flips) s = .next { s with
          toChip := Chip.settle 8 { r.1 with
            tr := { r.1.tr with repairClaim := none }, rep := { s.rep with st := .idle, job := none }
            bus := r.1.bus.commandDone
            cmd := s.cmd.finished (if r.2 = .tableFull then .noSpare else .retired)
              ⟨word (r.1.lookup j.row).code, (r.1.lookup j.row).targetWord, word j.madeBad, 0⟩ } }))

/-! ## Completions of the directory unit's accesses and of the format -/

/-- A load read that completes is kept, judged by test 1, and followed by the next of the 204 reads; one that times out fails
test 1 for its copy, and loading goes on with the next (R157; the zeros kept in place of its words are the model's own, log
entry 27). The last load read, with an uncorrectable word found in each copy: neither copy is valid, and the part is
UNFORMATTED with the STATE flag set and nothing handed on (R157, R158, R160). -/
def Obligations.LoadReadsAndJudgesBothCopies : Prop :=
  ∀ (s : State) (x : PhysRow) (instr : Instr) (words : List Word) (ok : Bool),
    s.seq = Sequencer.carrying (request .loadRead x none) → s.dir.mode = .loading →
    (∃ flips, instr = .loadReadDone flips ∧ x.inArray s.devices = true ∧ words = (s.array.deliver x flips).words
        ∧ ok = (s.array.deliver x flips).outcomes.all fun o => decide (o ≠ .uncorrectable))
      ∨ (∃ second left, instr = .readyTimeout second left ∧ words = zeroRow ∧ ok = false) →
    (s.dir.loadIndex < 203 →
      let i := s.dir.loadIndex
      exec instr s = .next { s with
        dir := { s.dir with
          loadIndex := i + 1
          loadBuffer := if i < 102 then s.dir.loadBuffer ++ [words] else s.dir.loadBuffer
          loadOkA := if i < 102 then s.dir.loadOkA && ok else s.dir.loadOkA
          image := if i < 102 then s.dir.image else s.dir.image ++ [words]
          loadOkB := if i < 102 then s.dir.loadOkB else s.dir.loadOkB && ok }
        seq := Sequencer.carrying (request .loadRead ⟨0, if i + 1 < 102 then 8192 + (i + 1) else 8320 + (i + 1 - 102)⟩
            none) })
    ∧ (s.dir.loadIndex = 203 → s.dir.loadOkA = false → (s.dir.loadOkB && ok) = false → s.dir.opState = .loading →
        exec instr s = .next { s with
          seq := Sequencer.reset, bus := { s.bus with stateFlag := true }
          dir := { s.dir with
            mode := .idle, opState := .unformatted, validA := false, seqA := 0, validB := false, seqB := 0
            image := [], loadBuffer := [], loadOkB := false } })

/-- The last load read, by its completion or by a TIMEOUT, which fails test 1 for copy B (R157). A copy is valid when all its
reads were readable, its layout version is 3, header and trailer carry one sequence number, its words sum to 0 and its content
is readable and lawful (R141, R182). Of two valid copies the newer, of equal ones copy A alone, of one the one; READY with two
and DEGRADED with one (R142, R158). Its content is handed to the owners with zones and device graded under the loaded policy
and neither GRADE nor a notice, the watch table empty, and the patrol starts where its mode is not OFF (R91, R125, R159,
R160); a copy of another device count leaves the part FOREIGN with nothing handed on, and no valid copy UNFORMATTED (R158,
R160). -/
def Obligations.LoadHandsOverTheNewestValidCopy : Prop :=
  ∀ (s : State) (x : PhysRow) (i : Instr) (words : List Word) (ok : Bool),
      s.seq = Sequencer.carrying (request .loadRead x none) → s.dir.mode = .loading → s.dir.loadIndex = 203 →
      s.dir.opState = .loading →
      (∃ flips, i = .loadReadDone flips ∧ x.inArray s.devices = true ∧ words = (s.array.deliver x flips).words
          ∧ ok = (s.array.deliver x flips).outcomes.all fun o => decide (o ≠ .uncorrectable))
        ∨ (∃ second left, i = .readyTimeout second left ∧ words = zeroRow ∧ ok = false) →
      let cell := fun (rows : List (List Word)) (k i : Nat) => (rows.getD k []).getD i 0
      let okA := s.dir.loadOkA
      let okB := s.dir.loadOkB && ok
      let rowsA := s.dir.loadBuffer
      let rowsB := s.dir.image ++ [words]
      let valid := fun (ok : Bool) (rows : List (List Word)) (l : Loaded) =>
        ok = true ∧ cell rows 0 0 = 3 ∧ cell rows 0 1 = cell rows 101 0 ∧ cell rows 0 2 = cell rows 101 1
        ∧ rows.foldl (fun sum row => row.foldl (· + ·) sum) 0 = 0 ∧ readContent rows = some l ∧ l.lawful = true
      let settled := fun (validA : Bool) (seqA : BitVec 32) (validB : Bool) (seqB : BitVec 32) (st : OperatingState) =>
        { s.portFreed with
          bus := { s.bus with stateFlag := true }
          dir := { s.dir with
            mode := .idle, opState := st, validA, seqA, validB, seqB, image := [], loadBuffer := [], loadOkB := okB } }
      let handed := fun (c : Chip) (l : Loaded) =>
        let row := if l.cursor < 8064 * s.devices then l.cursor else 0
        let c := { c with
          tr := { remap := l.remap, changes := 0, repairClaim := none, patrolClaim := none }
          trk := { watch := List.replicate 64 none, pendingList := l.pendingList }
          alloc := { zones := l.zones.zipIdx.map fun (zg : Zone × Nat) =>
            if zg.2 < 8 * l.devices then { zg.1 with grade := zoneGrade l.policy zg.1.free } else zg.1 }
          pat := { PatrolEngine.reset with
            mode := l.mode, pace := l.pace, pass := l.pass, cursor := row, whole := decide (row = 0)
            st := if l.mode = PatrolMode.off then .stopped else .pacing, intervalOut := decide (l.mode ≠ PatrolMode.off) }
          health := { s.health with policy := l.policy } }
        { c with health := { s.health with policy := l.policy, grade := c.computedGrade } }
      let ends := fun (settledAs : OperatingState → Chip) (l : Loaded) (st : OperatingState) =>
        (l.devices ≠ s.devices → exec i s = .next { s with toChip := settledAs .foreign })
        ∧ (l.devices = s.devices → l.mode = .off →
            exec i s = .next { s with toChip := handed (settledAs st) l })
        ∧ (l.devices = s.devices → l.mode ≠ .off →
            exec i s = .next { s with toChip := (handed (settledAs st) l).patrolOn.settle 8 })
      (∀ a b, valid okA rowsA a → valid okB rowsB b →
        (a.seq < b.seq → ends (settled true a.seq true b.seq) b .ready)
        ∧ (b.seq < a.seq → ends (settled true a.seq true b.seq) a .ready)
        ∧ (a.seq = b.seq → ends (settled true a.seq false 0) a .degraded))
      ∧ (∀ a, valid okA rowsA a → (∀ b, ¬ valid okB rowsB b) → ends (settled true a.seq false 0) a .degraded)
      ∧ (∀ b, (∀ a, ¬ valid okA rowsA a) → valid okB rowsB b → ends (settled false 0 true b.seq) b .degraded)
      ∧ ((∀ a, ¬ valid okA rowsA a) → (∀ b, ¬ valid okB rowsB b) →
        exec i s = .next { s with toChip := settled false 0 false 0 .unformatted })

/-- What a load reads from the rows of a copy: header, remap, pending and zone slots in their places, with the counts limited
to their capacities and the settings out of range replaced (R125, R159, R182, section 11.3). A copy with a SPARED slot whose
target word is FFFFh (no spare), or with a slot of another kind or origin than the tables give, has no content and so is not
valid (section 11.2, R182; log entry 18). A content is lawful exactly when it breaks none of the laws that R182 lists, among
them at most 512 SPARED and 128 RETIRED entries (R10, R182, log entry 18). -/
def Obligations.CopyContentReadsByItsLayout : Prop :=
  (∀ (rows : List (List Word)) (l : Loaded), readContent rows = some l →
      let w := fun i => (rows.getD 0 []).getD i 0
      let n := fun i => (w i).toNat
      l.seq = w 1 ++ w 2 ∧ l.devices = n 3 ∧ l.cursor = n 12 ∧ l.pass = w 13 ∧ l.pace = min 255 (n 11)
      ∧ l.mode = (if n 10 = 1 then .single else if n 10 = 2 then .continuous else .off)
      ∧ (2 ≤ n 4 ∧ n 4 ≤ 15 → l.policy.watchThreshold = n 4) ∧ (n 4 < 2 ∨ 15 < n 4 → l.policy.watchThreshold = 3)
      ∧ (1 ≤ n 5 ∧ n 5 ≤ 15 → l.policy.forgetSpan = n 5) ∧ (n 5 < 1 ∨ 15 < n 5 → l.policy.forgetSpan = 4)
      ∧ (n 6 ≤ 16 → l.policy.lendReserve = n 6) ∧ (16 < n 6 → l.policy.lendReserve = 4)
      ∧ l.policy.borrow = (w 7).getLsbD 0 ∧ l.policy.autoRepair = (w 7).getLsbD 1 ∧ l.policy.scrubOnRead = (w 7).getLsbD 2
      ∧ (n 9 ≤ 255 → l.policy.commitDelay = n 9) ∧ (255 < n 9 → l.policy.commitDelay = 10)
      ∧ (let caution := field (w 8) 0 5
         let critical := field (w 8) 8 5
         (critical < caution → caution ≤ 16 → l.policy.cautionLimit = caution ∧ l.policy.criticalLimit = critical)
         ∧ (caution ≤ critical → l.policy.cautionLimit = 8 ∧ l.policy.criticalLimit = 2))
      ∧ l.remap.length = min 512 (n 14) + min 128 (n 15)
      ∧ (∀ i e, l.remap[i]? = some e →
          let v := fun k => (rows.getD (1 + i / 8) []).getD (4 * (i % 8) + k) 0
          e.row = (v 0).toNat ∧ e.stamp = v 3 ∧ e.origin.code = field (v 2) 4 3
          ∧ (field (v 2) 0 2 = 1 ∧ v 1 ≠ 0xFFFF ∧ e.place = .spared (SpareId.unpack (v 1))
            ∨ field (v 2) 0 2 = 2 ∧ e.place = .retired))
      ∧ l.pendingList.length = min 32 (n 16)
      ∧ (∀ i e, l.pendingList[i]? = some e →
          let v := fun k => (rows.getD (81 + i / 8) []).getD (4 * (i % 8) + k) 0
          e.row = (v 0).toNat ∧ e.added = v 2 ∧ e.restarts = 0 ∧ e.cause.code = field (v 1) 0 2
          ∧ e.source.code = field (v 1) 4 3 ∧ e.starved = (v 1).getLsbD 8 ∧ e.stuck = (v 1).getLsbD 9)
      ∧ (∀ g, g < 32 →
          let v := fun k => (rows.getD (85 + g / 2) []).getD (16 * (g % 2) + k) 0
          let z := l.zones.getD g Zone.absent
          (8 * l.devices ≤ g → z = Zone.absent)
          ∧ (g < 8 * l.devices → z.lentOut = (v 5).toNat ∧ z.borrowedIn = (v 6).toNat ∧ z.retiredRows = (v 7).toNat
            ∧ z.uncEvents = (v 8).toNat ∧ z.exhausted = false ∧ z.spares.length = 16
            ∧ ∀ i, i < 16 → z.spares[i]? = some
              (let code := field (v (i / 8)) (2 * (i % 8)) 2
               if code = 2 then .inUse else if code = 3 then .bad else .free))))
  ∧ (∀ (rows : List (List Word)) (i : Nat),
      let n := fun k => ((rows.getD 0 []).getD k 0).toNat
      let v := fun k => (rows.getD (1 + i / 8) []).getD (4 * (i % 8) + k) 0
      i < min 512 (n 14) + min 128 (n 15) →
      field (v 2) 0 2 = 1 ∧ v 1 = 0xFFFF ∨ field (v 2) 0 2 = 0 ∨ field (v 2) 0 2 = 3 ∨ 4 < field (v 2) 4 3 →
        readContent rows = none)
  ∧ (∀ l : Loaded,
      let rows := 8064 * l.devices
      let targets := l.remap.filterMap fun e =>
        match e.place with
        | .spared t => some t
        | .retired => none
      let retiredOf := fun e : RemapEntry => decide (e.place = .retired)
      let borrowed := l.remap.filterMap fun e =>
        match e.place with
        | .spared t => if t.globalZone = homeZone e.row then none else some (t.globalZone, homeZone e.row)
        | .retired => none
      l.lawful = true ↔
        l.seq ≠ 0
        ∧ l.remap.Pairwise (fun a b => a.row < b.row) ∧ (∀ e ∈ l.remap, e.row < rows)
        ∧ l.remap.countP retiredOf ≤ 128 ∧ targets.length ≤ 512
        ∧ (∀ t ∈ targets, t.device.val < l.devices
            ∧ (l.zones.getD t.globalZone Zone.absent).spares[t.index.val]? = some .inUse)
        ∧ targets.Nodup
        ∧ (∀ g z i, l.zones[g]? = some z → z.spares[i]? = some .inUse → spareOf g i ∈ targets)
        ∧ (l.pendingList.map PendingEntry.row).Nodup
        ∧ (∀ e ∈ l.pendingList, e.row < rows ∧ (∀ x ∈ l.remap, x.row = e.row → x.place ≠ .retired)
            ∧ (e.starved = true → e.cause ≠ .unc) ∧ (e.stuck = true → e.cause = .unc))
        ∧ (∀ g z, g < 8 * l.devices → l.zones[g]? = some z →
            z.lentOut = borrowed.countP (fun p => decide (p.1 = g))
                ∧ z.borrowedIn = borrowed.countP (fun p => decide (p.2 = g))
            ∧ z.retiredRows = l.remap.countP fun e => retiredOf e && decide (homeZone e.row = g)))

/-- A commit write that completes is followed by the next image row's, and after row 101 by the read-back of row 0; a
read-back that passes is followed by the next row's (R148, R149). The end of a commit, of either target: by its last
read-back passing, by a read-back that differs, or by a TIMEOUT of a write or read-back. The target becomes valid with its
sequence or stays invalid; READY with two valid copies and DEGRADED with one, with STATE on a change; a failure raises
DIRECTORY_FAIL, sets dirty and starts the delay; COMMIT DIRECTORY ends with its registers (R149 to R152, R161). With the
commit request set the next commit begins in the same action, for the waiting COMMIT DIRECTORY (R145, R148). -/
def Obligations.CommitWritesReadsBackAndEndsWithItsOutcome : Prop :=
  (∀ (s : State) (j : CommitJob) (x : PhysRow) (ws : List Word) (flips : RowPatch), s.dir.commit = some j →
      x.inArray s.devices = true →
      (s.seq = Sequencer.carrying (request .commitWrite x (some ws)) → j.reading = false →
        (j.index < 101 →
          exec .commitWriteDone s = .next { s with
            array := s.array.write x ws
            dir := { s.dir with commit := some { j with index := j.index + 1 } }
            seq := Sequencer.carrying (request .commitWrite (j.target.phys (j.index + 1))
              (some (s.dir.image.getD (j.index + 1) []))) })
        ∧ (j.index = 101 →
          exec .commitWriteDone s = .next { s with
            array := s.array.write x ws
            dir := { s.dir with commit := some { j with index := 0, reading := true } }
            seq := Sequencer.carrying (request .commitReadBack (j.target.phys 0) none) }))
      ∧ (s.seq = Sequencer.carrying (request .commitReadBack x none) → j.reading = true →
        s.readBackPasses j (s.array.deliver x flips) = true → j.index < 101 →
          exec (.commitReadBackDone flips) s = .next { s with
            dir := { s.dir with commit := some { j with index := j.index + 1 } }
            seq := Sequencer.carrying (request .commitReadBack (j.target.phys (j.index + 1)) none) }))
  ∧ (∀ (s : State) (j : CommitJob) (x : PhysRow) (flips : RowPatch) (i : Instr) (why : Option CommitFailure) (arr : Memory),
       s.dir.commit = some j → j.detached = false → j.ofFormat = false → s.dir.format = none → x.inArray s.devices = true →
       (why = none ∧ i = .commitReadBackDone flips ∧ s.seq = Sequencer.carrying (request .commitReadBack x none)
           ∧ s.readBackPasses j (s.array.deliver x flips) = true ∧ j.index = 101 ∧ arr = s.array
         ∨ why = some .verify ∧ i = .commitReadBackDone flips ∧ s.seq = Sequencer.carrying (request .commitReadBack x none)
           ∧ s.readBackPasses j (s.array.deliver x flips) = false ∧ arr = s.array
         ∨ why = some .timeout ∧ ∃ p d second left, i = .readyTimeout second left ∧ (p = .commitWrite ∨ p = .commitReadBack)
           ∧ s.seq = Sequencer.carrying (request p x d)
           ∧ arr = if second then s.array.afterCut s.devices (request p x d) left else s.array) →
       let won := decide (why = none)
       let validA := if j.target = .a then won else s.dir.validA
       let validB := if j.target = .b then won else s.dir.validB
       let st : OperatingState := if validA && validB then .ready else .degraded
       let bus := { s.bus with stateFlag := s.bus.stateFlag || decide (st ≠ s.dir.opState) }
       let reason : Nat := match why with | none => 0 | some .timeout => 1 | some .verify => 2 | some .sequence => 3
       let told : State :=
         { s with
           array := arr, seq := Sequencer.reset
           health := match why with | none => s.health | some w => (s.raise (.directoryFail j.target w)).health
           dir := { s.dir with
             mode := .idle, opState := st, commit := none, image := []
             validA, seqA := if j.target = .a then (if won then j.seq else 0) else s.dir.seqA
             validB, seqB := if j.target = .b then (if won then j.seq else 0) else s.dir.seqB
             dirty := s.dir.dirty || !won
             commitTimer :=
               if won then s.dir.commitTimer
               else if s.health.policy.commitDelay = 0 then none else some s.health.policy.commitDelay }
           bus := match s.cmd.work with | .commitRun _ _ => bus.commandDone | _ => bus
           cmd := match s.cmd.work with
             | .commitRun target seq =>
               s.cmd.finished (if won then .ok else .directoryFail)
                 ⟨word target.code, seq.extractLsb' 16 16, seq.extractLsb' 0 16, word reason⟩
             | _ => s.cmd }
       (s.dir.commitRequest = false → exec i s = .next told)
       ∧ (s.dir.commitRequest = true → told.highestSeq ≠ 0xFFFFFFFF →
         let target := told.commitTarget
         let seq := told.highestSeq + 1
         let image := told.imageOf seq
         exec i s = .next { told with
           seq := Sequencer.carrying (request .commitWrite (target.phys 0) (some (image.getD 0 [])))
           tr := { s.tr with changes := 0 }
           cmd := if s.cmd.work = .commitWait then { s.cmd with work := .commitRun target seq } else told.cmd
           dir := { told.dir with
             mode := .committing, commitRequest := false, dirty := false, commitTimer := none, image := image
             commit := some { target, seq, index := 0, reading := false, detached := false, ofFormat := false }
             validA := told.dir.validA && decide (target = .b), seqA := if target = .a then 0 else told.dir.seqA
             validB := told.dir.validB && decide (target = .a), seqB := if target = .b then 0 else told.dir.seqB } }))

/-- FORMAT ARRAY accepted with no commit in flight: FORMATTING with the STATE flag, both copies invalid, and the zero write to
row 0 of copy A granted at an idle port; with a commit in flight it waits for its end (R162, R163). FORMAT ARRAY's writes:
after copy A's row 0, copy B's; after copy B's, the tables are emptied and physical row 0 is initialised; each
initialisation write that completes is counted and followed by the next row in order (R163, R164, R165). The emptying leaves
PATROL_STOPPED first in the queue, and with a grade other than GOOD the GRADE flag and GRADE_CHANGE after it (R134, R164,
R174). -/
def Obligations.FormatArrayBeginsAndWritesEveryRow : Prop :=
  (∀ s : State, s.running = true → s.cmd.st = .idle → s.dir.opState ≠ .loading → s.dir.opState ≠ .formatting →
      let accepted : State :=
        { s with cmd := s.cmd.accepted .format, bus := { s.bus with stateFlag := true } }
      (s.seq = Sequencer.reset → s.dir.mode = .idle →
        exec .formatArray s = .next { accepted with
          dir := { s.dir with
            opState := .formatting, validA := false, seqA := 0, validB := false, seqB := 0
            format := some { phase := .invalidating .a, ending := false } }
          seq := Sequencer.carrying (request .invalidatingWrite ⟨0, 8192⟩ (some zeroRow)) })
      ∧ (s.seq.settled = true → s.dir.mode = .committing →
        exec .formatArray s = .next { accepted with
          dir := { s.dir with opState := .formatting, format := some { phase := .waitCommit, ending := false } } }))
  ∧ (∀ (s : State) (x : PhysRow) (ws : List Word) (f : FormatJob), s.dir.format = some f → f.ending = false →
      s.cmd.stopRequest = false → x.inArray s.devices = true →
      (s.seq = Sequencer.carrying (request .invalidatingWrite x (some ws)) →
        (f.phase = .invalidating .a →
          exec .invalidatingWriteDone s = .next { s with
            array := s.array.write x ws
            dir := { s.dir with format := some { phase := .invalidating .b, ending := false } }
            seq := Sequencer.carrying (request .invalidatingWrite ⟨0, 8320⟩ (some zeroRow)) })
        ∧ (f.phase = .invalidating .b →
          exec .invalidatingWriteDone s = .next { s with
            array := s.array.write x ws
            dir := { s.dir with
              format := some { phase := .rowInit 0, ending := false }, dirty := false, commitRequest := false
              commitTimer := none }
            tr := { remap := [], changes := 0, repairClaim := none, patrolClaim := none }
            trk := { watch := List.replicate 64 none, pendingList := [] }
            alloc := { zones := freshZones s.devices }
            rep := { st := .idle, job := none, waiting := none }
            pat := { PatrolEngine.reset with pace := s.pat.pace }
            bus := { s.bus with gradeFlag := s.bus.gradeFlag || decide (s.health.grade ≠ .good) }
            health := {
              policy := Policy.default, lost := false, grade := .good
              queue := ⟨.patrolStopped .format, 0⟩ :: if s.health.grade = .good then [] else [⟨.gradeChange .good, 0⟩] }
            seq := Sequencer.carrying (request .rowInit ⟨0, 0⟩ (some zeroRow)) }))
      ∧ (∀ k, s.seq = Sequencer.carrying (request .rowInit x (some ws)) → f.phase = .rowInit k →
          k + 1 < 8192 * s.devices →
          exec .rowInitialisationDone s = .next { s with
            array := s.array.write x ws
            cmd := { s.cmd with results := { s.cmd.results with r0 := word (k + 1) } }
            dir := { s.dir with format := some { phase := .rowInit (k + 1), ending := false } }
            seq := Sequencer.carrying (request .rowInit ⟨(k + 1) / 8192, (k + 1) % 8192⟩ (some zeroRow)) }))

/-- The last initialisation write of a format is followed by the commit of copy A with sequence 1, and that by the commit of
copy B with sequence 2; the format then ends READY with OK and 2 copies. A commit of copy B that fails leaves the part
DEGRADED with DIRECTORY_FAIL and 1 copy; one of copy A leaves it UNFORMATTED with DIRECTORY_FAIL and none. RESULT0 is the
count of rows initialised (R166). -/
def Obligations.FormatCommitsBothCopies : Prop :=
  (∀ (s : State) (x : PhysRow) (ws : List Word) (k : Nat), s.dir.format = some { phase := .rowInit k, ending := false } →
      s.cmd.stopRequest = false → x.inArray s.devices = true → 8192 * s.devices ≤ k + 1 →
      s.seq = Sequencer.carrying (request .rowInit x (some ws)) →
      let image := s.imageOf 1
      exec .rowInitialisationDone s = .next { s with
        array := s.array.write x ws
        cmd := { s.cmd with results := { s.cmd.results with r0 := word (k + 1) } }
        tr := { s.tr with changes := 0 }
        dir := { s.dir with
          format := some { phase := .committing .a, ending := false }, mode := .committing, dirty := false, commitTimer := none
          image := image, validA := false, seqA := 0
          commit := some { target := .a, seq := 1, index := 0, reading := false, detached := false, ofFormat := true } }
        seq := Sequencer.carrying (request .commitWrite ⟨0, 8192⟩ (some (image.getD 0 []))) })
  ∧ (∀ (s : State) (j : CommitJob) (f : FormatJob) (i : Instr) (why : Option CommitFailure) (arr : Memory),
      s.dir.commit = some j → j.detached = false → j.ofFormat = true → s.dir.format = some f → s.cmd.work = .format →
      s.dir.opState = .formatting → (∃ x flips, x.inArray s.devices = true ∧
        (why = none ∧ i = .commitReadBackDone flips ∧ s.seq = Sequencer.carrying (request .commitReadBack x none)
            ∧ s.readBackPasses j (s.array.deliver x flips) = true ∧ j.index = 101 ∧ arr = s.array
          ∨ why = some .verify ∧ i = .commitReadBackDone flips ∧ s.seq = Sequencer.carrying (request .commitReadBack x none)
            ∧ s.readBackPasses j (s.array.deliver x flips) = false ∧ arr = s.array
          ∨ why = some .timeout ∧ ∃ p d second left, i = .readyTimeout second left ∧ (p = .commitWrite ∨ p = .commitReadBack)
            ∧ s.seq = Sequencer.carrying (request p x d)
            ∧ arr = if second then s.array.afterCut s.devices (request p x d) left else s.array)) →
      let health := match why with | none => s.health | some w => (s.raise (.directoryFail j.target w)).health
      let closed : State :=
        { s with array := arr, seq := Sequencer.reset, health, dir := { s.dir with mode := .idle, commit := none, image := [] } }
      let finish := fun (dir : DirectoryUnit) (st : OperatingState) (code : ResultCode) (copies : Word) =>
        ({ closed with
          bus := { s.bus with stateFlag := true, cmdDone := true }
          cmd := s.cmd.finished code ⟨s.cmd.results.r0, copies, 0, 0⟩
          dir := { dir with format := none, opState := st } } : State)
      (why = none → j.target = .a →
        let image := s.imageOf 2
        exec i s = .next { closed with
          tr := { s.tr with changes := 0 }
          dir := { closed.dir with
            format := some { phase := .committing .b, ending := false }, mode := .committing, dirty := false
            commitTimer := none, image := image, validA := true, seqA := j.seq, validB := false, seqB := 0
            commit := some { target := .b, seq := 2, index := 0, reading := false, detached := false, ofFormat := true } }
          seq := Sequencer.carrying (request .commitWrite ⟨0, 8320⟩ (some (image.getD 0 []))) })
      ∧ (why = none → j.target = .b →
        exec i s = .next (finish { closed.dir with validB := true, seqB := j.seq } .ready .ok 2))
      ∧ (why ≠ none → j.target = .b → exec i s = .next (finish closed.dir .degraded .directoryFail 1))
      ∧ (why ≠ none → j.target = .a → exec i s = .next (finish closed.dir .unformatted .directoryFail 0)))

/-- A format ends early by one action: both copies invalid, the tables emptied if they were not, a commit in flight without
effect, UNFORMATTED with STATE, and FORMAT ARRAY ends with the count of rows initialised. A STOP takes it at once, with
ABORTED, while the format waits for a commit or commits, and at the next completion during an invalidating or initialisation
write; a TIMEOUT of such a write ends it with ARRAY_TIMEOUT (R167). That it does so with a STOP pending too is the model's
choice (log entry 16). -/
def Obligations.FormatEndsEarly : Prop :=
  ∀ (s : State) (f : FormatJob), s.dir.format = some f → s.dir.opState = .formatting →
    let quit := fun (code : ResultCode) (rows : Word) (arr : Memory) (q : Sequencer) =>
      let emptied : State :=
        { s with
          tr := { remap := [], changes := 0, repairClaim := none, patrolClaim := none }
          rep := { st := .idle, job := none, waiting := none }
          alloc := { zones := freshZones s.devices }
          trk := { watch := List.replicate 64 none, pendingList := [] }
          pat := { PatrolEngine.reset with pace := s.pat.pace }
          dir := { s.dir with dirty := false, commitRequest := false, commitTimer := none }
          bus := { s.bus with gradeFlag := s.bus.gradeFlag || decide (s.health.grade ≠ .good) }
          health := {
            policy := Policy.default, lost := false, grade := .good
            queue := ⟨.patrolStopped .format, 0⟩ :: if s.health.grade = .good then [] else [⟨.gradeChange .good, 0⟩] } }
      let t := match f.phase with
        | .waitCommit | .invalidating _ => emptied
        | .rowInit _ | .committing _ => s
      ({ t with
        array := arr, seq := q
        bus := { t.bus with stateFlag := true, cmdDone := s.bus.cmdDone || decide (s.cmd.work = .format) }
        cmd := if s.cmd.work = .format then s.cmd.finished code ⟨rows, 0, 0, 0⟩ else s.cmd
        dir := { t.dir with
          format := none, opState := .unformatted, validA := false, seqA := 0, validB := false, seqB := 0
          commit := s.dir.commit.map fun j => { j with detached := true } } } : State)
    let r0 := s.cmd.results.r0
    (∀ (x : PhysRow) (p : Purpose) (d : Option (List Word)), s.running = true → s.cmd.st ≠ .idle → s.cmd.work = .format →
      s.cmd.held = none → s.seq = Sequencer.carrying (request p x d) →
        (f.phase = .waitCommit ∨ (∃ k, f.phase = .committing k) → (p = .commitWrite ∨ p = .commitReadBack) →
          exec .stop s = .next (quit .aborted r0 s.array s.seq))
        ∧ ((∃ k, f.phase = .invalidating k) ∨ (∃ k, f.phase = .rowInit k ∧ p = .rowInit) →
          exec .stop s = .next { s with cmd := { s.cmd with stopRequest := true } }))
    ∧ (∀ (x : PhysRow) (ws : List Word), x.inArray s.devices = true → s.cmd.stopRequest = true ∨ f.ending = true →
        (∀ k, f.phase = .invalidating k → s.seq = Sequencer.carrying (request .invalidatingWrite x (some ws)) →
          exec .invalidatingWriteDone s = .next (quit .aborted r0 (s.array.write x ws) Sequencer.reset))
        ∧ (∀ k, f.phase = .rowInit k → s.cmd.work = .format → s.seq = Sequencer.carrying (request .rowInit x (some ws)) →
          exec .rowInitialisationDone s = .next (quit .aborted (word (k + 1)) (s.array.write x ws) Sequencer.reset)))
    ∧ (∀ (x : PhysRow) (p : Purpose) (ws : List Word) (second : Bool) (left : RowPatch),
        s.seq = Sequencer.carrying (request p x (some ws)) →
        ((∃ k, f.phase = .invalidating k) ∧ p = .invalidatingWrite ∨ (∃ k, f.phase = .rowInit k) ∧ p = .rowInit) →
          exec (.readyTimeout second left) s = .next (quit .arrayTimeout r0
            (if second then s.array.afterCut s.devices (request p x (some ws)) left else s.array) Sequencer.reset))

/-! ## Completions of the repair engine's accesses -/

/-- A source read that is CLEAN or CORRECTED: reported with the job's origin, its words become the job's data, and with no
spare TESTING, no write-repair in progress and a spare to be had, the chosen spare is taken and its first qualification write
granted, for an AUTO job and for a COMMAND job with no STOP pending (R110, R111, R107). A job that holds a spare already,
begun again after it was overtaken, goes straight to the copy write of those words (R110, R114); one that finds a spare
TESTING or a write-repair in progress waits in ALLOCATE with its words, holding no spare and with no access (R73, R102,
R111). The repair engine's four qualification accesses in order, and the copy of the job's words after the fourth (R107,
R112); the copy write with the claim's mark clear is followed by the verify read; a verify read that passes with the mark
clear makes the relocation, empties the claim and leaves the engine IDLE, and its RELOCATE ROW ends with OK, or for DISCARD
with DATA_LOST, and with the registers of R118: SPARED, the new spare and the spares made BAD (R112, R113, R118). A row found
RETIRED at that point stays RETIRED (R15): the job ends without a map change, its spare FREE again, and RELOCATE ROW with
RETIRED, which is the model's choice where R113 is silent (log entry 31). -/
def Obligations.RepairJobsReadQualifyCopyVerifyAndRelocate : Prop :=
  (∀ (s : State) (j : Job) (x : PhysRow) (sp : SpareId) (flips : RowPatch), s.rep.job = some j →
      (j.command = true → s.cmd.stopRequest = false) → s.seq = Sequencer.carrying (request .sourceRead x none) →
      x.inArray s.devices = true →
      let d := s.array.deliver x flips
      let c := s.portFreed.report { row := j.row, phys := x, outcome := d.outcome, path := j.origin, readBack := false }
      d.outcome ≠ .uncorrectable →
      (j.spare = none → s.writeRepairActive = false → s.someTesting = false → c.chooseSpare (homeZone j.row) = some sp →
        let c' := c.takeSpare sp
        exec (.sourceReadDone flips) s = .next { s with toChip := { c' with
          rep := { s.rep with st := .qualify, job := some { j with data := some d.words, spare := some sp } }
          seq := Sequencer.carrying (request (.qualification 0) sp.phys (some (patternRow 0xAAAA 0x5555))) } })
      ∧ (j.spare = some sp →
        exec (.sourceReadDone flips) s = .next { s with toChip := { c with
          rep := { s.rep with st := .copyWrite, job := some { j with data := some d.words } }
          seq := Sequencer.carrying (request .copyWrite sp.phys (some d.words)) } })
      ∧ (j.spare = none → s.writeRepairActive = true ∨ s.someTesting = true →
        exec (.sourceReadDone flips) s = .next { s with toChip := { c with
          rep := { s.rep with st := .allocate, job := some { j with data := some d.words } } } }))
  ∧ (∀ (s : State) (j : Job) (x : PhysRow) (sp : SpareId) (flips : RowPatch), s.rep.job = some j →
      (j.command = true → s.cmd.stopRequest = false) → j.spare = some sp → x.inArray s.devices = true →
      (∀ ws, (s.seq = Sequencer.carrying (request (.qualification 0) x (some ws)) →
          exec (.qualificationAccessDone flips) s = .next { s with
            array := s.array.write x ws, rep := { s.rep with st := .qualify }
            seq := Sequencer.carrying (request (.qualification 1) sp.phys none) })
        ∧ (s.seq = Sequencer.carrying (request (.qualification 2) x (some ws)) →
          exec (.qualificationAccessDone flips) s = .next { s with
            array := s.array.write x ws, rep := { s.rep with st := .qualify }
            seq := Sequencer.carrying (request (.qualification 3) sp.phys none) }))
      ∧ (s.seq = Sequencer.carrying (request (.qualification 1) x none) →
          (s.array.deliver x flips).passes (patternRow 0xAAAA 0x5555) = true →
          exec (.qualificationAccessDone flips) s = .next { s with
            rep := { s.rep with st := .qualify }
            seq := Sequencer.carrying (request (.qualification 2) sp.phys (some (patternRow 0x5555 0xAAAA))) })
      ∧ (s.seq = Sequencer.carrying (request (.qualification 3) x none) →
          (s.array.deliver x flips).passes (patternRow 0x5555 0xAAAA) = true →
          exec (.qualificationAccessDone flips) s = .next { s with
            rep := { s.rep with st := .copyWrite }
            seq := Sequencer.carrying (request .copyWrite sp.phys j.data) }))
  ∧ (∀ (s : State) (j : Job) (x : PhysRow) (sp : SpareId) (ws : List Word) (flips : RowPatch), s.rep.job = some j →
      (j.command = true → s.cmd.stopRequest = false) → j.spare = some sp → x.inArray s.devices = true →
      claimMarked s.tr.repairClaim = false →
      (s.seq = Sequencer.carrying (request .copyWrite x (some ws)) →
        exec .copyWriteDone s = .next { s with
          array := s.array.write x ws, rep := { s.rep with st := .verify }
          seq := Sequencer.carrying (request .verifyRead sp.phys none) })
      ∧ (s.seq = Sequencer.carrying (request .verifyRead x none) → j.data = some ws →
        (s.array.deliver x flips).passes ws = true →
        (s.lookup j.row ≠ .retired → s.tr.changes < 15 →
          let c := s.portFreed.relocateTo j.row sp j.origin
          exec (.verifyReadDone flips) s = .next { s with toChip := { c with
            tr := { c.tr with repairClaim := none }, rep := { s.rep with st := .idle, job := none }
            bus := if j.command then c.bus.commandDone else c.bus
            cmd := if j.command then
                s.cmd.finished (if j.discard then .dataLost else .ok) ⟨1, sp.pack, word j.madeBad, 0⟩
              else s.cmd } })
        ∧ (s.lookup j.row = .retired →
          let c := s.portFreed.releaseSpare sp
          exec (.verifyReadDone flips) s = .next { s with toChip := { c with
            tr := { c.tr with repairClaim := none }, rep := { s.rep with st := .idle, job := none }
            bus := if j.command then c.bus.commandDone else c.bus
            cmd := if j.command then s.cmd.finished .retired ⟨2, 0xFFFF, word j.madeBad, 0⟩ else s.cmd } })))

/-- A spare that fails a test becomes BAD, dirty is set and SPARE_BAD is raised, no other zone being touched (R101, R103,
R107). After a qualification or verify read that fails, a repair job counts the spare made BAD and takes another (R107,
R112); write-repair takes another or, with none to be had, goes to the in-place write (R74, R75, R77). -/
def Obligations.FailedTestsSpoilTheSpare : Prop :=
  (∀ (c : Chip) (t : SpareId), t.globalZone < c.alloc.zones.length →
      let d := c.spoilSpare t
      (d.zone t.globalZone).spares = (c.zone t.globalZone).spares.set t.index.val .bad
      ∧ (∀ g, g ≠ t.globalZone → d.zone g = c.zone g) ∧ d.dir = c.setDirty.dir
      ∧ d.health = (c.raise (.spareBad t.globalZone t.index.val)).health
      ∧ d.bus = c.bus ∧ d.trk = c.trk ∧ d.cmd = c.cmd ∧ d.seq = c.seq ∧ d.tr = c.tr ∧ d.rep = c.rep ∧ d.pat = c.pat)
  ∧ (∀ (s : State) (j : Job) (x : PhysRow) (sp : SpareId) (flips : RowPatch) (i : Instr) (p : Purpose), s.rep.job = some j →
      j.spare = some sp → s.cmd.stopRequest = false → x.inArray s.devices = true → s.writeRepairActive = false →
      s.seq = Sequencer.carrying (request p x none) →
      (i = .qualificationAccessDone flips ∧ p = .qualification 1
          ∧ (s.array.deliver x flips).passes (patternRow 0xAAAA 0x5555) = false
        ∨ i = .qualificationAccessDone flips ∧ p = .qualification 3
            ∧ (s.array.deliver x flips).passes (patternRow 0x5555 0xAAAA) = false
        ∨ i = .verifyReadDone flips ∧ p = .verifyRead ∧ (s.array.deliver x flips).passes (j.data.getD zeroRow) = false) →
      let c := s.portFreed.spoilSpare sp
      c.someTesting = false → ∀ sp', c.chooseSpare (homeZone j.row) = some sp' →
        let c' := c.takeSpare sp'
        exec i s = .next { s with toChip := { c' with
          rep := { s.rep with st := .qualify, job := some { j with spare := some sp', madeBad := j.madeBad + 1 } }
          seq := Sequencer.carrying (request (.qualification 0) sp'.phys (some (patternRow 0xAAAA 0x5555))) } })
  ∧ (∀ (s : State) (t : Transfer) (x : PhysRow) (sp : SpareId) (flips : RowPatch) (i : Instr) (p : Purpose),
      s.cmd.work = .transfer t → t.spare = some sp → s.cmd.stopRequest = false → x.inArray s.devices = true →
      s.seq = Sequencer.carrying (request p x none) →
      (i = .writeRepairQualifyDone flips ∧ p = .repairQualify 1
          ∧ (s.array.deliver x flips).passes (patternRow 0xAAAA 0x5555) = false
        ∨ i = .writeRepairQualifyDone flips ∧ p = .repairQualify 3
            ∧ (s.array.deliver x flips).passes (patternRow 0x5555 0xAAAA) = false
        ∨ i = .writeRepairVerifyDone flips ∧ p = .repairVerify ∧ (s.array.deliver x flips).passes s.bus.buffer = false) →
      let c := s.portFreed.spoilSpare sp
      (∀ sp', c.chooseSpare (homeZone t.row) = some sp' →
        let c' := c.takeSpare sp'
        exec i s = .next { s with toChip := { c' with
          cmd := { s.cmd with work := .transfer { t with phase := .repairQualify, spare := some sp' } }
          seq := Sequencer.carrying (request (.repairQualify 0) sp'.phys (some (patternRow 0xAAAA 0x5555))) } })
      ∧ (∀ y, c.chooseSpare (homeZone t.row) = none → (s.lookup t.row).phys = some y →
        let c' := c.reportExhausted (homeZone t.row)
        exec i s = .next { s with toChip := { c' with
          cmd := { s.cmd with work := .transfer { t with phase := .inPlace, spare := none } }
          tr := { s.tr with repairClaim := markClaim t.row s.tr.repairClaim, patrolClaim := markClaim t.row s.tr.patrolClaim }
          seq := Sequencer.carrying (request .inPlaceWrite y (some s.bus.buffer)) } }))

/-- A repair job whose claim is marked as overtaken when its copy or its passing verify completes: with fewer than 3 restarts
it begins again from the row's present place with its claim's mark clear; with 3 its entry goes to the tail with restarts 0
and the job ends DEFERRED, its spare FREE again; with no entry left it ends, RETIRED or OK (R114). An UNCORRECTABLE source
read, after its report, and a TIMEOUT of any access of the job abandon it: restarts 0, the spare FREE again, and RELOCATE ROW
ends with UNCORRECTABLE or ARRAY_TIMEOUT (R110, R115). -/
def Obligations.JobsRestartDeferAndAreAbandoned : Prop :=
  ∀ (s : State) (j : Job) (x : PhysRow) (flips : RowPatch), s.rep.job = some j → s.cmd.stopRequest = false →
    let ends := fun (c : Chip) (code : ResultCode) (arr : Memory) =>
      let c := match j.spare with | none => c | some sp => c.releaseSpare sp
      ({ s with
        array := arr
        toChip := { c with
          tr := { c.tr with repairClaim := none }, rep := { c.rep with st := .idle, job := none }
          bus := if j.command then c.bus.commandDone else c.bus
          cmd := if j.command then
              c.cmd.finished code ⟨word (c.lookup j.row).code, (c.lookup j.row).targetWord, word j.madeBad, 0⟩
            else c.cmd } } : State)
    let cleared : ErrorTracker := { s.trk with pendingList := s.trk.pendingList.map fun e => if e.row = j.row
        then { e with restarts := 0 } else e }
    (∀ (i : Instr) (sp : SpareId) (arr : Memory), j.spare = some sp → x.inArray s.devices = true →
        claimMarked s.tr.repairClaim = true →
      (i = .copyWriteDone ∧ (∃ ws, s.seq = Sequencer.carrying (request .copyWrite x (some ws)) ∧ arr = s.array.write x ws)
        ∨ i = .verifyReadDone flips ∧ s.seq = Sequencer.carrying (request .verifyRead x none) ∧ arr = s.array
          ∧ (s.array.deliver x flips).passes (j.data.getD zeroRow) = true) →
      (∀ e y, s.pendingOf j.row = some e → e.restarts < 3 → (s.lookup j.row).phys = some y →
          (j.discard = false ∨ e.cause ≠ .unc) →
        exec i s = .next { s with
          array := arr
          trk := { s.trk with pendingList := s.trk.pendingList.map fun a =>
            if a.row = j.row then { a with restarts := e.restarts + 1 } else a }
          tr := { s.tr with repairClaim := some { row := j.row, overtaken := false } }
          rep := { s.rep with st := .sourceRead, job := some { j with discard := false } }
          seq := Sequencer.carrying (request .sourceRead y none) })
      ∧ (∀ e, s.pendingOf j.row = some e → 3 ≤ e.restarts →
        exec i s = .next (ends { s.portFreed with
          trk := { s.trk with
            pendingList := (s.trk.pendingList.filter fun a => decide (a.row ≠ j.row)) ++ [{ e with restarts := 0 }] }
          dir := s.setDirty.dir } .deferred arr))
      ∧ (s.pendingOf j.row = none →
        exec i s = .next (ends s.portFreed (if s.lookup j.row = .retired then .retired else .ok) arr)))
    ∧ (x.inArray s.devices = true → s.seq = Sequencer.carrying (request .sourceRead x none) →
        (s.array.deliver x flips).outcome = .uncorrectable →
      let c := s.portFreed.report { row := j.row, phys := x, outcome := .uncorrectable, path := j.origin, readBack := false }
      exec (.sourceReadDone flips) s = .next (ends (c.setRestarts j.row 0) .uncorrectable s.array))
    ∧ (∀ (p : Purpose) (d : Option (List Word)) (second : Bool) (left : RowPatch),
        p ∈ [.sourceRead, .qualification 0, .qualification 1, .qualification 2, .qualification 3, .copyWrite, .verifyRead,
          .zeroWrite, .zeroReadBack] →
        s.seq = Sequencer.carrying (request p x d) →
      exec (.readyTimeout second left) s = .next (ends { s.portFreed with trk := cleared } .arrayTimeout
        (if second then s.array.afterCut s.devices (request p x d) left else s.array)))

/-! ## Completions of the patrol's accesses -/

/-- A visit's read that is CORRECTED is reported and followed by the scrub of the same row, granted while the patrol claim is
not marked; a visit that ends by a CLEAN read or by its scrub is counted, its claim emptied, and the cursor moves up; with
its interval not yet run out the patrol then waits in PACING (R128 to R131). -/
def Obligations.VisitsReportScrubAndCount : Prop :=
  ∀ (s : State) (x : PhysRow) (flips : RowPatch), x.inArray s.devices = true → s.pat.st = .visiting →
    s.pat.restartRequest = false →
    let d := s.array.deliver x flips
    (s.seq = Sequencer.carrying (request .visitRead x none) → d.outcome = .corrected →
      (∀ cl, s.tr.patrolClaim = some cl → cl.overtaken = false) →
      let c := s.portFreed.report
        { row := s.pat.cursor, phys := x, outcome := .corrected, path := .patrol, readBack := false }
      exec (.visitReadDone flips) s = .next { s with toChip := { c with
        seq := Sequencer.carrying (request .patrolScrub x (some d.words)) } })
    ∧ (s.pat.intervalOut = false → s.pat.cursor + 1 < 8064 * s.devices →
      (s.seq = Sequencer.carrying (request .visitRead x none) → d.outcome = .clean →
        let c := s.portFreed.report
          { row := s.pat.cursor, phys := x, outcome := .clean, path := .patrol, readBack := false }
        exec (.visitReadDone flips) s = .next { s with toChip := { c with
          tr := { s.tr with patrolClaim := none }
          pat := { s.pat with
            st := .pacing, cursor := s.pat.cursor + 1
            tallies := { s.pat.tallies with visited := s.pat.tallies.visited + 1 } } } })
      ∧ (∀ ws, s.seq = Sequencer.carrying (request .patrolScrub x (some ws)) →
        exec .patrolScrubDone s = .next { s with
          array := s.array.write x ws, seq := Sequencer.reset
          tr := { s.tr with patrolClaim := none }
          pat := { s.pat with
            st := .pacing, cursor := s.pat.cursor + 1
            tallies := { s.pat.tallies with
              visited := s.pat.tallies.visited + 1, corrected := min 255 (s.pat.tallies.corrected + 1) } } }))

/-- The end of a visit by a CLEAN or UNCORRECTABLE read, by its scrub, or by a scrub that is dropped because the claim was
marked: the visit is counted, its claim emptied, and the cursor moves up (R128 to R130). After the last row the pass ends:
its record kept, the pass number up by 1, tallies 0, watch entries aged, PASS_DONE raised (R90, R131). A SINGLE pass, or a
halt, then stops the patrol with its notice, and a waiting PATROL HALT ends with OK (R131, R137); otherwise the patrol waits
in PACING, or with its interval run out visits the next row at once (R126, R127, R130). With a restart request the visit
counts for nothing, and row 0 is visited under the same pass number, PATROL START ending with OK (R136). -/
def Obligations.VisitEndsMoveThePatrol : Prop :=
  ∀ (s : State) (x : PhysRow) (flips : RowPatch) (i : Instr) (o : ReadOutcome) (arr : Memory) (c : Chip),
    x.inArray s.devices = true → (s.pat.st = .visiting ∨ s.pat.st = .halting) →
    let reported := s.portFreed.report { row := s.pat.cursor, phys := x, outcome := o, path := .patrol, readBack := false }
    (i = .visitReadDone flips ∧ s.seq = Sequencer.carrying (request .visitRead x none) ∧ (s.array.deliver x flips).outcome = o
        ∧ (o = .corrected → claimMarked s.tr.patrolClaim = true) ∧ arr = s.array ∧ c = reported
      ∨ i = .patrolScrubDone ∧ (∃ ws, s.seq = Sequencer.carrying (request .patrolScrub x (some ws))
          ∧ arr = s.array.write x ws)
        ∧ o = .corrected ∧ c = s.portFreed) →
    let counted := { s.pat.tallies with
      visited := s.pat.tallies.visited + 1
      corrected := if o = .corrected then min 255 (s.pat.tallies.corrected + 1) else s.pat.tallies.corrected
      unc := if o = .uncorrectable then min 255 (s.pat.tallies.unc + 1) else s.pat.tallies.unc }
    let last := 8064 * s.devices ≤ s.pat.cursor + 1
    let ended : Chip :=
      { c with
        tr := { s.tr with patrolClaim := none }
        trk := { c.trk with watch := c.trk.watch.map fun (w : Option WatchEntry) => w.filter (fun e =>
          decide ((s.pat.pass + 1 - e.last).toNat < s.health.policy.forgetSpan)) }
        pat := { s.pat with
          cursor := 0, lastPass := some { tallies := counted, complete := s.pat.whole }, pass := s.pat.pass + 1
          tallies := ⟨0, 0, 0, 0⟩, whole := true } }
    let moved : Chip :=
      if last then { ended with health := (ended.raise (.passDone s.pat.pass)).health }
      else { c with
        tr := { s.tr with patrolClaim := none }, pat := { s.pat with cursor := s.pat.cursor + 1, tallies := counted } }
    let stopped := fun w => { moved with
      pat := { moved.pat with mode := .off, st := .stopped, paceTimer := none }
      health := (moved.raise (.patrolStopped w)).health
      bus := if s.cmd.work = .patrolHalt then moved.bus.commandDone else moved.bus
      cmd := if s.cmd.work = .patrolHalt then s.cmd.finished .ok ⟨word moved.pat.cursor, moved.pat.pass, 0, 0⟩ else s.cmd }
    let paced : Chip := { moved with pat := { moved.pat with st := .pacing } }
    (s.pat.restartRequest = false →
      (last → s.pat.mode = .single → exec i s = .next { s with array := arr, toChip := stopped .singleDone })
      ∧ (¬ (last ∧ s.pat.mode = .single) → s.pat.st = .halting →
        exec i s = .next { s with array := arr, toChip := stopped .halted })
      ∧ (¬ (last ∧ s.pat.mode = .single) → s.pat.st = .visiting → s.pat.intervalOut = false →
        exec i s = .next { s with array := arr, toChip := paced })
      ∧ (∀ y, ¬ (last ∧ s.pat.mode = .single) → s.pat.st = .visiting → s.pat.intervalOut = true →
          (s.lookup moved.pat.cursor).phys = some y → claimHolds s.tr.repairClaim moved.pat.cursor = false →
        exec i s = .next { s with array := arr, toChip := { paced with
          seq := Sequencer.carrying (request .visitRead y none)
          tr := { s.tr with patrolClaim := some { row := moved.pat.cursor, overtaken := false } }
          pat := { moved.pat with
            st := .visiting, paceTimer := if s.pat.pace = 0 then none else some s.pat.pace
            intervalOut := decide (s.pat.pace = 0) } } }))
    ∧ (∀ y, s.pat.restartRequest = true → (s.lookup 0).phys = some y → claimHolds s.tr.repairClaim 0 = false →
        exec i s = .next { s with
          array := arr
          toChip := { c with
            seq := Sequencer.carrying (request .visitRead y none)
            tr := { s.tr with patrolClaim := some { row := 0, overtaken := false } }
            pat := { s.pat with
              st := .visiting, cursor := 0, tallies := ⟨0, 0, 0, 0⟩, whole := true, restartRequest := false
              paceTimer := if s.pat.pace = 0 then none else some s.pat.pace, intervalOut := decide (s.pat.pace = 0) }
            bus := if s.cmd.work = .patrolRestart then c.bus.commandDone else c.bus
            cmd := if s.cmd.work = .patrolRestart then s.cmd.finished .ok ⟨0, s.pat.pass, 0, 0⟩ else s.cmd } })
end

