-- ==== Sys2Proof/Laws/State.lean ====
section
/-! SUPPORT. What each plain update of the part does to each block, one lemma a block, so that no proof unfolds a record update. -/

namespace Sys2Proof.Machine

/-! ## putSlot -/

@[simp] theorem Chip.devices_putSlot (c : Chip) (k : AccessClass) (s : Slot) :
    (c.putSlot k s).devices = c.devices := rfl
@[simp] theorem Chip.bus_putSlot (c : Chip) (k : AccessClass) (s : Slot) : (c.putSlot k s).bus = c.bus := rfl
@[simp] theorem Chip.cmd_putSlot (c : Chip) (k : AccessClass) (s : Slot) : (c.putSlot k s).cmd = c.cmd := rfl
@[simp] theorem Chip.seq_putSlot (c : Chip) (k : AccessClass) (s : Slot) : (c.putSlot k s).seq = c.seq.put k s := rfl
@[simp] theorem Chip.tr_putSlot (c : Chip) (k : AccessClass) (s : Slot) : (c.putSlot k s).tr = c.tr := rfl
@[simp] theorem Chip.trk_putSlot (c : Chip) (k : AccessClass) (s : Slot) : (c.putSlot k s).trk = c.trk := rfl
@[simp] theorem Chip.alloc_putSlot (c : Chip) (k : AccessClass) (s : Slot) : (c.putSlot k s).alloc = c.alloc := rfl
@[simp] theorem Chip.rep_putSlot (c : Chip) (k : AccessClass) (s : Slot) : (c.putSlot k s).rep = c.rep := rfl
@[simp] theorem Chip.pat_putSlot (c : Chip) (k : AccessClass) (s : Slot) : (c.putSlot k s).pat = c.pat := rfl
@[simp] theorem Chip.dir_putSlot (c : Chip) (k : AccessClass) (s : Slot) : (c.putSlot k s).dir = c.dir := rfl
@[simp] theorem Chip.health_putSlot (c : Chip) (k : AccessClass) (s : Slot) : (c.putSlot k s).health = c.health := rfl

/-! ## issue -/

@[simp] theorem Chip.devices_issue (c : Chip) (p : Purpose) (x : PhysRow) (d : Option (List Word)) :
    (c.issue p x d).devices = c.devices := rfl
@[simp] theorem Chip.bus_issue (c : Chip) (p : Purpose) (x : PhysRow) (d : Option (List Word)) :
    (c.issue p x d).bus = c.bus := rfl
@[simp] theorem Chip.cmd_issue (c : Chip) (p : Purpose) (x : PhysRow) (d : Option (List Word)) :
    (c.issue p x d).cmd = c.cmd := rfl
@[simp] theorem Chip.seq_issue (c : Chip) (p : Purpose) (x : PhysRow) (d : Option (List Word)) :
    (c.issue p x d).seq = c.seq.put p.cls (.waiting { purpose := p, phys := x, data := d, abandoned := false }) := rfl
@[simp] theorem Chip.tr_issue (c : Chip) (p : Purpose) (x : PhysRow) (d : Option (List Word)) :
    (c.issue p x d).tr = c.tr := rfl
@[simp] theorem Chip.trk_issue (c : Chip) (p : Purpose) (x : PhysRow) (d : Option (List Word)) :
    (c.issue p x d).trk = c.trk := rfl
@[simp] theorem Chip.alloc_issue (c : Chip) (p : Purpose) (x : PhysRow) (d : Option (List Word)) :
    (c.issue p x d).alloc = c.alloc := rfl
@[simp] theorem Chip.rep_issue (c : Chip) (p : Purpose) (x : PhysRow) (d : Option (List Word)) :
    (c.issue p x d).rep = c.rep := rfl
@[simp] theorem Chip.pat_issue (c : Chip) (p : Purpose) (x : PhysRow) (d : Option (List Word)) :
    (c.issue p x d).pat = c.pat := rfl
@[simp] theorem Chip.dir_issue (c : Chip) (p : Purpose) (x : PhysRow) (d : Option (List Word)) :
    (c.issue p x d).dir = c.dir := rfl
@[simp] theorem Chip.health_issue (c : Chip) (p : Purpose) (x : PhysRow) (d : Option (List Word)) :
    (c.issue p x d).health = c.health := rfl

/-! ## markClaims -/

@[simp] theorem Chip.devices_markClaims (c : Chip) (l : Nat) : (c.markClaims l).devices = c.devices := rfl
@[simp] theorem Chip.bus_markClaims (c : Chip) (l : Nat) : (c.markClaims l).bus = c.bus := rfl
@[simp] theorem Chip.cmd_markClaims (c : Chip) (l : Nat) : (c.markClaims l).cmd = c.cmd := rfl
@[simp] theorem Chip.seq_markClaims (c : Chip) (l : Nat) : (c.markClaims l).seq = c.seq := rfl
@[simp] theorem Chip.tr_markClaims (c : Chip) (l : Nat) :
    (c.markClaims l).tr =
      { c.tr with repairClaim := markClaim l c.tr.repairClaim, patrolClaim := markClaim l c.tr.patrolClaim } := rfl
@[simp] theorem Chip.trk_markClaims (c : Chip) (l : Nat) : (c.markClaims l).trk = c.trk := rfl
@[simp] theorem Chip.alloc_markClaims (c : Chip) (l : Nat) : (c.markClaims l).alloc = c.alloc := rfl
@[simp] theorem Chip.rep_markClaims (c : Chip) (l : Nat) : (c.markClaims l).rep = c.rep := rfl
@[simp] theorem Chip.pat_markClaims (c : Chip) (l : Nat) : (c.markClaims l).pat = c.pat := rfl
@[simp] theorem Chip.dir_markClaims (c : Chip) (l : Nat) : (c.markClaims l).dir = c.dir := rfl
@[simp] theorem Chip.health_markClaims (c : Chip) (l : Nat) : (c.markClaims l).health = c.health := rfl

/-! ## markPatrolClaim -/

@[simp] theorem Chip.devices_markPatrolClaim (c : Chip) (l : Nat) : (c.markPatrolClaim l).devices = c.devices := rfl
@[simp] theorem Chip.bus_markPatrolClaim (c : Chip) (l : Nat) : (c.markPatrolClaim l).bus = c.bus := rfl
@[simp] theorem Chip.cmd_markPatrolClaim (c : Chip) (l : Nat) : (c.markPatrolClaim l).cmd = c.cmd := rfl
@[simp] theorem Chip.seq_markPatrolClaim (c : Chip) (l : Nat) : (c.markPatrolClaim l).seq = c.seq := rfl
@[simp] theorem Chip.tr_markPatrolClaim (c : Chip) (l : Nat) :
    (c.markPatrolClaim l).tr = { c.tr with patrolClaim := markClaim l c.tr.patrolClaim } := rfl
@[simp] theorem Chip.trk_markPatrolClaim (c : Chip) (l : Nat) : (c.markPatrolClaim l).trk = c.trk := rfl
@[simp] theorem Chip.alloc_markPatrolClaim (c : Chip) (l : Nat) : (c.markPatrolClaim l).alloc = c.alloc := rfl
@[simp] theorem Chip.rep_markPatrolClaim (c : Chip) (l : Nat) : (c.markPatrolClaim l).rep = c.rep := rfl
@[simp] theorem Chip.pat_markPatrolClaim (c : Chip) (l : Nat) : (c.markPatrolClaim l).pat = c.pat := rfl
@[simp] theorem Chip.dir_markPatrolClaim (c : Chip) (l : Nat) : (c.markPatrolClaim l).dir = c.dir := rfl
@[simp] theorem Chip.health_markPatrolClaim (c : Chip) (l : Nat) : (c.markPatrolClaim l).health = c.health := rfl

/-! ## modifyZone -/

@[simp] theorem Chip.devices_modifyZone (c : Chip) (g : Nat) (f : Zone → Zone) :
    (c.modifyZone g f).devices = c.devices := rfl
@[simp] theorem Chip.bus_modifyZone (c : Chip) (g : Nat) (f : Zone → Zone) : (c.modifyZone g f).bus = c.bus := rfl
@[simp] theorem Chip.cmd_modifyZone (c : Chip) (g : Nat) (f : Zone → Zone) : (c.modifyZone g f).cmd = c.cmd := rfl
@[simp] theorem Chip.seq_modifyZone (c : Chip) (g : Nat) (f : Zone → Zone) : (c.modifyZone g f).seq = c.seq := rfl
@[simp] theorem Chip.tr_modifyZone (c : Chip) (g : Nat) (f : Zone → Zone) : (c.modifyZone g f).tr = c.tr := rfl
@[simp] theorem Chip.trk_modifyZone (c : Chip) (g : Nat) (f : Zone → Zone) : (c.modifyZone g f).trk = c.trk := rfl
@[simp] theorem Chip.alloc_modifyZone (c : Chip) (g : Nat) (f : Zone → Zone) :
    (c.modifyZone g f).alloc = { zones := c.alloc.zones.modify g f } := rfl
@[simp] theorem Chip.rep_modifyZone (c : Chip) (g : Nat) (f : Zone → Zone) : (c.modifyZone g f).rep = c.rep := rfl
@[simp] theorem Chip.pat_modifyZone (c : Chip) (g : Nat) (f : Zone → Zone) : (c.modifyZone g f).pat = c.pat := rfl
@[simp] theorem Chip.dir_modifyZone (c : Chip) (g : Nat) (f : Zone → Zone) : (c.modifyZone g f).dir = c.dir := rfl
@[simp] theorem Chip.health_modifyZone (c : Chip) (g : Nat) (f : Zone → Zone) :
    (c.modifyZone g f).health = c.health := rfl

/-! ## setSpare -/

@[simp] theorem Chip.devices_setSpare (c : Chip) (t : SpareId) (st : SpareState) :
    (c.setSpare t st).devices = c.devices := rfl
@[simp] theorem Chip.bus_setSpare (c : Chip) (t : SpareId) (st : SpareState) : (c.setSpare t st).bus = c.bus := rfl
@[simp] theorem Chip.cmd_setSpare (c : Chip) (t : SpareId) (st : SpareState) : (c.setSpare t st).cmd = c.cmd := rfl
@[simp] theorem Chip.seq_setSpare (c : Chip) (t : SpareId) (st : SpareState) : (c.setSpare t st).seq = c.seq := rfl
@[simp] theorem Chip.tr_setSpare (c : Chip) (t : SpareId) (st : SpareState) : (c.setSpare t st).tr = c.tr := rfl
@[simp] theorem Chip.trk_setSpare (c : Chip) (t : SpareId) (st : SpareState) : (c.setSpare t st).trk = c.trk := rfl
@[simp] theorem Chip.rep_setSpare (c : Chip) (t : SpareId) (st : SpareState) : (c.setSpare t st).rep = c.rep := rfl
@[simp] theorem Chip.pat_setSpare (c : Chip) (t : SpareId) (st : SpareState) : (c.setSpare t st).pat = c.pat := rfl
@[simp] theorem Chip.dir_setSpare (c : Chip) (t : SpareId) (st : SpareState) : (c.setSpare t st).dir = c.dir := rfl
@[simp] theorem Chip.health_setSpare (c : Chip) (t : SpareId) (st : SpareState) :
    (c.setSpare t st).health = c.health := rfl

/-! ## endCommand -/

@[simp] theorem Chip.devices_endCommand (c : Chip) (code : ResultCode) (res : Results) :
    (c.endCommand code res).devices = c.devices := rfl
@[simp] theorem Chip.bus_endCommand (c : Chip) (code : ResultCode) (res : Results) :
    (c.endCommand code res).bus = { c.bus with cmdDone := true } := rfl
@[simp] theorem Chip.cmd_endCommand (c : Chip) (code : ResultCode) (res : Results) :
    (c.endCommand code res).cmd =
      { c.cmd with st := .idle, results := res, lastResult := code, stopRequest := false, work := .none, held := none } := rfl
@[simp] theorem Chip.seq_endCommand (c : Chip) (code : ResultCode) (res : Results) :
    (c.endCommand code res).seq = c.seq := rfl
@[simp] theorem Chip.tr_endCommand (c : Chip) (code : ResultCode) (res : Results) :
    (c.endCommand code res).tr = c.tr := rfl
@[simp] theorem Chip.trk_endCommand (c : Chip) (code : ResultCode) (res : Results) :
    (c.endCommand code res).trk = c.trk := rfl
@[simp] theorem Chip.alloc_endCommand (c : Chip) (code : ResultCode) (res : Results) :
    (c.endCommand code res).alloc = c.alloc := rfl
@[simp] theorem Chip.rep_endCommand (c : Chip) (code : ResultCode) (res : Results) :
    (c.endCommand code res).rep = c.rep := rfl
@[simp] theorem Chip.pat_endCommand (c : Chip) (code : ResultCode) (res : Results) :
    (c.endCommand code res).pat = c.pat := rfl
@[simp] theorem Chip.dir_endCommand (c : Chip) (code : ResultCode) (res : Results) :
    (c.endCommand code res).dir = c.dir := rfl
@[simp] theorem Chip.health_endCommand (c : Chip) (code : ResultCode) (res : Results) :
    (c.endCommand code res).health = c.health := rfl

/-! ## setWork -/

@[simp] theorem Chip.devices_setWork (c : Chip) (w : Work) : (c.setWork w).devices = c.devices := rfl
@[simp] theorem Chip.bus_setWork (c : Chip) (w : Work) : (c.setWork w).bus = c.bus := rfl
@[simp] theorem Chip.cmd_setWork (c : Chip) (w : Work) : (c.setWork w).cmd = { c.cmd with work := w } := rfl
@[simp] theorem Chip.seq_setWork (c : Chip) (w : Work) : (c.setWork w).seq = c.seq := rfl
@[simp] theorem Chip.tr_setWork (c : Chip) (w : Work) : (c.setWork w).tr = c.tr := rfl
@[simp] theorem Chip.trk_setWork (c : Chip) (w : Work) : (c.setWork w).trk = c.trk := rfl
@[simp] theorem Chip.alloc_setWork (c : Chip) (w : Work) : (c.setWork w).alloc = c.alloc := rfl
@[simp] theorem Chip.rep_setWork (c : Chip) (w : Work) : (c.setWork w).rep = c.rep := rfl
@[simp] theorem Chip.pat_setWork (c : Chip) (w : Work) : (c.setWork w).pat = c.pat := rfl
@[simp] theorem Chip.dir_setWork (c : Chip) (w : Work) : (c.setWork w).dir = c.dir := rfl
@[simp] theorem Chip.health_setWork (c : Chip) (w : Work) : (c.setWork w).health = c.health := rfl

/-! ## offer -/

@[simp] theorem Chip.devices_offer (c : Chip) (ws : List Word) : (c.offer ws).devices = c.devices := rfl
@[simp] theorem Chip.bus_offer (c : Chip) (ws : List Word) :
    (c.offer ws).bus = { c.bus with buffer := ws, pointer := 0 } := rfl
@[simp] theorem Chip.cmd_offer (c : Chip) (ws : List Word) : (c.offer ws).cmd = { c.cmd with st := .dataOut } := rfl
@[simp] theorem Chip.seq_offer (c : Chip) (ws : List Word) : (c.offer ws).seq = c.seq := rfl
@[simp] theorem Chip.tr_offer (c : Chip) (ws : List Word) : (c.offer ws).tr = c.tr := rfl
@[simp] theorem Chip.trk_offer (c : Chip) (ws : List Word) : (c.offer ws).trk = c.trk := rfl
@[simp] theorem Chip.alloc_offer (c : Chip) (ws : List Word) : (c.offer ws).alloc = c.alloc := rfl
@[simp] theorem Chip.rep_offer (c : Chip) (ws : List Word) : (c.offer ws).rep = c.rep := rfl
@[simp] theorem Chip.pat_offer (c : Chip) (ws : List Word) : (c.offer ws).pat = c.pat := rfl
@[simp] theorem Chip.dir_offer (c : Chip) (ws : List Word) : (c.offer ws).dir = c.dir := rfl
@[simp] theorem Chip.health_offer (c : Chip) (ws : List Word) : (c.offer ws).health = c.health := rfl

/-! ## askRow -/

@[simp] theorem Chip.devices_askRow (c : Chip) : (c.askRow).devices = c.devices := rfl
@[simp] theorem Chip.bus_askRow (c : Chip) : (c.askRow).bus = { c.bus with pointer := 0 } := rfl
@[simp] theorem Chip.cmd_askRow (c : Chip) : (c.askRow).cmd = { c.cmd with st := .dataIn } := rfl
@[simp] theorem Chip.seq_askRow (c : Chip) : (c.askRow).seq = c.seq := rfl
@[simp] theorem Chip.tr_askRow (c : Chip) : (c.askRow).tr = c.tr := rfl
@[simp] theorem Chip.trk_askRow (c : Chip) : (c.askRow).trk = c.trk := rfl
@[simp] theorem Chip.alloc_askRow (c : Chip) : (c.askRow).alloc = c.alloc := rfl
@[simp] theorem Chip.rep_askRow (c : Chip) : (c.askRow).rep = c.rep := rfl
@[simp] theorem Chip.pat_askRow (c : Chip) : (c.askRow).pat = c.pat := rfl
@[simp] theorem Chip.dir_askRow (c : Chip) : (c.askRow).dir = c.dir := rfl
@[simp] theorem Chip.health_askRow (c : Chip) : (c.askRow).health = c.health := rfl

/-! ## setResult0 -/

@[simp] theorem Chip.devices_setResult0 (c : Chip) (n : Nat) : (c.setResult0 n).devices = c.devices := rfl
@[simp] theorem Chip.bus_setResult0 (c : Chip) (n : Nat) : (c.setResult0 n).bus = c.bus := rfl
@[simp] theorem Chip.cmd_setResult0 (c : Chip) (n : Nat) :
    (c.setResult0 n).cmd = { c.cmd with results := { c.cmd.results with r0 := word n } } := rfl
@[simp] theorem Chip.seq_setResult0 (c : Chip) (n : Nat) : (c.setResult0 n).seq = c.seq := rfl
@[simp] theorem Chip.tr_setResult0 (c : Chip) (n : Nat) : (c.setResult0 n).tr = c.tr := rfl
@[simp] theorem Chip.trk_setResult0 (c : Chip) (n : Nat) : (c.setResult0 n).trk = c.trk := rfl
@[simp] theorem Chip.alloc_setResult0 (c : Chip) (n : Nat) : (c.setResult0 n).alloc = c.alloc := rfl
@[simp] theorem Chip.rep_setResult0 (c : Chip) (n : Nat) : (c.setResult0 n).rep = c.rep := rfl
@[simp] theorem Chip.pat_setResult0 (c : Chip) (n : Nat) : (c.setResult0 n).pat = c.pat := rfl
@[simp] theorem Chip.dir_setResult0 (c : Chip) (n : Nat) : (c.setResult0 n).dir = c.dir := rfl
@[simp] theorem Chip.health_setResult0 (c : Chip) (n : Nat) : (c.setResult0 n).health = c.health := rfl

/-! ## putTransfer -/

@[simp] theorem Chip.devices_putTransfer (c : Chip) (t : Transfer) : (c.putTransfer t).devices = c.devices := rfl
@[simp] theorem Chip.bus_putTransfer (c : Chip) (t : Transfer) : (c.putTransfer t).bus = c.bus := rfl
@[simp] theorem Chip.cmd_putTransfer (c : Chip) (t : Transfer) :
    (c.putTransfer t).cmd = { c.cmd with work := .transfer t } := rfl
@[simp] theorem Chip.seq_putTransfer (c : Chip) (t : Transfer) : (c.putTransfer t).seq = c.seq := rfl
@[simp] theorem Chip.tr_putTransfer (c : Chip) (t : Transfer) : (c.putTransfer t).tr = c.tr := rfl
@[simp] theorem Chip.trk_putTransfer (c : Chip) (t : Transfer) : (c.putTransfer t).trk = c.trk := rfl
@[simp] theorem Chip.alloc_putTransfer (c : Chip) (t : Transfer) : (c.putTransfer t).alloc = c.alloc := rfl
@[simp] theorem Chip.rep_putTransfer (c : Chip) (t : Transfer) : (c.putTransfer t).rep = c.rep := rfl
@[simp] theorem Chip.pat_putTransfer (c : Chip) (t : Transfer) : (c.putTransfer t).pat = c.pat := rfl
@[simp] theorem Chip.dir_putTransfer (c : Chip) (t : Transfer) : (c.putTransfer t).dir = c.dir := rfl
@[simp] theorem Chip.health_putTransfer (c : Chip) (t : Transfer) : (c.putTransfer t).health = c.health := rfl

/-! ## setPat -/

@[simp] theorem Chip.devices_setPat (c : Chip) (p : PatrolEngine) : (c.setPat p).devices = c.devices := rfl
@[simp] theorem Chip.bus_setPat (c : Chip) (p : PatrolEngine) : (c.setPat p).bus = c.bus := rfl
@[simp] theorem Chip.cmd_setPat (c : Chip) (p : PatrolEngine) : (c.setPat p).cmd = c.cmd := rfl
@[simp] theorem Chip.seq_setPat (c : Chip) (p : PatrolEngine) : (c.setPat p).seq = c.seq := rfl
@[simp] theorem Chip.tr_setPat (c : Chip) (p : PatrolEngine) : (c.setPat p).tr = c.tr := rfl
@[simp] theorem Chip.trk_setPat (c : Chip) (p : PatrolEngine) : (c.setPat p).trk = c.trk := rfl
@[simp] theorem Chip.alloc_setPat (c : Chip) (p : PatrolEngine) : (c.setPat p).alloc = c.alloc := rfl
@[simp] theorem Chip.rep_setPat (c : Chip) (p : PatrolEngine) : (c.setPat p).rep = c.rep := rfl
@[simp] theorem Chip.pat_setPat (c : Chip) (p : PatrolEngine) : (c.setPat p).pat = p := rfl
@[simp] theorem Chip.dir_setPat (c : Chip) (p : PatrolEngine) : (c.setPat p).dir = c.dir := rfl
@[simp] theorem Chip.health_setPat (c : Chip) (p : PatrolEngine) : (c.setPat p).health = c.health := rfl

/-! ## clearPatrolClaim -/

@[simp] theorem Chip.devices_clearPatrolClaim (c : Chip) : (c.clearPatrolClaim).devices = c.devices := rfl
@[simp] theorem Chip.bus_clearPatrolClaim (c : Chip) : (c.clearPatrolClaim).bus = c.bus := rfl
@[simp] theorem Chip.cmd_clearPatrolClaim (c : Chip) : (c.clearPatrolClaim).cmd = c.cmd := rfl
@[simp] theorem Chip.seq_clearPatrolClaim (c : Chip) : (c.clearPatrolClaim).seq = c.seq := rfl
@[simp] theorem Chip.tr_clearPatrolClaim (c : Chip) :
    (c.clearPatrolClaim).tr = { c.tr with patrolClaim := none } := rfl
@[simp] theorem Chip.trk_clearPatrolClaim (c : Chip) : (c.clearPatrolClaim).trk = c.trk := rfl
@[simp] theorem Chip.alloc_clearPatrolClaim (c : Chip) : (c.clearPatrolClaim).alloc = c.alloc := rfl
@[simp] theorem Chip.rep_clearPatrolClaim (c : Chip) : (c.clearPatrolClaim).rep = c.rep := rfl
@[simp] theorem Chip.pat_clearPatrolClaim (c : Chip) : (c.clearPatrolClaim).pat = c.pat := rfl
@[simp] theorem Chip.dir_clearPatrolClaim (c : Chip) : (c.clearPatrolClaim).dir = c.dir := rfl
@[simp] theorem Chip.health_clearPatrolClaim (c : Chip) : (c.clearPatrolClaim).health = c.health := rfl

/-! ## putJob -/

@[simp] theorem Chip.devices_putJob (c : Chip) (st : RepairState) (j : Job) :
    (c.putJob st j).devices = c.devices := rfl
@[simp] theorem Chip.bus_putJob (c : Chip) (st : RepairState) (j : Job) : (c.putJob st j).bus = c.bus := rfl
@[simp] theorem Chip.cmd_putJob (c : Chip) (st : RepairState) (j : Job) : (c.putJob st j).cmd = c.cmd := rfl
@[simp] theorem Chip.seq_putJob (c : Chip) (st : RepairState) (j : Job) : (c.putJob st j).seq = c.seq := rfl
@[simp] theorem Chip.tr_putJob (c : Chip) (st : RepairState) (j : Job) : (c.putJob st j).tr = c.tr := rfl
@[simp] theorem Chip.trk_putJob (c : Chip) (st : RepairState) (j : Job) : (c.putJob st j).trk = c.trk := rfl
@[simp] theorem Chip.alloc_putJob (c : Chip) (st : RepairState) (j : Job) : (c.putJob st j).alloc = c.alloc := rfl
@[simp] theorem Chip.rep_putJob (c : Chip) (st : RepairState) (j : Job) :
    (c.putJob st j).rep = { c.rep with st := st, job := some j } := rfl
@[simp] theorem Chip.pat_putJob (c : Chip) (st : RepairState) (j : Job) : (c.putJob st j).pat = c.pat := rfl
@[simp] theorem Chip.dir_putJob (c : Chip) (st : RepairState) (j : Job) : (c.putJob st j).dir = c.dir := rfl
@[simp] theorem Chip.health_putJob (c : Chip) (st : RepairState) (j : Job) : (c.putJob st j).health = c.health := rfl

/-! ## setRepairClaim -/

@[simp] theorem Chip.devices_setRepairClaim (c : Chip) (l : Nat) : (c.setRepairClaim l).devices = c.devices := rfl
@[simp] theorem Chip.bus_setRepairClaim (c : Chip) (l : Nat) : (c.setRepairClaim l).bus = c.bus := rfl
@[simp] theorem Chip.cmd_setRepairClaim (c : Chip) (l : Nat) : (c.setRepairClaim l).cmd = c.cmd := rfl
@[simp] theorem Chip.seq_setRepairClaim (c : Chip) (l : Nat) : (c.setRepairClaim l).seq = c.seq := rfl
@[simp] theorem Chip.tr_setRepairClaim (c : Chip) (l : Nat) :
    (c.setRepairClaim l).tr = { c.tr with repairClaim := some { row := l, overtaken := false } } := rfl
@[simp] theorem Chip.trk_setRepairClaim (c : Chip) (l : Nat) : (c.setRepairClaim l).trk = c.trk := rfl
@[simp] theorem Chip.alloc_setRepairClaim (c : Chip) (l : Nat) : (c.setRepairClaim l).alloc = c.alloc := rfl
@[simp] theorem Chip.rep_setRepairClaim (c : Chip) (l : Nat) : (c.setRepairClaim l).rep = c.rep := rfl
@[simp] theorem Chip.pat_setRepairClaim (c : Chip) (l : Nat) : (c.setRepairClaim l).pat = c.pat := rfl
@[simp] theorem Chip.dir_setRepairClaim (c : Chip) (l : Nat) : (c.setRepairClaim l).dir = c.dir := rfl
@[simp] theorem Chip.health_setRepairClaim (c : Chip) (l : Nat) : (c.setRepairClaim l).health = c.health := rfl

/-! ## idleRepair -/

@[simp] theorem Chip.devices_idleRepair (c : Chip) : (c.idleRepair).devices = c.devices := rfl
@[simp] theorem Chip.bus_idleRepair (c : Chip) : (c.idleRepair).bus = c.bus := rfl
@[simp] theorem Chip.cmd_idleRepair (c : Chip) : (c.idleRepair).cmd = c.cmd := rfl
@[simp] theorem Chip.seq_idleRepair (c : Chip) : (c.idleRepair).seq = c.seq := rfl
@[simp] theorem Chip.tr_idleRepair (c : Chip) : (c.idleRepair).tr = { c.tr with repairClaim := none } := rfl
@[simp] theorem Chip.trk_idleRepair (c : Chip) : (c.idleRepair).trk = c.trk := rfl
@[simp] theorem Chip.alloc_idleRepair (c : Chip) : (c.idleRepair).alloc = c.alloc := rfl
@[simp] theorem Chip.rep_idleRepair (c : Chip) : (c.idleRepair).rep = { c.rep with st := .idle, job := none } := rfl
@[simp] theorem Chip.pat_idleRepair (c : Chip) : (c.idleRepair).pat = c.pat := rfl
@[simp] theorem Chip.dir_idleRepair (c : Chip) : (c.idleRepair).dir = c.dir := rfl
@[simp] theorem Chip.health_idleRepair (c : Chip) : (c.idleRepair).health = c.health := rfl

/-! ## dropWaiting -/

@[simp] theorem Chip.devices_dropWaiting (c : Chip) : (c.dropWaiting).devices = c.devices := rfl
@[simp] theorem Chip.bus_dropWaiting (c : Chip) : (c.dropWaiting).bus = c.bus := rfl
@[simp] theorem Chip.cmd_dropWaiting (c : Chip) : (c.dropWaiting).cmd = c.cmd := rfl
@[simp] theorem Chip.seq_dropWaiting (c : Chip) : (c.dropWaiting).seq = c.seq := rfl
@[simp] theorem Chip.tr_dropWaiting (c : Chip) : (c.dropWaiting).tr = c.tr := rfl
@[simp] theorem Chip.trk_dropWaiting (c : Chip) : (c.dropWaiting).trk = c.trk := rfl
@[simp] theorem Chip.alloc_dropWaiting (c : Chip) : (c.dropWaiting).alloc = c.alloc := rfl
@[simp] theorem Chip.rep_dropWaiting (c : Chip) : (c.dropWaiting).rep = { c.rep with waiting := none } := rfl
@[simp] theorem Chip.pat_dropWaiting (c : Chip) : (c.dropWaiting).pat = c.pat := rfl
@[simp] theorem Chip.dir_dropWaiting (c : Chip) : (c.dropWaiting).dir = c.dir := rfl
@[simp] theorem Chip.health_dropWaiting (c : Chip) : (c.dropWaiting).health = c.health := rfl

/-! ## updatePending -/

@[simp] theorem Chip.devices_updatePending (c : Chip) (l : Nat) (f : PendingEntry → PendingEntry) :
    (c.updatePending l f).devices = c.devices := rfl
@[simp] theorem Chip.bus_updatePending (c : Chip) (l : Nat) (f : PendingEntry → PendingEntry) :
    (c.updatePending l f).bus = c.bus := rfl
@[simp] theorem Chip.cmd_updatePending (c : Chip) (l : Nat) (f : PendingEntry → PendingEntry) :
    (c.updatePending l f).cmd = c.cmd := rfl
@[simp] theorem Chip.seq_updatePending (c : Chip) (l : Nat) (f : PendingEntry → PendingEntry) :
    (c.updatePending l f).seq = c.seq := rfl
@[simp] theorem Chip.tr_updatePending (c : Chip) (l : Nat) (f : PendingEntry → PendingEntry) :
    (c.updatePending l f).tr = c.tr := rfl
@[simp] theorem Chip.trk_updatePending (c : Chip) (l : Nat) (f : PendingEntry → PendingEntry) :
    (c.updatePending l f).trk =
      { c.trk with pendingList := c.trk.pendingList.map fun e => if e.row = l then f e else e } := rfl
@[simp] theorem Chip.alloc_updatePending (c : Chip) (l : Nat) (f : PendingEntry → PendingEntry) :
    (c.updatePending l f).alloc = c.alloc := rfl
@[simp] theorem Chip.rep_updatePending (c : Chip) (l : Nat) (f : PendingEntry → PendingEntry) :
    (c.updatePending l f).rep = c.rep := rfl
@[simp] theorem Chip.pat_updatePending (c : Chip) (l : Nat) (f : PendingEntry → PendingEntry) :
    (c.updatePending l f).pat = c.pat := rfl
@[simp] theorem Chip.dir_updatePending (c : Chip) (l : Nat) (f : PendingEntry → PendingEntry) :
    (c.updatePending l f).dir = c.dir := rfl
@[simp] theorem Chip.health_updatePending (c : Chip) (l : Nat) (f : PendingEntry → PendingEntry) :
    (c.updatePending l f).health = c.health := rfl

/-! ## setCommit -/

@[simp] theorem Chip.devices_setCommit (c : Chip) (j : CommitJob) : (c.setCommit j).devices = c.devices := rfl
@[simp] theorem Chip.bus_setCommit (c : Chip) (j : CommitJob) : (c.setCommit j).bus = c.bus := rfl
@[simp] theorem Chip.cmd_setCommit (c : Chip) (j : CommitJob) : (c.setCommit j).cmd = c.cmd := rfl
@[simp] theorem Chip.seq_setCommit (c : Chip) (j : CommitJob) : (c.setCommit j).seq = c.seq := rfl
@[simp] theorem Chip.tr_setCommit (c : Chip) (j : CommitJob) : (c.setCommit j).tr = c.tr := rfl
@[simp] theorem Chip.trk_setCommit (c : Chip) (j : CommitJob) : (c.setCommit j).trk = c.trk := rfl
@[simp] theorem Chip.alloc_setCommit (c : Chip) (j : CommitJob) : (c.setCommit j).alloc = c.alloc := rfl
@[simp] theorem Chip.rep_setCommit (c : Chip) (j : CommitJob) : (c.setCommit j).rep = c.rep := rfl
@[simp] theorem Chip.pat_setCommit (c : Chip) (j : CommitJob) : (c.setCommit j).pat = c.pat := rfl
@[simp] theorem Chip.dir_setCommit (c : Chip) (j : CommitJob) :
    (c.setCommit j).dir = { c.dir with commit := some j } := rfl
@[simp] theorem Chip.health_setCommit (c : Chip) (j : CommitJob) : (c.setCommit j).health = c.health := rfl

/-! ## setFormat -/

@[simp] theorem Chip.devices_setFormat (c : Chip) (f : Option FormatJob) : (c.setFormat f).devices = c.devices := rfl
@[simp] theorem Chip.bus_setFormat (c : Chip) (f : Option FormatJob) : (c.setFormat f).bus = c.bus := rfl
@[simp] theorem Chip.cmd_setFormat (c : Chip) (f : Option FormatJob) : (c.setFormat f).cmd = c.cmd := rfl
@[simp] theorem Chip.seq_setFormat (c : Chip) (f : Option FormatJob) : (c.setFormat f).seq = c.seq := rfl
@[simp] theorem Chip.tr_setFormat (c : Chip) (f : Option FormatJob) : (c.setFormat f).tr = c.tr := rfl
@[simp] theorem Chip.trk_setFormat (c : Chip) (f : Option FormatJob) : (c.setFormat f).trk = c.trk := rfl
@[simp] theorem Chip.alloc_setFormat (c : Chip) (f : Option FormatJob) : (c.setFormat f).alloc = c.alloc := rfl
@[simp] theorem Chip.rep_setFormat (c : Chip) (f : Option FormatJob) : (c.setFormat f).rep = c.rep := rfl
@[simp] theorem Chip.pat_setFormat (c : Chip) (f : Option FormatJob) : (c.setFormat f).pat = c.pat := rfl
@[simp] theorem Chip.dir_setFormat (c : Chip) (f : Option FormatJob) :
    (c.setFormat f).dir = { c.dir with format := f } := rfl
@[simp] theorem Chip.health_setFormat (c : Chip) (f : Option FormatJob) : (c.setFormat f).health = c.health := rfl

/-! ## closeCommit -/

@[simp] theorem Chip.devices_closeCommit (c : Chip) : (c.closeCommit).devices = c.devices := rfl
@[simp] theorem Chip.bus_closeCommit (c : Chip) : (c.closeCommit).bus = c.bus := rfl
@[simp] theorem Chip.cmd_closeCommit (c : Chip) : (c.closeCommit).cmd = c.cmd := rfl
@[simp] theorem Chip.seq_closeCommit (c : Chip) : (c.closeCommit).seq = c.seq := rfl
@[simp] theorem Chip.tr_closeCommit (c : Chip) : (c.closeCommit).tr = c.tr := rfl
@[simp] theorem Chip.trk_closeCommit (c : Chip) : (c.closeCommit).trk = c.trk := rfl
@[simp] theorem Chip.alloc_closeCommit (c : Chip) : (c.closeCommit).alloc = c.alloc := rfl
@[simp] theorem Chip.rep_closeCommit (c : Chip) : (c.closeCommit).rep = c.rep := rfl
@[simp] theorem Chip.pat_closeCommit (c : Chip) : (c.closeCommit).pat = c.pat := rfl
@[simp] theorem Chip.dir_closeCommit (c : Chip) :
    (c.closeCommit).dir = { c.dir with mode := .idle, commit := none, image := [] } := rfl
@[simp] theorem Chip.health_closeCommit (c : Chip) : (c.closeCommit).health = c.health := rfl

/-! ## putEntry -/

@[simp] theorem Chip.devices_putEntry (c : Chip) (l : Nat) (p : Placement) (o : Origin) :
    (c.putEntry l p o).devices = c.devices := rfl
@[simp] theorem Chip.bus_putEntry (c : Chip) (l : Nat) (p : Placement) (o : Origin) :
    (c.putEntry l p o).bus = c.bus := rfl
@[simp] theorem Chip.cmd_putEntry (c : Chip) (l : Nat) (p : Placement) (o : Origin) :
    (c.putEntry l p o).cmd = c.cmd := rfl
@[simp] theorem Chip.seq_putEntry (c : Chip) (l : Nat) (p : Placement) (o : Origin) :
    (c.putEntry l p o).seq = c.seq := rfl
@[simp] theorem Chip.tr_putEntry (c : Chip) (l : Nat) (p : Placement) (o : Origin) :
    (c.putEntry l p o).tr =
      { c.tr with remap := placeEntry { row := l, place := p, origin := o, stamp := c.pat.pass } c.tr.remap } := rfl
@[simp] theorem Chip.trk_putEntry (c : Chip) (l : Nat) (p : Placement) (o : Origin) :
    (c.putEntry l p o).trk = c.trk := rfl
@[simp] theorem Chip.alloc_putEntry (c : Chip) (l : Nat) (p : Placement) (o : Origin) :
    (c.putEntry l p o).alloc = c.alloc := rfl
@[simp] theorem Chip.rep_putEntry (c : Chip) (l : Nat) (p : Placement) (o : Origin) :
    (c.putEntry l p o).rep = c.rep := rfl
@[simp] theorem Chip.pat_putEntry (c : Chip) (l : Nat) (p : Placement) (o : Origin) :
    (c.putEntry l p o).pat = c.pat := rfl
@[simp] theorem Chip.dir_putEntry (c : Chip) (l : Nat) (p : Placement) (o : Origin) :
    (c.putEntry l p o).dir = c.dir := rfl
@[simp] theorem Chip.health_putEntry (c : Chip) (l : Nat) (p : Placement) (o : Origin) :
    (c.putEntry l p o).health = c.health := rfl

/-! ## countChange -/

@[simp] theorem Chip.devices_countChange (c : Chip) : (c.countChange).devices = c.devices := rfl
@[simp] theorem Chip.bus_countChange (c : Chip) : (c.countChange).bus = c.bus := rfl
@[simp] theorem Chip.cmd_countChange (c : Chip) : (c.countChange).cmd = c.cmd := rfl
@[simp] theorem Chip.seq_countChange (c : Chip) : (c.countChange).seq = c.seq := rfl
@[simp] theorem Chip.tr_countChange (c : Chip) :
    (c.countChange).tr = { c.tr with changes := min Config.changeLimit (c.tr.changes + 1) } := rfl
@[simp] theorem Chip.trk_countChange (c : Chip) : (c.countChange).trk = c.trk := rfl
@[simp] theorem Chip.alloc_countChange (c : Chip) : (c.countChange).alloc = c.alloc := rfl
@[simp] theorem Chip.rep_countChange (c : Chip) : (c.countChange).rep = c.rep := rfl
@[simp] theorem Chip.pat_countChange (c : Chip) : (c.countChange).pat = c.pat := rfl
@[simp] theorem Chip.dir_countChange (c : Chip) : (c.countChange).dir = c.dir := rfl
@[simp] theorem Chip.health_countChange (c : Chip) : (c.countChange).health = c.health := rfl

/-! ## refuseCommand -/

@[simp] theorem Chip.devices_refuseCommand (c : Chip) : (c.refuseCommand).devices = c.devices := rfl
@[simp] theorem Chip.bus_refuseCommand (c : Chip) : (c.refuseCommand).bus = { c.bus with cmdRefused := true } := rfl
@[simp] theorem Chip.cmd_refuseCommand (c : Chip) : (c.refuseCommand).cmd = c.cmd := rfl
@[simp] theorem Chip.seq_refuseCommand (c : Chip) : (c.refuseCommand).seq = c.seq := rfl
@[simp] theorem Chip.tr_refuseCommand (c : Chip) : (c.refuseCommand).tr = c.tr := rfl
@[simp] theorem Chip.trk_refuseCommand (c : Chip) : (c.refuseCommand).trk = c.trk := rfl
@[simp] theorem Chip.alloc_refuseCommand (c : Chip) : (c.refuseCommand).alloc = c.alloc := rfl
@[simp] theorem Chip.rep_refuseCommand (c : Chip) : (c.refuseCommand).rep = c.rep := rfl
@[simp] theorem Chip.pat_refuseCommand (c : Chip) : (c.refuseCommand).pat = c.pat := rfl
@[simp] theorem Chip.dir_refuseCommand (c : Chip) : (c.refuseCommand).dir = c.dir := rfl
@[simp] theorem Chip.health_refuseCommand (c : Chip) : (c.refuseCommand).health = c.health := rfl

/-! ## acceptCommand -/

@[simp] theorem Chip.devices_acceptCommand (c : Chip) : (c.acceptCommand).devices = c.devices := rfl
@[simp] theorem Chip.bus_acceptCommand (c : Chip) : (c.acceptCommand).bus = c.bus := rfl
@[simp] theorem Chip.cmd_acceptCommand (c : Chip) : (c.acceptCommand).cmd = c.cmd.accepted .none := rfl
@[simp] theorem Chip.seq_acceptCommand (c : Chip) : (c.acceptCommand).seq = c.seq := rfl
@[simp] theorem Chip.tr_acceptCommand (c : Chip) : (c.acceptCommand).tr = c.tr := rfl
@[simp] theorem Chip.trk_acceptCommand (c : Chip) : (c.acceptCommand).trk = c.trk := rfl
@[simp] theorem Chip.alloc_acceptCommand (c : Chip) : (c.acceptCommand).alloc = c.alloc := rfl
@[simp] theorem Chip.rep_acceptCommand (c : Chip) : (c.acceptCommand).rep = c.rep := rfl
@[simp] theorem Chip.pat_acceptCommand (c : Chip) : (c.acceptCommand).pat = c.pat := rfl
@[simp] theorem Chip.dir_acceptCommand (c : Chip) : (c.acceptCommand).dir = c.dir := rfl
@[simp] theorem Chip.health_acceptCommand (c : Chip) : (c.acceptCommand).health = c.health := rfl

/-! ## misuse -/

@[simp] theorem Chip.devices_misuse (c : Chip) : (c.misuse).devices = c.devices := rfl
@[simp] theorem Chip.bus_misuse (c : Chip) : (c.misuse).bus = { c.bus with portMisuse := true } := rfl
@[simp] theorem Chip.cmd_misuse (c : Chip) : (c.misuse).cmd = c.cmd := rfl
@[simp] theorem Chip.seq_misuse (c : Chip) : (c.misuse).seq = c.seq := rfl
@[simp] theorem Chip.tr_misuse (c : Chip) : (c.misuse).tr = c.tr := rfl
@[simp] theorem Chip.trk_misuse (c : Chip) : (c.misuse).trk = c.trk := rfl
@[simp] theorem Chip.alloc_misuse (c : Chip) : (c.misuse).alloc = c.alloc := rfl
@[simp] theorem Chip.rep_misuse (c : Chip) : (c.misuse).rep = c.rep := rfl
@[simp] theorem Chip.pat_misuse (c : Chip) : (c.misuse).pat = c.pat := rfl
@[simp] theorem Chip.dir_misuse (c : Chip) : (c.misuse).dir = c.dir := rfl
@[simp] theorem Chip.health_misuse (c : Chip) : (c.misuse).health = c.health := rfl

end Sys2Proof.Machine
end

