-- ==== Sys2Proof/Laws/Port.lean ====
section
/-! SUPPORT. The array port: what a grant does, and that after every step no request waits at an idle port (R26). -/

namespace Sys2Proof.Machine

/-! ## Slots -/

theorem Sequencer.slot_put (q : Sequencer) (k k' : AccessClass) (s : Slot) :
    (q.put k s).slot k' = if k' = k then s else q.slot k' := by
  cases k <;> cases k' <;> rfl

theorem Sequencer.current_eq_none {q : Sequencer} : q.current = none ↔ ∀ k, (q.slot k).active = none := by
  constructor
  · intro h k
    unfold Sequencer.current at h
    cases k <;> simp only [Sequencer.slot] <;> (repeat' split at h) <;> simp_all
  · intro h
    simp [Sequencer.current, h .foreground, h .directory, h .repair, h .patrol,
      show q.foreground = q.slot .foreground from rfl, show q.directory = q.slot .directory from rfl,
      show q.repair = q.slot .repair from rfl, show q.patrol = q.slot .patrol from rfl]

theorem Sequencer.firstWaiting_eq_none {q : Sequencer} : q.firstWaiting = none ↔ ∀ k, (q.slot k).awaiting = none := by
  constructor
  · intro h k
    unfold Sequencer.firstWaiting at h
    cases k <;> simp only [Sequencer.slot] <;> (repeat' split at h) <;> simp_all
  · intro h
    simp [Sequencer.firstWaiting, h .foreground, h .directory, h .repair, h .patrol,
      show q.foreground = q.slot .foreground from rfl, show q.directory = q.slot .directory from rfl,
      show q.repair = q.slot .repair from rfl, show q.patrol = q.slot .patrol from rfl]

theorem Sequencer.of_firstWaiting {q : Sequencer} {k : AccessClass} {r : Request} (h : q.firstWaiting = some (k, r)) :
    q.slot k = .waiting r := by
  have aw : ∀ s : Slot, s.awaiting = some r → s = .waiting r := by
    intro s hs; cases s <;> simp_all [Slot.awaiting]
  unfold Sequencer.firstWaiting at h
  (repeat' split at h) <;> simp only [Option.some.injEq, Prod.mk.injEq, reduceCtorEq] at h <;>
    (obtain ⟨rfl, rfl⟩ := h; exact aw _ ‹_›)

theorem Sequencer.current_put_inProgress (q : Sequencer) (k : AccessClass) (r : Request) (b : Bool) :
    ({ q.put k (.inProgress r) with readyTimer := b } : Sequencer).current.isSome := by
  cases k <;> simp only [Sequencer.put, Sequencer.current, Slot.active] <;> (repeat' split) <;> rfl

/-! ## Grants (R26, R28) -/

/-- With no request waiting a grant does nothing. -/
theorem Chip.grant_of_none {c : Chip} (n : Nat) (h : c.seq.firstWaiting = none) : c.grant n = (c, []) := by
  cases n <;> simp [Chip.grant, h]

/-- The highest waiting request is granted when its condition, if any, holds. -/
theorem Chip.grant_of_some {c : Chip} {k : AccessClass} {r : Request} (n : Nat)
    (h : c.seq.firstWaiting = some (k, r)) (hc : c.conditionFails r.purpose = false) :
    c.grant (n + 1) = ({ c with seq := { c.seq.put k (.inProgress r) with readyTimer := true } }, []) := by
  simp [Chip.grant, h, hc]

/-- A settled port stays as it is. -/
theorem Chip.settle_of_settled {c : Chip} (n : Nat) (h : c.seq.settled = true) : c.settle n = c := by
  cases n with
  | zero => rfl
  | succ n =>
    unfold Chip.settle
    split
    · rfl
    · rename_i hc
      have hw : c.seq.firstWaiting = none := by
        simpa [Sequencer.settled, hc] using h
      simp [Chip.grant_of_none 4 hw]

/-- An idle port grants the highest waiting request when its condition, if any, holds. -/
theorem Chip.settle_of_some {c : Chip} {k : AccessClass} {r : Request} (n : Nat) (h0 : c.seq.current = none)
    (h : c.seq.firstWaiting = some (k, r)) (hc : c.conditionFails r.purpose = false) :
    c.settle (n + 1) = { c with seq := { c.seq.put k (.inProgress r) with readyTimer := true } } := by
  unfold Chip.settle
  rw [h0, Chip.grant_of_some 3 h hc]
  rfl

/-! ## Requests whose grant condition may fail -/

/-- Every waiting request whose grant condition may fail stands in one of these classes: the patrol's scrub, and a zero
write whose claim is marked (R28). -/
structure Chip.Suspects (bad : List AccessClass) (c : Chip) : Prop where
  scrub : ∀ k r, c.seq.slot k = .waiting r → r.purpose = .patrolScrub → k ∈ bad
  zero : ∀ k r, c.seq.slot k = .waiting r → r.purpose = .zeroWrite → claimMarked c.tr.repairClaim = true → k ∈ bad

theorem Chip.Suspects.mem {bad : List AccessClass} {c : Chip} (h : c.Suspects bad) {k : AccessClass} {r : Request}
    (hs : c.seq.slot k = .waiting r) (hf : c.conditionFails r.purpose = true) : k ∈ bad := by
  have h1 := h.scrub k r hs
  have h2 := h.zero k r hs
  generalize r.purpose = p at h1 h2 hf
  cases p <;> first | (cases hf) | exact h1 rfl | exact h2 rfl hf

theorem Chip.Suspects.all (c : Chip) : c.Suspects [.foreground, .directory, .repair, .patrol] :=
  ⟨fun k _ _ _ => by cases k <;> simp, fun k _ _ _ _ => by cases k <;> simp⟩

theorem Chip.Suspects.of_eq {bad : List AccessClass} {c d : Chip} (h : c.Suspects bad) (hs : d.seq = c.seq)
    (hm : claimMarked d.tr.repairClaim = true → claimMarked c.tr.repairClaim = true) : d.Suspects bad :=
  ⟨by rw [hs]; exact h.scrub, by rw [hs]; exact fun k r hk hp hd => h.zero k r hk hp (hm hd)⟩

theorem Chip.Suspects.issue {bad : List AccessClass} {c : Chip} (h : c.Suspects bad) {p : Purpose} {phys : PhysRow}
    {data : Option (List Word)} (h1 : p ≠ .patrolScrub) (h2 : p = .zeroWrite → claimMarked c.tr.repairClaim = false) :
    (c.issue p phys data).Suspects bad := by
  have hput : ∀ k, ((c.issue p phys data).seq.slot k) =
      if k = p.cls then .waiting { purpose := p, phys, data, abandoned := false } else c.seq.slot k :=
    fun k => Sequencer.slot_put _ _ _ _
  refine ⟨?_, ?_⟩
  · intro k r hk hp
    rw [hput] at hk
    split at hk
    · cases hk; exact absurd hp h1
    · exact h.scrub k r hk hp
  · intro k r hk hp hm
    rw [hput] at hk
    change claimMarked c.tr.repairClaim = true at hm
    split at hk
    · cases hk; rw [h2 hp] at hm; cases hm
    · exact h.zero k r hk hp hm

/-- A request that leaves its slot with DROPPED is a suspect no more. -/
theorem Chip.Suspects.drop {bad : List AccessClass} {c : Chip} (h : c.Suspects bad) (k : AccessClass) :
    (c.putSlot k .empty).Suspects (bad.erase k) := by
  have hput : ∀ k', ((c.putSlot k .empty).seq.slot k') = if k' = k then .empty else c.seq.slot k' :=
    fun k' => Sequencer.slot_put _ _ _ _
  refine ⟨?_, ?_⟩
  · intro k' r hk hp
    rw [hput] at hk
    split at hk
    · cases hk
    · exact (List.mem_erase_of_ne ‹_›).2 (h.scrub k' r hk hp)
  · intro k' r hk hp hm
    rw [hput] at hk
    split at hk
    · cases hk
    · exact (List.mem_erase_of_ne ‹_›).2 (h.zero k' r hk hp hm)

/-! ## Operations that leave the port and the repair claim's mark alone -/

/-- What the grant conditions look at. -/
def Chip.port (c : Chip) : Sequencer × Bool := (c.seq, claimMarked c.tr.repairClaim)

theorem Chip.Suspects.of_port {bad : List AccessClass} {c d : Chip} (h : c.Suspects bad) (hp : d.port = c.port) : d.Suspects bad :=
  h.of_eq (congrArg Prod.fst hp) fun hm => (congrArg Prod.snd hp).symm.trans hm

@[simp] theorem Chip.port_raise (c : Chip) (b : NoticeBody) : (c.raise b).port = c.port := by
  unfold Chip.raise; split <;> rfl

@[simp] theorem Chip.port_regradeDevice (c : Chip) : c.regradeDevice.port = c.port := by
  unfold Chip.regradeDevice; split
  · rfl
  · rw [Chip.port_raise]; rfl

@[simp] theorem Chip.port_setDirty (c : Chip) : c.setDirty.port = c.port := by
  unfold Chip.setDirty; split <;> rfl

@[simp] theorem Chip.port_setSpare (c : Chip) (t : SpareId) (st : SpareState) : (c.setSpare t st).port = c.port := rfl

@[simp] theorem Chip.port_modifyZone (c : Chip) (g : Nat) (f : Zone → Zone) : (c.modifyZone g f).port = c.port := rfl

@[simp] theorem Chip.port_endCommand (c : Chip) (code : ResultCode) (res : Results) :
    (c.endCommand code res).port = c.port := rfl

@[simp] theorem Chip.port_setPat (c : Chip) (p : PatrolEngine) : (c.setPat p).port = c.port := rfl

@[simp] theorem Chip.port_clearPatrolClaim (c : Chip) : c.clearPatrolClaim.port = c.port := rfl

@[simp] theorem Chip.port_putJob (c : Chip) (st : RepairState) (j : Job) : (c.putJob st j).port = c.port := rfl

@[simp] theorem Chip.port_markPatrolClaim (c : Chip) (l : Nat) : (c.markPatrolClaim l).port = c.port := rfl

@[simp] theorem Chip.port_setRestarts (c : Chip) (l n : Nat) : (c.setRestarts l n).port = c.port := rfl

@[simp] theorem Chip.port_setStarved (c : Chip) (l : Nat) : (c.setStarved l).port = c.port := by
  unfold Chip.setStarved; rw [Chip.port_setDirty]; rfl

@[simp] theorem Chip.port_deferPending (c : Chip) (l : Nat) : (c.deferPending l).port = c.port := by
  unfold Chip.deferPending; split
  · rfl
  · rw [Chip.port_setDirty]; rfl

@[simp] theorem Chip.port_takeSpare (c : Chip) (t : SpareId) : (c.takeSpare t).port = c.port := by
  unfold Chip.takeSpare; simp

@[simp] theorem Chip.port_reportExhausted (c : Chip) (g : Nat) : (c.reportExhausted g).port = c.port := by
  unfold Chip.reportExhausted; split <;> simp

@[simp] theorem Chip.port_freeJobSpare (c : Chip) (j : Job) : (c.freeJobSpare j).port = c.port := by
  unfold Chip.freeJobSpare; split
  · unfold Chip.releaseSpare; simp
  · rfl

@[simp] theorem Chip.port_stopPatrol (c : Chip) (why : StopReason) : (c.stopPatrol why).port = c.port := by
  unfold Chip.stopPatrol; simp

@[simp] theorem Chip.port_advanceCursor (c : Chip) : c.advanceCursor.port = c.port := by
  unfold Chip.advanceCursor; split
  · rfl
  · unfold Chip.endPass; dsimp only; split <;> simp <;> rfl

@[simp] theorem Chip.port_skipRow (c : Chip) : c.skipRow.port = c.port := by unfold Chip.skipRow; simp

@[simp] theorem Chip.port_endPatrolHalt (c : Chip) : c.endPatrolHalt.port = c.port := by
  unfold Chip.endPatrolHalt; split <;> rfl

@[simp] theorem Chip.port_endPatrolRestart (c : Chip) : c.endPatrolRestart.port = c.port := by
  unfold Chip.endPatrolRestart; split <;> rfl

@[simp] theorem Chip.port_restartPass (c : Chip) : c.restartPass.port = c.port := rfl

/-! ## The patrol engine and the repair engine leave the suspects as they are -/

theorem Chip.Suspects.beginVisit {bad : List AccessClass} {c : Chip} (h : c.Suspects bad) (p : PhysRow) : (c.beginVisit p).Suspects bad := by
  unfold Chip.beginVisit
  dsimp only
  refine Chip.Suspects.issue ?_ (by simp) (by simp)
  exact h.of_port rfl

theorem Chip.Suspects.handleCursor {bad : List AccessClass} {c : Chip} (n : Nat) (h : c.Suspects bad) : (c.handleCursor n).Suspects bad := by
  induction n generalizing c with
  | zero => exact h
  | succ n ih =>
    unfold Chip.handleCursor
    (repeat' split) <;> first | exact h | exact h.beginVisit _ | exact ih (h.of_port (by simp))

theorem Chip.Suspects.patrolOn {bad : List AccessClass} {c : Chip} (h : c.Suspects bad) : c.patrolOn.Suspects bad := h.handleCursor _

/-- A visit's end leaves the suspects as they are. -/
theorem Chip.Suspects.endVisit {bad : List AccessClass} {c : Chip} (h : c.Suspects bad) (o : ReadOutcome) : (c.endVisit o).Suspects bad := by
  unfold Chip.endVisit; dsimp only
  (repeat' split) <;> first | exact (h.of_port (by simp)).patrolOn | exact h.of_port (by simp)

theorem Chip.Suspects.endJob {bad : List AccessClass} {c : Chip} (h : c.Suspects bad) (j : Job) (code : ResultCode) : (c.endJob j code).Suspects bad := by
  have h1 : ((c.freeJobSpare j).idleRepair).Suspects bad :=
    (h.of_port (d := c.freeJobSpare j) (by simp)).of_eq rfl fun hm => by cases hm
  unfold Chip.endJob; dsimp only
  split
  · exact h1.of_port rfl
  · exact h1

theorem Chip.Suspects.abandonJob {bad : List AccessClass} {c : Chip} (h : c.Suspects bad) (j : Job) (code : ResultCode) :
    (c.abandonJob j code).Suspects bad := Chip.Suspects.endJob (h.of_port (by simp)) j code

theorem Chip.Suspects.issueJob {bad : List AccessClass} {c : Chip} (h : c.Suspects bad) (st : RepairState) (j : Job) {p : Purpose} (phys : PhysRow)
    (data : Option (List Word)) (h1 : p ≠ .patrolScrub) (h2 : p ≠ .zeroWrite) : (c.issueJob st j p phys data).Suspects bad := by
  unfold Chip.issueJob; split
  · exact h.abandonJob _ _
  · exact Chip.Suspects.issue (h.of_port (by simp)) h1 fun hp => absurd hp h2

theorem Chip.Suspects.repairMove {bad : List AccessClass} {c : Chip} (h : c.Suspects bad) (m : RepairMove) (j : Job) : (c.repairMove m j).1.Suspects bad := by
  cases m <;> unfold Chip.repairMove <;> dsimp only
  · unfold Chip.enterSource
    (repeat' split) <;> first
      | exact h.endJob _ _
      | exact h.issueJob _ _ _ _ (by simp) (by simp)
      | (unfold Chip.withData Chip.copyJob; split <;> first | exact h | exact h.issueJob _ _ _ _ (by simp) (by simp))
  · unfold Chip.enterAllocate
    (repeat' split) <;> first | exact h.abandonJob _ _ | exact h.of_port rfl
  · unfold Chip.serveJob
    split
    · exact Chip.Suspects.issueJob (h.of_port (by simp)) _ _ _ _ (by simp) (by simp)
    · have h1 : (c.reportExhausted (homeZone j.row)).Suspects bad := h.of_port (by simp)
      unfold Chip.jobUnserved
      (repeat' split) <;> first
        | exact h1
        | exact h1.endJob _ _
        | exact Chip.Suspects.endJob (h1.of_port (by simp)) _ _
  · unfold Chip.enterNoSpare
    (repeat' split) <;> first
      | exact h
      | exact Chip.Suspects.issue (c := (c.markPatrolClaim j.row).putJob .allocate j) (h.of_port rfl) (fun hp => by cases hp)
          fun _ => by simp_all
  · unfold Chip.overtakeJob
    split
    · exact h
    · rename_i e _
      split
      · have h1 : (c.setRestarts j.row (e.restarts + 1)).Suspects bad := h.of_port (by simp)
        exact h1.of_eq rfl fun hm => by cases hm
      · exact Chip.Suspects.endJob (h.of_port (d := c.deferPending j.row) (by simp)) j .deferred

theorem Chip.Suspects.repairRun {bad : List AccessClass} (n : Nat) (x : Chip × Option (RepairMove × Job)) (h : x.1.Suspects bad) :
    (Chip.repairRun n x).Suspects bad := by
  induction n generalizing x with
  | zero => obtain ⟨c, o⟩ := x; cases o <;> exact h
  | succ n ih =>
    obtain ⟨c, o⟩ := x
    cases o with
    | none => exact h
    | some mj => exact ih _ (Chip.Suspects.repairMove h _ _)

/-- A completion with DROPPED leaves the suspects as they are. -/
theorem Chip.Suspects.dropped {bad : List AccessClass} {c : Chip} (h : c.Suspects bad) (p : Purpose) : (c.dropped p).Suspects bad := by
  unfold Chip.dropped
  split <;> first
    | exact h
    | exact h.endVisit _
    | (unfold Chip.zeroDropped Chip.repairGo; split <;> first | exact h | exact Chip.Suspects.repairRun _ _ h)

theorem Chip.Suspects.foldl_dropped {bad : List AccessClass} {c : Chip} (ps : List Purpose) (h : c.Suspects bad) :
    (ps.foldl Chip.dropped c).Suspects bad := by
  induction ps generalizing c with
  | nil => exact h
  | cons p ps ih => exact ih (h.dropped p)

/-! ## Settling always settles -/

/-- The classes whose slots hold a waiting request. -/
def Sequencer.waitingClasses (q : Sequencer) : List AccessClass :=
  [.foreground, .directory, .repair, .patrol].filter fun k => (q.slot k).awaiting.isSome

theorem Sequencer.waitingClasses_put (q : Sequencer) (k : AccessClass) {r : Request} (h : q.slot k = .waiting r) :
    (q.put k .empty).waitingClasses.length + 1 = q.waitingClasses.length := by
  cases k <;> simp only [Sequencer.slot] at h <;>
    simp only [Sequencer.waitingClasses, Sequencer.slot, Sequencer.put, h, Slot.awaiting, List.filter_cons, Option.isSome_some,
      Option.isSome_none, Bool.false_eq_true, if_true, if_false, List.filter_nil] <;>
    (repeat' split) <;> rfl

/-- A grant at an idle port with enough tries: each request dropped was a suspect, and either a request is granted or
nothing waits. -/
theorem Chip.grant_spec (n : Nat) {bad : List AccessClass} {c : Chip} (h0 : c.seq.current = none)
    (hn : c.seq.waitingClasses.length ≤ n) (h : c.Suspects bad) :
    (c.grant n).1.seq.settled = true ∧
      ∃ bad', (c.grant n).1.Suspects bad' ∧ bad'.length + (c.grant n).2.length = bad.length := by
  induction n generalizing c bad with
  | zero =>
    refine ⟨?_, bad, h, rfl⟩
    have hw : c.seq.waitingClasses = [] := List.length_eq_zero_iff.1 (Nat.le_zero.1 hn)
    have hf : c.seq.firstWaiting = none := by
      rw [Sequencer.firstWaiting_eq_none]
      intro k
      have hk := List.filter_eq_nil_iff.1 hw k (by cases k <;> simp)
      exact Option.not_isSome_iff_eq_none.1 hk
    simp [Sequencer.settled, Chip.grant, hf]
  | succ n ih =>
    unfold Chip.grant
    split
    · rename_i hw; exact ⟨by simp [Sequencer.settled, hw], bad, h, rfl⟩
    · rename_i k r hw
      have hs := Sequencer.of_firstWaiting hw
      split
      · rename_i hc
        have hm := h.mem hs hc
        have h1 : (c.putSlot k .empty).seq.current = none := by
          rw [Sequencer.current_eq_none] at h0 ⊢
          intro k'
          simp only [Chip.seq_putSlot, Sequencer.slot_put]
          split
          · rfl
          · exact h0 k'
        have h2 : (c.putSlot k .empty).seq.waitingClasses.length ≤ n := by
          have := Sequencer.waitingClasses_put c.seq k hs
          simp only [Chip.seq_putSlot]; omega
        obtain ⟨hset, bad', hb, hl⟩ := ih h1 h2 (h.drop k)
        refine ⟨hset, bad', hb, ?_⟩
        have := List.length_erase_of_mem hm
        have := List.length_pos_of_mem hm
        simp only [List.length_cons]; omega
      · refine ⟨?_, bad, ⟨?_, ?_⟩, rfl⟩
        · simp only [Sequencer.settled, Sequencer.current_put_inProgress, Bool.true_or]
        all_goals
          have hput : ∀ k', ({ c.seq.put k (.inProgress r) with readyTimer := true } : Sequencer).slot k' =
              if k' = k then .inProgress r else c.seq.slot k' := fun k' => by cases k <;> cases k' <;> rfl
          intro k' r' hk'
          rw [hput] at hk'
          split at hk'
          · cases hk'
          · first | exact h.scrub k' r' hk' | exact h.zero k' r' hk'

theorem Sequencer.waitingClasses_le (q : Sequencer) : q.waitingClasses.length ≤ 4 := List.length_filter_le _ _

theorem Chip.Suspects.settles {bad : List AccessClass} (n : Nat) {c : Chip} (h : c.Suspects bad) (hn : bad.length < n) :
    (c.settle n).seq.settled = true := by
  induction n generalizing c bad with
  | zero => omega
  | succ n ih =>
    unfold Chip.settle
    split
    · rename_i x hc; simp [Sequencer.settled, hc]
    · rename_i h0
      obtain ⟨hset, bad', hb, hl⟩ := Chip.grant_spec 4 h0 (Sequencer.waitingClasses_le _) h
      split
      · exact hset
      · rename_i hd
        have := List.length_pos_iff.2 hd
        exact ih (hb.foldl_dropped _) (by omega)

/-- The settling that ends a step leaves no request waiting at an idle port (R26). -/
theorem Chip.settle_settled (c : Chip) : (c.settle 8).seq.settled = true :=
  (Chip.Suspects.all c).settles 8 (by decide)

/-! ## A part with one request, and a completed access -/

/-- With every slot empty, a request that is issued is granted at once, if its condition holds (R26, R28). -/
theorem Chip.settle_issue (n : Nat) {c : Chip} (hq : c.seq = Sequencer.reset) (p : Purpose) (phys : PhysRow)
    (data : Option (List Word)) (hc : c.conditionFails p = false) :
    (c.issue p phys data).settle (n + 1) = { c with seq := Sequencer.carrying (request p phys data) } := by
  have hs : (c.issue p phys data).seq = Sequencer.reset.put p.cls (.waiting (request p phys data)) := by
    rw [Chip.seq_issue, hq]; rfl
  have h0 : (c.issue p phys data).seq.current = none := by rw [hs]; cases p <;> rfl
  have hw : (c.issue p phys data).seq.firstWaiting = some (p.cls, request p phys data) := by rw [hs]; cases p <;> rfl
  have hcf : (c.issue p phys data).conditionFails (request p phys data).purpose = false := hc
  rw [Chip.settle_of_some n h0 hw hcf, hs]
  have : (Sequencer.reset.put p.cls (.waiting (request p phys data))).put p.cls (.inProgress (request p phys data))
      = Sequencer.reset.put p.cls (.inProgress (request p phys data)) := by cases p <;> rfl
  rw [this]; rfl

theorem Sequencer.current_carrying (r : Request) : (Sequencer.carrying r).current = some (r.purpose.cls, r) := by
  obtain ⟨p, x, d, a⟩ := r; cases p <;> rfl

/-- A completion with DONE of the only access at the port: the handler acts with every slot empty, and the port settles. -/
theorem State.complete_carrying {s : State} {r : Request} (hq : s.seq = Sequencer.carrying r) (ha : r.abandoned = false)
    {covers : Purpose → Bool} (hc : covers r.purpose = true) (hp : r.phys.inArray s.devices = true) (flips : RowPatch)
    (act : Request → Delivered → Chip → Chip) :
    s.complete covers flips act =
      .next { s with
        toChip := (act r (s.array.deliver r.phys flips) { s.toChip with seq := Sequencer.reset }).settle 8
        array := s.array.afterDone r } := by
  have hput : ({ (Sequencer.carrying r).put r.purpose.cls .empty with readyTimer := false } : Sequencer) = Sequencer.reset := by
    obtain ⟨p, x, d, a⟩ := r; cases p <;> rfl
  unfold State.complete
  rw [hq, Sequencer.current_carrying]
  simp only [hc, hp, if_true]
  unfold Chip.finishAccess
  simp only [hq, hput, ha, Bool.false_eq_true, if_false]
  rw [Chip.grant_of_none 4 (c := { s.toChip with seq := Sequencer.reset }) rfl]
  rfl

end Sys2Proof.Machine
end

