-- ==== Sys2Proof/Laws/Report.lean ====
section
/-! SUPPORT. What a report, a regrade, a spare's change and a relocation leave alone (R14, R81, R101, R174). -/

namespace Sys2Proof.Machine

/-- The blocks that belong to the requester of an access: the port, the command engine, the translator, the repair engine and
the patrol engine, with supply, pin, device count and policy. -/
def Chip.requesters (c : Chip) :
    (Sequencer × CommandEngine × Translator × RepairEngine × PatrolEngine) × (Bool × Bool × Nat × Policy) :=
  ((c.seq, c.cmd, c.tr, c.rep, c.pat), (c.powered, c.rstAsserted, c.devices, c.health.policy))

@[simp] theorem Chip.requesters_raise (c : Chip) (b : NoticeBody) : (c.raise b).requesters = c.requesters := by
  unfold Chip.raise; split <;> rfl

@[simp] theorem Chip.requesters_setDirty (c : Chip) : c.setDirty.requesters = c.requesters := by
  unfold Chip.setDirty; split <;> rfl

@[simp] theorem Chip.requesters_regradeDevice (c : Chip) : c.regradeDevice.requesters = c.requesters := by
  unfold Chip.regradeDevice
  split
  · rfl
  · rw [Chip.requesters_raise]; rfl

@[simp] theorem Chip.requesters_modifyZone (c : Chip) (g : Nat) (f : Zone → Zone) :
    (c.modifyZone g f).requesters = c.requesters := rfl

@[simp] theorem Chip.requesters_setSpare (c : Chip) (t : SpareId) (st : SpareState) :
    (c.setSpare t st).requesters = c.requesters := rfl

@[simp] theorem Chip.requesters_takeSpare (c : Chip) (t : SpareId) : (c.takeSpare t).requesters = c.requesters := by
  simp [Chip.takeSpare]

@[simp] theorem Chip.requesters_releaseSpare (c : Chip) (t : SpareId) : (c.releaseSpare t).requesters = c.requesters := by
  simp [Chip.releaseSpare]

@[simp] theorem Chip.requesters_spoilSpare (c : Chip) (t : SpareId) : (c.spoilSpare t).requesters = c.requesters := by
  simp [Chip.spoilSpare]

@[simp] theorem Chip.requesters_updatePending (c : Chip) (l : Nat) (f : PendingEntry → PendingEntry) :
    (c.updatePending l f).requesters = c.requesters := rfl

@[simp] theorem Chip.requesters_removeWatch (c : Chip) (l : Nat) : (c.removeWatch l).requesters = c.requesters := rfl

@[simp] theorem Chip.requesters_putWatch (c : Chip) (i : Nat) (o : Option WatchEntry) :
    (c.putWatch i o).requesters = c.requesters := rfl

@[simp] theorem Chip.requesters_countUnc (c : Chip) (l : Nat) : (c.countUnc l).requesters = c.requesters := rfl

@[simp] theorem Chip.requesters_removePending (c : Chip) (l : Nat) : (c.removePending l).requesters = c.requesters := by
  unfold Chip.removePending
  split
  · rfl
  · rw [Chip.requesters_setDirty]; rfl

@[simp] theorem Chip.requesters_addPending (c : Chip) (l : Nat) (k : Cause) (o : Origin) :
    (c.addPending l k o).requesters = c.requesters := by
  unfold Chip.addPending; rw [Chip.requesters_setDirty]; rfl

@[simp] theorem Chip.requesters_offerUnc (c : Chip) (l : Nat) (o : Origin) : (c.offerUnc l o).requesters = c.requesters := by
  unfold Chip.offerUnc; split <;> [split; skip] <;> simp

@[simp] theorem Chip.requesters_reportUnc (c : Chip) (l : Nat) (o : Origin) : (c.reportUnc l o).requesters = c.requesters := by
  unfold Chip.reportUnc; split <;> [split; skip] <;> simp

@[simp] theorem Chip.requesters_readableAgain (c : Chip) (l : Nat) : (c.readableAgain l).requesters = c.requesters := by
  simp [Chip.readableAgain]

@[simp] theorem Chip.requesters_watchInsert (c : Chip) (l : Nat) : (c.watchInsert l).requesters = c.requesters := by
  unfold Chip.watchInsert; split <;> simp

@[simp] theorem Chip.requesters_watchCount (c : Chip) (l i : Nat) (e : WatchEntry) (o : Origin) :
    (c.watchCount l i e o).requesters = c.requesters := by
  unfold Chip.watchCount; split <;> simp

@[simp] theorem Chip.requesters_reportCorrected (c : Chip) (l : Nat) (o : Origin) :
    (c.reportCorrected l o).requesters = c.requesters := by
  unfold Chip.reportCorrected; split <;> split <;> simp

@[simp] theorem Chip.requesters_reportClean (c : Chip) (l : Nat) : (c.reportClean l).requesters = c.requesters := by
  unfold Chip.reportClean; split <;> simp

@[simp] theorem Chip.requesters_reportCleanReadBack (c : Chip) (l : Nat) :
    (c.reportCleanReadBack l).requesters = c.requesters := by
  unfold Chip.reportCleanReadBack; split <;> simp

/-- A report changes the tracker, the zones, the health unit, dirty and its timer, and the GRADE flag alone (R81). -/
@[simp] theorem Chip.requesters_report (c : Chip) (r : Report) : (c.report r).requesters = c.requesters := by
  unfold Chip.report
  split
  · split <;> [skip; skip; split] <;> simp
  · rfl

/-! ## The parts of the frame -/

theorem Chip.seq_of_requesters {c d : Chip} (h : c.requesters = d.requesters) : c.seq = d.seq := congrArg (fun x => x.1.1) h
theorem Chip.cmd_of_requesters {c d : Chip} (h : c.requesters = d.requesters) : c.cmd = d.cmd := congrArg (fun x => x.1.2.1) h
theorem Chip.tr_of_requesters {c d : Chip} (h : c.requesters = d.requesters) : c.tr = d.tr := congrArg (fun x => x.1.2.2.1) h
theorem Chip.rep_of_requesters {c d : Chip} (h : c.requesters = d.requesters) : c.rep = d.rep :=
  congrArg (fun x => x.1.2.2.2.1) h
theorem Chip.pat_of_requesters {c d : Chip} (h : c.requesters = d.requesters) : c.pat = d.pat :=
  congrArg (fun x => x.1.2.2.2.2) h

theorem Chip.devices_of_requesters {c d : Chip} (h : c.requesters = d.requesters) : c.devices = d.devices :=
  congrArg (fun x => x.2.2.2.1) h
theorem Chip.policy_of_requesters {c d : Chip} (h : c.requesters = d.requesters) : c.health.policy = d.health.policy :=
  congrArg (fun x => x.2.2.2.2) h

@[simp] theorem Chip.devices_report (c : Chip) (r : Report) : (c.report r).devices = c.devices :=
  Chip.devices_of_requesters (Chip.requesters_report c r)
@[simp] theorem Chip.policy_report (c : Chip) (r : Report) : (c.report r).health.policy = c.health.policy :=
  Chip.policy_of_requesters (Chip.requesters_report c r)
@[simp] theorem Chip.seq_report (c : Chip) (r : Report) : (c.report r).seq = c.seq :=
  Chip.seq_of_requesters (Chip.requesters_report c r)
@[simp] theorem Chip.cmd_report (c : Chip) (r : Report) : (c.report r).cmd = c.cmd :=
  Chip.cmd_of_requesters (Chip.requesters_report c r)
@[simp] theorem Chip.tr_report (c : Chip) (r : Report) : (c.report r).tr = c.tr :=
  Chip.tr_of_requesters (Chip.requesters_report c r)
@[simp] theorem Chip.rep_report (c : Chip) (r : Report) : (c.report r).rep = c.rep :=
  Chip.rep_of_requesters (Chip.requesters_report c r)
@[simp] theorem Chip.pat_report (c : Chip) (r : Report) : (c.report r).pat = c.pat :=
  Chip.pat_of_requesters (Chip.requesters_report c r)

@[simp] theorem Chip.seq_takeSpare (c : Chip) (t : SpareId) : (c.takeSpare t).seq = c.seq :=
  Chip.seq_of_requesters (Chip.requesters_takeSpare c t)
@[simp] theorem Chip.cmd_takeSpare (c : Chip) (t : SpareId) : (c.takeSpare t).cmd = c.cmd :=
  Chip.cmd_of_requesters (Chip.requesters_takeSpare c t)
@[simp] theorem Chip.tr_takeSpare (c : Chip) (t : SpareId) : (c.takeSpare t).tr = c.tr :=
  Chip.tr_of_requesters (Chip.requesters_takeSpare c t)
@[simp] theorem Chip.rep_takeSpare (c : Chip) (t : SpareId) : (c.takeSpare t).rep = c.rep :=
  Chip.rep_of_requesters (Chip.requesters_takeSpare c t)
@[simp] theorem Chip.pat_takeSpare (c : Chip) (t : SpareId) : (c.takeSpare t).pat = c.pat :=
  Chip.pat_of_requesters (Chip.requesters_takeSpare c t)

/-! ## Lookups -/

/-- A lookup depends on the translator alone. -/
theorem Chip.lookup_congr {c d : Chip} (h : d.tr = c.tr) (l : Nat) : d.lookup l = c.lookup l := by
  simp only [Chip.lookup, Chip.entryOf, h]

@[simp] theorem Chip.lookup_report (c : Chip) (r : Report) (l : Nat) : (c.report r).lookup l = c.lookup l :=
  Chip.lookup_congr (Chip.tr_report c r) l

end Sys2Proof.Machine
end

