-- ==== Sys2Proof/Laws/Window.lean ====
section
/-! SUPPORT. What a bus cycle and a COMMAND write can do (R38, R43, R44). -/

namespace Sys2Proof.Machine

/-! ## Bus cycles -/

/-- A bus cycle reaches a running part. -/
theorem State.onBus_of_running {s : State} (h : s.running = true) (f : Chip → Chip) : s.onBus f = s.onChip f := by
  simp [State.onBus, h]

/-- A step that leaves the port settled is the chip's act alone. -/
theorem State.onChip_of_settled {s : State} {f : Chip → Chip} (h : (f s.toChip).seq.settled = true) :
    s.onChip f = { s with toChip := f s.toChip } := by
  unfold State.onChip; rw [Chip.settle_of_settled 8 h]

/-- A bus cycle that leaves the port settled. -/
theorem State.onBus_of_settled {s : State} {f : Chip → Chip} (h : s.running = true)
    (hs : (f s.toChip).seq.settled = true) : s.onBus f = { s with toChip := f s.toChip } := by
  rw [State.onBus_of_running h, State.onChip_of_settled hs]

/-- A step whose act issues one request from an idle port: it is granted (R26). -/
theorem State.onChip_of_issue {s : State} {f : Chip → Chip} {c : Chip} {p : Purpose} {x : PhysRow}
    {d : Option (List Word)} (hf : f s.toChip = c.issue p x d) (hq : c.seq = Sequencer.reset)
    (hc : c.conditionFails p = false) :
    s.onChip f = { s with toChip := { c with seq := Sequencer.carrying (request p x d) } } := by
  unfold State.onChip; rw [hf, Chip.settle_issue 7 hq p x d hc]

theorem Sequencer.settled_reset : Sequencer.reset.settled = true := rfl

theorem Sequencer.settled_carrying (r : Request) : (Sequencer.carrying r).settled = true := by
  simp [Sequencer.settled, Sequencer.current_carrying]

/-! ## Taking a command -/

/-- What acceptance needs, part by part. -/
theorem State.accepts_iff (s : State) :
    s.accepts = true ↔ s.running = true ∧ s.cmd.st = .idle ∧ (s.dir.opState = .ready ∨ s.dir.opState = .degraded) := by
  simp [State.accepts, Chip.inService, and_assoc]

theorem State.running_of_accepts {s : State} (h : s.accepts = true) : s.running = true := ((State.accepts_iff s).1 h).1

theorem State.busy_of_accepts {s : State} (h : s.accepts = true) : s.toChip.busy = false := by
  obtain ⟨_, h2, h3⟩ := (State.accepts_iff s).1 h
  rcases h3 with h3 | h3 <;> simp [Chip.busy, h2, h3]

theorem State.serves_of_accepts {s : State} (h : s.accepts = true) : s.dir.opState.serves = true := by
  obtain ⟨_, _, h3⟩ := (State.accepts_iff s).1 h
  rcases h3 with h3 | h3 <;> rw [h3] <;> rfl

/-- A busy part refuses the write (R43). -/
theorem Chip.takeCommand_of_busy {c : Chip} (h : c.busy = true) (inState : OperatingState → Bool)
    (params : Params → Bool) (range : Chip → Params → Bool) (run : Chip → Params → Chip) :
    c.takeCommand inState params range run = c.refuseCommand := by simp [Chip.takeCommand, h]

/-- Step 2 of the checks (R44). -/
theorem Chip.takeCommand_of_state {c : Chip} (h : c.busy = false) {inState : OperatingState → Bool}
    (h2 : inState c.dir.opState = false) (params : Params → Bool) (range : Chip → Params → Bool)
    (run : Chip → Params → Chip) :
    c.takeCommand inState params range run = c.acceptCommand.endByCheck .state := by simp [Chip.takeCommand, h, h2]

/-- Step 3 of the checks (R44). -/
theorem Chip.takeCommand_of_param {c : Chip} (h : c.busy = false) {inState : OperatingState → Bool}
    (h2 : inState c.dir.opState = true) {params : Params → Bool} (h3 : params c.cmd.params = false)
    (range : Chip → Params → Bool) (run : Chip → Params → Chip) :
    c.takeCommand inState params range run = c.acceptCommand.endByCheck .param := by simp [Chip.takeCommand, h, h2, h3]

/-- Step 4 of the checks (R44). -/
theorem Chip.takeCommand_of_range {c : Chip} (h : c.busy = false) {inState : OperatingState → Bool}
    (h2 : inState c.dir.opState = true) {params : Params → Bool} (h3 : params c.cmd.params = true)
    {range : Chip → Params → Bool} (h4 : range c c.cmd.params = false) (run : Chip → Params → Chip) :
    c.takeCommand inState params range run = c.acceptCommand.endByCheck .range := by
  simp [Chip.takeCommand, h, h2, h3, h4]

/-- A command that passes its checks runs on its copy of the parameters (R41, R43, R44). -/
theorem Chip.takeCommand_of_pass {c : Chip} (h : c.busy = false) {inState : OperatingState → Bool}
    (h2 : inState c.dir.opState = true) {params : Params → Bool} (h3 : params c.cmd.params = true)
    {range : Chip → Params → Bool} (h4 : range c c.cmd.params = true) (run : Chip → Params → Chip) :
    c.takeCommand inState params range run = run c.acceptCommand c.cmd.params := by
  simp [Chip.takeCommand, h, h2, h3, h4]

/-- A command that is accepted and ends in the same action. -/
theorem State.ended_eq (s : State) (code : ResultCode) (res : Results) :
    { s with toChip := s.toChip.acceptCommand.endCommand code res } = s.ended code res := rfl

end Sys2Proof.Machine
end

