-- ==== Sys2Proof/Laws/Commands.lean ====
section
/-! SUPPORT. How a command that passes its checks ends or begins its work (R43, R44), and what the work in progress does next. -/

namespace Sys2Proof.Machine

/-! ## A bus cycle's outcome -/

/-- A bus cycle whose act leaves the port settled. -/
theorem State.next_onBus {s : State} {f : Chip → Chip} {c : Chip} (h : s.running = true) (hf : f s.toChip = c)
    (hs : c.seq.settled = true) : s.onBus f = { s with toChip := c } := by
  rw [State.onBus_of_settled h (by rw [hf]; exact hs), hf]

/-- A bus cycle whose act issues one request from an idle port: it is granted (R26). -/
theorem State.next_onBus_issue {s : State} {f : Chip → Chip} {c : Chip} {p : Purpose} {x : PhysRow}
    {d : Option (List Word)} (h : s.running = true) (hf : f s.toChip = c.issue p x d) (hq : c.seq = Sequencer.reset)
    (hc : c.conditionFails p = false) :
    s.onBus f = { s with toChip := { c with seq := Sequencer.carrying (request p x d) } } :=
  (State.onBus_of_running h f).trans (State.onChip_of_issue hf hq hc)

/-- A step of the part alone whose act issues one request from an idle port: it is granted (R26). -/
theorem State.next_onChip_issue {s : State} {f : Chip → Chip} {c : Chip} {p : Purpose} {x : PhysRow}
    {d : Option (List Word)} (h : f s.toChip = c.issue p x d) (hq : c.seq = Sequencer.reset)
    (hc : c.conditionFails p = false) :
    (.next (s.onChip f) : Host.Outcome State Fault Refusal) =
      .next { s with toChip := { c with seq := Sequencer.carrying (request p x d) } } :=
  congrArg _ (State.onChip_of_issue h hq hc)

/-- A step of the part alone whose act leaves the port settled. -/
theorem State.next_onChip {s : State} {f : Chip → Chip} {c : Chip} (h : f s.toChip = c) (hs : c.seq.settled = true) :
    (.next (s.onChip f) : Host.Outcome State Fault Refusal) = .next { s with toChip := c } := by
  rw [State.onChip_of_settled (by rw [h]; exact hs), h]

/-- A command accepted and ended in one action. -/
theorem State.onBus_ended {s : State} {f : Chip → Chip} {code : ResultCode} {res : Results} (h : s.running = true)
    (hs : s.seq.settled = true) (hf : f s.toChip = s.toChip.acceptCommand.endCommand code res) :
    s.onBus f = s.ended code res := (State.next_onBus h hf hs).trans (State.ended_eq s code res)

variable {params : Params → Bool} {range : Chip → Params → Bool} {run : Chip → Params → Chip}

/-- A command that passes its checks and ends at once. -/
theorem State.onBus_pass_ended {s : State} (h : s.accepts = true) (hs : s.seq.settled = true) {code : ResultCode}
    {res : Results} (hp : params s.cmd.params = true) (hr : range s.toChip s.cmd.params = true)
    (hf : run s.toChip.acceptCommand s.cmd.params = s.toChip.acceptCommand.endCommand code res) :
    (s.onBus fun c => c.takeCommand OperatingState.serves params range run) = s.ended code res :=
  State.onBus_ended (State.running_of_accepts h) hs
    ((Chip.takeCommand_of_pass (State.busy_of_accepts h) (State.serves_of_accepts h) hp hr _).trans hf)

/-- A command that passes its checks and leaves the port settled. -/
theorem State.onBus_pass {s : State} (h : s.accepts = true) {c : Chip} (hp : params s.cmd.params = true)
    (hr : range s.toChip s.cmd.params = true) (hf : run s.toChip.acceptCommand s.cmd.params = c)
    (hs : c.seq.settled = true) :
    (s.onBus fun c => c.takeCommand OperatingState.serves params range run) = { s with toChip := c } :=
  State.next_onBus (State.running_of_accepts h)
    ((Chip.takeCommand_of_pass (State.busy_of_accepts h) (State.serves_of_accepts h) hp hr _).trans hf) hs

/-- A command that passes its checks and issues one request from an idle port. -/
theorem State.onBus_pass_issue {s : State} (h : s.accepts = true) {c : Chip} {p : Purpose} {x : PhysRow}
    {d : Option (List Word)} (hp : params s.cmd.params = true) (hr : range s.toChip s.cmd.params = true)
    (hf : run s.toChip.acceptCommand s.cmd.params = c.issue p x d) (hq : c.seq = Sequencer.reset)
    (hc : c.conditionFails p = false) :
    (s.onBus fun c => c.takeCommand OperatingState.serves params range run) =
      { s with toChip := { c with seq := Sequencer.carrying (request p x d) } } :=
  State.next_onBus_issue (State.running_of_accepts h)
    ((Chip.takeCommand_of_pass (State.busy_of_accepts h) (State.serves_of_accepts h) hp hr _).trans hf) hq hc

/-! ## Rows of a transfer (R59, R62) -/

@[simp] theorem Transfer.row_count (t : Transfer) (k : Option ResultCode) (n : Nat) : (t.count k n).row = t.row := by
  unfold Transfer.count; split <;> rfl
@[simp] theorem Transfer.last_count (t : Transfer) (k : Option ResultCode) (n : Nat) : (t.count k n).last = t.last := by
  unfold Transfer.count; split <;> rfl
@[simp] theorem Transfer.kind_count (t : Transfer) (k : Option ResultCode) (n : Nat) : (t.count k n).kind = t.kind := by
  unfold Transfer.count; split <;> rfl
@[simp] theorem Transfer.done_count (t : Transfer) (k : Option ResultCode) (n : Nat) : (t.count k n).done = t.done + 1 := by
  unfold Transfer.count; split <;> rfl

/-- The row of READ ROWS is read at once when its slot is empty. -/
theorem Chip.beginRow_read {n : Nat} {c : Chip} {t : Transfer} {p : PhysRow} (hk : t.kind = .read)
    (hp : (c.lookup t.row).phys = some p) (hq : c.seq.foreground = .empty) :
    c.beginRow (n + 1) t = (c.putTransfer { t with phase := .reading }).issue .readRowsRead p none := by
  simp [Chip.beginRow, hk, hp, Chip.readRow, hq]

/-- The row of CHECK ROWS is read at once when its slot is empty. -/
theorem Chip.beginRow_check {n : Nat} {c : Chip} {t : Transfer} {p : PhysRow} (hk : t.kind = .check)
    (hp : (c.lookup t.row).phys = some p) (hq : c.seq.foreground = .empty) :
    c.beginRow (n + 1) t = (c.putTransfer { t with phase := .reading }).issue .checkRowsRead p none := by
  simp [Chip.beginRow, hk, hp, Chip.readRow, hq]

/-- A foreground write whose slot is empty is issued at once (R53). -/
theorem Chip.issueForeground_empty {c : Chip} (h : c.seq.foreground = .empty) (p : Purpose) (x : PhysRow)
    (d : Option (List Word)) : c.issueForeground p x d = c.issue p x d := by
  unfold Chip.issueForeground; rw [h]

/-- WRITE ROWS asks for the row. -/
theorem Chip.beginRow_write {n : Nat} {c : Chip} {t : Transfer} (hk : t.kind = .write) :
    c.beginRow (n + 1) t = (c.putTransfer { t with phase := .dataIn }).askRow := by
  simp [Chip.beginRow, hk]

/-- The last row, with no STOP pending, ends the command. -/
theorem Chip.rowDone_last {c : Chip} {t : Transfer} {k : Option ResultCode} {n : Nat} (h : c.cmd.stopRequest = false)
    (hl : t.last ≤ t.row) :
    c.rowDone t k n =
      { c with cmd := c.cmd.finished (t.count k n).code (t.count k n).results, bus := c.bus.commandDone } := by
  have : ¬ ((t.count k n).row < (t.count k n).last) := by rw [Transfer.row_count, Transfer.last_count]; omega
  unfold Chip.rowDone; simp only [h, Bool.false_eq_true, if_false, this]; rfl

/-- Acting on the transfer in progress. -/
theorem Chip.onTransfer_eq {c : Chip} {t : Transfer} (h : c.cmd.work = .transfer t) (f : Chip → Transfer → Chip) :
    c.onTransfer f = f c t := by simp [Chip.onTransfer, h]

/-- Acting on the transfer in progress and its spare. -/
theorem Chip.onWriteRepair_eq {c : Chip} {t : Transfer} {sp : SpareId} (h : c.cmd.work = .transfer t)
    (hs : t.spare = some sp) (f : Chip → Transfer → SpareId → Chip) : c.onWriteRepair f = f c t sp := by
  simp [Chip.onWriteRepair, Chip.onTransfer, h, hs]

/-! ## The patrol -/

/-- A ready patrol visits a cursor row that has a physical row and is not under the repair claim (R127). -/
theorem Chip.patrolOn_visit {c : Chip} {x : PhysRow} (h1 : c.pat.st = .pacing) (h2 : c.pat.intervalOut = true)
    (h3 : c.seq.patrol = .empty) (h4 : (c.lookup c.pat.cursor).phys = some x)
    (h5 : claimHolds c.tr.repairClaim c.pat.cursor = false) : c.patrolOn = c.beginVisit x := by
  unfold Chip.patrolOn Chip.handleCursor
  rw [if_pos (by simp [Chip.patrolReady, h1, h2, h3])]
  rw [h4]; simp [h5]

/-- A patrol that is not ready waits. -/
theorem Chip.patrolOn_of_not {c : Chip} (h : c.patrolReady = false) : c.patrolOn = c := by
  unfold Chip.patrolOn Chip.handleCursor
  rw [if_neg (by rw [h]; simp)]

/-! ## The repair engine -/

/-- Acting on the job in flight. -/
theorem Chip.onJob_eq {c : Chip} {j : Job} (h : c.rep.job = some j) (f : Chip → Job → Chip) : c.onJob f = f c j := by
  simp [Chip.onJob, h]

/-- Acting on the job in flight and its spare. -/
theorem Chip.onJobSpare_eq {c : Chip} {j : Job} {t : SpareId} (h : c.rep.job = some j) (hs : j.spare = some t)
    (f : Chip → Job → SpareId → Chip) : c.onJobSpare f = f c j t := by
  simp [Chip.onJobSpare, Chip.onJob, h, hs]

/-- One move of the engine. -/
theorem Chip.repairRun_some (n : Nat) (c : Chip) (m : RepairMove) (j : Job) :
    Chip.repairRun (n + 1) (c, some (m, j)) = Chip.repairRun n (c.repairMove m j) := rfl

/-- No move left. -/
theorem Chip.repairRun_none (n : Nat) (c : Chip) : Chip.repairRun n (c, none) = c := by cases n <;> rfl

/-- The engine's job does not enter into a regrade. -/
theorem Chip.regradeDevice_putJob (c : Chip) (st : RepairState) (j : Job) :
    (c.putJob st j).regradeDevice = c.regradeDevice.putJob st j := by
  unfold Chip.regradeDevice
  by_cases g : c.computedGrade = c.health.grade
  · rw [if_pos g]; exact if_pos g
  · rw [if_neg g]; refine (if_neg g).trans ?_
    unfold Chip.raise
    have hc : (c.putJob st j).computedGrade = c.computedGrade := rfl
    rw [hc]
    by_cases k : c.health.queue.length < Config.noticeLimit <;> simp [Chip.putJob, k]

/-- An AUTO job that holds no spare ends: the claim is emptied and the engine is IDLE. -/
theorem Chip.endJob_auto {c : Chip} {j : Job} {code : ResultCode} (h : j.command = false) (hs : j.spare = none) :
    c.endJob j code =
      { c with tr := { c.tr with repairClaim := none }, rep := { c.rep with st := .idle, job := none } } := by
  unfold Chip.endJob Chip.freeJobSpare
  simp [h, hs, Chip.idleRepair]

/-- A job that holds no spare ends with no STOP pending: the claim is emptied, the engine is IDLE, and a COMMAND job's command
ends with the result (R118). -/
theorem Chip.endJob_spareless {c : Chip} {j : Job} (code : ResultCode) (hs : j.spare = none) (h : c.cmd.stopRequest = false) :
    c.endJob j code =
      { c with
        tr := { c.tr with repairClaim := none }, rep := { c.rep with st := .idle, job := none }
        bus := if j.command then c.bus.commandDone else c.bus
        cmd := if j.command then
            c.cmd.finished code ⟨word (c.lookup j.row).code, (c.lookup j.row).targetWord, word j.madeBad, 0⟩
          else c.cmd } := by
  unfold Chip.endJob Chip.freeJobSpare
  rw [hs]
  cases hc : j.command
  · rfl
  · simp only [if_true, h, Bool.false_eq_true, if_false]; rfl

/-! ## Completions and timeouts of the only access at the port -/

/-- A completion whose handling leaves the port settled. -/
theorem State.complete_settled {s : State} {r : Request} (hq : s.seq = Sequencer.carrying r) (ha : r.abandoned = false)
    {covers : Purpose → Bool} (hc : covers r.purpose = true) (hp : r.phys.inArray s.devices = true) {flips : RowPatch}
    {act : Request → Delivered → Chip → Chip} {c : Chip}
    (h : act r (s.array.deliver r.phys flips) s.toChip.portFreed = c) (hs : c.seq.settled = true) :
    s.complete covers flips act = .next { s with toChip := c, array := s.array.afterDone r } := by
  rw [State.complete_carrying hq ha hc hp]
  have : (act r (s.array.deliver r.phys flips) { s.toChip with seq := Sequencer.reset }) = c := h
  rw [this, Chip.settle_of_settled 8 hs]

/-- A completion whose handling issues one request. -/
theorem State.complete_issue {s : State} {r : Request} (hq : s.seq = Sequencer.carrying r) (ha : r.abandoned = false)
    {covers : Purpose → Bool} (hc : covers r.purpose = true) (hp : r.phys.inArray s.devices = true) {flips : RowPatch}
    {act : Request → Delivered → Chip → Chip} {c : Chip} {p : Purpose} {x : PhysRow} {d : Option (List Word)}
    (h : act r (s.array.deliver r.phys flips) s.toChip.portFreed = c.issue p x d) (hr : c.seq = Sequencer.reset)
    (hcf : c.conditionFails p = false) :
    s.complete covers flips act =
      .next { s with toChip := { c with seq := Sequencer.carrying (request p x d) }, array := s.array.afterDone r } := by
  rw [State.complete_carrying hq ha hc hp]
  have : (act r (s.array.deliver r.phys flips) { s.toChip with seq := Sequencer.reset }) = c.issue p x d := h
  rw [this, Chip.settle_issue 7 hr p x d hcf]

/-- A TIMEOUT of the only access at the port (R32, R33). -/
theorem State.readyExpires_carrying {s : State} {r : Request} (hq : s.seq = Sequencer.carrying r)
    (ha : r.abandoned = false) (second : Bool) (left : RowPatch) :
    s.readyExpires second left =
      { s with
        toChip := (s.toChip.portFreed.timedOut r.purpose).settle 8
        array := if second then s.array.afterCut s.devices r left else s.array } := by
  have hput : ({ (Sequencer.carrying r).put r.purpose.cls .empty with readyTimer := false } : Sequencer) = Sequencer.reset := by
    obtain ⟨p, x, d, a⟩ := r; cases p <;> rfl
  unfold State.readyExpires
  rw [hq, Sequencer.current_carrying]
  have : (Sequencer.carrying r).readyTimer = true := rfl
  simp only [this, if_true]
  unfold Chip.finishAccess
  simp only [hq, hput, ha, Bool.false_eq_true, if_false]
  rw [Chip.grant_of_none 4 (c := { s.toChip with seq := Sequencer.reset }) rfl]
  rfl

end Sys2Proof.Machine
end

