-- ==== Sys2Proof/Laws/Grades.lean ====
section
/-! SUPPORT. What a change of one zone leaves (R101, R103), and the actions after which the device shows the grade of its law (R173, R174). -/

namespace Sys2Proof.Machine

/-! ## Zones -/

/-- Another zone than the one changed. -/
theorem Chip.zone_modifyZone_ne (c : Chip) {g g' : Nat} (f : Zone → Zone) (h : g' ≠ g) : (c.modifyZone g f).zone g' = c.zone g' := by
  show (List.modify c.alloc.zones g f).getD g' Zone.absent = c.alloc.zones.getD g' Zone.absent
  rw [List.getD_eq_getElem?_getD, List.getD_eq_getElem?_getD, List.getElem?_modify]
  cases c.alloc.zones[g']? with
  | none => rfl
  | some z =>
    show (if g = g' then f z else z) = z
    rw [if_neg fun e => h e.symm]

/-- The zone changed. -/
theorem Chip.zone_modifyZone_self {c : Chip} {g : Nat} (f : Zone → Zone) (h : g < c.alloc.zones.length) :
    (c.modifyZone g f).zone g = f (c.zone g) := by
  show (List.modify c.alloc.zones g f).getD g Zone.absent = f (c.alloc.zones.getD g Zone.absent)
  rw [List.getD_eq_getElem?_getD, List.getD_eq_getElem?_getD, List.getElem?_modify, List.getElem?_eq_getElem h]
  show (if g = g then f c.alloc.zones[g] else c.alloc.zones[g]) = f c.alloc.zones[g]
  rw [if_pos rfl]

/-- A zone depends on the allocator alone. -/
theorem Chip.zone_congr {c d : Chip} (h : d.alloc = c.alloc) (g : Nat) : d.zone g = c.zone g := by
  show d.alloc.zones.getD g Zone.absent = c.alloc.zones.getD g Zone.absent
  rw [h]

/-- A change of one zone keeps the number of zones. -/
theorem Chip.zones_modifyZone (c : Chip) (g : Nat) (f : Zone → Zone) :
    (c.modifyZone g f).alloc.zones.length = c.alloc.zones.length := List.length_modify ..

/-- The zone of a spare whose state changes (R101, R103, R174). -/
theorem Chip.zone_setSpare {c : Chip} {t : SpareId} (st : SpareState) (h : t.globalZone < c.alloc.zones.length) :
    (c.setSpare t st).zone t.globalZone =
      if ({ c.zone t.globalZone with spares := (c.zone t.globalZone).spares.set t.index.val st } : Zone).free
          = (c.zone t.globalZone).free then
        { c.zone t.globalZone with spares := (c.zone t.globalZone).spares.set t.index.val st }
      else
        { c.zone t.globalZone with
          spares := (c.zone t.globalZone).spares.set t.index.val st
          grade := zoneGrade c.health.policy
            ({ c.zone t.globalZone with spares := (c.zone t.globalZone).spares.set t.index.val st } : Zone).free } :=
  Chip.zone_modifyZone_self _ h

theorem Chip.zone_setSpare_ne (c : Chip) {t : SpareId} (st : SpareState) {g : Nat} (h : g ≠ t.globalZone) :
    (c.setSpare t st).zone g = c.zone g := Chip.zone_modifyZone_ne c _ h

/-- The spares of the zone of a spare whose state changes. -/
theorem Chip.spares_setSpare {c : Chip} {t : SpareId} (st : SpareState) (h : t.globalZone < c.alloc.zones.length) :
    ((c.setSpare t st).zone t.globalZone).spares = (c.zone t.globalZone).spares.set t.index.val st := by
  rw [Chip.zone_setSpare st h]; split <;> rfl

/-! ## What leaves the zones alone -/

theorem Chip.alloc_raise (c : Chip) (b : NoticeBody) : (c.raise b).alloc = c.alloc := by unfold Chip.raise; split <;> rfl

theorem Chip.alloc_setDirty (c : Chip) : c.setDirty.alloc = c.alloc := by unfold Chip.setDirty; split <;> rfl

theorem Chip.alloc_regradeDevice (c : Chip) : c.regradeDevice.alloc = c.alloc := by
  unfold Chip.regradeDevice; split
  · rfl
  · exact Chip.alloc_raise _ _

theorem Chip.alloc_removePending (c : Chip) (l : Nat) : (c.removePending l).alloc = c.alloc := by
  unfold Chip.removePending; split
  · rfl
  · exact Chip.alloc_setDirty _

/-! ## The law of health, action by action (R173, R174) -/

/-- The device shows the grade of the law of health. -/
def Chip.graded (c : Chip) : Prop := c.health.grade = c.computedGrade

theorem Chip.graded_raise {c : Chip} (b : NoticeBody) (h : c.graded) : (c.raise b).graded := by
  unfold Chip.raise; split <;> exact h

/-- After a regrade the law holds, whatever came before. -/
theorem Chip.graded_regradeDevice (c : Chip) : c.regradeDevice.graded := by
  unfold Chip.regradeDevice; split
  · rename_i h; exact h.symm
  · exact Chip.graded_raise _ rfl

theorem Chip.graded_beginCommit {c : Chip} (k : Copy) (seq : BitVec 32) (f : Bool) (h : c.graded) :
    (c.beginCommit k seq f).graded := by cases k <;> exact h

theorem Chip.graded_trigger {c : Chip} (h : c.graded) : c.trigger.graded := by
  have h1 := Chip.graded_raise (c := { c with dir := { c.dir with commitTimer := none } }) (.directoryFail c.commitTarget .sequence) h
  have h2 : (c.bindCommit c.commitTarget (c.highestSeq + 1)).graded := by unfold Chip.bindCommit; split <;> exact h
  unfold Chip.trigger Chip.startCommit
  dsimp only
  (repeat' split) <;> first | exact h | exact h1 | exact Chip.graded_beginCommit _ _ _ h2

theorem Chip.graded_mapUpdate (c : Chip) (l : Nat) (t : SpareId) (o : Origin) : (c.mapUpdate l t o).graded := by
  unfold Chip.mapUpdate
  dsimp only
  split
  · exact Chip.graded_trigger (Chip.graded_regradeDevice _)
  · exact Chip.graded_regradeDevice _

theorem Chip.graded_relocateTo (c : Chip) (l : Nat) (t : SpareId) (o : Origin) : (c.relocateTo l t o).graded :=
  Chip.graded_raise _ (Chip.graded_mapUpdate c l t o)

theorem Chip.graded_retireRow (c : Chip) (l : Nat) (o : Origin) : (c.retireRow l o).graded := by
  unfold Chip.retireRow
  dsimp only
  split
  · exact Chip.graded_trigger (Chip.graded_regradeDevice _)
  · exact Chip.graded_regradeDevice _

/-! ## What a regrade looks at and changes -/

/-- What a regrade and a spare's change look at. -/
def Chip.gradeView (c : Chip) :
    (SpareAllocator × Nat × HealthUnit × Bool) × (List RemapEntry × List PendingEntry × Word) :=
  ((c.alloc, c.devices, c.health, c.bus.gradeFlag), (c.tr.remap, c.trk.pendingList, c.pat.pass))

theorem Chip.computedGrade_of_gradeView {c d : Chip} (h : d.gradeView = c.gradeView) : d.computedGrade = c.computedGrade := by
  have h1 : d.alloc = c.alloc := congrArg (fun x => x.1.1) h
  have h2 : d.devices = c.devices := congrArg (fun x => x.1.2.1) h
  have h3 : d.tr.remap = c.tr.remap := congrArg (fun x => x.2.1) h
  have h4 : d.trk.pendingList = c.trk.pendingList := congrArg (fun x => x.2.2.1) h
  unfold Chip.computedGrade Chip.retiredCount Chip.stuckCount Chip.worstZone
  rw [h1, h2, h3, h4]

/-- A notice raised on parts that agree on the health unit and the pass number. -/
theorem Chip.raise_congr {c d : Chip} (h1 : d.health = c.health) (h2 : d.pat.pass = c.pat.pass) (b : NoticeBody) :
    d.raise b = { d with health := (c.raise b).health } := by
  unfold Chip.raise
  rw [h1, h2]
  by_cases h : c.health.queue.length < Config.noticeLimit
  · rw [if_pos h, if_pos h]
  · rw [if_neg h, if_neg h]

/-- A regrade changes the health unit and the GRADE flag, by what both parts show alike (R174). -/
theorem Chip.regradeDevice_congr {c d : Chip} (h : d.gradeView = c.gradeView) :
    d.regradeDevice = { d with
      health := c.regradeDevice.health, bus := { d.bus with gradeFlag := c.regradeDevice.bus.gradeFlag } } := by
  have h1 : d.health = c.health := congrArg (fun x => x.1.2.2.1) h
  have h2 : d.bus.gradeFlag = c.bus.gradeFlag := congrArg (fun x => x.1.2.2.2) h
  have h3 : d.pat.pass = c.pat.pass := congrArg (fun x => x.2.2.2) h
  unfold Chip.regradeDevice
  rw [Chip.computedGrade_of_gradeView h, h1]
  by_cases g : c.computedGrade = c.health.grade
  · rw [if_pos g, if_pos g, ← h1, ← h2]
  · rw [if_neg g, if_neg g]
    refine (Chip.raise_congr (c := { c with
      health := { c.health with grade := c.computedGrade }, bus := { c.bus with gradeFlag := true } })
      (d := { d with health := { c.health with grade := c.computedGrade }, bus := { d.bus with gradeFlag := true } }) rfl h3 _).trans ?_
    unfold Chip.raise; split <;> rfl

/-- Taking a spare changes its zone, the health unit and the GRADE flag, by what both parts show alike (R105). -/
theorem Chip.takeSpare_congr {c d : Chip} (h : d.gradeView = c.gradeView) (t : SpareId) :
    d.takeSpare t = { d with
      alloc := (c.takeSpare t).alloc, health := (c.takeSpare t).health
      bus := { d.bus with gradeFlag := (c.takeSpare t).bus.gradeFlag } } := by
  have h1 : d.alloc = c.alloc := congrArg (fun x => x.1.1) h
  have h2 : d.devices = c.devices := congrArg (fun x => x.1.2.1) h
  have h3 : d.health = c.health := congrArg (fun x => x.1.2.2.1) h
  have h4 : d.bus.gradeFlag = c.bus.gradeFlag := congrArg (fun x => x.1.2.2.2) h
  have ha : (d.setSpare t .testing).alloc = (c.setSpare t .testing).alloc := by
    unfold Chip.setSpare Chip.modifyZone; rw [h1, h3]
  refine (Chip.regradeDevice_congr (c := c.setSpare t .testing) (d := d.setSpare t .testing) ?_).trans ?_
  · show ((_, d.devices, d.health, d.bus.gradeFlag), d.gradeView.2) = ((_, c.devices, c.health, c.bus.gradeFlag), c.gradeView.2)
    rw [ha, h, h2, h3, h4]
  · show ({ d.setSpare t .testing with health := _, bus := _ } : Chip) = _
    unfold Chip.takeSpare
    rw [Chip.alloc_regradeDevice, ← ha]
    rfl

/-- The same, for parts whose bus interfaces agree. -/
theorem Chip.takeSpare_congr_bus {c d : Chip} (h : d.gradeView = c.gradeView) (hb : d.bus = c.bus) (t : SpareId) :
    d.takeSpare t =
      { d with alloc := (c.takeSpare t).alloc, health := (c.takeSpare t).health, bus := (c.takeSpare t).bus } := by
  rw [Chip.takeSpare_congr h, hb]
  have h1 := congrArg Chip.bus (Chip.takeSpare_congr (c := c) (d := c) rfl t)
  exact congrArg (fun b => ({ d with alloc := (c.takeSpare t).alloc, health := (c.takeSpare t).health, bus := b } : Chip)) h1.symm

/-- A failed allocation changes its zone's mark and the health unit, by what both parts show alike (R106). -/
theorem Chip.reportExhausted_congr {c d : Chip} (h : d.gradeView = c.gradeView) (home : Nat) :
    d.reportExhausted home =
      { d with alloc := (c.reportExhausted home).alloc, health := (c.reportExhausted home).health } := by
  have h1 : d.alloc = c.alloc := congrArg (fun x => x.1.1) h
  have h3 : d.health = c.health := congrArg (fun x => x.1.2.2.1) h
  have h4 : d.pat.pass = c.pat.pass := congrArg (fun x => x.2.2.2) h
  have hz : d.zone home = c.zone home := Chip.zone_congr h1 home
  unfold Chip.reportExhausted
  rw [hz]
  by_cases g : (c.zone home).exhausted = true
  · rw [if_pos g, if_pos g, ← h1, ← h3]
  · rw [if_neg g, if_neg g]
    have hm : (d.modifyZone home fun z => { z with exhausted := true }).alloc
        = (c.modifyZone home fun z => { z with exhausted := true }).alloc := by unfold Chip.modifyZone; rw [h1]
    refine (Chip.raise_congr (c := c.modifyZone home fun z => { z with exhausted := true })
      (d := d.modifyZone home fun z => { z with exhausted := true }) h3 h4 _).trans ?_
    rw [Chip.alloc_raise, ← hm]
    rfl

/-! ## Dirty, and what an added entry changes (R93, R97, R143) -/

/-- Setting dirty changes the directory unit, by what both parts show alike. -/
theorem Chip.setDirty_congr {c d : Chip} (h1 : d.dir = c.dir) (h2 : d.health.policy = c.health.policy) :
    d.setDirty = { d with dir := c.setDirty.dir } := by
  unfold Chip.setDirty
  rw [h1, h2]
  by_cases h : c.dir.dirty = true
  · rw [if_pos h, if_pos h, ← h1]
  · rw [if_neg h, if_neg h]

/-- An entry added at the tail (R93). -/
theorem Chip.addPending_eq (c : Chip) (l : Nat) (cause : Cause) (source : Origin) :
    c.addPending l cause source = { c with
      trk := {
        watch := c.trk.watch.map fun o => if slotHolds l o then none else o
        pendingList := c.trk.pendingList ++
          [{ row := l, cause, source, added := c.pat.pass, starved := false, stuck := false, restarts := 0 }] }
      dir := c.setDirty.dir } := by
  unfold Chip.addPending
  exact Chip.setDirty_congr rfl rfl

end Sys2Proof.Machine
end

