-- ==== Sys2Proof/Laws/Map.lean ====
section
/-! SUPPORT. What a map change leaves (R13 to R16), and what a report does not touch in the zones (R82). -/

namespace Sys2Proof.Machine

/-- An entry placed is found for its row, and every other row finds what it found (R9). -/
theorem find?_placeEntry (e : RemapEntry) (l : Nat) (t : List RemapEntry) :
    (placeEntry e t).find? (fun x => decide (x.row = l)) =
      if e.row = l then some e else t.find? (fun x => decide (x.row = l)) := by
  induction t with
  | nil => by_cases hl : e.row = l <;> simp [placeEntry, hl]
  | cons x rest ih =>
    unfold placeEntry
    by_cases h1 : e.row < x.row
    · rw [if_pos h1]; by_cases hl : e.row = l <;> simp [List.find?_cons, hl]
    · rw [if_neg h1]
      by_cases h2 : e.row = x.row
      · rw [if_pos h2]
        by_cases hl : e.row = l
        · simp [List.find?_cons, hl]
        · simp [List.find?_cons, hl, ← h2]
      · rw [if_neg h2, List.find?_cons, ih]
        by_cases hl : x.row = l
        · have : ¬ e.row = l := fun hh => h2 (hh.trans hl.symm)
          simp [hl, this]
        · simp [hl]

/-- A row served by its home row has no entry (R12). -/
theorem Chip.no_entry_of_home {c : Chip} {l : Nat} {p : PhysRow} (h : c.lookup l = .home p) :
    ∀ x ∈ c.tr.remap, x.row ≠ l := by
  have hnone : c.entryOf l = none := by
    unfold Chip.lookup at h
    cases he : c.entryOf l with
    | none => rfl
    | some e => rw [he] at h; simp only at h; cases hp : e.place <;> rw [hp] at h <;> cases h
  unfold Chip.entryOf at hnone
  rw [List.find?_eq_none] at hnone
  intro x hx; simpa using hnone x hx

/-- A relocation that does not reach the change limit leaves the port, the command engine and the repair engine alone. -/
theorem Chip.relocateTo_requesters {c : Chip} (l : Nat) (sp : SpareId) (o : Origin) (h : c.tr.changes < 15) :
    (c.relocateTo l sp o).seq = c.seq ∧ (c.relocateTo l sp o).cmd = c.cmd ∧ (c.relocateTo l sp o).rep = c.rep := by
  have hne : ¬ (c.tr.changes + 1 = Config.changeLimit) := by show ¬ (_ = 16); omega
  have hb : ∀ (d : Chip) (t : SpareId) (f : Nat → Nat),
      (d.countBorrow l t f).seq = d.seq ∧ (d.countBorrow l t f).cmd = d.cmd ∧ (d.countBorrow l t f).rep = d.rep := by
    intro d t f; unfold Chip.countBorrow; split <;> exact ⟨rfl, rfl, rfl⟩
  have hd : ∀ d : Chip, d.setDirty.seq = d.seq ∧ d.setDirty.cmd = d.cmd ∧ d.setDirty.rep = d.rep := by
    intro d; unfold Chip.setDirty; split <;> exact ⟨rfl, rfl, rfl⟩
  have hr : ∀ d : Chip, ((d.removePending l).markPatrolClaim l).regradeDevice.seq = d.seq
      ∧ ((d.removePending l).markPatrolClaim l).regradeDevice.cmd = d.cmd
      ∧ ((d.removePending l).markPatrolClaim l).regradeDevice.rep = d.rep := by
    intro d
    have a := Chip.requesters_regradeDevice ((d.removePending l).markPatrolClaim l)
    have b := Chip.requesters_removePending d l
    exact ⟨(Chip.seq_of_requesters a).trans (Chip.seq_of_requesters (c := d.removePending l) (d := d) b),
      (Chip.cmd_of_requesters a).trans (Chip.cmd_of_requesters (c := d.removePending l) (d := d) b),
      (Chip.rep_of_requesters a).trans (Chip.rep_of_requesters (c := d.removePending l) (d := d) b)⟩
  have hn : ∀ (d : Chip) (b : NoticeBody), (d.raise b).seq = d.seq ∧ (d.raise b).cmd = d.cmd ∧ (d.raise b).rep = d.rep := by
    intro d b; unfold Chip.raise; split <;> exact ⟨rfl, rfl, rfl⟩
  unfold Chip.relocateTo Chip.mapUpdate
  simp only [hne, if_false]
  rw [(hn _ _).1, (hn _ _).2.1, (hn _ _).2.2, (hr _).1, (hr _).2.1, (hr _).2.2, (hd _).1, (hd _).2.1, (hd _).2.2]
  show (Chip.countBorrow _ _ _ _).seq = _ ∧ (Chip.countBorrow _ _ _ _).cmd = _ ∧ (Chip.countBorrow _ _ _ _).rep = _
  rw [(hb _ _ _).1, (hb _ _ _).2.1, (hb _ _ _).2.2]
  show (Chip.putEntry _ l (.spared sp) o).seq = _ ∧ (Chip.putEntry _ l (.spared sp) o).cmd = _
    ∧ (Chip.putEntry _ l (.spared sp) o).rep = _
  split
  · exact hb _ _ _
  · exact ⟨rfl, rfl, rfl⟩
  · exact ⟨rfl, rfl, rfl⟩

/-- Only a report of UNCORRECTABLE changes the zones (R82). -/
theorem Chip.alloc_report {c : Chip} {r : Report} (h : r.outcome ≠ .uncorrectable) : (c.report r).alloc = c.alloc := by
  have hn : ∀ (d : Chip) (b : NoticeBody), (d.raise b).alloc = d.alloc := by
    intro d b; unfold Chip.raise; split <;> rfl
  have hd : ∀ d : Chip, d.setDirty.alloc = d.alloc := by intro d; unfold Chip.setDirty; split <;> rfl
  have hg : ∀ d : Chip, d.regradeDevice.alloc = d.alloc := by
    intro d; unfold Chip.regradeDevice; split
    · rfl
    · rw [hn]
  have hra : ∀ l, (c.readableAgain l).alloc = c.alloc := by intro l; unfold Chip.readableAgain; rw [hg, hd]; rfl
  have hin : ∀ l, (c.watchInsert l).alloc = c.alloc := by intro l; unfold Chip.watchInsert; split <;> rfl
  have had : ∀ l k o, (c.addPending l k o).alloc = c.alloc := by intro l k o; unfold Chip.addPending; rw [hd]; rfl
  unfold Chip.report
  split
  · split
    · rename_i hh; exact absurd hh h
    · unfold Chip.reportCorrected
      split
      · split <;> first | exact hra _ | rfl
      · split <;> first | exact hin _ | skip
        unfold Chip.watchCount; split <;> first | rfl | exact had _ _ _
    · split
      · unfold Chip.reportCleanReadBack
        split
        · rfl
        · rw [hg]; unfold Chip.removePending; split
          · rfl
          · rw [hd]
      · unfold Chip.reportClean; split <;> first | exact hra _ | rfl
  · rfl

/-! ## The image's sum (R140) -/

/-- The sum of a row from a start. -/
theorem foldl_add_row (r : List Word) (s : Word) : r.foldl (· + ·) s = s + r.foldl (· + ·) 0 := by
  induction r generalizing s with
  | nil => simp
  | cons x xs ih => simp only [List.foldl_cons]; rw [ih, ih (0 + x)]; ac_nf

/-- The sum of rows from a start. -/
theorem foldl_add_rows (rows : List (List Word)) (s : Word) :
    rows.foldl (fun s r => r.foldl (· + ·) s) s = s + wordSum rows := by
  induction rows generalizing s with
  | nil => simp [wordSum]
  | cons x xs ih => simp only [wordSum, List.foldl_cons] at *; rw [ih, ih (x.foldl _ 0), foldl_add_row]; ac_rfl

/-- The sum of two runs of rows. -/
theorem wordSum_append (a b : List (List Word)) : wordSum (a ++ b) = wordSum a + wordSum b := by
  rw [wordSum, List.foldl_append, foldl_add_rows]; rfl

end Sys2Proof.Machine
end

