-- ==== Sys2Proof/Laws/Spares.lean ====
section
/-! SUPPORT. The choice of a spare (R105), the counts of zones (R101, R103), the order of the remap table (R9, R14), and the return of a spare. -/

namespace Sys2Proof.Machine

/-! ## Choice -/

/-- The lender is the zone above the reserve with the most FREE spares, the lowest of several (R105). -/
theorem bestLender_of_best (r : Nat) (l : List (Nat × Nat)) (g f : Nat) (hs : (l.map Prod.fst).Pairwise (· < ·)) (hm : (g, f) ∈ l) (hr : r < f)
    (hb : ∀ g' f', (g', f') ∈ l → r < f' → f' < f ∨ (f' = f ∧ g ≤ g')) : bestLender r l = some (g, f) := by
  induction l with
  | nil => simp at hm
  | cons a l ih =>
    obtain ⟨ga, fa⟩ := a
    simp only [List.map_cons, List.pairwise_cons] at hs
    by_cases hag : ga = g ∧ fa = f
    · obtain ⟨rfl, rfl⟩ := hag
      unfold bestLender
      cases hbl : bestLender r l with
      | none => simp [hr]
      | some p =>
        obtain ⟨g', f'⟩ := p
        have : (g', f') ∈ l ∧ r < f' := by
          clear ih hm hb
          induction l with
          | nil => simp [bestLender] at hbl
          | cons b l ih2 =>
            obtain ⟨Chip.giveBack, fb⟩ := b
            unfold bestLender at hbl
            cases h3 : bestLender r l with
            | none =>
              rw [h3] at hbl; simp only at hbl
              split at hbl
              · simp at hbl; obtain ⟨rfl, rfl⟩ := hbl; exact ⟨by simp, by assumption⟩
              · cases hbl
            | some q =>
              obtain ⟨gq, fq⟩ := q
              rw [h3] at hbl; simp only at hbl
              split at hbl
              · rename_i hh; simp at hbl; obtain ⟨rfl, rfl⟩ := hbl; exact ⟨by simp, hh.1⟩
              · simp at hbl; obtain ⟨rfl, rfl⟩ := hbl
                have := ih2 ⟨fun x hx => hs.1 x (by simp at hx ⊢; exact Or.inr hx), (List.pairwise_cons.1 hs.2).2⟩ h3
                exact ⟨List.mem_cons_of_mem _ this.1, this.2⟩
        have h1 := hb g' f' (List.mem_cons_of_mem _ this.1) this.2
        simp only
        rw [if_pos ⟨hr, by omega⟩]
    · have hm' : (g, f) ∈ l := by
        rcases List.mem_cons.1 hm with h | h
        · simp at h; exact absurd ⟨h.1.symm, h.2.symm⟩ hag
        · exact h
      have := ih hs.2 hm' fun g' f' h => hb g' f' (List.mem_cons_of_mem _ h)
      unfold bestLender; rw [this]; simp only
      have hlt : ga < g := hs.1 g (List.mem_map.2 ⟨(g, f), hm', rfl⟩)
      rw [if_neg]
      rintro ⟨h1, h2⟩
      have := hb ga fa (by simp) h1
      omega

/-- No lender above the reserve (R105). -/
theorem bestLender_of_none (r : Nat) (l : List (Nat × Nat)) (hb : ∀ g f, (g, f) ∈ l → ¬ r < f) : bestLender r l = none := by
  induction l with
  | nil => rfl
  | cons a l ih =>
    obtain ⟨ga, fa⟩ := a
    unfold bestLender
    rw [ih fun g f h => hb g f (List.mem_cons_of_mem _ h)]
    simp only; rw [if_neg (hb ga fa (by simp))]

/-- The zones looked at as lenders: the others of the same device (R105). -/
theorem Chip.mem_lenders (c : Chip) (home g f : Nat) : (g, f) ∈ c.lenders home ↔ g / 8 = home / 8 ∧ g ≠ home ∧ f = (c.zone g).free := by
  unfold Chip.lenders
  simp only [List.mem_filterMap, List.mem_map, List.mem_range]
  constructor
  · rintro ⟨a, ⟨i, hi, rfl⟩, h⟩
    split at h
    · cases h
    · simp at h; obtain ⟨rfl, rfl⟩ := h; exact ⟨by omega, by assumption, rfl⟩
  · rintro ⟨h1, h2, rfl⟩
    refine ⟨g, ⟨g % 8, by omega, by omega⟩, ?_⟩
    rw [if_neg h2]

/-- They are looked at in ascending order. -/
theorem Chip.lenders_ascending (c : Chip) (home : Nat) : ((c.lenders home).map Prod.fst).Pairwise (· < ·) := by
  unfold Chip.lenders
  have : ((List.filterMap (fun g => if g = home then none else some (g, (c.zone g).free)) (List.map (fun i => 8 * (home / 8) + i) (List.range 8))).map Prod.fst)
      = (List.map (fun i => 8 * (home / 8) + i) (List.range 8)).filter fun g => decide (g ≠ home) := by
    induction (List.map (fun i => 8 * (home / 8) + i) (List.range 8)) with
    | nil => rfl
    | cons a l ih => by_cases h : a = home <;> simp [List.filterMap_cons, h, ih]
  rw [this]
  refine List.Pairwise.filter _ ?_
  rw [List.pairwise_map]
  exact List.Pairwise.imp (by intro a b h; omega) List.pairwise_lt_range

/-- A zone with a FREE spare has one of lowest index (R105). -/
theorem Zone.firstFree_of_free {z : Zone} (h : 0 < z.free) : ∃ i, z.firstFree = some i ∧ z.spares[i]? = some .free ∧ ∀ j, j < i → z.spares[j]? ≠ some .free := by
  have : ∃ x ∈ z.spares, (fun x => decide (x = SpareState.free)) x = true := List.countP_pos_iff.1 h
  have h2 : (z.spares.findIdx? fun st => decide (st = .free)).isSome := by
    rw [List.findIdx?_isSome]; simpa using this
  obtain ⟨i, hi⟩ := Option.isSome_iff_exists.1 h2
  refine ⟨i, hi, ?_, ?_⟩
  · rw [List.findIdx?_eq_some_iff_getElem] at hi
    obtain ⟨hl, he, _⟩ := hi
    rw [List.getElem?_eq_getElem hl]; simpa using he
  · rw [List.findIdx?_eq_some_iff_getElem] at hi
    obtain ⟨hl, _, hj⟩ := hi
    intro j hlt
    have := hj j hlt
    rw [List.getElem?_eq_getElem (by omega)]; simpa using this

/-! ## Counts -/

/-- What one spare put in another state does to the count of a state (R103). -/
theorem countP_set_spare {l : List SpareState} {i : Nat} {a b x : SpareState} (h : l[i]? = some a) :
    (l.set i b).countP (fun y => decide (y = x)) + (if a = x then 1 else 0) = l.countP (fun y => decide (y = x)) + (if b = x then 1 else 0) := by
  induction l generalizing i with
  | nil => simp at h
  | cons y l ih =>
    cases i with
    | zero =>
      simp at h; subst h
      simp only [List.set_cons_zero, List.countP_cons, decide_eq_true_eq]; omega
    | succ i =>
      have := ih (i := i) (by simpa using h)
      simp only [List.set_cons_succ, List.countP_cons]; omega

/-- A change of one zone, seen from any zone. -/
theorem Chip.zone_modifyZone_eq {c : Chip} {g : Nat} (g' : Nat) (f : Zone → Zone) (h : g < c.alloc.zones.length) :
    (c.modifyZone g' f).zone g = if g = g' then f (c.zone g) else c.zone g := by
  by_cases e : g = g'
  · subst e; rw [if_pos rfl, Chip.zone_modifyZone_self f h]
  · rw [if_neg e, Chip.zone_modifyZone_ne c f e]

/-- What counting a borrowed spare does to a zone (R13, R14, R103). -/
theorem Chip.zone_countBorrow {c : Chip} {g : Nat} (l : Nat) (t : SpareId) (f : Nat → Nat) (h : g < c.alloc.zones.length) :
    (c.countBorrow l t f).zone g = { c.zone g with
      lentOut := if g = t.globalZone ∧ g ≠ homeZone l then f (c.zone g).lentOut else (c.zone g).lentOut
      borrowedIn := if g = homeZone l ∧ t.globalZone ≠ homeZone l then f (c.zone g).borrowedIn else (c.zone g).borrowedIn } := by
  unfold Chip.countBorrow
  by_cases e : t.globalZone = homeZone l
  · rw [if_pos e, if_neg (by rintro ⟨a, b⟩; exact b (a.trans e)), if_neg (by rintro ⟨a, b⟩; exact b e)]
  · rw [if_neg e, Chip.zone_modifyZone_eq _ _ (by rw [Chip.zones_modifyZone]; exact h), Chip.zone_modifyZone_eq _ _ h]
    by_cases h1 : g = homeZone l
    · have h2 : g ≠ t.globalZone := fun hh => e (hh.symm.trans h1)
      rw [if_pos h1, if_neg h2, if_neg (by rintro ⟨a, b⟩; exact h2 a), if_pos ⟨h1, e⟩]
    · rw [if_neg h1]
      rw [if_neg (c := g = homeZone l ∧ _) (by rintro ⟨a, b⟩; exact h1 a)]
      by_cases h2 : g = t.globalZone
      · rw [if_pos h2, if_pos ⟨h2, h1⟩]
      · rw [if_neg h2, if_neg (by rintro ⟨a, b⟩; exact h2 a)]

/-- A spare put in a state changes its zone's spares and no count (R101, R103). -/
theorem Chip.counts_setSpare {c : Chip} {g : Nat} (t : SpareId) (st : SpareState) (h : g < c.alloc.zones.length) :
    ((c.setSpare t st).zone g).spares = (if g = t.globalZone then (c.zone g).spares.set t.index.val st else (c.zone g).spares)
    ∧ ((c.setSpare t st).zone g).lentOut = (c.zone g).lentOut ∧ ((c.setSpare t st).zone g).borrowedIn = (c.zone g).borrowedIn
    ∧ ((c.setSpare t st).zone g).retiredRows = (c.zone g).retiredRows := by
  unfold Chip.setSpare
  rw [Chip.zone_modifyZone_eq _ _ h]
  by_cases e : g = t.globalZone
  · rw [if_pos e, if_pos e]; dsimp only; split <;> exact ⟨rfl, rfl, rfl, rfl⟩
  · rw [if_neg e, if_neg e]; exact ⟨rfl, rfl, rfl, rfl⟩

/-! ## Order of the remap table -/

/-- An entry that takes the place of one of its row leaves the rows as they were (R9, R14). -/
theorem placeEntry_keeps_rows (e : RemapEntry) (t : List RemapEntry) (hs : t.Pairwise fun a b => a.row < b.row) (hm : e.row ∈ t.map RemapEntry.row) :
    (placeEntry e t).map RemapEntry.row = t.map RemapEntry.row := by
  induction t with
  | nil => simp at hm
  | cons x rest ih =>
    simp only [List.pairwise_cons] at hs
    unfold placeEntry
    by_cases h2 : e.row = x.row
    · rw [if_neg (by omega), if_pos h2]; simp [h2]
    · have hm' : e.row ∈ rest.map RemapEntry.row := by
        rcases List.mem_cons.1 hm with h | h
        · exact absurd h h2
        · exact h
      have : x.row < e.row := by
        obtain ⟨y, hy, hye⟩ := List.mem_map.1 hm'
        rw [← hye]; exact hs.1 y hy
      rw [if_neg (by omega), if_neg h2]; simp [ih hs.2 hm']

/-! ## Return of a spare -/

/-- The same on parts with one bus interface: the whole bus is the other part's after it. -/
theorem Chip.releaseSpare_congr_bus {c d : Chip} (h : d.gradeView = c.gradeView) (hb : d.bus = c.bus) (t : SpareId) :
    d.releaseSpare t = { d with
      alloc := (c.releaseSpare t).alloc, health := (c.releaseSpare t).health, bus := (c.releaseSpare t).bus } := by
  have h1 : d.alloc = c.alloc := congrArg (fun x => x.1.1) h
  have h2 : d.devices = c.devices := congrArg (fun x => x.1.2.1) h
  have h3 : d.health = c.health := congrArg (fun x => x.1.2.2.1) h
  have h4 : d.bus.gradeFlag = c.bus.gradeFlag := congrArg (fun x => x.1.2.2.2) h
  have ha : (d.setSpare t .free).alloc = (c.setSpare t .free).alloc := by
    unfold Chip.setSpare Chip.modifyZone; rw [h1, h3]
  have hg : (d.setSpare t .free).gradeView = (c.setSpare t .free).gradeView := by
    show ((_, d.devices, d.health, d.bus.gradeFlag), d.gradeView.2) = ((_, c.devices, c.health, c.bus.gradeFlag), c.gradeView.2)
    rw [ha, h, h2, h3, h4]
  have hbus : ∀ c : Chip, (c.releaseSpare t).bus = { c.bus with gradeFlag := (c.releaseSpare t).bus.gradeFlag } := by
    intro c; unfold Chip.releaseSpare Chip.regradeDevice; split
    · rfl
    · unfold Chip.raise; split <;> rfl
  refine (Chip.regradeDevice_congr (c := c.setSpare t .free) (d := d.setSpare t .free) hg).trans ?_
  rw [hbus c, ← hb]
  unfold Chip.releaseSpare
  rw [Chip.alloc_regradeDevice, ← ha]
  rfl

/-- Returning a spare changes its zone, the health unit and the GRADE flag, by what both parts show alike (R101). -/
theorem Chip.releaseSpare_congr {c d : Chip} (h : d.gradeView = c.gradeView) (t : SpareId) :
    d.releaseSpare t = { d with
      alloc := (c.releaseSpare t).alloc, health := (c.releaseSpare t).health
      bus := { d.bus with gradeFlag := (c.releaseSpare t).bus.gradeFlag } } := by
  have h1 : d.alloc = c.alloc := congrArg (fun x => x.1.1) h
  have h2 : d.devices = c.devices := congrArg (fun x => x.1.2.1) h
  have h3 : d.health = c.health := congrArg (fun x => x.1.2.2.1) h
  have h4 : d.bus.gradeFlag = c.bus.gradeFlag := congrArg (fun x => x.1.2.2.2) h
  have ha : (d.setSpare t .free).alloc = (c.setSpare t .free).alloc := by
    unfold Chip.setSpare Chip.modifyZone; rw [h1, h3]
  have hg : (d.setSpare t .free).gradeView = (c.setSpare t .free).gradeView := by
    show ((_, d.devices, d.health, d.bus.gradeFlag), d.gradeView.2) = ((_, c.devices, c.health, c.bus.gradeFlag), c.gradeView.2)
    rw [ha, h, h2, h3, h4]
  refine (Chip.regradeDevice_congr (c := c.setSpare t .free) (d := d.setSpare t .free) hg).trans ?_
  unfold Chip.releaseSpare
  rw [Chip.alloc_regradeDevice, ← ha]
  rfl

/-- A spare that was held, if any, returned to FREE. -/
def Chip.giveBack (o : Option SpareId) (c : Chip) : Chip := match o with | none => c | some sp => c.releaseSpare sp

/-- The same on parts with one bus interface. -/
theorem Chip.giveBack_congr_bus {c d : Chip} (h : d.gradeView = c.gradeView) (hb : d.bus = c.bus) (o : Option SpareId) :
    Chip.giveBack o d = { d with
      alloc := (Chip.giveBack o c).alloc
      health := (Chip.giveBack o c).health
      bus := (Chip.giveBack o c).bus } := by
  cases o with
  | none =>
    have h1 : d.alloc = c.alloc := congrArg (fun x => x.1.1) h
    have h3 : d.health = c.health := congrArg (fun x => x.1.2.2.1) h
    show d = { d with alloc := c.alloc, health := c.health, bus := c.bus }
    rw [← h1, ← h3, ← hb]
  | some sp => exact Chip.releaseSpare_congr_bus h hb sp

/-- Giving a spare back changes its zone, the health unit and the GRADE flag, by what both parts show alike. -/
theorem Chip.giveBack_congr {c d : Chip} (h : d.gradeView = c.gradeView) (o : Option SpareId) :
    Chip.giveBack o d = { d with
      alloc := (Chip.giveBack o c).alloc, health := (Chip.giveBack o c).health, bus := { d.bus with gradeFlag := (Chip.giveBack o c).bus.gradeFlag } } := by
  cases o with
  | none =>
    have h1 : d.alloc = c.alloc := congrArg (fun x => x.1.1) h
    have h3 : d.health = c.health := congrArg (fun x => x.1.2.2.1) h
    have h4 : d.bus.gradeFlag = c.bus.gradeFlag := congrArg (fun x => x.1.2.2.2) h
    show d = { d with alloc := c.alloc, health := c.health, bus := { d.bus with gradeFlag := c.bus.gradeFlag } }
    rw [← h1, ← h3, ← h4]
  | some sp => exact Chip.releaseSpare_congr h sp

/-- A failed allocation changes the zones and the health unit alone (R106). -/
theorem Chip.reportExhausted_shape (c : Chip) (g : Nat) : c.reportExhausted g = { c with alloc := (c.reportExhausted g).alloc, health := (c.reportExhausted g).health } := by
  exact Chip.reportExhausted_congr rfl g

end Sys2Proof.Machine
end

