-- ==== Sys2Proof/Laws/Changes.lean ====
section
/-! SUPPORT. Map changes as one shape (R13 to R16): what relocating and retiring a row leave, with the commit trigger. -/

namespace Sys2Proof.Machine

/-! ## The parts of a change -/

/-- What a notice leaves alone. -/
theorem Chip.raise_keeps (c : Chip) (b : NoticeBody) :
    (c.raise b).alloc = c.alloc ∧ (c.raise b).trk = c.trk ∧ (c.raise b).tr = c.tr ∧ (c.raise b).dir = c.dir ∧ (c.raise b).seq = c.seq := by
  unfold Chip.raise; split <;> exact ⟨rfl, rfl, rfl, rfl, rfl⟩

/-- What a commit trigger leaves alone. -/
theorem Chip.trigger_keeps (c : Chip) :
    c.trigger.alloc = c.alloc ∧ c.trigger.trk = c.trk ∧ c.trigger.tr.remap = c.tr.remap
    ∧ c.trigger.tr.patrolClaim = c.tr.patrolClaim ∧ c.trigger.tr.repairClaim = c.tr.repairClaim ∧ c.trigger.pat = c.pat := by
  unfold Chip.trigger Chip.startCommit Chip.beginCommit Chip.bindCommit Chip.setCopy
  dsimp only
  (repeat' split) <;> simp only [Chip.raise, Chip.endCommand, Chip.setWork, Chip.issue] <;> (repeat' split) <;> first | exact ⟨rfl, rfl, rfl, rfl, rfl, rfl⟩ | simp

/-- What the end of a map change leaves (R76, R113). -/
theorem Chip.change_tail (c : Chip) (l : Nat) :
    let d := ((c.setDirty.removePending l).markPatrolClaim l).regradeDevice
    d.alloc = c.alloc ∧ d.tr = { c.tr with patrolClaim := markClaim l c.tr.patrolClaim } ∧ d.seq = c.seq ∧ d.pat = c.pat
    ∧ d.trk.pendingList = c.trk.pendingList.filter (fun e => decide (e.row ≠ l)) ∧ d.dir.dirty = true
    ∧ d.dir = c.setDirty.dir ∧ d.cmd = c.cmd := by
  intro d
  have hr : d.requesters = (((c.setDirty).removePending l).markPatrolClaim l).requesters := Chip.requesters_regradeDevice _
  have hr2 : ((c.setDirty).removePending l).requesters = c.requesters := by simp
  have hdd : c.setDirty.dir.dirty = true := by unfold Chip.setDirty; split <;> simp [*]
  have h7 : ∀ d : Chip, d.dir.dirty = true → d.setDirty.dir = d.dir := by
    intro d hd; unfold Chip.setDirty; rw [if_pos hd]
  have hrp : ((c.setDirty).removePending l).trk.pendingList = c.trk.pendingList.filter (fun e => decide (e.row ≠ l))
      ∧ ((c.setDirty).removePending l).dir = c.setDirty.dir := by
    have htk : c.setDirty.trk = c.trk := by unfold Chip.setDirty; split <;> rfl
    unfold Chip.removePending Chip.pendingOf
    rw [htk]
    cases h : c.trk.pendingList.find? fun e => decide (e.row = l) with
    | none =>
      simp only
      rw [List.find?_eq_none] at h
      refine ⟨?_, trivial⟩
      rw [htk, List.filter_eq_self.2]
      intro e he; have := h e he; simpa using this
      try rfl
    | some e =>
      simp only
      constructor
      · unfold Chip.setDirty
        rw [if_pos (by show c.setDirty.dir.dirty = true; exact hdd)]
      · exact h7 _ hdd
  have hg : ∀ e : Chip, e.regradeDevice.trk = e.trk ∧ e.regradeDevice.dir = e.dir := by
    intro e; unfold Chip.regradeDevice; split
    · exact ⟨rfl, rfl⟩
    · unfold Chip.raise; split <;> exact ⟨rfl, rfl⟩
  refine ⟨?_, ?_, ?_, ?_, ?_, ?_, ?_, ?_⟩
  · show (Chip.regradeDevice _).alloc = _
    rw [Chip.alloc_regradeDevice]
    show (Chip.removePending _ l).alloc = _
    rw [Chip.alloc_removePending, Chip.alloc_setDirty]
  · rw [Chip.tr_of_requesters hr]
    have h8 := Chip.tr_of_requesters hr2
    unfold Chip.markPatrolClaim; rw [h8]
  · rw [Chip.seq_of_requesters hr]; exact (Chip.seq_of_requesters hr2 : (c.setDirty.removePending l).seq = c.seq)
  · rw [Chip.pat_of_requesters hr]; exact (Chip.pat_of_requesters hr2 : (c.setDirty.removePending l).pat = c.pat)
  · show (Chip.regradeDevice _).trk.pendingList = _
    rw [(hg _).1]; exact hrp.1
  · show (Chip.regradeDevice _).dir.dirty = _
    rw [(hg _).2]; show (Chip.removePending _ l).dir.dirty = _; rw [hrp.2]; exact hdd
  · show (Chip.regradeDevice _).dir = _
    rw [(hg _).2]; exact hrp.2
  · rw [Chip.cmd_of_requesters hr]; exact (Chip.cmd_of_requesters hr2 : (c.setDirty.removePending l).cmd = c.cmd)

/-! ## Changes -/

/-- A map change after its entry and spares: the pending entry, the patrol claim, the regrade and the trigger (R13 to R16). -/
def Chip.mapChange (c X : Chip) (l : Nat) : Chip :=
  let y := ((X.setDirty.removePending l).markPatrolClaim l).regradeDevice
  if c.tr.changes + 1 = Config.changeLimit then y.trigger else y

/-- What a map change leaves, whatever its entry and spares were (R13 to R16). -/
theorem Chip.change_of_map (c X : Chip) (l : Nat) (place : Placement) (o : Origin) (b : NoticeBody)
    (htr : X.tr = { c.tr with remap := placeEntry { row := l, place, origin := o, stamp := c.pat.pass } c.tr.remap, changes := min 16 (c.tr.changes + 1) })
    (htk : X.trk.pendingList = c.trk.pendingList) :
    let d := (Chip.mapChange c X l).raise b
    d.alloc = X.alloc
    ∧ d.entryOf l = some { row := l, place, origin := o, stamp := c.pat.pass }
    ∧ (∀ l', l' ≠ l → d.lookup l' = c.lookup l')
    ∧ (c.tr.remap.Pairwise (fun a b => a.row < b.row) → (∃ x ∈ c.tr.remap, x.row = l) → d.tr.remap.map RemapEntry.row = c.tr.remap.map RemapEntry.row)
    ∧ d.trk.pendingList = c.trk.pendingList.filter (fun e => decide (e.row ≠ l))
    ∧ d.tr.patrolClaim = markClaim l c.tr.patrolClaim
    ∧ d.tr.repairClaim = c.tr.repairClaim
    ∧ (c.tr.changes < 15 → d.tr.changes = c.tr.changes + 1 ∧ d.dir.dirty = true) := by
  intro d
  obtain ⟨t1, t2, t3, t4, t5, t6, t7, t8⟩ := Chip.change_tail X l
  have hm : (Chip.mapChange c X l).alloc = X.alloc ∧ (Chip.mapChange c X l).trk.pendingList = c.trk.pendingList.filter (fun e => decide (e.row ≠ l))
      ∧ (Chip.mapChange c X l).tr.remap = X.tr.remap ∧ (Chip.mapChange c X l).tr.patrolClaim = markClaim l X.tr.patrolClaim
      ∧ (Chip.mapChange c X l).tr.repairClaim = X.tr.repairClaim := by
    unfold Chip.mapChange; dsimp only
    split
    · obtain ⟨a1, a2, a3, a4, a5, a6⟩ := Chip.trigger_keeps ((X.setDirty.removePending l).markPatrolClaim l).regradeDevice
      exact ⟨a1.trans t1, by rw [a2, t5, htk], by rw [a3, t2], by rw [a4, t2], by rw [a5, t2]⟩
    · exact ⟨t1, by rw [t5, htk], by rw [t2], by rw [t2], by rw [t2]⟩
  obtain ⟨r1, r2, r3, r4, r5⟩ := Chip.raise_keeps (Chip.mapChange c X l) b
  have hremap : d.tr.remap = placeEntry { row := l, place, origin := o, stamp := c.pat.pass } c.tr.remap := by
    show (Chip.raise _ b).tr.remap = _; rw [r3, hm.2.2.1, htr]
  have hent : ∀ k, d.entryOf k = if l = k then some { row := l, place, origin := o, stamp := c.pat.pass } else c.entryOf k := by
    intro k; unfold Chip.entryOf; rw [hremap, find?_placeEntry]
  refine ⟨r1.trans hm.1, ?_, ?_, ?_, ?_, ?_, ?_, ?_⟩
  · rw [hent, if_pos rfl]
  · intro k hk
    unfold Chip.lookup; rw [hent, if_neg (fun h => hk h.symm)]
  · intro hs hx
    rw [hremap, placeEntry_keeps_rows _ _ hs]
    obtain ⟨x, hx, rfl⟩ := hx
    exact List.mem_map.2 ⟨x, hx, rfl⟩
  · show (Chip.raise _ b).trk.pendingList = _; rw [r2]; exact hm.2.1
  · show (Chip.raise _ b).tr.patrolClaim = _; rw [r3, hm.2.2.2.1, htr]
  · show (Chip.raise _ b).tr.repairClaim = _; rw [r3, hm.2.2.2.2, htr]
  · intro hc
    have hmc : Chip.mapChange c X l = ((X.setDirty.removePending l).markPatrolClaim l).regradeDevice := by
      unfold Chip.mapChange; dsimp only; rw [if_neg]; show ¬ (_ = 16); omega
    refine ⟨?_, ?_⟩
    · show (Chip.raise _ b).tr.changes = _; rw [r3, hmc, t2, htr]; show min 16 _ = _; omega
    · show (Chip.raise _ b).dir.dirty = _; rw [r4, hmc]; exact t6

/-- A map change keeps the watch table its entry and spares left (R86). -/
theorem Chip.watch_of_map (c X : Chip) (l : Nat) (b : NoticeBody) : ((Chip.mapChange c X l).raise b).trk.watch = X.trk.watch := by
  have hy : (((X.setDirty.removePending l).markPatrolClaim l).regradeDevice).trk.watch = X.trk.watch := by
    have h1 : ∀ d : Chip, d.regradeDevice.trk = d.trk := by
      intro d; unfold Chip.regradeDevice; split
      · rfl
      · exact (Chip.raise_keeps _ _).2.1
    have h2 : ∀ d : Chip, d.setDirty.trk = d.trk := by intro d; unfold Chip.setDirty; split <;> rfl
    have h3 : ∀ d : Chip, (d.removePending l).trk.watch = d.trk.watch := by
      intro d; unfold Chip.removePending; split
      · rfl
      · rw [h2]
    rw [h1]
    exact (h3 _).trans (congrArg ErrorTracker.watch (h2 X))
  rw [(Chip.raise_keeps _ _).2.1]
  unfold Chip.mapChange; dsimp only
  split
  · rw [(Chip.trigger_keeps _).2.1]; exact hy
  · exact hy

/-- A relocation is a map change and its notice (R76, R113). -/
theorem Chip.relocateTo_shape (c : Chip) (l : Nat) (sp : SpareId) (o : Origin) :
    ∃ X b, c.relocateTo l sp o = (Chip.mapChange c X l).raise b
      ∧ X.tr = { c.tr with remap := placeEntry { row := l, place := .spared sp, origin := o, stamp := c.pat.pass } c.tr.remap, changes := min 16 (c.tr.changes + 1) }
      ∧ X.trk = c.trk ∧ X.seq = c.seq ∧ X.dir = c.dir ∧ X.cmd = c.cmd
      ∧ X.alloc = (Chip.countBorrow (Chip.setSpare (match c.lookup l with | .spared old => c.dropTarget l old | .home _ => c | .retired => c) sp .inUse) l sp (· + 1)).alloc := by
  have hcb : ∀ (d : Chip) t f, ∃ a, d.countBorrow l t f = { d with alloc := a } := by
    intro d t f; unfold Chip.countBorrow; split
    · exact ⟨d.alloc, rfl⟩
    · exact ⟨_, rfl⟩
  obtain ⟨a, ha⟩ : ∃ a, (match c.lookup l with | .spared old => c.dropTarget l old | .home _ => c | .retired => c) = { c with alloc := a } := by
    split
    · obtain ⟨a, h⟩ := hcb (c.setSpare ‹SpareId› .bad) ‹SpareId› (· - 1)
      exact ⟨a, h⟩
    · exact ⟨c.alloc, rfl⟩
    · exact ⟨c.alloc, rfl⟩
  obtain ⟨a2, h2⟩ := hcb (Chip.setSpare (Chip.putEntry { c with alloc := a } l (.spared sp) o) sp .inUse) sp (· + 1)
  obtain ⟨a3, h3⟩ := hcb (Chip.setSpare ({ c with alloc := a }) sp .inUse) sp (· + 1)
  refine ⟨(Chip.countBorrow (Chip.setSpare (Chip.putEntry { c with alloc := a } l (.spared sp) o) sp .inUse) l sp (· + 1)).countChange, .repaired l (homeZone l) sp (c.isSpared l), ?_, ?_, ?_, ?_, ?_, ?_, ?_⟩
  · rw [← ha]
    unfold Chip.relocateTo Chip.mapUpdate Chip.mapChange; cases c.lookup l <;> rfl
  · unfold Chip.countChange; rw [h2]; rfl
  · unfold Chip.countChange; rw [h2]; rfl
  · unfold Chip.countChange; rw [h2]; rfl
  · unfold Chip.countChange; rw [h2]; rfl
  · unfold Chip.countChange; rw [h2]; rfl
  · rw [ha]
    unfold Chip.countChange Chip.countBorrow; split <;> rfl

/-- A retirement is a map change and its notice (R15). -/
theorem Chip.retireOrStick_shape (c : Chip) (l : Nat) (o : Origin) (hr : c.lookup l ≠ .retired) (hn : c.retiredCount < 128) :
    (c.retireOrStick l o).2 = .retired ∧
    ∃ X b, (c.retireOrStick l o).1 = (Chip.mapChange c X l).raise b
      ∧ X.tr = { c.tr with remap := placeEntry { row := l, place := .retired, origin := o, stamp := c.pat.pass } c.tr.remap, changes := min 16 (c.tr.changes + 1) }
      ∧ X.trk.pendingList = c.trk.pendingList ∧ X.trk.watch = (c.removeWatch l).trk.watch ∧ X.seq = c.seq ∧ X.dir = c.dir ∧ X.cmd = c.cmd
      ∧ X.alloc = (Chip.modifyZone (match c.lookup l with | .spared old => c.dropTarget l old | .home _ => c | .retired => c) (homeZone l) fun z => { z with retiredRows := z.retiredRows + 1 }).alloc := by
  have hcb : ∀ (d : Chip) t f, ∃ a, d.countBorrow l t f = { d with alloc := a } := by
    intro d t f; unfold Chip.countBorrow; split
    · exact ⟨d.alloc, rfl⟩
    · exact ⟨_, rfl⟩
  obtain ⟨a, ha⟩ : ∃ a, (match c.lookup l with | .spared old => c.dropTarget l old | .home _ => c | .retired => c) = { c with alloc := a } := by
    split
    · obtain ⟨a, h⟩ := hcb (c.setSpare ‹SpareId› .bad) ‹SpareId› (· - 1)
      exact ⟨a, h⟩
    · exact ⟨c.alloc, rfl⟩
    · exact ⟨c.alloc, rfl⟩
  have h0 : c.retireOrStick l o = ((c.retireRow l o).raise (.retired l), .retired) := by
    unfold Chip.retireOrStick
    rw [if_neg (by simpa [Chip.isRetired] using hr), if_neg (by show ¬ (128 ≤ _); omega)]
  rw [h0]
  refine ⟨rfl, (Chip.modifyZone (Chip.putEntry { c with alloc := a } l .retired o) (homeZone l) fun z => { z with retiredRows := z.retiredRows + 1 }).countChange.removeWatch l, .retired l, ?_, rfl, rfl, rfl, rfl, rfl, rfl, ?_⟩
  · rw [← ha]
    unfold Chip.retireRow Chip.mapChange; cases c.lookup l <;> rfl
  · rw [ha]; rfl

/-! ## The work in flight -/

/-- A trigger with no COMMIT DIRECTORY waiting leaves the command and the repair job. -/
theorem Chip.trigger_keeps_work {c : Chip} (h : c.cmd.work ≠ .commitWait) : c.trigger.cmd = c.cmd ∧ c.trigger.rep = c.rep := by
  have h0 : ∀ (d : Chip) (b : NoticeBody), (d.raise b).cmd = d.cmd ∧ (d.raise b).rep = d.rep := by
    intro d b; unfold Chip.raise; split <;> exact ⟨rfl, rfl⟩
  have hb : ∀ (d : Chip) k s f, (d.beginCommit k s f).cmd = d.cmd ∧ (d.beginCommit k s f).rep = d.rep := by
    intro d k s f; cases k <;> exact ⟨rfl, rfl⟩
  unfold Chip.trigger Chip.startCommit Chip.bindCommit
  dsimp only
  rw [if_neg h]
  split
  · split
    · split
      · split
        · rename_i h1; rw [(h0 _ _).1] at h1; exact absurd h1 h
        · exact h0 _ _
      · exact hb _ _ _ _
    · exact ⟨rfl, rfl⟩
    · exact ⟨rfl, rfl⟩
  · exact ⟨rfl, rfl⟩

/-- So does a retirement. -/
theorem Chip.retireOrStick_keeps_work {c : Chip} (l : Nat) (o : Origin) (h : c.cmd.work ≠ .commitWait) :
    (c.retireOrStick l o).1.cmd = c.cmd ∧ (c.retireOrStick l o).1.rep = c.rep := by
  have h0 : ∀ (d : Chip) (b : NoticeBody), (d.raise b).cmd = d.cmd ∧ (d.raise b).rep = d.rep := by
    intro d b; unfold Chip.raise; split <;> exact ⟨rfl, rfl⟩
  unfold Chip.retireOrStick
  split
  · exact ⟨rfl, rfl⟩
  · split
    · dsimp only; rw [(h0 _ _).1, (h0 _ _).2]
      unfold Chip.setStuck; split
      · exact ⟨rfl, rfl⟩
      · have : (Chip.regradeDevice (Chip.setDirty (c.updatePending l fun e => { e with stuck := true }))).requesters = c.requesters := by simp
        exact ⟨Chip.cmd_of_requesters this, Chip.rep_of_requesters this⟩
    · dsimp only; rw [(h0 _ _).1, (h0 _ _).2]
      have hcb : ∀ (d : Chip) t f, (d.countBorrow l t f).requesters = d.requesters := by
        intro d t f; unfold Chip.countBorrow; split <;> rfl
      have hdrop : ∀ t, (c.dropTarget l t).requesters = c.requesters := by
        intro t; unfold Chip.dropTarget; rw [hcb]; rfl
      have hb : ∀ c1 : Chip, c1.cmd = c.cmd → c1.rep = c.rep → ∀ y : Chip,
          y = ((((((c1.putEntry l .retired o).modifyZone (homeZone l) fun z => { z with retiredRows := z.retiredRows + 1 }).countChange).removeWatch l).setDirty.removePending l).markPatrolClaim l).regradeDevice →
          (if c.tr.changes + 1 = Config.changeLimit then y.trigger else y).cmd = c.cmd ∧ (if c.tr.changes + 1 = Config.changeLimit then y.trigger else y).rep = c.rep := by
        intro c1 h1 h2 y hy
        have hr : y.requesters = ((((((c1.putEntry l .retired o).modifyZone (homeZone l) fun z => { z with retiredRows := z.retiredRows + 1 }).countChange).removeWatch l).setDirty.removePending l).markPatrolClaim l).requesters := by rw [hy]; exact Chip.requesters_regradeDevice _
        have hr2 : ((((((c1.putEntry l .retired o).modifyZone (homeZone l) fun z => { z with retiredRows := z.retiredRows + 1 }).countChange).removeWatch l).setDirty.removePending l)).requesters = (((((c1.putEntry l .retired o).modifyZone (homeZone l) fun z => { z with retiredRows := z.retiredRows + 1 }).countChange).removeWatch l)).requesters := by simp
        have e1 : y.cmd = c.cmd := (Chip.cmd_of_requesters hr).trans ((Chip.cmd_of_requesters (c := Chip.removePending _ l) hr2).trans h1)
        have e2 : y.rep = c.rep := (Chip.rep_of_requesters hr).trans ((Chip.rep_of_requesters (c := Chip.removePending _ l) hr2).trans h2)
        split
        · obtain ⟨a, b⟩ := Chip.trigger_keeps_work (c := y) (by rw [e1]; exact h)
          exact ⟨a.trans e1, b.trans e2⟩
        · exact ⟨e1, e2⟩
      unfold Chip.retireRow
      cases c.lookup l with
      | spared t => exact hb _ (Chip.cmd_of_requesters (hdrop t)) (Chip.rep_of_requesters (hdrop t)) _ rfl
      | home p => exact hb _ rfl rfl _ rfl
      | retired => exact hb _ rfl rfl _ rfl

end Sys2Proof.Machine
end

