-- ==== Sys2Proof/Laws/CheckCode.lean ====
section
/-! SUPPORT. The check code is linear: parity, check bits and syndrome of an exclusive-or are the exclusive-or of theirs, and a stored word as written has syndrome 0 and parity 0. -/

namespace Sys2Proof.Machine

theorem parity_foldl_xor {w : Nat} (x y : BitVec w) (l : List Nat) (a b : Bool) :
    l.foldl (fun b i => b ^^ (x ^^^ y).getLsbD i) (a ^^ b)
      = (l.foldl (fun b i => b ^^ x.getLsbD i) a ^^ l.foldl (fun b i => b ^^ y.getLsbD i) b) := by
  induction l generalizing a b with
  | nil => rfl
  | cons i l ih =>
    rw [List.foldl_cons, List.foldl_cons, List.foldl_cons, ← ih]
    congr 1
    rw [BitVec.getLsbD_xor]
    cases a <;> cases b <;> cases x.getLsbD i <;> cases y.getLsbD i <;> rfl

theorem parity_xor {w : Nat} (x y : BitVec w) : parity (x ^^^ y) = (parity x ^^ parity y) := by
  simpa [parity] using parity_foldl_xor x y (List.range w) false false

theorem checkBit_xor (d e : Word) (j : Nat) : checkBit (d ^^^ e) j = (checkBit d j ^^ checkBit e j) := by
  rw [checkBit, checkBit, checkBit, ← parity_xor]
  congr 1
  ext i
  simp [Bool.and_xor_distrib_right]

theorem checkBits_xor (d e : Word) : checkBits (d ^^^ e) = checkBits d ^^^ checkBits e := by
  simp only [checkBits, checkBit_xor]
  generalize checkBit d 0 = a0; generalize checkBit d 1 = a1; generalize checkBit d 2 = a2
  generalize checkBit d 3 = a3; generalize checkBit d 4 = a4
  generalize checkBit e 0 = b0; generalize checkBit e 1 = b1; generalize checkBit e 2 = b2
  generalize checkBit e 3 = b3; generalize checkBit e 4 = b4
  revert a0 a1 a2 a3 a4 b0 b1 b2 b3 b4
  decide

/-- Bit j of the check bits is Cj. -/
theorem getLsbD_checkBits (d : Word) {j : Nat} (hj : j < 5) : (checkBits d).getLsbD j = checkBit d j := by
  unfold checkBits
  have h : ∀ c4 c3 c2 c1 c0 : Bool,
      ((BitVec.ofBool c4 ++ BitVec.ofBool c3 ++ BitVec.ofBool c2 ++ BitVec.ofBool c1 ++ BitVec.ofBool c0 : BitVec 5).getLsbD j)
        = [c0, c1, c2, c3, c4].getD j false := by
    revert j; decide
  rw [h]
  interval_cases j <;> rfl

theorem dataBits_xor (x y : Stored) : dataBits (x ^^^ y) = dataBits x ^^^ dataBits y := by
  ext i; simp [dataBits]

theorem syndrome_xor (x y : Stored) : syndrome (x ^^^ y) = syndrome x ^^^ syndrome y := by
  rw [syndrome, dataBits_xor, checkBits_xor, syndrome, syndrome]
  ext i
  simp only [BitVec.getElem_xor, BitVec.getElem_extractLsb', BitVec.getLsbD_xor]
  cases x.getLsbD (16 + i) <;> cases y.getLsbD (16 + i) <;> cases (checkBits (dataBits x))[i] <;>
    cases (checkBits (dataBits y))[i] <;> rfl

theorem getLsbD_encodeWord (d : Word) (i : Nat) :
    (encodeWord d).getLsbD i = if i < 16 then d.getLsbD i
      else (BitVec.ofBool (parity d ^^ parity (checkBits d)) ++ checkBits d).getLsbD (i - 16) :=
  BitVec.getLsbD_append

theorem dataBits_encodeWord (d : Word) : dataBits (encodeWord d) = d := by
  ext i hi
  rw [dataBits, BitVec.getElem_extractLsb', getLsbD_encodeWord, Nat.zero_add, if_pos hi, BitVec.getLsbD_eq_getElem hi]

theorem syndrome_encodeWord (d : Word) : syndrome (encodeWord d) = 0 := by
  rw [syndrome, dataBits_encodeWord]
  ext i hi
  rw [BitVec.getElem_xor, BitVec.getElem_extractLsb', getLsbD_encodeWord, if_neg (by omega), Nat.add_sub_cancel_left,
    BitVec.getLsbD_append, if_pos hi, BitVec.getLsbD_eq_getElem hi]
  simp

/-- Bit 16 + j of a stored word as written is Cj of its data (R22, R23). -/
theorem getLsbD_encodeWord_check (d : Word) {j : Nat} (hj : j < 5) : (encodeWord d).getLsbD (16 + j) = checkBit d j := by
  rw [getLsbD_encodeWord, if_neg (by omega), Nat.add_sub_cancel_left, BitVec.getLsbD_append, if_pos hj,
    getLsbD_checkBits d hj]

theorem parity_append1 (b : Bool) (x : BitVec 21) : parity (BitVec.ofBool b ++ x) = (b ^^ parity x) := by
  have h : ∀ i ∈ List.range 21, (BitVec.ofBool b ++ x).getLsbD i = x.getLsbD i := by
    intro i hi
    rw [BitVec.getLsbD_append, if_pos (List.mem_range.1 hi)]
  have h21 : (BitVec.ofBool b ++ x).getLsbD 21 = b := by
    rw [BitVec.getLsbD_append]; cases b <;> rfl
  have e : List.range (1 + 21) = List.range 21 ++ [21] := List.range_succ
  rw [parity, e, List.foldl_append, List.foldl_cons, List.foldl_nil, h21, parity]
  rw [List.foldl_ext _ (fun b i => b ^^ x.getLsbD i) false (fun acc i hi => by rw [h i hi])]
  exact Bool.xor_comm _ _

theorem parity_check_append (c : BitVec 5) (d : Word) : parity (c ++ d) = (parity c ^^ parity d) := by
  have hd : ∀ i ∈ List.range 16, (c ++ d).getLsbD i = d.getLsbD i := by
    intro i hi
    rw [BitVec.getLsbD_append, if_pos (List.mem_range.1 hi)]
  have hc : ∀ i, (c ++ d).getLsbD (16 + i) = c.getLsbD i := by
    intro i
    rw [BitVec.getLsbD_append, if_neg (by omega)]
    congr 1
    omega
  have e : List.range (5 + 16) = List.range 16 ++ [16 + 0, 16 + 1, 16 + 2, 16 + 3, 16 + 4] := rfl
  have e5 : List.range 5 = [0, 1, 2, 3, 4] := rfl
  simp only [parity, e, e5, List.foldl_append, List.foldl_cons, List.foldl_nil, hc]
  rw [List.foldl_ext _ (fun b i => b ^^ d.getLsbD i) false (fun acc i hi => by rw [hd i hi])]
  generalize (List.range 16).foldl (fun b i => b ^^ d.getLsbD i) false = p
  generalize c.getLsbD 0 = c0; generalize c.getLsbD 1 = c1; generalize c.getLsbD 2 = c2
  generalize c.getLsbD 3 = c3; generalize c.getLsbD 4 = c4
  revert p c0 c1 c2 c3 c4
  decide

/-- The exclusive-or of all 22 bits of a stored word as written is zero (R23). -/
theorem parity_encodeWord (d : Word) : parity (encodeWord d) = false := by
  rw [encodeWord, BitVec.append_assoc]
  change parity (BitVec.ofBool _ ++ (checkBits d ++ d : BitVec 21)) = false
  rw [parity_append1, parity_check_append]
  generalize parity d = a; generalize parity (checkBits d) = b
  revert a b; decide

/-- A stored word as written reads CLEAN with its data (R7, R24). -/
theorem decodeWord_encodeWord (d : Word) : decodeWord (encodeWord d) = (.clean, d) := by
  rw [decodeWord, syndrome_encodeWord, if_pos rfl, parity_encodeWord, dataBits_encodeWord]; rfl

/-- What a stored word with some bits changed decodes to depends on the changed bits alone (R7, R24). -/
theorem syndrome_flipped (d : Word) (e : Stored) : syndrome (encodeWord d ^^^ e) = syndrome e := by
  rw [syndrome_xor, syndrome_encodeWord]; exact BitVec.zero_xor

theorem parity_flipped (d : Word) (e : Stored) : parity (encodeWord d ^^^ e) = parity e := by
  rw [parity_xor, parity_encodeWord]; simp

theorem dataBits_flipped (d : Word) (e : Stored) : dataBits (encodeWord d ^^^ e) = d ^^^ dataBits e := by
  rw [dataBits_xor, dataBits_encodeWord]

end Sys2Proof.Machine
end

