-- ==== Sys2Proof/Laws/Directory.lean ====
section
/-! SUPPORT. How a commit trigger is taken (R145, R146), and where a word of the image lies (Table 8-1). -/

namespace Sys2Proof.Machine

/-! ## Triggers -/

/-- A trigger taken in READY or DEGRADED by an idle directory unit starts a commit, or has it refused. -/
theorem Chip.trigger_idle {c : Chip} (h : c.inService = true) (hm : c.dir.mode = .idle) : c.trigger = c.startCommit := by
  unfold Chip.trigger; rw [if_pos h, hm]

/-- A trigger taken while a commit is in flight sets the request flag. -/
theorem Chip.trigger_committing {c : Chip} (h : c.inService = true) (hm : c.dir.mode = .committing) :
    c.trigger = { c with dir := { c.dir with commitRequest := true } } := by
  unfold Chip.trigger; rw [if_pos h, hm]

/-- A trigger has no effect outside READY and DEGRADED. -/
theorem Chip.trigger_out {c : Chip} (h : c.inService = false) : c.trigger = c := by
  unfold Chip.trigger; rw [if_neg (by rw [h]; simp)]

/-- The refusal at the sequence limit, with no command waiting (R146). -/
theorem Chip.startCommit_refused {c : Chip} (h : c.highestSeq = Config.lastSequence) (hw : c.cmd.work ≠ .commitWait) :
    c.startCommit = { c with
      dir := { c.dir with commitTimer := none }, health := (c.raise (.directoryFail c.commitTarget .sequence)).health } := by
  unfold Chip.startCommit; rw [if_pos h]
  unfold Chip.raise
  by_cases hq : c.health.queue.length < Config.noticeLimit
  · simp only [hq, if_true, hw, if_false]
  · simp only [hq, if_false, hw]

/-- The refusal at the sequence limit ends the COMMIT DIRECTORY that waits for the commit (R146, R152). -/
theorem Chip.startCommit_refused_command {c : Chip} (h : c.highestSeq = Config.lastSequence) (hw : c.cmd.work = .commitWait) :
    c.startCommit = Chip.endCommand { c with
      dir := { c.dir with commitTimer := none }, health := (c.raise (.directoryFail c.commitTarget .sequence)).health }
      .directoryFail ⟨word c.commitTarget.code, absentWord, absentWord, word CommitFailure.sequence.code⟩ := by
  unfold Chip.startCommit; rw [if_pos h]
  unfold Chip.raise
  by_cases hq : c.health.queue.length < Config.noticeLimit
  · simp only [hq, if_true, hw]
  · simp only [hq, if_false, hw, if_true]

/-! ## Words of blocks laid end to end -/

/-- Word k of block j, of blocks of m words each. -/
theorem getD_flatMap_blocks {α β : Type} (f : α → List β) (m : Nat) (d : β) (l : List α) (hf : ∀ x ∈ l, (f x).length = m) (j k : Nat)
    (hk : k < m) : (l.flatMap f).getD (m * j + k) d = ((l[j]?.map f).getD []).getD k d := by
  induction l generalizing j with
  | nil => simp
  | cons x l ih =>
    have hx : (f x).length = m := hf x (by simp)
    rw [List.flatMap_cons]
    cases j with
    | zero =>
      rw [List.getD_eq_getElem?_getD, List.getD_eq_getElem?_getD, List.getElem?_append_left (by omega)]
      simp
    | succ j =>
      have h1 : m * (j + 1) + k = m + (m * j + k) := by rw [Nat.mul_succ]; omega
      have h2 := ih (fun y hy => hf y (List.mem_cons_of_mem x hy)) j
      rw [List.getD_eq_getElem?_getD] at h2
      rw [h1, List.getD_eq_getElem?_getD, List.getElem?_append_right (by omega), hx, Nat.add_sub_cancel_left, h2]
      rfl

end Sys2Proof.Machine
end

