-- ==== Sys2Proof/Laws/SoftReset.lean ====
section
/-! SUPPORT. What a soft reset leaves, block by block (R53, R116, R133, R167), and the end of a repair job. -/

namespace Sys2Proof.Machine

/-! ## The port -/

/-- A port stays settled when requests are withdrawn and completions abandoned, and when a request joins a busy port. -/
theorem Sequencer.settled_abandon (q : Sequencer) (h : q.settled = true) :
    ({ q with foreground := q.foreground.abandon, repair := q.repair.abandon } : Sequencer).settled = true
    ∧ ({ q with foreground := q.foreground.abandon, repair := q.repair.abandon, patrol := q.patrol.abandon } : Sequencer).settled = true
    ∧ ∀ r, q.current ≠ none → (∀ r, q.patrol ≠ .inProgress r) →
      ({ q with foreground := q.foreground.abandon, repair := q.repair.abandon, patrol := .waiting r } : Sequencer).settled = true := by
  obtain ⟨f, d, r, p, t⟩ := q
  cases f <;> cases d <;> cases r <;> cases p <;>
    simp_all [Sequencer.settled, Sequencer.current, Sequencer.firstWaiting, Slot.active, Slot.awaiting, Slot.abandon]

/-! ## The command engine and the repair engine -/

/-- What a soft reset leaves of the command engine (R53, R79). -/
theorem State.softResetEngine_eq (s : State) (c0 g1 : Chip) (held : Option SpareId)
    (hh : held = match s.cmd.work with | .transfer t => t.spare | _ => none)
    (h0 : c0 = { s.toChip with bus := s.bus.softReset, cmd := s.cmd.softReset })
    (h1 : g1 = Chip.giveBack held c0) :
    g1 = { c0 with alloc := g1.alloc, health := g1.health, bus := g1.bus } ∧
    Chip.softResetEngine { s.toChip with bus := s.bus.softReset } =
      { g1 with seq := { s.seq with foreground := s.seq.foreground.abandon } } := by
  have e1 : g1 = { c0 with alloc := g1.alloc, health := g1.health, bus := g1.bus } := by
    rw [h1]; exact Chip.giveBack_congr_bus (c := c0) (d := c0) rfl rfl held
  have eE : Chip.softResetEngine { s.toChip with bus := s.bus.softReset } =
      { g1 with seq := { s.seq with foreground := s.seq.foreground.abandon } } := by
    have : Chip.softResetEngine { s.toChip with bus := s.bus.softReset } =
        Chip.giveBack held { c0 with seq := { s.seq with foreground := s.seq.foreground.abandon } } := by
      rw [hh, h0]
      unfold Chip.softResetEngine
      cases hw : s.cmd.work with
      | transfer t =>
        simp only [Chip.freeTransferSpare]
        cases t.spare <;> rfl
      | _ => rfl
    rw [this, Chip.giveBack_congr_bus (c := c0) (by rfl) (by rfl) held, ← h1]
    conv => rhs; rw [e1]
  exact ⟨e1, eE⟩

/-- What a soft reset leaves of the repair engine (R116). -/
theorem Chip.softResetRepair_eq (c : Chip) : c.softResetRepair =
    (let g := Chip.giveBack (c.rep.job.bind Job.spare) { c with seq := { c.seq with repair := c.seq.repair.abandon } }
     { g with
      tr := { g.tr with repairClaim := none }, rep := { st := .idle, job := none, waiting := none }
      trk := { g.trk with pendingList := g.trk.pendingList.map fun e => { e with restarts := 0 } } }) := by
  unfold Chip.softResetRepair
  cases hj : c.rep.job with
  | none => rfl
  | some j =>
    simp only [Option.bind_some, Chip.freeJobSpare]
    cases j.spare <;> rfl

/-- What a soft reset has done when it reaches the patrol engine, by what it does to a format (R53, R116, R167). -/
theorem State.softReset_eq (s : State) (c0 g1 g2 : Chip) (held : Option SpareId)
    (hh : held = match s.cmd.work with | .transfer t => t.spare | _ => none)
    (h0 : c0 = { s.toChip with bus := s.bus.softReset, cmd := s.cmd.softReset })
    (h1 : g1 = Chip.giveBack held c0)
    (h2 : g2 = Chip.giveBack (s.rep.job.bind Job.spare) g1)
    (D : DirectoryUnit) (m : BusInterface → BusInterface) (hm : ∀ b g, { m b with gradeFlag := g } = m { b with gradeFlag := g })
    (hmg : ∀ b, (m b).gradeFlag = b.gradeFlag)
    (hf : ∀ c : Chip, c.dir = s.dir → c.cmd = s.cmd.softReset → c.seq.foreground = s.seq.foreground.abandon →
      c.softResetFormat = { c with dir := D, bus := m c.bus }) :
    s.toChip.softReset = Chip.softResetPatrol { s.toChip with
      cmd := s.cmd.softReset, bus := m g2.bus, alloc := g2.alloc, health := g2.health
      dir := D
      tr := { s.tr with repairClaim := none }
      trk := { s.trk with pendingList := s.trk.pendingList.map fun e => { e with restarts := 0 } }
      rep := { st := .idle, job := none, waiting := none }
      seq := { s.seq with foreground := s.seq.foreground.abandon, repair := s.seq.repair.abandon } } := by
  obtain ⟨e1, eE⟩ := State.softResetEngine_eq s c0 g1 held hh h0 h1
  have hg1 : g1.dir = s.dir ∧ g1.rep = s.rep ∧ g1.cmd = s.cmd.softReset := by rw [e1, h0]; exact ⟨rfl, rfl, rfl⟩
  unfold Chip.softReset
  rw [eE, hf { g1 with seq := { s.seq with foreground := s.seq.foreground.abandon } } hg1.1 hg1.2.2 rfl, Chip.softResetRepair_eq]
  have hgv : ({ g1 with
    seq := { s.seq with foreground := s.seq.foreground.abandon, repair := s.seq.repair.abandon }
    bus := m g1.bus
    dir := D } : Chip).gradeView = g1.gradeView := by
    show ((_, _, _, (m g1.bus).gradeFlag), _) = _
    rw [hmg]; rfl
  have e3 := Chip.giveBack_congr hgv (s.rep.job.bind Job.spare)
  have e4 : g2.bus = { g1.bus with gradeFlag := g2.bus.gradeFlag } := by
    rw [h2]; exact congrArg Chip.bus (Chip.giveBack_congr (c := g1) (d := g1) rfl (s.rep.job.bind Job.spare))
  rw [← h2, hm, ← e4, ← hg1.2.1] at e3
  refine (congrArg (fun g : Chip => Chip.softResetPatrol { g with
      tr := { g.tr with repairClaim := none }, rep := { st := .idle, job := none, waiting := none }
      trk := { g.trk with pendingList := g.trk.pendingList.map fun e => { e with restarts := 0 } } }) e3).trans ?_
  rw [e1, h0]

/-! ## The end of a job -/

/-- What the end of a job leaves, no STOP pending (R110, R113 to R115). -/
theorem Chip.endJob_eq {c : Chip} {j : Job} (code : ResultCode) (h : c.cmd.stopRequest = false) :
    c.endJob j code =
      { c.freeJobSpare j with
        tr := { (c.freeJobSpare j).tr with repairClaim := none }, rep := { (c.freeJobSpare j).rep with st := .idle, job := none }
        bus := if j.command then (c.freeJobSpare j).bus.commandDone else (c.freeJobSpare j).bus
        cmd := if j.command then
            (c.freeJobSpare j).cmd.finished code ⟨word ((c.freeJobSpare j).lookup j.row).code, ((c.freeJobSpare j).lookup j.row).targetWord, word j.madeBad, 0⟩
          else (c.freeJobSpare j).cmd } := by
  unfold Chip.endJob
  cases hc : j.command
  · rfl
  · simp only [if_true, h, Bool.false_eq_true, if_false]; rfl

/-- Returning a job's spare leaves what the requesters see. -/
theorem Chip.requesters_freeJobSpare (c : Chip) (j : Job) : (c.freeJobSpare j).requesters = c.requesters := by
  unfold Chip.freeJobSpare; split
  · exact Chip.requesters_releaseSpare ..
  · rfl

end Sys2Proof.Machine
end

