-- ==== Sys2Proof/Laws/Endings.lean ====
section
/-! SUPPORT. How STOP, grants and the completions of abandoned accesses end what they end (R26, R28, R34, R35, R52, R66, R71, R79, R120). -/

namespace Sys2Proof.Machine

/-- What giving a spare back leaves alone of the blocks that make requests. -/
theorem Chip.requesters_giveBack (o : Option SpareId) (c : Chip) : (Chip.giveBack o c).requesters = c.requesters := by
  cases o with
  | none => rfl
  | some sp => exact Chip.requesters_releaseSpare c sp

/-- A transfer cut off by STOP or a TIMEOUT: its spare is given back and the command ends with its counts (R67, R71, R79). -/
theorem Chip.cutTransfer_eq (c : Chip) (t : Transfer) (code : ResultCode) :
    c.cutTransfer t code = { Chip.giveBack t.spare c with
      bus := (Chip.giveBack t.spare c).bus.commandDone, cmd := c.cmd.finished code t.results } := by
  have h := Chip.cmd_of_requesters (Chip.requesters_giveBack t.spare c)
  have e : c.freeTransferSpare t = Chip.giveBack t.spare c := by
    unfold Chip.freeTransferSpare Chip.giveBack; cases t.spare <;> rfl
  unfold Chip.cutTransfer
  rw [e, ← h]; rfl

/-- A RELOCATE ROW job that ends with a STOP pending: its command ends with ABORTED and the registers of R118 (R118, R120). -/
theorem Chip.endJob_stop {c : Chip} {j : Job} (code : ResultCode) (hj : j.command = true) (hs : c.cmd.stopRequest = true) :
    c.endJob j code = { Chip.giveBack j.spare c with
      tr := { c.tr with repairClaim := none }, rep := { c.rep with st := .idle, job := none }
      bus := (Chip.giveBack j.spare c).bus.commandDone
      cmd := c.cmd.finished .aborted ⟨word (c.lookup j.row).code, (c.lookup j.row).targetWord, word j.madeBad, 0⟩ } := by
  have h := Chip.requesters_giveBack j.spare c
  have e : c.freeJobSpare j = Chip.giveBack j.spare c := by
    unfold Chip.freeJobSpare Chip.giveBack; cases j.spare <;> rfl
  unfold Chip.endJob
  simp only [hj, if_true, hs]
  rw [e]
  have hl : (Chip.giveBack j.spare c).idleRepair.lookup j.row = c.lookup j.row := by
    unfold Chip.lookup Chip.entryOf
    have : (Chip.giveBack j.spare c).idleRepair.tr.remap = c.tr.remap := by
      show (Chip.giveBack j.spare c).tr.remap = _; rw [Chip.tr_of_requesters h]
    rw [this]
  unfold Chip.relocateResults
  rw [hl, ← Chip.cmd_of_requesters h, ← Chip.tr_of_requesters h, ← Chip.rep_of_requesters h]; rfl

/-- A row done with a STOP pending ends the command (R66, R71). -/
theorem Chip.rowDone_stop {c : Chip} {t : Transfer} {k : Option ResultCode} {n : Nat} (h : c.cmd.stopRequest = true) :
    c.rowDone t k n = { c with bus := c.bus.commandDone, cmd := c.cmd.finished .aborted (t.count k n).results } := by
  unfold Chip.rowDone
  dsimp only
  rw [if_pos h]; rfl

/-- STOP in a state where the command only records it (R52). -/
theorem State.stop_recorded {s : State} (h1 : s.running = true) (h2 : s.cmd.st ≠ .idle) (hs : s.seq.settled = true)
    (h : Chip.stopWork { s.toChip with cmd := { s.cmd with stopRequest := true } } = { s.toChip with cmd := { s.cmd with stopRequest := true } }) :
    exec .stop s = .next { s with cmd := { s.cmd with stopRequest := true } } := by
  refine congrArg _ (State.next_onBus (c := { s.toChip with cmd := { s.cmd with stopRequest := true } }) h1 ?_ hs)
  unfold Chip.stopCommand; rw [if_neg h2]; exact h

/-- STOP in a state where it acts at once (R52). -/
theorem State.stop_ends {s : State} (h1 : s.running = true) (h2 : s.cmd.st ≠ .idle) {c : Chip} (hs : c.seq.settled = true)
    (h : Chip.stopWork { s.toChip with cmd := { s.cmd with stopRequest := true } } = c) :
    exec .stop s = .next { s with toChip := c } := by
  refine congrArg _ (State.next_onBus h1 ?_ hs)
  unfold Chip.stopCommand; rw [if_neg h2]; exact h

/-- Withdrawing a waiting foreground request keeps the port settled. -/
theorem Sequencer.settled_dropForeground {q : Sequencer} (hs : q.settled = true) {r : Request} (h : q.foreground = .waiting r) :
    ({ q with foreground := .empty } : Sequencer).settled = true := by
  unfold Sequencer.settled at hs ⊢
  have hc : q.current.isSome = true := by
    cases hq : q.current with
    | some v => rfl
    | none =>
      rw [hq] at hs
      have : q.firstWaiting = some (.foreground, r) := by unfold Sequencer.firstWaiting; rw [h]; rfl
      rw [this] at hs; cases hs
  have : ({ q with foreground := .empty } : Sequencer).current = q.current := by
    unfold Sequencer.current; simp only [h]; rfl
  rw [this, hc]; rfl

/-- Withdrawing a waiting repair request keeps the port settled. -/
theorem Sequencer.settled_dropRepair {q : Sequencer} (hs : q.settled = true) (h : q.repair = .empty ∨ ∃ r, q.repair = .waiting r) :
    ({ q with repair := .empty } : Sequencer).settled = true := by
  rcases h with h | ⟨r, h⟩
  · have : ({ q with repair := .empty } : Sequencer) = q := by cases q; simp only at h; subst h; rfl
    rw [this]; exact hs
  · unfold Sequencer.settled at hs ⊢
    have hc : q.current.isSome = true := by
      cases hq : q.current with
      | some v => rfl
      | none =>
        rw [hq] at hs
        exfalso
        have h0 : q.firstWaiting = none := by simpa using hs
        have h1 := Sequencer.firstWaiting_eq_none.1 h0 .repair
        rw [show q.slot .repair = q.repair from rfl, h] at h1; cases h1
    have : ({ q with repair := .empty } : Sequencer).current = q.current := by
      unfold Sequencer.current; simp only [h]; rfl
    rw [this, hc]; rfl

/-- A slot that holds no WAITING request. -/
theorem Slot.awaiting_none {q : Slot} (h : ∀ r, q ≠ .waiting r) : q.awaiting = none := by
  cases q with
  | empty => rfl
  | waiting r => exact absurd rfl (h r)
  | inProgress r => rfl

/-- A port at which no request waits. -/
theorem Sequencer.firstWaiting_none {q : Sequencer} (a : ∀ r, q.foreground ≠ .waiting r) (b : ∀ r, q.directory ≠ .waiting r)
    (c : ∀ r, q.repair ≠ .waiting r) (d : ∀ r, q.patrol ≠ .waiting r) : q.firstWaiting = none := by
  unfold Sequencer.firstWaiting
  rw [Slot.awaiting_none a, Slot.awaiting_none b, Slot.awaiting_none c, Slot.awaiting_none d]

/-- One try of a grant: the highest WAITING request is granted, or leaves with DROPPED and the grant passes on (R26, R28). -/
theorem Chip.grant_next {c : Chip} {k : AccessClass} {r : Request} (n : Nat) (h : c.seq.firstWaiting = some (k, r)) :
    (c.conditionFails r.purpose = false →
          c.grant (n + 1) = ({ c with seq := { c.seq.put k (.inProgress r) with readyTimer := true } }, []))
        ∧ (c.conditionFails r.purpose = true →
          let rest := Chip.grant n { c with seq := c.seq.put k .empty }
          c.grant (n + 1) = (rest.1, r.purpose :: rest.2)) := by
  refine ⟨?_, ?_⟩ <;> intro hc <;> simp only [Chip.grant, h, hc] <;> rfl

/-- The completion of an access its requester has given up, by any row of the table that ends it (R34, R35). -/
theorem State.next_discarded {s : State} {r : Request} {i : Instr} {arr : Memory} (hq : s.seq = Sequencer.carrying r)
    (ha : r.abandoned = true) (he : s.accessEnds i r arr) :
    exec i s = .next { s with toChip := (s.toChip.portFreed.discarded r.purpose.cls).settle 8, array := arr } := by
  have hcur : s.seq.current = some (r.purpose.cls, r) := by rw [hq]; exact Sequencer.current_carrying r
  have hfin : ∀ act, s.toChip.finishAccess r.purpose.cls r act = (s.toChip.portFreed.discarded r.purpose.cls).settle 8 := by
    intro act
    unfold Chip.finishAccess
    dsimp only
    rw [if_pos ha]
    have : ({ s.toChip with seq := { s.toChip.seq.put r.purpose.cls .empty with readyTimer := false } } : Chip) = s.toChip.portFreed := by
      unfold Chip.portFreed
      rw [hq]
      cases h : r.purpose.cls <;> simp [Sequencer.carrying, Sequencer.put, h, Sequencer.reset]
    rw [this]
  rcases he with ⟨hc, hx, rfl⟩ | ⟨second, left, rfl, rfl⟩
  · have main : ∀ covers flips act, covers r.purpose = true → s.complete covers flips act =
        .next { s with toChip := (s.toChip.portFreed.discarded r.purpose.cls).settle 8, array := s.array.afterDone r } := by
      intro covers flips act hcov
      unfold State.complete
      rw [hcur]
      dsimp only
      rw [if_pos hcov, if_pos hx, hfin]
    obtain ⟨p, phys, data, ab⟩ := r
    cases p
    all_goals first
      | (have hc' : i = _ := hc
         subst hc'
         simp only [exec, execReadRowsReadDone, execCheckRowsReadDone, execScrubWriteDone, execOrdinaryWriteDone, execWriteRepairQualifyDone, execWriteRepairDataWriteDone, execWriteRepairVerifyDone, execInPlaceWriteDone, execReadBackDone, execRowInitialisationDone, execLoadReadDone, execCommitWriteDone, execCommitReadBackDone, execInvalidatingWriteDone, execSourceReadDone, execQualificationAccessDone, execCopyWriteDone, execVerifyReadDone, execZeroWriteDone, execZeroReadBackDone, execVisitReadDone, execPatrolScrubDone]
         exact main _ _ _ (by simp [Purpose.qualifyIndex]))
      | (obtain ⟨flips, rfl⟩ := (hc : ∃ flips, i = _)
         simp only [exec, execReadRowsReadDone, execCheckRowsReadDone, execScrubWriteDone, execOrdinaryWriteDone, execWriteRepairQualifyDone, execWriteRepairDataWriteDone, execWriteRepairVerifyDone, execInPlaceWriteDone, execReadBackDone, execRowInitialisationDone, execLoadReadDone, execCommitWriteDone, execCommitReadBackDone, execInvalidatingWriteDone, execSourceReadDone, execQualificationAccessDone, execCopyWriteDone, execVerifyReadDone, execZeroWriteDone, execZeroReadBackDone, execVisitReadDone, execPatrolScrubDone]
         exact main _ _ _ (by simp [Purpose.qualifyIndex]))
  · show Host.Outcome.next (s.readyExpires second left) = _
    unfold State.readyExpires
    rw [hcur]
    dsimp only
    rw [if_pos (by rw [hq]; rfl), hfin]

end Sys2Proof.Machine
end

