-- ==== Sys2Proof/Laws/Format.lean ====
section
/-! SUPPORT. What the begin and the end of a commit, the emptying of the tables and the end of a format leave (R146 to R151, R164, R166). -/

namespace Sys2Proof.Machine

/-! ## Commits -/

/-- The operating state after a commit has ended (R151). -/
theorem Chip.settleState_eq (c : Chip) : c.settleState = { c with
    dir := { c.dir with opState := if c.dir.validA && c.dir.validB then .ready else .degraded }
    bus := { c.bus with stateFlag := c.bus.stateFlag || decide ((if c.dir.validA && c.dir.validB then OperatingState.ready else .degraded) ≠ c.dir.opState) } } := by
  unfold Chip.settleState Chip.setOpState
  generalize (if c.dir.validA && c.dir.validB then OperatingState.ready else .degraded) = st
  split
  · rename_i h
    subst h
    simp
  · rename_i h
    have : decide (st ≠ c.dir.opState) = true := by simpa using fun e => h e.symm
    rw [this, Bool.or_true]

/-- What a commit that has ended leaves, by its outcome (R149, R150). -/
theorem Chip.judged_eq (c : Chip) (j : CommitJob) (why : Option CommitFailure) :
    let won := decide (why = none)
    let validA := if j.target = .a then won else c.dir.validA
    let validB := if j.target = .b then won else c.dir.validB
    let st : OperatingState := if validA && validB then .ready else .degraded
    let bus := { c.bus with stateFlag := c.bus.stateFlag || decide (st ≠ c.dir.opState) }
    ((c.judgeCommit j why).settleState).endCommitCommand why =
      { c with
        health := match why with | none => c.health | some w => (c.raise (.directoryFail j.target w)).health
        dir := { c.dir with
          mode := .idle, opState := st, commit := none, image := []
          validA, seqA := if j.target = .a then (if won then j.seq else 0) else c.dir.seqA
          validB, seqB := if j.target = .b then (if won then j.seq else 0) else c.dir.seqB
          dirty := c.dir.dirty || !won
          commitTimer := if won then c.dir.commitTimer else startDelay c.health.policy.commitDelay }
        bus := match c.cmd.work with | .commitRun _ _ => bus.commandDone | _ => bus
        cmd := match c.cmd.work with
          | .commitRun target seq =>
            c.cmd.finished (if won then .ok else .directoryFail)
              ⟨word target.code, seq.extractLsb' 16 16, seq.extractLsb' 0 16, word ((why.map CommitFailure.code).getD 0)⟩
          | _ => c.cmd } := by
  intro won validA validB st bus
  have hp : ∀ (b : NoticeBody) (c : Chip), (c.raise b).health.policy = c.health.policy := by
    intro b c; unfold Chip.raise; split <;> rfl
  have h0 : ∀ (c1 : Chip) (b : NoticeBody), c1.raise b = { c1 with health := (c1.raise b).health } := fun c1 b => Chip.raise_congr (c := c1) rfl rfl b
  have hh : ∀ (d : Chip) b, d.health = c.health → d.pat.pass = c.pat.pass → (d.raise b).health = (c.raise b).health := by
    intro d b h1 h2; rw [Chip.raise_congr (c := c) h1 h2]
  simp only [won, validA, validB, st, bus]
  obtain ⟨target, seq, index, reading, detached, ofFormat⟩ := j
  cases why with
  | none =>
    rw [Chip.settleState_eq]
    cases target <;>
      (simp only [Chip.judgeCommit, Chip.setCopy, Chip.closeCommit, Chip.endCommitCommand, Chip.endCommand]
       cases hw : c.cmd.work <;> simp [CommandEngine.finished, BusInterface.commandDone, seqHigh, seqLow])
  | some w =>
    have e1 : (Chip.raise (c.setCopy target false 0) (.directoryFail target w)) = { c.setCopy target false 0 with health := (c.raise (.directoryFail target w)).health } := by
      rw [h0, hh] <;> cases target <;> rfl
    have e0 : c.judgeCommit ⟨target, seq, index, reading, detached, ofFormat⟩ (some w) =
        (let c1 := Chip.closeCommit { c.setCopy target false 0 with health := (c.raise (.directoryFail target w)).health }
         { c1 with dir := { c1.dir with dirty := true, commitTimer := startDelay c.health.policy.commitDelay } }) := by
      simp only [Chip.judgeCommit]
      rw [e1]
      simp only [Chip.closeCommit, hp]
    rw [e0, Chip.settleState_eq]
    cases target <;>
      (simp only [Chip.setCopy, Chip.closeCommit, Chip.endCommitCommand, Chip.endCommand]
       cases hw : c.cmd.work <;> simp [CommandEngine.finished, BusInterface.commandDone, seqHigh, seqLow])

/-- What a commit that begins leaves (R146 to R148). -/
theorem Chip.beginCommit_eq (c : Chip) (t : Copy) (q : BitVec 32) (f : Bool) : c.beginCommit t q f =
    Chip.issue { c with
      tr := { c.tr with changes := 0 }
      dir := { c.dir with
        mode := .committing, dirty := false, commitTimer := none, image := c.imageOf q
        commit := some { target := t, seq := q, index := 0, reading := false, detached := false, ofFormat := f }
        validA := c.dir.validA && decide (t = .b), seqA := if t = .a then 0 else c.dir.seqA
        validB := c.dir.validB && decide (t = .a), seqB := if t = .b then 0 else c.dir.seqB } }
      .commitWrite (t.phys 0) (some ((c.imageOf q).getD 0 [])) := by
  cases t <;> simp [Chip.beginCommit, Chip.setCopy]

/-! ## Formats -/

/-- What the emptying of the tables leaves (R134, R164). -/
theorem Chip.emptyTables_eq (c : Chip) : c.emptyTables = { c with
    tr := { remap := [], changes := 0, repairClaim := none, patrolClaim := none }
    rep := { st := .idle, job := none, waiting := none }
    seq := { c.seq with repair := c.seq.repair.abandon, patrol := c.seq.patrol.abandon }
    alloc := { zones := freshZones c.devices }
    trk := { watch := List.replicate 64 none, pendingList := [] }
    pat := { PatrolEngine.reset with pace := c.pat.pace }
    dir := { c.dir with dirty := false, commitRequest := false, commitTimer := none }
    health := { c.health with
      policy := Policy.default, lost := false, grade := .good
      queue := ⟨.patrolStopped .format, 0⟩ :: if c.health.grade = .good then [] else [⟨.gradeChange .good, 0⟩] }
    bus := { c.bus with gradeFlag := c.bus.gradeFlag || decide (c.health.grade ≠ .good) } } := by
  have hgood : ∀ n, (List.take (8 * n) (freshZones n)).foldl (fun (g : Grade) (z : Zone) => g.worse z.grade) Grade.good = Grade.good := by
    intro n
    have hz : ∀ z ∈ freshZones n, z.grade = .good := by
      intro z hz; simp only [freshZones, List.mem_map] at hz
      obtain ⟨a, _, rfl⟩ := hz; split <;> rfl
    have : ∀ l : List Zone, (∀ z ∈ l, z.grade = .good) → l.foldl (fun (g : Grade) (z : Zone) => g.worse z.grade) Grade.good = Grade.good := by
      intro l hl
      induction l with
      | nil => rfl
      | cons a l ih => rw [List.foldl_cons, hl a (by simp)]; exact ih (fun z hz => hl z (by simp [hz]))
    exact this _ (fun z hz' => hz z (List.mem_of_mem_take hz'))
  have hcg : ∀ d : Chip, d.tr.remap = [] → d.trk.pendingList = [] → d.alloc.zones = freshZones c.devices → d.devices = c.devices → d.computedGrade = .good := by
    intro d h1 h2 h3 h4
    unfold Chip.computedGrade Chip.worstZone Chip.retiredCount Chip.stuckCount
    rw [h1, h2, h3, h4, if_neg (by simp)]; exact hgood _
  let d : Chip := { c with
      tr := { remap := [], changes := 0, repairClaim := none, patrolClaim := none }
      rep := { st := .idle, job := none, waiting := none }
      seq := { c.seq with repair := c.seq.repair.abandon, patrol := c.seq.patrol.abandon }
      alloc := { zones := freshZones c.devices }
      trk := { watch := List.replicate 64 none, pendingList := [] }
      pat := { PatrolEngine.reset with pace := c.pat.pace }
      dir := { c.dir with dirty := false, commitRequest := false, commitTimer := none }
      health := { c.health with policy := Policy.default, lost := false, queue := [⟨.patrolStopped .format, 0⟩] } }
  have key : c.emptyTables = d.regradeDevice := rfl
  rw [key]; unfold Chip.regradeDevice
  have h1 : d.computedGrade = .good := hcg d rfl rfl rfl rfl
  rw [h1]
  have h2 : d.health.grade = c.health.grade := rfl
  rw [h2]
  by_cases h : c.health.grade = .good
  · rw [if_pos h.symm, if_pos h]
    simp only [h, ne_eq, not_true_eq_false, decide_false, Bool.or_false, if_true]
    show d = _
    simp only [d]; rw [← h]
  · rw [if_neg (fun e => h e.symm), if_neg h]
    simp only [h, ne_eq, not_false_eq_true, decide_true, Bool.or_true]
    rfl

/-- What the end of a format leaves (R166, R167). -/
theorem Chip.endFormat_eq {c : Chip} (st : OperatingState) (code : ResultCode) (n : Nat) (h : c.dir.opState = .formatting) (hs : st ≠ .formatting) :
    c.endFormat st code n = { c with
      dir := { c.dir with format := none, opState := st }
      bus := { c.bus with stateFlag := true, cmdDone := c.bus.cmdDone || decide (c.cmd.work = .format) }
      cmd := if c.cmd.work = .format then c.cmd.finished code ⟨c.cmd.results.r0, word n, 0, 0⟩ else c.cmd } := by
  have h1 : (c.setFormat none).setOpState st = { c with dir := { c.dir with format := none, opState := st }, bus := { c.bus with stateFlag := true } } := by
    unfold Chip.setOpState
    rw [if_neg (by show ¬ c.dir.opState = st; rw [h]; exact fun e => hs e.symm)]; rfl
  unfold Chip.endFormat
  rw [h1]
  by_cases hw : c.cmd.work = .format
  · simp only [hw, if_true, decide_true, Bool.or_true]; simp [Chip.endCommand, CommandEngine.finished]
  · simp [hw]

end Sys2Proof.Machine
end

