-- ==== Sys2Proof/Laws/Frames.lean ====
section
/-! SUPPORT. No operation of the part changes its board: the supply, the RSTn pin and the device count (R1, R36). -/

namespace Sys2Proof.Machine

/-- The supply, the RSTn pin and the device count. -/
structure Board where
  powered     : Bool
  rstAsserted : Bool
  devices     : Nat

/-- The board of a part. -/
def Chip.board (c : Chip) : Board := ⟨c.powered, c.rstAsserted, c.devices⟩

/-- An update of the blocks keeps the board. -/
@[simp] theorem Chip.board_update (c : Chip) (bus : BusInterface) (cmd : CommandEngine) (seq : Sequencer)
    (tr : Translator) (trk : ErrorTracker) (alloc : SpareAllocator) (rep : RepairEngine) (pat : PatrolEngine)
    (dir : DirectoryUnit) (health : HealthUnit) :
    (Chip.mk c.powered c.rstAsserted c.devices bus cmd seq tr trk alloc rep pat dir health).board = c.board := rfl

@[simp] theorem Chip.board_putSlot (c : Chip) (k : AccessClass) (s : Slot) : (c.putSlot k s).board = c.board := by
  unfold Chip.putSlot; (try dsimp only); (repeat' split) <;> simp

@[simp] theorem Chip.board_issue (c : Chip) (purpose : Purpose) (phys : PhysRow) (data : Option (List Word)) :
    (c.issue purpose phys data).board = c.board := by
  unfold Chip.issue; (try dsimp only); (repeat' split) <;> simp

@[simp] theorem Chip.board_issueForeground (c : Chip) (purpose : Purpose) (phys : PhysRow) (data : Option (List Word)) :
    (c.issueForeground purpose phys data).board = c.board := by
  unfold Chip.issueForeground; (try dsimp only); (repeat' split) <;> simp

@[simp] theorem Chip.board_markClaims (c : Chip) (l : Nat) : (c.markClaims l).board = c.board := by
  unfold Chip.markClaims; (try dsimp only); (repeat' split) <;> simp

@[simp] theorem Chip.board_markPatrolClaim (c : Chip) (l : Nat) : (c.markPatrolClaim l).board = c.board := by
  unfold Chip.markPatrolClaim; (try dsimp only); (repeat' split) <;> simp

@[simp] theorem Chip.board_raise (c : Chip) (b : NoticeBody) : (c.raise b).board = c.board := by
  unfold Chip.raise; (try dsimp only); (repeat' split) <;> simp

@[simp] theorem Chip.board_regradeDevice (c : Chip) : (c.regradeDevice).board = c.board := by
  unfold Chip.regradeDevice; (try dsimp only); (repeat' split) <;> simp

@[simp] theorem Chip.board_modifyZone (c : Chip) (g : Nat) (f : Zone → Zone) :
    (c.modifyZone g f).board = c.board := by
  unfold Chip.modifyZone; (try dsimp only); (repeat' split) <;> simp

@[simp] theorem Chip.board_setSpare (c : Chip) (t : SpareId) (st : SpareState) :
    (c.setSpare t st).board = c.board := by
  unfold Chip.setSpare; (try dsimp only); (repeat' split) <;> simp

@[simp] theorem Chip.board_releaseSpare (c : Chip) (t : SpareId) : (c.releaseSpare t).board = c.board := by
  unfold Chip.releaseSpare; (try dsimp only); (repeat' split) <;> simp

@[simp] theorem Chip.board_setDirty (c : Chip) : (c.setDirty).board = c.board := by
  unfold Chip.setDirty; (try dsimp only); (repeat' split) <;> simp

@[simp] theorem Chip.board_setOpState (c : Chip) (st : OperatingState) : (c.setOpState st).board = c.board := by
  unfold Chip.setOpState; (try dsimp only); (repeat' split) <;> simp

@[simp] theorem Chip.board_endCommand (c : Chip) (code : ResultCode) (res : Results) :
    (c.endCommand code res).board = c.board := by
  unfold Chip.endCommand; (try dsimp only); (repeat' split) <;> simp

@[simp] theorem Chip.board_setWork (c : Chip) (w : Work) : (c.setWork w).board = c.board := by
  unfold Chip.setWork; (try dsimp only); (repeat' split) <;> simp

@[simp] theorem Chip.board_offer (c : Chip) (ws : List Word) : (c.offer ws).board = c.board := by
  unfold Chip.offer; (try dsimp only); (repeat' split) <;> simp

@[simp] theorem Chip.board_askRow (c : Chip) : (c.askRow).board = c.board := by
  unfold Chip.askRow; (try dsimp only); (repeat' split) <;> simp

@[simp] theorem Chip.board_setResult0 (c : Chip) (n : Nat) : (c.setResult0 n).board = c.board := by
  unfold Chip.setResult0; (try dsimp only); (repeat' split) <;> simp

@[simp] theorem Chip.board_updatePending (c : Chip) (l : Nat) (f : PendingEntry → PendingEntry) :
    (c.updatePending l f).board = c.board := by
  unfold Chip.updatePending; (try dsimp only); (repeat' split) <;> simp

@[simp] theorem Chip.board_removePending (c : Chip) (l : Nat) : (c.removePending l).board = c.board := by
  unfold Chip.removePending; (try dsimp only); (repeat' split) <;> simp

@[simp] theorem Chip.board_setRestarts (c : Chip) (l n : Nat) : (c.setRestarts l n).board = c.board := by
  unfold Chip.setRestarts; (try dsimp only); (repeat' split) <;> simp

@[simp] theorem Chip.board_clearRestarts (c : Chip) : (c.clearRestarts).board = c.board := by
  unfold Chip.clearRestarts; (try dsimp only); (repeat' split) <;> simp

@[simp] theorem Chip.board_deferPending (c : Chip) (l : Nat) : (c.deferPending l).board = c.board := by
  unfold Chip.deferPending; (try dsimp only); (repeat' split) <;> simp

@[simp] theorem Chip.board_putWatch (c : Chip) (i : Nat) (o : Option WatchEntry) :
    (c.putWatch i o).board = c.board := by
  unfold Chip.putWatch; (try dsimp only); (repeat' split) <;> simp

@[simp] theorem Chip.board_removeWatch (c : Chip) (l : Nat) : (c.removeWatch l).board = c.board := by
  unfold Chip.removeWatch; (try dsimp only); (repeat' split) <;> simp

@[simp] theorem Chip.board_watchInsert (c : Chip) (l : Nat) : (c.watchInsert l).board = c.board := by
  unfold Chip.watchInsert; (try dsimp only); (repeat' split) <;> simp

@[simp] theorem Chip.board_ageWatch (c : Chip) : (c.ageWatch).board = c.board := by
  unfold Chip.ageWatch; (try dsimp only); (repeat' split) <;> simp

@[simp] theorem Chip.board_addPending (c : Chip) (l : Nat) (cause : Cause) (source : Origin) :
    (c.addPending l cause source).board = c.board := by
  unfold Chip.addPending; (try dsimp only); (repeat' split) <;> simp

@[simp] theorem Chip.board_offerUnc (c : Chip) (l : Nat) (path : Origin) : (c.offerUnc l path).board = c.board := by
  unfold Chip.offerUnc; (try dsimp only); (repeat' split) <;> simp

@[simp] theorem Chip.board_countUnc (c : Chip) (l : Nat) : (c.countUnc l).board = c.board := by
  unfold Chip.countUnc; (try dsimp only); (repeat' split) <;> simp

@[simp] theorem Chip.board_reportUnc (c : Chip) (l : Nat) (path : Origin) : (c.reportUnc l path).board = c.board := by
  unfold Chip.reportUnc; (try dsimp only); (repeat' split) <;> simp

@[simp] theorem Chip.board_readableAgain (c : Chip) (l : Nat) : (c.readableAgain l).board = c.board := by
  unfold Chip.readableAgain; (try dsimp only); (repeat' split) <;> simp

@[simp] theorem Chip.board_watchCount (c : Chip) (l : Nat) (i : Nat) (e : WatchEntry) (path : Origin) :
    (c.watchCount l i e path).board = c.board := by
  unfold Chip.watchCount; (try dsimp only); (repeat' split) <;> simp

@[simp] theorem Chip.board_reportCorrected (c : Chip) (l : Nat) (path : Origin) :
    (c.reportCorrected l path).board = c.board := by
  unfold Chip.reportCorrected; (try dsimp only); (repeat' split) <;> simp

@[simp] theorem Chip.board_reportClean (c : Chip) (l : Nat) : (c.reportClean l).board = c.board := by
  unfold Chip.reportClean; (try dsimp only); (repeat' split) <;> simp

@[simp] theorem Chip.board_reportCleanReadBack (c : Chip) (l : Nat) : (c.reportCleanReadBack l).board = c.board := by
  unfold Chip.reportCleanReadBack; (try dsimp only); (repeat' split) <;> simp

@[simp] theorem Chip.board_report (c : Chip) (r : Report) : (c.report r).board = c.board := by
  unfold Chip.report; (try dsimp only); (repeat' split) <;> simp

@[simp] theorem Chip.board_setStarved (c : Chip) (l : Nat) : (c.setStarved l).board = c.board := by
  unfold Chip.setStarved; (try dsimp only); (repeat' split) <;> simp

@[simp] theorem Chip.board_setStuck (c : Chip) (l : Nat) : (c.setStuck l).board = c.board := by
  unfold Chip.setStuck; (try dsimp only); (repeat' split) <;> simp

@[simp] theorem Chip.board_setCopy (c : Chip) (k : Copy) (valid : Bool) (seq : BitVec 32) :
    (c.setCopy k valid seq).board = c.board := by
  unfold Chip.setCopy; (try dsimp only); (repeat' split) <;> simp

@[simp] theorem Chip.board_beginCommit (c : Chip) (target : Copy) (seq : BitVec 32) (ofFormat : Bool) :
    (c.beginCommit target seq ofFormat).board = c.board := by
  unfold Chip.beginCommit; (try dsimp only); (repeat' split) <;> simp

@[simp] theorem Chip.board_bindCommit (c : Chip) (target : Copy) (seq : BitVec 32) :
    (c.bindCommit target seq).board = c.board := by
  unfold Chip.bindCommit; (try dsimp only); (repeat' split) <;> simp

@[simp] theorem Chip.board_startCommit (c : Chip) : (c.startCommit).board = c.board := by
  unfold Chip.startCommit; (try dsimp only); (repeat' split) <;> simp

@[simp] theorem Chip.board_trigger (c : Chip) : (c.trigger).board = c.board := by
  unfold Chip.trigger; (try dsimp only); (repeat' split) <;> simp

@[simp] theorem Chip.board_setCommit (c : Chip) (j : CommitJob) : (c.setCommit j).board = c.board := by
  unfold Chip.setCommit; (try dsimp only); (repeat' split) <;> simp

@[simp] theorem Chip.board_issueCommit (c : Chip) (j : CommitJob) : (c.issueCommit j).board = c.board := by
  unfold Chip.issueCommit; (try dsimp only); (repeat' split) <;> simp

@[simp] theorem Chip.board_commitWritten (c : Chip) : (c.commitWritten).board = c.board := by
  unfold Chip.commitWritten; (try dsimp only); (repeat' split) <;> simp

@[simp] theorem Chip.board_takeSpare (c : Chip) (t : SpareId) : (c.takeSpare t).board = c.board := by
  unfold Chip.takeSpare; (try dsimp only); (repeat' split) <;> simp

@[simp] theorem Chip.board_reportExhausted (c : Chip) (home : Nat) : (c.reportExhausted home).board = c.board := by
  unfold Chip.reportExhausted; (try dsimp only); (repeat' split) <;> simp

@[simp] theorem Chip.board_spoilSpare (c : Chip) (t : SpareId) : (c.spoilSpare t).board = c.board := by
  unfold Chip.spoilSpare; (try dsimp only); (repeat' split) <;> simp

@[simp] theorem Chip.board_countBorrow (c : Chip) (l : Nat) (t : SpareId) (f : Nat → Nat) :
    (c.countBorrow l t f).board = c.board := by
  unfold Chip.countBorrow; (try dsimp only); (repeat' split) <;> simp

@[simp] theorem Chip.board_putEntry (c : Chip) (l : Nat) (place : Placement) (origin : Origin) :
    (c.putEntry l place origin).board = c.board := by
  unfold Chip.putEntry; (try dsimp only); (repeat' split) <;> simp

@[simp] theorem Chip.board_dropTarget (c : Chip) (l : Nat) (t : SpareId) : (c.dropTarget l t).board = c.board := by
  unfold Chip.dropTarget; (try dsimp only); (repeat' split) <;> simp

@[simp] theorem Chip.board_countChange (c : Chip) : (c.countChange).board = c.board := by
  unfold Chip.countChange; (try dsimp only); (repeat' split) <;> simp

@[simp] theorem Chip.board_mapUpdate (c : Chip) (l : Nat) (t : SpareId) (origin : Origin) :
    (c.mapUpdate l t origin).board = c.board := by
  unfold Chip.mapUpdate; (try dsimp only); (repeat' split) <;> simp

@[simp] theorem Chip.board_relocateTo (c : Chip) (l : Nat) (t : SpareId) (origin : Origin) :
    (c.relocateTo l t origin).board = c.board := by
  unfold Chip.relocateTo; (try dsimp only); (repeat' split) <;> simp

@[simp] theorem Chip.board_retireRow (c : Chip) (l : Nat) (origin : Origin) :
    (c.retireRow l origin).board = c.board := by
  unfold Chip.retireRow; (try dsimp only); (repeat' split) <;> simp

@[simp] theorem Chip.board_retireOrStick (c : Chip) (l : Nat) (origin : Origin) :
    (c.retireOrStick l origin).1.board = c.board := by
  unfold Chip.retireOrStick; (repeat' split) <;> simp

theorem Chip.board_of_retireOrStick {c c2 : Chip} {l : Nat} {origin : Origin} {a : RetireAnswer}
    (h : c.retireOrStick l origin = (c2, a)) : c2.board = c.board := by
  rw [← Chip.board_retireOrStick c l origin, h]

@[simp] theorem Chip.board_emptyTables (c : Chip) : (c.emptyTables).board = c.board := by
  unfold Chip.emptyTables; (try dsimp only); (repeat' split) <;> simp

@[simp] theorem Chip.board_setFormat (c : Chip) (f : Option FormatJob) : (c.setFormat f).board = c.board := by
  unfold Chip.setFormat; (try dsimp only); (repeat' split) <;> simp

@[simp] theorem Chip.board_invalidate (c : Chip) (k : Copy) : (c.invalidate k).board = c.board := by
  unfold Chip.invalidate; (try dsimp only); (repeat' split) <;> simp

@[simp] theorem Chip.board_startInvalidation (c : Chip) : (c.startInvalidation).board = c.board := by
  unfold Chip.startInvalidation; (try dsimp only); (repeat' split) <;> simp

@[simp] theorem Chip.board_initialiseRow (c : Chip) (k : Nat) : (c.initialiseRow k).board = c.board := by
  unfold Chip.initialiseRow; (try dsimp only); (repeat' split) <;> simp

@[simp] theorem Chip.board_formatCommit (c : Chip) (k : Copy) : (c.formatCommit k).board = c.board := by
  unfold Chip.formatCommit; (try dsimp only); (repeat' split) <;> simp

@[simp] theorem Chip.board_endFormat (c : Chip) (st : OperatingState) (code : ResultCode) (copies : Nat) :
    (c.endFormat st code copies).board = c.board := by
  unfold Chip.endFormat; (try dsimp only); (repeat' split) <;> simp

@[simp] theorem Chip.board_detachCommit (c : Chip) : (c.detachCommit).board = c.board := by
  unfold Chip.detachCommit; (try dsimp only); (repeat' split) <;> simp

@[simp] theorem Chip.board_endFormatEarly (c : Chip) (code : ResultCode) :
    (c.endFormatEarly code).board = c.board := by
  unfold Chip.endFormatEarly; (try dsimp only); (repeat' split) <;> simp

@[simp] theorem Chip.board_invalidated (c : Chip) : (c.invalidated).board = c.board := by
  unfold Chip.invalidated; (try dsimp only); (repeat' split) <;> simp

@[simp] theorem Chip.board_rowInitialised (c : Chip) : (c.rowInitialised).board = c.board := by
  unfold Chip.rowInitialised; (try dsimp only); (repeat' split) <;> simp

@[simp] theorem Chip.board_startFormat (c : Chip) : (c.startFormat).board = c.board := by
  unfold Chip.startFormat; (try dsimp only); (repeat' split) <;> simp

@[simp] theorem Chip.board_closeCommit (c : Chip) : (c.closeCommit).board = c.board := by
  unfold Chip.closeCommit; (try dsimp only); (repeat' split) <;> simp

@[simp] theorem Chip.board_settleState (c : Chip) : (c.settleState).board = c.board := by
  unfold Chip.settleState; (try dsimp only); (repeat' split) <;> simp

@[simp] theorem Chip.board_endCommitCommand (c : Chip) (why : Option CommitFailure) :
    (c.endCommitCommand why).board = c.board := by
  unfold Chip.endCommitCommand; (try dsimp only); (repeat' split) <;> simp

@[simp] theorem Chip.board_takeCommitRequest (c : Chip) : (c.takeCommitRequest).board = c.board := by
  unfold Chip.takeCommitRequest; (try dsimp only); (repeat' split) <;> simp

@[simp] theorem Chip.board_judgeCommit (c : Chip) (j : CommitJob) (why : Option CommitFailure) :
    (c.judgeCommit j why).board = c.board := by
  cases why with
  | none => simp [Chip.judgeCommit]
  | some w => exact (Chip.board_closeCommit _).trans ((Chip.board_raise _ _).trans (Chip.board_setCopy _ _ _ _))

@[simp] theorem Chip.board_formatCommitEnds (c : Chip) (j : CommitJob) (why : Option CommitFailure) :
    (c.formatCommitEnds j why).board = c.board := by
  unfold Chip.formatCommitEnds; (try dsimp only); (repeat' split) <;> simp

@[simp] theorem Chip.board_commitEnds (c : Chip) (why : Option CommitFailure) :
    (c.commitEnds why).board = c.board := by
  unfold Chip.commitEnds; (try dsimp only); (repeat' split) <;> simp

@[simp] theorem Chip.board_commitReadBack (c : Chip) (d : Delivered) : (c.commitReadBack d).board = c.board := by
  unfold Chip.commitReadBack; (try dsimp only); (repeat' split) <;> simp

@[simp] theorem Chip.board_setPat (c : Chip) (p : PatrolEngine) : (c.setPat p).board = c.board := by
  unfold Chip.setPat; (try dsimp only); (repeat' split) <;> simp

@[simp] theorem Chip.board_clearPatrolClaim (c : Chip) : (c.clearPatrolClaim).board = c.board := by
  unfold Chip.clearPatrolClaim; (try dsimp only); (repeat' split) <;> simp

@[simp] theorem Chip.board_stopPatrol (c : Chip) (why : StopReason) : (c.stopPatrol why).board = c.board := by
  unfold Chip.stopPatrol; (try dsimp only); (repeat' split) <;> simp

@[simp] theorem Chip.board_endPass (c : Chip) : (c.endPass).board = c.board := by
  unfold Chip.endPass; (try dsimp only); (repeat' split) <;> simp

@[simp] theorem Chip.board_advanceCursor (c : Chip) : (c.advanceCursor).board = c.board := by
  unfold Chip.advanceCursor; (try dsimp only); (repeat' split) <;> simp

@[simp] theorem Chip.board_beginVisit (c : Chip) (p : PhysRow) : (c.beginVisit p).board = c.board := by
  unfold Chip.beginVisit; (try dsimp only); (repeat' split) <;> simp

@[simp] theorem Chip.board_skipRow (c : Chip) : (c.skipRow).board = c.board := by
  unfold Chip.skipRow; (try dsimp only); (repeat' split) <;> simp

@[simp] theorem Chip.board_handleCursor (n : Nat) (c : Chip) : (Chip.handleCursor n c).board = c.board := by
  induction n generalizing c with
  | zero => rfl
  | succ n ih => simp only [Chip.handleCursor]; (repeat' split) <;> simp [ih]

@[simp] theorem Chip.board_patrolOn (c : Chip) : (c.patrolOn).board = c.board := by
  unfold Chip.patrolOn; (try dsimp only); (repeat' split) <;> simp

@[simp] theorem Chip.board_endPatrolHalt (c : Chip) : (c.endPatrolHalt).board = c.board := by
  unfold Chip.endPatrolHalt; (try dsimp only); (repeat' split) <;> simp

@[simp] theorem Chip.board_endPatrolRestart (c : Chip) : (c.endPatrolRestart).board = c.board := by
  unfold Chip.endPatrolRestart; (try dsimp only); (repeat' split) <;> simp

@[simp] theorem Chip.board_restartPass (c : Chip) : (c.restartPass).board = c.board := by
  unfold Chip.restartPass; (try dsimp only); (repeat' split) <;> simp

@[simp] theorem Chip.board_endVisit (c : Chip) (o : ReadOutcome) : (c.endVisit o).board = c.board := by
  unfold Chip.endVisit; (try dsimp only); (repeat' split) <;> simp

@[simp] theorem Chip.board_visitRead (c : Chip) (p : PhysRow) (d : Delivered) :
    (c.visitRead p d).board = c.board := by
  unfold Chip.visitRead; (try dsimp only); (repeat' split) <;> simp

@[simp] theorem Chip.board_patrolTimeout (c : Chip) : (c.patrolTimeout).board = c.board := by
  unfold Chip.patrolTimeout; (try dsimp only); (repeat' split) <;> simp

@[simp] theorem Chip.board_paceRunsOut (c : Chip) : (c.paceRunsOut).board = c.board := by
  unfold Chip.paceRunsOut; (try dsimp only); (repeat' split) <;> simp

@[simp] theorem Chip.board_abandonVisit (c : Chip) : (c.abandonVisit).board = c.board := by
  rfl

@[simp] theorem Chip.board_paceNow (c : Chip) : (c.paceNow).board = c.board := by
  unfold Chip.paceNow; (try dsimp only); (repeat' split) <;> simp

@[simp] theorem Chip.board_softResetPatrol (c : Chip) : (c.softResetPatrol).board = c.board := by
  unfold Chip.softResetPatrol; (try dsimp only); (repeat' split) <;> simp

@[simp] theorem Chip.board_startPatrol (c : Chip) (mode : PatrolMode) (pace : Nat) (restart : Bool) :
    (c.startPatrol mode pace restart).board = c.board := by
  unfold Chip.startPatrol; (try dsimp only); (repeat' split) <;> simp

@[simp] theorem Chip.board_haltPatrol (c : Chip) : (c.haltPatrol).board = c.board := by
  unfold Chip.haltPatrol; (try dsimp only); (repeat' split) <;> simp

@[simp] theorem Chip.board_handOver (c : Chip) (l : Loaded) (st : OperatingState) :
    (c.handOver l st).board = c.board := by
  unfold Chip.handOver; (try dsimp only); (repeat' split) <;> simp

@[simp] theorem Chip.board_endLoad (c : Chip) : (c.endLoad).board = c.board := by
  unfold Chip.endLoad; (try dsimp only); (repeat' split) <;> simp

@[simp] theorem Chip.board_startLoading (c : Chip) : (c.startLoading).board = c.board := by
  unfold Chip.startLoading; (try dsimp only); (repeat' split) <;> simp

@[simp] theorem Chip.board_loadStep (c : Chip) (d : Option Delivered) : (c.loadStep d).board = c.board := by
  unfold Chip.loadStep; (try dsimp only); (repeat' split) <;> simp

@[simp] theorem Chip.board_loadRead (c : Chip) (d : Option Delivered) : (c.loadRead d).board = c.board := by
  unfold Chip.loadRead; (try dsimp only); (repeat' split) <;> simp

@[simp] theorem Chip.board_freeJobSpare (c : Chip) (j : Job) : (c.freeJobSpare j).board = c.board := by
  unfold Chip.freeJobSpare; (try dsimp only); (repeat' split) <;> simp

@[simp] theorem Chip.board_idleRepair (c : Chip) : (c.idleRepair).board = c.board := by
  unfold Chip.idleRepair; (try dsimp only); (repeat' split) <;> simp

@[simp] theorem Chip.board_endJob (c : Chip) (j : Job) (code : ResultCode) : (c.endJob j code).board = c.board := by
  unfold Chip.endJob; (try dsimp only); (repeat' split) <;> simp

@[simp] theorem Chip.board_abandonJob (c : Chip) (j : Job) (code : ResultCode) :
    (c.abandonJob j code).board = c.board := by
  unfold Chip.abandonJob; (try dsimp only); (repeat' split) <;> simp

@[simp] theorem Chip.board_putJob (c : Chip) (st : RepairState) (j : Job) : (c.putJob st j).board = c.board := by
  unfold Chip.putJob; (try dsimp only); (repeat' split) <;> simp

@[simp] theorem Chip.board_issueJob (c : Chip) (st : RepairState) (j : Job) (p : Purpose) (phys : PhysRow) (data : Option (List Word)) :
    (c.issueJob st j p phys data).board = c.board := by
  unfold Chip.issueJob; (try dsimp only); (repeat' split) <;> simp

@[simp] theorem Chip.board_copyJob (c : Chip) (j : Job) (t : SpareId) : (c.copyJob j t).board = c.board := by
  unfold Chip.copyJob; (try dsimp only); (repeat' split) <;> simp

@[simp] theorem Chip.board_withData (c : Chip) (j : Job) : (c.withData j).1.board = c.board := by
  unfold Chip.withData; (repeat' split) <;> simp

@[simp] theorem Chip.board_enterSource (c : Chip) (j : Job) : (c.enterSource j).1.board = c.board := by
  unfold Chip.enterSource; (repeat' split) <;> simp

@[simp] theorem Chip.board_enterAllocate (c : Chip) (j : Job) : (c.enterAllocate j).1.board = c.board := by
  unfold Chip.enterAllocate; (repeat' split) <;> simp

@[simp] theorem Chip.board_jobUnserved (c : Chip) (j : Job) : (c.jobUnserved j).1.board = c.board := by
  unfold Chip.jobUnserved; (repeat' split) <;> simp

@[simp] theorem Chip.board_serveJob (c : Chip) (j : Job) : (c.serveJob j).1.board = c.board := by
  unfold Chip.serveJob; (repeat' split) <;> simp

@[simp] theorem Chip.board_setRepairClaim (c : Chip) (l : Nat) : (c.setRepairClaim l).board = c.board := by
  unfold Chip.setRepairClaim; (try dsimp only); (repeat' split) <;> simp

@[simp] theorem Chip.board_enterNoSpare (c : Chip) (j : Job) : (c.enterNoSpare j).1.board = c.board := by
  unfold Chip.enterNoSpare; (repeat' split) <;> simp

@[simp] theorem Chip.board_overtakeJob (c : Chip) (j : Job) : (c.overtakeJob j).1.board = c.board := by
  unfold Chip.overtakeJob; (repeat' split) <;> simp

@[simp] theorem Chip.board_repairMove (c : Chip) (m : RepairMove) (j : Job) :
    (c.repairMove m j).1.board = c.board := by
  cases m <;> simp [Chip.repairMove]

@[simp] theorem Chip.board_repairRun (n : Nat) (x : Chip × Option (RepairMove × Job)) :
    (Chip.repairRun n x).board = x.1.board := by
  induction n generalizing x with
  | zero => obtain ⟨c, _ | m⟩ := x <;> rfl
  | succ n ih => obtain ⟨c, _ | ⟨m, j⟩⟩ := x <;> simp [Chip.repairRun, ih]

@[simp] theorem Chip.board_repairGo (c : Chip) (m : RepairMove) (j : Job) : (c.repairGo m j).board = c.board := by
  unfold Chip.repairGo; (try dsimp only); (repeat' split) <;> simp

@[simp] theorem Chip.board_failSpare (c : Chip) (j : Job) (t : SpareId) : (c.failSpare j t).board = c.board := by
  unfold Chip.failSpare; (try dsimp only); (repeat' split) <;> simp

@[simp] theorem Chip.board_sourceRead (c : Chip) (j : Job) (p : PhysRow) (d : Delivered) :
    (c.sourceRead j p d).board = c.board := by
  unfold Chip.sourceRead; (try dsimp only); (repeat' split) <;> simp

@[simp] theorem Chip.board_qualified (c : Chip) (j : Job) (t : SpareId) (k : Nat) (d : Delivered) :
    (c.qualified j t k d).board = c.board := by
  unfold Chip.qualified; (try dsimp only); (repeat' split) <;> simp

@[simp] theorem Chip.board_copied (c : Chip) (j : Job) (t : SpareId) : (c.copied j t).board = c.board := by
  unfold Chip.copied; (try dsimp only); (repeat' split) <;> simp

@[simp] theorem Chip.board_verified (c : Chip) (j : Job) (t : SpareId) (d : Delivered) :
    (c.verified j t d).board = c.board := by
  unfold Chip.verified; (try dsimp only); (repeat' split) <;> simp

@[simp] theorem Chip.board_zeroWritten (c : Chip) (p : PhysRow) : (c.zeroWritten p).board = c.board := by
  unfold Chip.zeroWritten; (try dsimp only); (repeat' split) <;> simp

@[simp] theorem Chip.board_zeroReadBack (c : Chip) (j : Job) (p : PhysRow) (d : Delivered) :
    (c.zeroReadBack j p d).board = c.board := by
  unfold Chip.zeroReadBack; (try dsimp only)
  (repeat' split) <;> first
    | (simp; done)
    | (rename_i heq; simp [Chip.board_of_retireOrStick heq])

@[simp] theorem Chip.board_zeroDropped (c : Chip) : (c.zeroDropped).board = c.board := by
  unfold Chip.zeroDropped; (try dsimp only); (repeat' split) <;> simp

@[simp] theorem Chip.board_repairTimeout (c : Chip) : (c.repairTimeout).board = c.board := by
  unfold Chip.repairTimeout; (try dsimp only); (repeat' split) <;> simp

@[simp] theorem Chip.board_startJob (c : Chip) (j : Job) : (c.startJob j).board = c.board := by
  unfold Chip.startJob; rw [Chip.board_repairGo]; rfl

@[simp] theorem Chip.board_dropWaiting (c : Chip) : (c.dropWaiting).board = c.board := by
  unfold Chip.dropWaiting; (try dsimp only); (repeat' split) <;> simp

@[simp] theorem Chip.board_startCommandJob (c : Chip) (l : Nat) (discard : Bool) :
    (c.startCommandJob l discard).board = c.board := by
  unfold Chip.startCommandJob; (try dsimp only); (repeat' split) <;> simp

@[simp] theorem Chip.board_jobStart (c : Chip) : (c.jobStart).board = c.board := by
  unfold Chip.jobStart; (try dsimp only); (repeat' split) <;> simp

@[simp] theorem Chip.board_softResetRepair (c : Chip) : (c.softResetRepair).board = c.board := by
  unfold Chip.softResetRepair; (try dsimp only); (repeat' split) <;> simp

@[simp] theorem Chip.board_stopRelocate (c : Chip) (l : Nat) : (c.stopRelocate l).board = c.board := by
  unfold Chip.stopRelocate; (try dsimp only); (repeat' split) <;> simp

@[simp] theorem Chip.board_putTransfer (c : Chip) (t : Transfer) : (c.putTransfer t).board = c.board := by
  unfold Chip.putTransfer; (try dsimp only); (repeat' split) <;> simp

@[simp] theorem Chip.board_endTransfer (c : Chip) (t : Transfer) (code : ResultCode) :
    (c.endTransfer t code).board = c.board := by
  unfold Chip.endTransfer; (try dsimp only); (repeat' split) <;> simp

@[simp] theorem Chip.board_freeTransferSpare (c : Chip) (t : Transfer) : (c.freeTransferSpare t).board = c.board := by
  unfold Chip.freeTransferSpare; (try dsimp only); (repeat' split) <;> simp

@[simp] theorem Chip.board_cutTransfer (c : Chip) (t : Transfer) (code : ResultCode) :
    (c.cutTransfer t code).board = c.board := by
  unfold Chip.cutTransfer; (try dsimp only); (repeat' split) <;> simp

@[simp] theorem Chip.board_offerRow (c : Chip) (t : Transfer) (k : RowKind) (ws : List Word) :
    (c.offerRow t k ws).board = c.board := by
  unfold Chip.offerRow; (try dsimp only); (repeat' split) <;> simp

@[simp] theorem Chip.board_readRow (c : Chip) (t : Transfer) (purpose : Purpose) (p : PhysRow) :
    (c.readRow t purpose p).board = c.board := by
  unfold Chip.readRow; (try dsimp only); (repeat' split) <;> simp

@[simp] theorem Chip.board_beginRow (n : Nat) (c : Chip) (t : Transfer) : (Chip.beginRow n c t).board = c.board := by
  induction n generalizing c t with
  | zero => rfl
  | succ n ih => simp only [Chip.beginRow]; (repeat' split) <;> simp [ih]

@[simp] theorem Chip.board_rowDone (c : Chip) (t : Transfer) (fail : Option ResultCode) (extra : Nat) :
    (c.rowDone t fail extra).board = c.board := by
  unfold Chip.rowDone; (try dsimp only); (repeat' split) <;> simp

@[simp] theorem Chip.board_rowRead (c : Chip) (t : Transfer) (o : ReadOutcome) (ws : List Word) :
    (c.rowRead t o ws).board = c.board := by
  unfold Chip.rowRead; (try dsimp only); (repeat' split) <;> simp

@[simp] theorem Chip.board_transferRead (c : Chip) (t : Transfer) (p : PhysRow) (d : Delivered) :
    (c.transferRead t p d).board = c.board := by
  unfold Chip.transferRead; (try dsimp only); (repeat' split) <;> simp

@[simp] theorem Chip.board_scrubbed (c : Chip) (t : Transfer) (ws : List Word) :
    (c.scrubbed t ws).board = c.board := by
  unfold Chip.scrubbed; (try dsimp only); (repeat' split) <;> simp

@[simp] theorem Chip.board_hostWrite (c : Chip) (t : Transfer) (phase : RowPhase) (purpose : Purpose) (p : PhysRow) :
    (c.hostWrite t phase purpose p).board = c.board := by
  unfold Chip.hostWrite; (try dsimp only); (repeat' split) <;> simp

@[simp] theorem Chip.board_writeInPlace (c : Chip) (t : Transfer) : (c.writeInPlace t).board = c.board := by
  unfold Chip.writeInPlace; (try dsimp only); (repeat' split) <;> simp

@[simp] theorem Chip.board_qualifyForWrite (c : Chip) (t : Transfer) (s : SpareId) (k : Nat) :
    (c.qualifyForWrite t s k).board = c.board := by
  unfold Chip.qualifyForWrite; (try dsimp only); (repeat' split) <;> simp

@[simp] theorem Chip.board_allocateForWrite (c : Chip) (t : Transfer) : (c.allocateForWrite t).board = c.board := by
  unfold Chip.allocateForWrite; (try dsimp only); (repeat' split) <;> simp

@[simp] theorem Chip.board_beginWriteRepair (c : Chip) (t : Transfer) : (c.beginWriteRepair t).board = c.board := by
  unfold Chip.beginWriteRepair; (try dsimp only); (repeat' split) <;> simp

@[simp] theorem Chip.board_classify (c : Chip) (t : Transfer) : (c.classify t).board = c.board := by
  unfold Chip.classify; (try dsimp only); (repeat' split) <;> simp

@[simp] theorem Chip.board_written (c : Chip) (t : Transfer) : (c.written t).board = c.board := by
  unfold Chip.written; (try dsimp only); (repeat' split) <;> simp

@[simp] theorem Chip.board_failWriteSpare (c : Chip) (t : Transfer) (s : SpareId) :
    (c.failWriteSpare t s).board = c.board := by
  unfold Chip.failWriteSpare; (try dsimp only); (repeat' split) <;> simp

@[simp] theorem Chip.board_writeFoundRetired (c : Chip) (t : Transfer) : (c.writeFoundRetired t).board = c.board := by
  unfold Chip.writeFoundRetired; (try dsimp only); (repeat' split) <;> simp

@[simp] theorem Chip.board_writeToSpare (c : Chip) (t : Transfer) (s : SpareId) :
    (c.writeToSpare t s).board = c.board := by
  unfold Chip.writeToSpare; (try dsimp only); (repeat' split) <;> simp

@[simp] theorem Chip.board_writeQualified (c : Chip) (t : Transfer) (s : SpareId) (k : Nat) (d : Delivered) :
    (c.writeQualified t s k d).board = c.board := by
  unfold Chip.writeQualified; (try dsimp only); (repeat' split) <;> simp

@[simp] theorem Chip.board_spareWritten (c : Chip) (t : Transfer) (s : SpareId) :
    (c.spareWritten t s).board = c.board := by
  unfold Chip.spareWritten; (try dsimp only); (repeat' split) <;> simp

@[simp] theorem Chip.board_spareVerified (c : Chip) (t : Transfer) (s : SpareId) (d : Delivered) :
    (c.spareVerified t s d).board = c.board := by
  unfold Chip.spareVerified; (try dsimp only); (repeat' split) <;> simp

@[simp] theorem Chip.board_writtenInPlace (c : Chip) (t : Transfer) (p : PhysRow) :
    (c.writtenInPlace t p).board = c.board := by
  unfold Chip.writtenInPlace; (try dsimp only); (repeat' split) <;> simp

@[simp] theorem Chip.board_writeReadBack (c : Chip) (t : Transfer) (p : PhysRow) (d : Delivered) :
    (c.writeReadBack t p d).board = c.board := by
  unfold Chip.writeReadBack; (try dsimp only)
  (repeat' split) <;> first
    | (simp; done)
    | (rename_i heq; simp [Chip.board_of_retireOrStick heq])

@[simp] theorem Chip.board_stopTransfer (c : Chip) (t : Transfer) : (c.stopTransfer t).board = c.board := by
  unfold Chip.stopTransfer; (try dsimp only); (repeat' split) <;> simp

@[simp] theorem Chip.board_nextFill (c : Chip) (l : Listing) : (c.nextFill l).board = c.board := by
  unfold Chip.nextFill; (try dsimp only); (repeat' split) <;> simp

@[simp] theorem Chip.board_fillRead (c : Chip) (l : Listing) : (c.fillRead l).board = c.board := by
  unfold Chip.fillRead; (try dsimp only); (repeat' split) <;> simp

@[simp] theorem Chip.board_startListing (c : Chip) (kind : ListKind) (start count : Nat) :
    (c.startListing kind start count).board = c.board := by
  unfold Chip.startListing; (try dsimp only); (repeat' split) <;> simp

@[simp] theorem Chip.board_endNominate (c : Chip) (code : ResultCode) (index : Word) :
    (c.endNominate code index).board = c.board := by
  unfold Chip.endNominate; (try dsimp only); (repeat' split) <;> simp

@[simp] theorem Chip.board_nominate (c : Chip) (l : Nat) : (c.nominate l).board = c.board := by
  unfold Chip.nominate; (try dsimp only); (repeat' split) <;> simp

@[simp] theorem Chip.board_dropped (c : Chip) (p : Purpose) : (c.dropped p).board = c.board := by
  unfold Chip.dropped; (try dsimp only); (repeat' split) <;> simp

@[simp] theorem Chip.board_foldl_dropped (ps : List Purpose) (c : Chip) :
    (ps.foldl Chip.dropped c).board = c.board := by
  induction ps generalizing c with
  | nil => rfl
  | cons p ps ih => simp [ih]

@[simp] theorem Chip.board_grant (n : Nat) (c : Chip) : (Chip.grant n c).1.board = c.board := by
  induction n generalizing c with
  | zero => rfl
  | succ n ih => simp only [Chip.grant]; (repeat' split) <;> simp [ih]

@[simp] theorem Chip.board_settle (n : Nat) (c : Chip) : (Chip.settle n c).board = c.board := by
  induction n generalizing c with
  | zero => rfl
  | succ n ih => simp only [Chip.settle]; (repeat' split) <;> simp [ih]

@[simp] theorem Chip.board_discarded (c : Chip) (k : AccessClass) : (c.discarded k).board = c.board := by
  unfold Chip.discarded; (try dsimp only); (repeat' split) <;> simp

theorem Chip.board_finishAccess (c : Chip) (k : AccessClass) (r : Request) (act : Chip → Chip)
    (h : ∀ c : Chip, (act c).board = c.board) :
    (c.finishAccess k r act).board = c.board := by
  unfold Chip.finishAccess; (repeat' split) <;> simp [h]

theorem Chip.board_onTransfer (c : Chip) (f : Chip → Transfer → Chip)
    (h : ∀ (c : Chip) t, (f c t).board = c.board) :
    (c.onTransfer f).board = c.board := by
  unfold Chip.onTransfer; split <;> simp [h]

theorem Chip.board_onWriteRepair (c : Chip) (f : Chip → Transfer → SpareId → Chip)
    (h : ∀ (c : Chip) t s, (f c t s).board = c.board) :
    (c.onWriteRepair f).board = c.board := by
  unfold Chip.onWriteRepair; apply Chip.board_onTransfer; intro c t; (try dsimp only); split <;> simp [h]

theorem Chip.board_onJob (c : Chip) (f : Chip → Job → Chip)
    (h : ∀ (c : Chip) j, (f c j).board = c.board) :
    (c.onJob f).board = c.board := by
  unfold Chip.onJob; split <;> simp [h]

theorem Chip.board_onJobSpare (c : Chip) (f : Chip → Job → SpareId → Chip)
    (h : ∀ (c : Chip) j t, (f c j t).board = c.board) :
    (c.onJobSpare f).board = c.board := by
  unfold Chip.onJobSpare; apply Chip.board_onJob; intro c t; (try dsimp only); split <;> simp [h]

@[simp] theorem Chip.board_timedOut (c : Chip) (p : Purpose) : (c.timedOut p).board = c.board := by
  unfold Chip.timedOut; split <;> first
    | (simp; done)
    | (apply Chip.board_onTransfer; simp)

@[simp] theorem Chip.board_serveWaitingJob (c : Chip) : (c.serveWaitingJob).board = c.board := by
  unfold Chip.serveWaitingJob; (try dsimp only); (repeat' split) <;> simp

@[simp] theorem Chip.board_allocationServed (c : Chip) : (c.allocationServed).board = c.board := by
  unfold Chip.allocationServed; (try dsimp only); (repeat' split) <;> simp

@[simp] theorem Chip.board_refuseCommand (c : Chip) : (c.refuseCommand).board = c.board := by
  unfold Chip.refuseCommand; (try dsimp only); (repeat' split) <;> simp

@[simp] theorem Chip.board_acceptCommand (c : Chip) : (c.acceptCommand).board = c.board := by
  unfold Chip.acceptCommand; (try dsimp only); (repeat' split) <;> simp

@[simp] theorem Chip.board_endByCheck (c : Chip) (code : ResultCode) : (c.endByCheck code).board = c.board := by
  unfold Chip.endByCheck; (try dsimp only); (repeat' split) <;> simp

theorem Chip.board_takeCommand (c : Chip) (inState : OperatingState → Bool) (params : Params → Bool)
    (range : Chip → Params → Bool) (run : Chip → Params → Chip) (h : ∀ (c : Chip) p, (run c p).board = c.board) :
    (c.takeCommand inState params range run).board = c.board := by
  unfold Chip.takeCommand; (repeat' split) <;> simp [h]

@[simp] theorem Chip.board_transferCommand (c : Chip) (kind : TransferKind) :
    (c.transferCommand kind).board = c.board := by
  unfold Chip.transferCommand; apply Chip.board_takeCommand; intro c p; (try dsimp only); (repeat' split) <;> simp

@[simp] theorem Chip.board_queryCommand (c : Chip) : (c.queryCommand).board = c.board := by
  unfold Chip.queryCommand; apply Chip.board_takeCommand; intro c p; (try dsimp only); (repeat' split) <;> simp

@[simp] theorem Chip.board_nominateCommand (c : Chip) : (c.nominateCommand).board = c.board := by
  unfold Chip.nominateCommand; apply Chip.board_takeCommand; intro c p; (try dsimp only); (repeat' split) <;> simp

@[simp] theorem Chip.board_listCommand (c : Chip) (kind : ListKind) : (c.listCommand kind).board = c.board := by
  unfold Chip.listCommand; apply Chip.board_takeCommand; intro c p; (try dsimp only); (repeat' split) <;> simp

@[simp] theorem Chip.board_relocateLook (c : Chip) (l : Nat) (discard : Bool) :
    (c.relocateLook l discard).board = c.board := by
  unfold Chip.relocateLook; (try dsimp only); (repeat' split) <;> simp

@[simp] theorem Chip.board_relocateCommand (c : Chip) : (c.relocateCommand).board = c.board := by
  unfold Chip.relocateCommand; apply Chip.board_takeCommand; intro c p; (try dsimp only); (repeat' split) <;> simp

@[simp] theorem Chip.board_patrolStartCommand (c : Chip) : (c.patrolStartCommand).board = c.board := by
  unfold Chip.patrolStartCommand; apply Chip.board_takeCommand; intro c p; (try dsimp only); (repeat' split) <;> simp

@[simp] theorem Chip.board_patrolHaltCommand (c : Chip) : (c.patrolHaltCommand).board = c.board := by
  unfold Chip.patrolHaltCommand; apply Chip.board_takeCommand; intro c p; (try dsimp only); (repeat' split) <;> simp

@[simp] theorem Chip.board_patrolReportCommand (c : Chip) : (c.patrolReportCommand).board = c.board := by
  unfold Chip.patrolReportCommand; apply Chip.board_takeCommand; intro c p; (try dsimp only); (repeat' split) <;> simp

@[simp] theorem Chip.board_commitCommand (c : Chip) : (c.commitCommand).board = c.board := by
  unfold Chip.commitCommand; apply Chip.board_takeCommand; intro c p; (try dsimp only); (repeat' split) <;> simp

@[simp] theorem Chip.board_formatCommand (c : Chip) : (c.formatCommand).board = c.board := by
  unfold Chip.formatCommand; apply Chip.board_takeCommand; intro c p; (try dsimp only); (repeat' split) <;> simp

@[simp] theorem Chip.board_clearStarved (c : Chip) : (c.clearStarved).board = c.board := by
  unfold Chip.clearStarved; (try dsimp only); (repeat' split) <;> simp

@[simp] theorem Chip.board_regradeAll (c : Chip) : (c.regradeAll).board = c.board := by
  unfold Chip.regradeAll; (try dsimp only); (repeat' split) <;> simp

@[simp] theorem Chip.board_restartDelay (c : Chip) : (c.restartDelay).board = c.board := by
  unfold Chip.restartDelay; (try dsimp only); (repeat' split) <;> simp

@[simp] theorem Chip.board_applyPolicy (c : Chip) (p : Policy) : (c.applyPolicy p).board = c.board := by
  unfold Chip.applyPolicy; (try dsimp only); (repeat' split) <;> simp

@[simp] theorem Chip.board_setPolicyCommand (c : Chip) : (c.setPolicyCommand).board = c.board := by
  unfold Chip.setPolicyCommand; apply Chip.board_takeCommand; intro c p; (try dsimp only); (repeat' split) <;> simp

@[simp] theorem Chip.board_unknownCommand (c : Chip) : (c.unknownCommand).board = c.board := by
  unfold Chip.unknownCommand; (try dsimp only); (repeat' split) <;> simp

@[simp] theorem Chip.board_writeCommand (c : Chip) (w : Word) : (c.writeCommand w).board = c.board := by
  unfold Chip.writeCommand; (try dsimp only); (repeat' split) <;> simp

@[simp] theorem Chip.board_stopFormat (c : Chip) : (c.stopFormat).board = c.board := by
  unfold Chip.stopFormat; (try dsimp only); (repeat' split) <;> simp

@[simp] theorem Chip.board_stopWork (c : Chip) : (c.stopWork).board = c.board := by
  unfold Chip.stopWork; (try dsimp only); (repeat' split) <;> simp

@[simp] theorem Chip.board_stopCommand (c : Chip) : (c.stopCommand).board = c.board := by
  unfold Chip.stopCommand; (try dsimp only); (repeat' split) <;> simp

@[simp] theorem Chip.board_softResetEngine (c : Chip) : (c.softResetEngine).board = c.board := by
  unfold Chip.softResetEngine; (try dsimp only); (repeat' split) <;> simp

@[simp] theorem Chip.board_softResetFormat (c : Chip) : (c.softResetFormat).board = c.board := by
  unfold Chip.softResetFormat; (try dsimp only); (repeat' split) <;> simp

@[simp] theorem Chip.board_softReset (c : Chip) : (c.softReset).board = c.board := by
  unfold Chip.softReset; (try dsimp only); (repeat' split) <;> simp

@[simp] theorem Chip.board_writeControl (c : Chip) (w : Word) : (c.writeControl w).board = c.board := by
  unfold Chip.writeControl; (try dsimp only); (repeat' split) <;> simp

@[simp] theorem Chip.board_misuse (c : Chip) : (c.misuse).board = c.board := by
  unfold Chip.misuse; (try dsimp only); (repeat' split) <;> simp

@[simp] theorem Chip.board_offerEnds (c : Chip) : (c.offerEnds).board = c.board := by
  unfold Chip.offerEnds; (try dsimp only); (repeat' split) <;> simp

@[simp] theorem Chip.board_readData (c : Chip) : (c.readData).board = c.board := by
  unfold Chip.readData; (try dsimp only); (repeat' split) <;> simp

@[simp] theorem Chip.board_transferEnds (c : Chip) : (c.transferEnds).board = c.board := by
  unfold Chip.transferEnds; rw [Chip.board_onTransfer _ _ (by simp)]; rfl

@[simp] theorem Chip.board_writeData (c : Chip) (w : Word) : (c.writeData w).board = c.board := by
  unfold Chip.writeData; (try dsimp only); (repeat' split) <;> simp

@[simp] theorem Chip.board_writeEvents (c : Chip) (w : Word) : (c.writeEvents w).board = c.board := by
  unfold Chip.writeEvents; (try dsimp only); (repeat' split) <;> simp

@[simp] theorem Chip.board_writeEnable (c : Chip) (w : Word) : (c.writeEnable w).board = c.board := by
  unfold Chip.writeEnable; (try dsimp only); (repeat' split) <;> simp

@[simp] theorem Chip.board_popNotice (c : Chip) : (c.popNotice).board = c.board := by
  unfold Chip.popNotice; (try dsimp only); (repeat' split) <;> simp

@[simp] theorem Chip.board_writeIdent (c : Chip) (w : Word) : (c.writeIdent w).board = c.board := by
  unfold Chip.writeIdent; (try dsimp only); (repeat' split) <;> simp

@[simp] theorem Chip.board_writeParam (c : Chip) (i : Nat) (w : Word) : (c.writeParam i w).board = c.board := by
  unfold Chip.writeParam; (try dsimp only); (repeat' split) <;> simp

@[simp] theorem Chip.board_writeRegister (c : Chip) (offset : BitVec 5) (w : Word) :
    (c.writeRegister offset w).board = c.board := by
  unfold Chip.writeRegister; (try dsimp only); (repeat' split) <;> simp

@[simp] theorem Chip.board_delayRunsOut (c : Chip) : (c.delayRunsOut).board = c.board := by
  unfold Chip.delayRunsOut; (try dsimp only); (repeat' split) <;> simp

end Sys2Proof.Machine
end

