-- ==== Sys2Proof/Laws/Load.lean ====
section
/-! SUPPORT. What a load reads from a copy, when a copy is held valid, and the words of an image (R139, R141, R182). -/

namespace Sys2Proof.Machine

/-! ## Readings -/

/-- A list of readings that all succeeded. -/
theorem allSome_eq {α : Type} (l : List (Option α)) (xs : List α) (h : allSome l = some xs) : l = xs.map some := by
  induction l generalizing xs with
  | nil => simp [allSome] at h; subst h; rfl
  | cons a l ih =>
    cases a with
    | none => simp [allSome] at h
    | some x =>
      simp only [allSome, Option.map_eq_some_iff] at h
      obtain ⟨ys, hy, rfl⟩ := h
      simp [ih ys hy]

/-- A reading of n places that succeeded, place by place. -/
theorem allSome_get {α : Type} (f : Nat → Option α) (n : Nat) (xs : List α) (h : allSome ((List.range n).map f) = some xs) :
    xs.length = n ∧ ∀ i e, xs[i]? = some e → f i = some e := by
  have h1 := allSome_eq _ _ h
  have hl : xs.length = n := by simpa using (congrArg List.length h1).symm
  refine ⟨hl, ?_⟩
  intro i e he
  have h2 : ((List.range n).map f)[i]? = (xs.map some)[i]? := by rw [h1]
  obtain ⟨hi, -⟩ := List.getElem?_eq_some_iff.1 he
  rw [List.getElem?_map, List.getElem?_map, he, List.getElem?_range (by omega)] at h2
  simpa using h2

/-- An origin read from its code has that code. -/
theorem Origin.code_of_ofCode {k : Nat} {o : Origin} (h : Origin.ofCode k = some o) : o.code = k := by
  unfold Origin.ofCode at h
  split at h <;> first | (cases h; rfl) | cases h

/-- A cause read from its code has that code. -/
theorem Cause.code_of_ofCode {k : Nat} {o : Cause} (h : Cause.ofCode k = some o) : o.code = k := by
  unfold Cause.ofCode at h
  split at h <;> first | (cases h; rfl) | cases h

/-! ## Validity -/

/-- When a copy is held valid, and what it then holds (R141, R182). -/
theorem judgeCopy_eq_some {ok : Bool} {rows : List (List Word)} {l : Loaded} :
    judgeCopy ok rows = some l ↔
      (ok = true ∧ copyWord rows 0 0 = 3 ∧ copyWord rows 0 1 = copyWord rows 101 0 ∧ copyWord rows 0 2 = copyWord rows 101 1
        ∧ wordSum rows = 0 ∧ readContent rows = some l ∧ l.lawful = true) := by
  unfold judgeCopy copyPasses
  constructor
  · intro h
    split at h
    · rename_i hp
      simp only [Bool.and_eq_true, decide_eq_true_eq] at hp
      split at h
      · rename_i l' hl'
        split at h
        · cases h; exact ⟨hp.1.1.1, hp.1.1.2, hp.1.2.1, hp.1.2.2, hp.2, hl', by assumption⟩
        · cases h
      · cases h
    · cases h
  · rintro ⟨h1, h2, h3, h4, h5, h6, h7⟩
    rw [if_pos (by simp only [Bool.and_eq_true, decide_eq_true_eq]; exact ⟨⟨⟨h1, h2⟩, h3, h4⟩, h5⟩), h6]
    simp only [h7, if_true]

/-- A copy that is held valid for no content is invalid. -/
theorem judgeCopy_eq_none {ok : Bool} {rows : List (List Word)} (h : ∀ l, judgeCopy ok rows ≠ some l) : judgeCopy ok rows = none := by
  cases hj : judgeCopy ok rows with
  | none => rfl
  | some l => exact absurd hj (h l)

/-- What the test of the remap rows says. -/
theorem strictlyAscending_iff (l : List Nat) : strictlyAscending l = true ↔ l.Pairwise (· < ·) := by
  induction l with
  | nil => simp [strictlyAscending]
  | cons a l ih =>
    cases l with
    | nil => simp [strictlyAscending]
    | cons b l =>
      simp only [strictlyAscending, Bool.and_eq_true, decide_eq_true_eq, ih]
      constructor
      · rintro ⟨h1, h2⟩
        refine List.pairwise_cons.2 ⟨?_, h2⟩
        intro x hx
        rcases List.mem_cons.1 hx with rfl | hx
        · exact h1
        · exact Nat.lt_trans h1 ((List.pairwise_cons.1 h2).1 x hx)
      · intro h
        exact ⟨(List.pairwise_cons.1 h).1 b (by simp), (List.pairwise_cons.1 h).2⟩

/-- What the test for repeats says. -/
theorem noRepeats_iff {α : Type} [DecidableEq α] (l : List α) : noRepeats l = true ↔ l.Nodup := by
  induction l with
  | nil => simp [noRepeats]
  | cons a l ih => simp [noRepeats, ih, List.nodup_cons]

/-- A spare stored IN_USE, by its zone and index. -/
theorem mem_inUseSpares (zs : List Zone) (t : SpareId) :
    t ∈ inUseSpares zs ↔ ∃ g z i, zs[g]? = some z ∧ z.spares[i]? = some .inUse ∧ t = spareOf g i := by
  simp only [inUseSpares, List.mem_flatMap, List.mem_filterMap, Prod.exists]
  constructor
  · rintro ⟨z, g, hz, st, i, hi, h⟩
    split at h
    · rename_i he
      refine ⟨g, z, i, ?_, ?_, ?_⟩
      · exact (List.mk_mem_zipIdx_iff_getElem?).1 hz
      · rw [(List.mk_mem_zipIdx_iff_getElem?).1 hi]; exact congrArg some he
      · exact (Option.some.inj h).symm
    · cases h
  · rintro ⟨g, z, i, hz, hi, rfl⟩
    exact ⟨z, g, (List.mk_mem_zipIdx_iff_getElem?).2 hz, .inUse, i, (List.mk_mem_zipIdx_iff_getElem?).2 hi, by simp⟩

/-! ## Words of an image -/

/-- A word of a row of zeros. -/
theorem getD_zeros (n i : Nat) : (List.replicate n (0:Word)).getD i 0 = 0 := by
  rw [List.getD_eq_getElem?_getD, List.getElem?_replicate]; split <;> rfl

/-- A row filled up with zeros reads as it did. -/
theorem getD_append_zeros (l : List Word) (n i : Nat) : (l ++ List.replicate n 0).getD i 0 = l.getD i 0 := by
  simp only [List.getD_eq_getElem?_getD]
  rw [List.getElem?_append]
  split
  · rfl
  · rw [← List.getD_eq_getElem?_getD, getD_zeros, List.getElem?_eq_none (by omega)]; rfl

/-- The stored code of a spare state: TESTING is stored as FREE (R139). -/
theorem SpareState.code_eq (st : SpareState) : st.code = if st = .inUse then 2 else if st = .bad then 3 else 0 := by cases st <;> rfl

/-- One spare state out of their packed number. -/
theorem states_packed (l : List SpareState) (k : Nat) (st : SpareState) (h : l[k]? = some st) :
    (l.foldr (fun st n => st.code + 4 * n) 0) / 4 ^ k % 4 = st.code := by
  induction l generalizing k with
  | nil => simp at h
  | cons x l ih =>
    have hx : x.code < 4 := by cases x <;> decide
    simp only [List.foldr_cons]
    cases k with
    | zero =>
      simp only [List.getElem?_cons_zero, Option.some.injEq] at h
      subst h; simp only [Nat.pow_zero, Nat.div_one]; omega
    | succ k =>
      rw [← ih k (by simpa using h), Nat.pow_succ, Nat.mul_comm (4 ^ k) 4, ← Nat.div_div_eq_div_mul]
      congr 2; omega

/-- One spare state out of a state word (Table 11-4). -/
theorem field_statesWord (l : List SpareState) (k : Nat) (st : SpareState) (hk : k < 8) (h : l[k]? = some st) :
    field (statesWord l) (2 * k) 2 = st.code := by
  rw [← states_packed l k st h]
  unfold field statesWord word
  rw [BitVec.toNat_ofNat, Nat.pow_mul]
  generalize l.foldr _ 0 = n
  rcases (by omega : k = 0 ∨ k = 1 ∨ k = 2 ∨ k = 3 ∨ k = 4 ∨ k = 5 ∨ k = 6 ∨ k = 7) with rfl | rfl | rfl | rfl | rfl | rfl | rfl | rfl <;> norm_num <;> omega

/-- A load read that ends while the directory unit is LOADING is taken (R157). -/
theorem Chip.loadRead_loading {c : Chip} (h : c.dir.mode = .loading) (d : Option Delivered) : c.loadRead d = c.loadStep d := by
  unfold Chip.loadRead; rw [h]

end Sys2Proof.Machine
end

