-- ==== Sys2Proof/Laws/Tables.lean ====
section
/-! SUPPORT. The laws of the remap table, of the spares and of the modes, and what one change of a spare or of an entry does to them (R9, R10, R11, R16, R73, R101, R102, R103). -/

namespace Sys2Proof.Machine

/-! ## Spare states -/

/-- The state of a spare in the states of all zones. -/
def stateIn (zs : List (List SpareState)) (t : SpareId) : Option SpareState := (zs.getD t.globalZone [])[t.index.val]?

/-- What the laws of the tables, the spares and the modes read of a part. -/
def Chip.lawView (c : Chip) : (List RemapEntry × Nat × List (List SpareState))
    × (DirectoryMode × OperatingState × Option FormatJob × Option CommitJob × Nat) :=
  ((c.tr.remap, c.tr.changes, c.alloc.zones.map Zone.spares), (c.dir.mode, c.dir.opState, c.dir.format, c.dir.commit, c.devices))

/-- The same with the work and the job in flight. -/
def Chip.holdView (c : Chip) := (c.lawView, c.cmd.work, c.rep.job)

theorem Chip.spareState_eq (c : Chip) (t : SpareId) : c.spareState t = stateIn (c.alloc.zones.map Zone.spares) t := by
  unfold Chip.spareState stateIn Chip.zone
  simp only [List.getD_eq_getElem?_getD, List.getElem?_map]
  cases c.alloc.zones[t.globalZone]? <;> rfl

theorem SpareId.eq_of_place {a b : SpareId} (h1 : a.globalZone = b.globalZone) (h2 : a.index.val = b.index.val) : a = b := by
  obtain ⟨⟨d, hd⟩, ⟨z, hz⟩, ⟨i, hi⟩⟩ := a
  obtain ⟨⟨d', hd'⟩, ⟨z', hz'⟩, ⟨i', hi'⟩⟩ := b
  simp only [SpareId.globalZone] at h1 h2
  have e1 : d = d' := by omega
  have e2 : z = z' := by omega
  subst e1 e2 h2; rfl

/-- A map over zones that keeps their spares keeps the states. -/
theorem zoneStates_modify_of_keep (zs : List Zone) (g : Nat) (f : Zone → Zone) (hf : ∀ z, (f z).spares = z.spares) :
    (zs.modify g f).map Zone.spares = zs.map Zone.spares := by
  apply List.ext_getElem?
  intro i
  simp only [List.getElem?_map, List.getElem?_modify]
  split <;> cases zs[i]? <;> simp [hf]

/-- A change of one spare's state, in the states of all zones. -/
theorem zoneStates_setSpare (c : Chip) (t : SpareId) (st : SpareState) :
    (c.setSpare t st).alloc.zones.map Zone.spares
      = (c.alloc.zones.map Zone.spares).modify t.globalZone (fun l => l.set t.index.val st) := by
  apply List.ext_getElem?
  intro i
  simp only [Chip.setSpare, Chip.modifyZone, List.getElem?_map, List.getElem?_modify]
  split <;> cases c.alloc.zones[i]? <;> simp <;> split <;> rfl

theorem stateIn_set (zs : List (List SpareState)) (t x : SpareId) (st : SpareState) :
    stateIn (zs.modify t.globalZone (fun l => l.set t.index.val st)) x =
      if x = t ∧ (stateIn zs t).isSome then some st else stateIn zs x := by
  unfold stateIn
  simp only [List.getD_eq_getElem?_getD, List.getElem?_modify]
  by_cases hg : t.globalZone = x.globalZone
  · rw [← hg]
    simp only [if_true]
    cases hz : zs[t.globalZone]? with
    | none => simp
    | some l =>
      simp only [Option.map_some, Option.getD_some, List.getElem?_set]
      by_cases hi : t.index.val = x.index.val
      · have : x = t := SpareId.eq_of_place hg.symm hi.symm
        subst this
        simp only [true_and]
        by_cases hl : x.index.val < l.length
        · simp [hl]
        · simp [hl, List.getElem?_eq_none (Nat.le_of_not_lt hl)]
      · have : ¬ x = t := fun h => hi (by rw [h])
        simp [hi, this]
  · have : ¬ x = t := fun h => hg (by rw [h])
    simp [hg, this]

/-! ## The remap table -/

theorem mem_placeEntry (e : RemapEntry) (t : List RemapEntry) (hs : (t.map RemapEntry.row).Pairwise (· < ·)) (a : RemapEntry) :
    a ∈ placeEntry e t ↔ a = e ∨ a ∈ t ∧ a.row ≠ e.row := by
  induction t with
  | nil => simp [placeEntry]
  | cons x t ih =>
    rw [List.map_cons, List.pairwise_cons] at hs
    have hgt : ∀ b ∈ t, x.row < b.row := fun b hb => hs.1 _ (List.mem_map_of_mem hb)
    unfold placeEntry
    split
    · rename_i h
      have : ∀ b, b ∈ x :: t → b.row ≠ e.row := by
        intro b hb
        rcases List.mem_cons.1 hb with rfl | hb
        · omega
        · have := hgt b hb; omega
      constructor
      · intro hm
        rcases List.mem_cons.1 hm with h1 | h1
        · exact Or.inl h1
        · exact Or.inr ⟨h1, this a h1⟩
      · rintro (h1 | h1)
        · exact h1 ▸ List.mem_cons_self
        · exact List.mem_cons_of_mem _ h1.1
    · split
      · rename_i h1 h
        have : ∀ b, b ∈ t → b.row ≠ e.row := fun b hb => by have := hgt b hb; omega
        constructor
        · intro hm
          rcases List.mem_cons.1 hm with h1 | h1
          · exact Or.inl h1
          · exact Or.inr ⟨List.mem_cons_of_mem _ h1, this a h1⟩
        · rintro (h1 | ⟨h1, h2⟩)
          · exact h1 ▸ List.mem_cons_self
          · rcases List.mem_cons.1 h1 with rfl | h1
            · exact absurd h.symm h2
            · exact List.mem_cons_of_mem _ h1
      · rename_i h1 h
        rw [List.mem_cons, ih hs.2, List.mem_cons]
        constructor
        · rintro (rfl | h2 | h2)
          · exact Or.inr ⟨Or.inl rfl, fun h3 => h h3.symm⟩
          · exact Or.inl h2
          · exact Or.inr ⟨Or.inr h2.1, h2.2⟩
        · rintro (h2 | ⟨h2 | h2, h3⟩)
          · exact Or.inr (Or.inl h2)
          · exact Or.inl h2
          · exact Or.inr (Or.inr ⟨h2, h3⟩)

theorem placeEntry_ascending (e : RemapEntry) (t : List RemapEntry) (hs : (t.map RemapEntry.row).Pairwise (· < ·)) :
    ((placeEntry e t).map RemapEntry.row).Pairwise (· < ·) := by
  induction t with
  | nil => simp [placeEntry]
  | cons x t ih =>
    have hs' := hs
    rw [List.map_cons, List.pairwise_cons] at hs
    unfold placeEntry
    split
    · rename_i h
      rw [List.map_cons, List.pairwise_cons]
      refine ⟨?_, hs'⟩
      intro r hr
      rw [List.map_cons] at hr
      rcases List.mem_cons.1 hr with rfl | hr
      · exact h
      · exact Nat.lt_trans h (hs.1 r hr)
    · split
      · rename_i h1 h
        rw [List.map_cons, List.pairwise_cons]
        exact ⟨fun r hr => h ▸ hs.1 r hr, hs.2⟩
      · rename_i h1 h
        rw [List.map_cons, List.pairwise_cons]
        refine ⟨?_, ih hs.2⟩
        intro r hr
        obtain ⟨b, hb, rfl⟩ := List.mem_map.1 hr
        rcases (mem_placeEntry e t hs.2 b).1 hb with rfl | ⟨hb, -⟩
        · omega
        · exact hs.1 _ (List.mem_map_of_mem hb)

theorem placeEntry_pairwise {R : RemapEntry → RemapEntry → Prop} (e : RemapEntry) (t : List RemapEntry)
    (hs : (t.map RemapEntry.row).Pairwise (· < ·)) (ht : t.Pairwise R)
    (he : ∀ a, a ∈ t → a.row ≠ e.row → R a e ∧ R e a) : (placeEntry e t).Pairwise R := by
  induction t with
  | nil => simp [placeEntry]
  | cons x t ih =>
    rw [List.map_cons, List.pairwise_cons] at hs
    have hgt : ∀ b ∈ t, x.row < b.row := fun b hb => hs.1 _ (List.mem_map_of_mem hb)
    unfold placeEntry
    split
    · rename_i h
      refine List.pairwise_cons.2 ⟨?_, ht⟩
      intro b hb
      refine (he b hb ?_).2
      rcases List.mem_cons.1 hb with rfl | hb
      · omega
      · have := hgt b hb; omega
    · rw [List.pairwise_cons] at ht
      split
      · rename_i h1 h
        refine List.pairwise_cons.2 ⟨?_, ht.2⟩
        intro b hb
        refine (he b (List.mem_cons_of_mem _ hb) ?_).2
        have := hgt b hb; omega
      · rename_i h1 h
        refine List.pairwise_cons.2 ⟨?_, ih hs.2 ht.2 fun a ha => he a (List.mem_cons_of_mem _ ha)⟩
        intro b hb
        rcases (mem_placeEntry e t hs.2 b).1 hb with rfl | ⟨hb, -⟩
        · exact (he x List.mem_cons_self (fun h3 => h h3.symm)).1
        · exact ht.1 b hb

theorem countP_placeEntry (p : RemapEntry → Bool) (e : RemapEntry) (t : List RemapEntry) :
    (placeEntry e t).countP p ≤ t.countP p + (if p e then 1 else 0) := by
  induction t with
  | nil => simp [placeEntry, List.countP_cons]
  | cons x t ih =>
    unfold placeEntry
    (repeat' split) <;> simp only [List.countP_cons, *] at * <;> (try split) <;> simp_all <;> omega

theorem mem_sparedTargets {m : List RemapEntry} {t : SpareId} : t ∈ sparedTargets m ↔ ∃ e ∈ m, e.place = .spared t := by
  unfold sparedTargets
  rw [List.mem_filterMap]
  refine exists_congr fun e => and_congr_right fun _ => ?_
  cases h : e.place <;> simp

theorem nodup_sparedTargets {m : List RemapEntry} : (sparedTargets m).Nodup ↔
    m.Pairwise fun a b => ∀ x, a.place = .spared x → ∀ y, b.place = .spared y → x ≠ y := by
  unfold sparedTargets List.Nodup
  rw [List.pairwise_filterMap]
  refine iff_of_eq (congrArg (fun R => List.Pairwise R m) ?_)
  funext a b
  apply propext
  cases ha : a.place <;> cases hb : b.place <;> simp

/-- Distinct spares are at most 512. -/
theorem nodup_spares_length {l : List SpareId} (h : l.Nodup) : l.length ≤ 512 := by
  have hinj : Function.Injective fun t : SpareId => t.globalZone * 16 + t.index.val := by
    intro a b hab
    have ha := a.index.isLt
    have hb := b.index.isLt
    simp only at hab
    exact SpareId.eq_of_place (by omega) (by omega)
  have h1 := h.map hinj
  have h2 : (l.map fun t : SpareId => t.globalZone * 16 + t.index.val) ⊆ List.range 512 := by
    intro n hn
    obtain ⟨t, -, rfl⟩ := List.mem_map.1 hn
    have h1 := t.device.isLt
    have h2 := t.zone.isLt
    have h3 := t.index.isLt
    simp only [List.mem_range, SpareId.globalZone]; omega
  simpa using (List.subperm_of_subset h1 h2).length_le

theorem sparedTargets_length (m : List RemapEntry) :
    (sparedTargets m).length = m.countP (fun e => decide (e.place ≠ .retired)) := by
  unfold sparedTargets
  induction m with
  | nil => rfl
  | cons e m ih =>
    rw [List.filterMap_cons, List.countP_cons, ← ih]
    cases h : e.place <;> simp

/-- Every entry is SPARED or RETIRED. -/
theorem remap_length (m : List RemapEntry) :
    m.length = m.countP (fun e => decide (e.place ≠ .retired)) + m.countP (fun e => decide (e.place = .retired)) := by
  induction m with
  | nil => rfl
  | cons e m ih =>
    simp only [List.countP_cons, List.length_cons]
    by_cases h : e.place = .retired <;> simp only [h, ne_eq, not_true, not_false_iff, decide_true, decide_false, if_true, Bool.false_eq_true, if_false] <;> simp only [ne_eq] at ih <;> omega

/-- Each of the 32 zones has 16 spares where its device is present and none where it is absent (R103). -/
def SizeOk (n : Nat) (zs : List (List SpareState)) : Prop :=
  ∀ g, g < 32 → (zs.getD g []).length = if g < 8 * n then 16 else 0

/-- The laws of the tables, of the spares and of the modes, for a part whose work holds the spare `ht` (`tr` when it is a
transfer) and whose job in flight, present when `jb`, holds `hj`. -/
structure Chip.Lawful (ht : Option SpareId) (tr : Bool) (hj : Option SpareId) (jb : Bool) (c : Chip) : Prop where
  sorted : (c.tr.remap.map RemapEntry.row).Pairwise (· < ·)
  nodup : (sparedTargets c.tr.remap).Nodup
  inUse : ∀ t, t ∈ sparedTargets c.tr.remap ↔ c.spareState t = some .inUse
  retired : c.retiredCount ≤ 128
  changes : c.tr.changes ≤ 16
  testing : ∀ a b, c.spareState a = some .testing → c.spareState b = some .testing → a = b
  heldT : ∀ t, ht = some t → c.spareState t = some .testing
  heldJ : ∀ t, hj = some t → c.spareState t = some .testing
  one : ht = none ∨ hj = none
  zones : c.alloc.zones.length = 32
  size : SizeOk c.devices (c.alloc.zones.map Zone.spares)
  work : ht ≠ none → tr = true
  job : hj ≠ none → jb = true
  fmt : c.dir.format ≠ none → c.dir.opState = .formatting ∧ tr = false
  load : c.dir.mode = .loading → c.dir.opState = .loading ∧ tr = false ∧ jb = false ∧ c.dir.format = none
  quiet : c.dir.mode ≠ .committing → c.dir.commit = none
  own : ∀ j, c.dir.commit = some j → j.detached = false →
      (j.ofFormat = true → c.dir.format ≠ none)
      ∧ (j.ofFormat = false → ∀ f, c.dir.format = some f → f.phase = .waitCommit)

variable {ht hj : Option SpareId} {tr jb : Bool} {c d : Chip}

/-- The laws read the law view alone. -/
theorem Chip.Lawful.congr (h : d.lawView = c.lawView) (hl : c.Lawful ht tr hj jb) : d.Lawful ht tr hj jb := by
  have e1 : d.tr.remap = c.tr.remap := congrArg (fun x => x.1.1) h
  have e2 : d.tr.changes = c.tr.changes := congrArg (fun x => x.1.2.1) h
  have e3 : d.alloc.zones.map Zone.spares = c.alloc.zones.map Zone.spares := congrArg (fun x => x.1.2.2) h
  have e4 : d.dir.mode = c.dir.mode := congrArg (fun x => x.2.1) h
  have e5 : d.dir.opState = c.dir.opState := congrArg (fun x => x.2.2.1) h
  have e6 : d.dir.format = c.dir.format := congrArg (fun x => x.2.2.2.1) h
  have e7 : d.dir.commit = c.dir.commit := congrArg (fun x => x.2.2.2.2.1) h
  have e11 : d.devices = c.devices := congrArg (fun x => x.2.2.2.2.2) h
  have e8 : ∀ t, d.spareState t = c.spareState t := fun t => by rw [Chip.spareState_eq, Chip.spareState_eq, e3]
  have e9 : d.alloc.zones.length = c.alloc.zones.length := by simpa using congrArg List.length e3
  have e10 : d.retiredCount = c.retiredCount := by unfold Chip.retiredCount; rw [e1]
  obtain ⟨l1, l2, l3, l4, l5, l6, l7, l8, l9, l10, l11, l12, l13, l14, l15, l16, l17⟩ := hl
  constructor <;> first | assumption | (simp only [e1, e2, e3, e4, e5, e6, e7, e8, e9, e10, e11]; assumption)

/-- Work that holds no spare and a job that holds none keep the laws. -/
theorem Chip.Lawful.weaken {ht' hj' : Option SpareId} {tr' jb' : Bool} (hl : c.Lawful ht tr hj jb)
    (h1 : ht' = none ∨ ht' = ht) (h2 : tr' = false ∨ tr' = tr) (h3 : hj' = none ∨ hj' = hj) (h4 : jb' = false ∨ jb' = jb)
    (h5 : ht' ≠ none → tr' = true) (h6 : hj' ≠ none → jb' = true) : c.Lawful ht' tr' hj' jb' := by
  refine { hl with heldT := ?_, heldJ := ?_, one := ?_, work := h5, job := h6, fmt := ?_, load := ?_ }
  · intro t ht; rcases h1 with h | h
    · rw [h] at ht; cases ht
    · exact hl.heldT t (h ▸ ht)
  · intro t ht; rcases h3 with h | h
    · rw [h] at ht; cases ht
    · exact hl.heldJ t (h ▸ ht)
  · rcases hl.one with h | h
    · left; rcases h1 with h1 | h1 <;> simp [h1, h]
    · right; rcases h3 with h1 | h1 <;> simp [h1, h]
  · intro h; refine ⟨(hl.fmt h).1, ?_⟩; rcases h2 with h2 | h2
    · exact h2
    · rw [h2]; exact (hl.fmt h).2
  · intro h
    obtain ⟨a, b, e, f⟩ := hl.load h
    refine ⟨a, ?_, ?_, f⟩
    · rcases h2 with h2 | h2 <;> simp [h2, b]
    · rcases h4 with h2 | h2 <;> simp [h2, e]

/-! ## Spare states -/

theorem Chip.spareState_setSpare (c : Chip) (t x : SpareId) (st : SpareState) :
    (c.setSpare t st).spareState x = if x = t ∧ (c.spareState t).isSome then some st else c.spareState x := by
  rw [Chip.spareState_eq, zoneStates_setSpare, stateIn_set, ← Chip.spareState_eq, ← Chip.spareState_eq]

theorem size_setSpare {n : Nat} (t : SpareId) (st : SpareState) (h : SizeOk n (c.alloc.zones.map Zone.spares)) :
    SizeOk n ((c.setSpare t st).alloc.zones.map Zone.spares) := by
  intro g hg
  rw [← h g hg, zoneStates_setSpare, List.getD_eq_getElem?_getD, List.getD_eq_getElem?_getD, List.getElem?_modify]
  cases (c.alloc.zones.map Zone.spares)[g]? with
  | none => simp
  | some z => simp only [Option.map_eq_map, Option.map_some, Option.getD_some]; split <;> simp

/-- No zone has more than 16 spares. -/
theorem Chip.Lawful.le_sixteen (hl : c.Lawful ht tr hj jb) {l : List SpareState} (h : l ∈ c.alloc.zones.map Zone.spares) :
    l.length ≤ 16 := by
  obtain ⟨g, hg⟩ := List.mem_iff_getElem?.1 h
  obtain ⟨h1, -⟩ := List.getElem?_eq_some_iff.1 hg
  have h2 := hl.size g (by rw [← hl.zones]; simpa using h1)
  rw [List.getD_eq_getElem?_getD, hg] at h2
  simp only [Option.getD_some] at h2
  rw [h2]; split <;> omega

theorem zones_setSpare (t : SpareId) (st : SpareState) : (c.setSpare t st).alloc.zones.length = c.alloc.zones.length := by
  simp [Chip.setSpare, Chip.modifyZone]

/-- The TESTING spare becomes FREE or BAD: no spare is TESTING, and nobody holds one. -/
theorem Chip.Lawful.untest {t : SpareId} {st : SpareState} (hl : c.Lawful ht tr hj jb) (ht' : c.spareState t = some .testing)
    (h1 : st ≠ .testing) (h2 : st ≠ .inUse) : (c.setSpare t st).Lawful none tr none jb := by
  have hs : ∀ x, (c.setSpare t st).spareState x = if x = t then some st else c.spareState x := by
    intro x; rw [Chip.spareState_setSpare, ht']; simp
  refine { hl with
    inUse := ?_, testing := ?_, heldT := (fun _ h => nomatch h), heldJ := (fun _ h => nomatch h), one := Or.inl rfl
    zones := (by rw [zones_setSpare]; exact hl.zones), size := size_setSpare _ _ hl.size
    work := fun h => absurd rfl h, job := fun h => absurd rfl h }
  · intro x
    rw [hs]
    refine (hl.inUse x).trans ?_
    split
    · rename_i e; subst e; rw [ht']; simp [h2]
    · rfl
  · intro a b ha hb
    rw [hs] at ha hb
    split at ha
    · exact absurd (Option.some.inj ha) h1
    · rename_i hne; exact absurd (hl.testing a t ha ht') hne

/-- With no spare TESTING, nobody holds one. -/
theorem Chip.Lawful.none_held (hl : c.Lawful ht tr hj jb) (hn : ∀ t, c.spareState t ≠ some .testing) : ht = none ∧ hj = none := by
  constructor
  · cases h : ht with
    | none => rfl
    | some t => exact absurd (hl.heldT t h) (hn t)
  · cases h : hj with
    | none => rfl
    | some t => exact absurd (hl.heldJ t h) (hn t)

theorem Chip.not_testing (h : c.someTesting = false) (t : SpareId) : c.spareState t ≠ some .testing := by
  intro hs
  unfold Chip.spareState Chip.zone at hs
  rw [List.getD_eq_getElem?_getD] at hs
  cases hz : c.alloc.zones[t.globalZone]? with
  | none => rw [hz] at hs; simp [Zone.absent] at hs
  | some z =>
    rw [hz] at hs
    have : c.someTesting = true := by
      unfold Chip.someTesting
      refine List.any_eq_true.2 ⟨z, List.mem_of_getElem? hz, decide_eq_true (List.mem_of_getElem? hs)⟩
    rw [h] at this; cases this

/-- A FREE spare becomes TESTING while no spare is: the requester may hold it. -/
theorem Chip.Lawful.test {t : SpareId} (hl : c.Lawful ht tr hj jb) (hn : c.someTesting = false) (hf : c.spareState t = some .free)
    {ht' hj' : Option SpareId} (h1 : ht' = none ∨ ht' = some t ∧ tr = true) (h2 : hj' = none ∨ hj' = some t ∧ jb = true)
    (h3 : ht' = none ∨ hj' = none) : (c.setSpare t .testing).Lawful ht' tr hj' jb := by
  have hs : ∀ x, (c.setSpare t .testing).spareState x = if x = t then some .testing else c.spareState x := by
    intro x; rw [Chip.spareState_setSpare, hf]; simp
  refine { hl with
    inUse := ?_, testing := ?_, heldT := ?_, heldJ := ?_, one := h3
    zones := (by rw [zones_setSpare]; exact hl.zones), size := size_setSpare _ _ hl.size
    work := ?_, job := ?_ }
  · intro x
    rw [hs]
    refine (hl.inUse x).trans ?_
    split
    · rename_i e; subst e; rw [hf]; simp
    · rfl
  · intro a b ha hb
    rw [hs] at ha hb
    split at ha
    · split at hb
      · rename_i e1 e2; rw [e1, e2]
      · exact absurd hb (Chip.not_testing hn b)
    · exact absurd ha (Chip.not_testing hn a)
  · intro x hx
    rcases h1 with h1 | h1
    · rw [h1] at hx; cases hx
    · rw [hs, if_pos (Option.some.inj (hx.symm.trans h1.1))]
  · intro x hx
    rcases h2 with h1 | h1
    · rw [h1] at hx; cases hx
    · rw [hs, if_pos (Option.some.inj (hx.symm.trans h1.1))]
  · intro h; rcases h1 with h1 | h1
    · exact absurd h1 h
    · exact h1.2
  · intro h; rcases h2 with h1 | h1
    · exact absurd h1 h
    · exact h1.2

/-- The first FREE spare of a zone is FREE. -/
theorem Chip.Lawful.spareState_firstFree {g i : Nat} (hl : c.Lawful ht tr hj jb) (h : (c.zone g).firstFree = some i) :
    c.spareState (spareOf g i) = some .free := by
  unfold Zone.firstFree at h
  obtain ⟨hi, hp, -⟩ := List.findIdx?_eq_some_iff_getElem.1 h
  have hp : (c.zone g).spares[i] = .free := of_decide_eq_true hp
  have hg : g < 32 := by
    rcases Nat.lt_or_ge g 32 with h1 | h1
    · exact h1
    · have : c.zone g = Zone.absent := by
        unfold Chip.zone
        rw [List.getD_eq_getElem?_getD, List.getElem?_eq_none (by rw [hl.zones]; exact h1)]; rfl
      have h2 : (c.zone g).spares.length = 0 := by rw [this]; rfl
      omega
  have hz : c.zone g ∈ c.alloc.zones := by
    have h2 : g < c.alloc.zones.length := by rw [hl.zones]; exact hg
    have h3 : c.alloc.zones[g]? = some c.alloc.zones[g] := List.getElem?_eq_getElem h2
    have h4 : c.zone g = c.alloc.zones[g] := by
      unfold Chip.zone; rw [List.getD_eq_getElem?_getD, h3]; rfl
    rw [h4]; exact List.getElem_mem h2
  have hi16 : i < 16 := Nat.lt_of_lt_of_le hi (hl.le_sixteen (List.mem_map_of_mem hz))
  have e1 : (spareOf g i).globalZone = g := by simp only [SpareId.globalZone, spareOf, Fin.ofNat]; omega
  have e2 : (spareOf g i).index.val = i := by simp only [spareOf, Fin.ofNat]; omega
  unfold Chip.spareState
  rw [e1, e2, List.getElem?_eq_getElem hi, hp]

/-- The spare an allocation chooses is FREE (R105). -/
theorem Chip.Lawful.spareState_chooseSpare {home : Nat} {t : SpareId} (hl : c.Lawful ht tr hj jb)
    (h : c.chooseSpare home = some t) : c.spareState t = some .free := by
  unfold Chip.chooseSpare at h
  split at h
  · rename_i i hi
    cases h; exact hl.spareState_firstFree hi
  · split at h
    · split at h
      · obtain ⟨i, hi, rfl⟩ := Option.map_eq_some_iff.1 h
        exact hl.spareState_firstFree hi
      · cases h
    · cases h

/-! ## Entries of a row -/

/-- The entry of a row, in a table in ascending order. -/
theorem Chip.Lawful.place_of_row {l : Nat} {e : RemapEntry} (hl : c.Lawful ht tr hj jb) (he : e ∈ c.tr.remap) (hr : e.row = l) :
    c.entryOf l = some e := by
  have hs : c.tr.remap.Pairwise fun a b => a.row < b.row := List.pairwise_map.1 hl.sorted
  unfold Chip.entryOf
  cases hf : c.tr.remap.find? fun a => decide (a.row = l) with
  | none => exact absurd hr (by simpa using List.find?_eq_none.1 hf e he)
  | some x =>
    have h1 := List.mem_of_find?_eq_some hf
    have h2 : x.row = l := by simpa using List.find?_some hf
    rcases List.mem_iff_getElem?.1 h1 with ⟨i, hi⟩
    rcases List.mem_iff_getElem?.1 he with ⟨k, hk⟩
    obtain ⟨hi1, hi2⟩ := List.getElem?_eq_some_iff.1 hi
    obtain ⟨hk1, hk2⟩ := List.getElem?_eq_some_iff.1 hk
    have := List.pairwise_iff_getElem.1 hs
    rcases Nat.lt_trichotomy i k with h | h | h
    · have := this i k hi1 hk1 h; rw [hi2, hk2] at this; omega
    · subst h; rw [← hi2, hk2]
    · have := this k i hk1 hi1 h; rw [hi2, hk2] at this; omega

/-- A row's SPARED entry, by its lookup. -/
theorem Chip.Lawful.lookup_spared {l : Nat} {t : SpareId} (hl : c.Lawful ht tr hj jb) :
    c.lookup l = .spared t ↔ ∃ e ∈ c.tr.remap, e.row = l ∧ e.place = .spared t := by
  constructor
  · intro h
    unfold Chip.lookup at h
    cases he : c.entryOf l with
    | none => rw [he] at h; cases h
    | some e =>
      rw [he] at h
      dsimp only at h
      refine ⟨e, List.mem_of_find?_eq_some he, by simpa using List.find?_some he, ?_⟩
      cases hp : e.place with
      | spared s => rw [hp] at h; cases h; rfl
      | retired => rw [hp] at h; cases h
  · rintro ⟨e, he, hr, hp⟩
    unfold Chip.lookup
    rw [hl.place_of_row he hr]
    simp only [hp]

/-! ## Map changes (R13 to R16) -/

/-- The old target, when there is one. -/
def Chip.oldTarget (c : Chip) (l : Nat) : Option SpareId :=
  match c.lookup l with
  | .spared old => some old
  | .home _ => none
  | .retired => none

/-- What dropping a row's old target leaves. -/
def Chip.dropOld (c : Chip) (l : Nat) : Chip :=
  match c.lookup l with
  | .spared old => c.dropTarget l old
  | .home _ => c
  | .retired => c

theorem Chip.lawView_countBorrow (c : Chip) (l : Nat) (t : SpareId) (f : Nat → Nat) :
    (c.countBorrow l t f).lawView = c.lawView := by
  unfold Chip.countBorrow
  split
  · rfl
  · simp only [Chip.lawView, Chip.modifyZone]
    have e1 := zoneStates_modify_of_keep c.alloc.zones t.globalZone (fun z => { z with lentOut := f z.lentOut }) (fun _ => rfl)
    have e2 := zoneStates_modify_of_keep (c.alloc.zones.modify t.globalZone (fun z => { z with lentOut := f z.lentOut })) (homeZone l)
      (fun z => { z with borrowedIn := f z.borrowedIn }) (fun _ => rfl)
    rw [e2, e1]

theorem Chip.spareState_congr (h : d.lawView = c.lawView) (t : SpareId) : d.spareState t = c.spareState t := by
  have e3 : d.alloc.zones.map Zone.spares = c.alloc.zones.map Zone.spares := congrArg (fun x => x.1.2.2) h
  rw [Chip.spareState_eq, Chip.spareState_eq, e3]

theorem Chip.tr_countBorrow (c : Chip) (l : Nat) (t : SpareId) (f : Nat → Nat) : (c.countBorrow l t f).tr = c.tr := by
  unfold Chip.countBorrow; split <;> rfl
theorem Chip.dir_countBorrow (c : Chip) (l : Nat) (t : SpareId) (f : Nat → Nat) : (c.countBorrow l t f).dir = c.dir := by
  unfold Chip.countBorrow; split <;> rfl

/-- A map change of a row: its entry takes a new place; the old target is BAD; a new target was TESTING and is IN_USE. -/
theorem Chip.Lawful.mapChange {l : Nat} {place : Placement} {o : Origin} (hl : c.Lawful ht tr hj jb)
    (hp : ∀ t, place = .spared t → c.spareState t = some .testing)
    (hr : place = .retired → c.retiredCount < 128)
    (e1 : d.tr.remap = placeEntry { row := l, place, origin := o, stamp := c.pat.pass } c.tr.remap) (e2 : d.tr.changes ≤ 16)
    (e3 : ∀ x, d.spareState x = if place = .spared x then some .inUse
      else if c.oldTarget l = some x then some .bad else c.spareState x)
    (e4 : d.alloc.zones.length = c.alloc.zones.length) (e5 : SizeOk d.devices (d.alloc.zones.map Zone.spares))
    (e6 : d.dir.mode = c.dir.mode) (e7 : d.dir.opState = c.dir.opState) (e8 : d.dir.format = c.dir.format)
    (e9 : d.dir.commit = c.dir.commit) :
    (place = .retired → d.Lawful ht tr hj jb) ∧ (place ≠ .retired → d.Lawful none tr none jb) := by
  have hmem := mem_placeEntry { row := l, place, origin := o, stamp := c.pat.pass } c.tr.remap hl.sorted
  have hold : ∀ x, c.oldTarget l = some x ↔ ∃ e ∈ c.tr.remap, e.row = l ∧ e.place = .spared x := by
    intro x
    rw [← hl.lookup_spared]
    unfold Chip.oldTarget
    cases h : c.lookup l <;> simp
  have htg : ∀ x, x ∈ sparedTargets d.tr.remap ↔ place = .spared x ∨ ∃ e ∈ c.tr.remap, e.row ≠ l ∧ e.place = .spared x := by
    intro x
    rw [e1, mem_sparedTargets]
    constructor
    · rintro ⟨e, he, hpl⟩
      rcases (hmem e).1 he with rfl | ⟨h1, h2⟩
      · exact Or.inl hpl
      · exact Or.inr ⟨e, h1, h2, hpl⟩
    · rintro (h | ⟨e, h1, h2, h3⟩)
      · exact ⟨_, (hmem _).2 (Or.inl rfl), h⟩
      · exact ⟨e, (hmem e).2 (Or.inr ⟨h1, h2⟩), h3⟩
  have huniq : ∀ a b x, a ∈ c.tr.remap → b ∈ c.tr.remap → a.place = .spared x → b.place = .spared x → a = b := by
    intro a b x ha hb hpa hpb
    by_contra hne
    have h1 := nodup_sparedTargets.1 hl.nodup
    have hs : c.tr.remap.Pairwise fun a b => a.row < b.row := List.pairwise_map.1 hl.sorted
    rcases List.mem_iff_getElem?.1 ha with ⟨i, hi⟩
    rcases List.mem_iff_getElem?.1 hb with ⟨k, hk⟩
    obtain ⟨hi1, hi2⟩ := List.getElem?_eq_some_iff.1 hi
    obtain ⟨hk1, hk2⟩ := List.getElem?_eq_some_iff.1 hk
    have h2 := List.pairwise_iff_getElem.1 h1
    rcases Nat.lt_trichotomy i k with h | h | h
    · exact h2 i k hi1 hk1 h x (by rw [hi2]; exact hpa) x (by rw [hk2]; exact hpb) rfl
    · subst h; exact hne (by rw [← hi2, hk2])
    · exact h2 k i hk1 hi1 h x (by rw [hk2]; exact hpb) x (by rw [hi2]; exact hpa) rfl
  have hin : ∀ x, x ∈ sparedTargets d.tr.remap ↔ d.spareState x = some .inUse := by
    intro x
    rw [htg, e3]
    constructor
    · rintro (h | ⟨e, h1, h2, h3⟩)
      · rw [if_pos h]
      · have hx : c.spareState x = some .inUse := (hl.inUse x).1 (mem_sparedTargets.2 ⟨e, h1, h3⟩)
        rw [if_neg, if_neg]
        · exact hx
        · intro h
          obtain ⟨e', h1', h2', h3'⟩ := (hold x).1 h
          exact h2 (by rw [huniq e e' x h1 h1' h3 h3']; exact h2')
        · intro h
          have := hp x h; rw [hx] at this; cases this
    · intro h
      split at h
      · exact Or.inl (by assumption)
      · split at h
        · cases h
        · rename_i h1 h2
          obtain ⟨e, he, hpl⟩ := mem_sparedTargets.1 ((hl.inUse x).2 h)
          exact Or.inr ⟨e, he, fun hr => h2 ((hold x).2 ⟨e, he, hr, hpl⟩), hpl⟩
  have hsorted : (d.tr.remap.map RemapEntry.row).Pairwise (· < ·) := by rw [e1]; exact placeEntry_ascending _ _ hl.sorted
  have hnodup : (sparedTargets d.tr.remap).Nodup := by
    rw [nodup_sparedTargets, e1]
    refine placeEntry_pairwise _ _ hl.sorted (nodup_sparedTargets.1 hl.nodup) ?_
    intro a ha hne
    have key : ∀ x, a.place = .spared x → place ≠ .spared x := by
      intro x hx hpx
      have h1 := hp x hpx
      rw [(hl.inUse x).1 (mem_sparedTargets.2 ⟨a, ha, hx⟩)] at h1; cases h1
    refine ⟨?_, ?_⟩
    · intro x hx y hy h; subst h; exact key x hx hy
    · intro x hx y hy h; subst h; exact key x hy hx
  have hret : d.retiredCount ≤ 128 := by
    unfold Chip.retiredCount
    rw [e1]
    refine Nat.le_trans (countP_placeEntry _ _ _) ?_
    by_cases h : place = .retired
    · have := hr h; unfold Chip.retiredCount at this; simp only [h, decide_true, if_true]; omega
    · have := hl.retired; unfold Chip.retiredCount at this; simp only [h, decide_false, Bool.false_eq_true, if_false]; omega
  have htest : ∀ x, d.spareState x = some .testing → place ≠ .spared x ∧ c.spareState x = some .testing := by
    intro x hx
    rw [e3] at hx
    split at hx
    · cases hx
    · split at hx
      · cases hx
      · exact ⟨by assumption, hx⟩
  have base : d.Lawful none tr none jb := by
    refine { sorted := hsorted, nodup := hnodup, inUse := hin, retired := hret, changes := e2
             testing := fun a b ha hb => hl.testing a b (htest a ha).2 (htest b hb).2
             heldT := (fun _ h => nomatch h), heldJ := (fun _ h => nomatch h), one := Or.inl rfl
             zones := by rw [e4]; exact hl.zones, size := e5
             work := fun h => absurd rfl h, job := fun h => absurd rfl h
             fmt := ?_, load := ?_, quiet := ?_, own := ?_ }
    · rw [e7, e8]; exact hl.fmt
    · rw [e6, e7, e8]; exact hl.load
    · rw [e6, e9]; exact hl.quiet
    · rw [e8, e9]; exact hl.own
  refine ⟨?_, fun _ => base⟩
  intro hpr
  have hkeep : ∀ x, c.spareState x = some .testing → d.spareState x = some .testing := by
    intro x hx
    rw [e3, if_neg (by rw [hpr]; simp), if_neg, hx]
    intro h
    obtain ⟨e, he, -, hpl⟩ := (hold x).1 h
    rw [(hl.inUse x).1 (mem_sparedTargets.2 ⟨e, he, hpl⟩)] at hx; cases hx
  exact { base with
    heldT := fun t h => hkeep t (hl.heldT t h), heldJ := fun t h => hkeep t (hl.heldJ t h), one := hl.one
    work := hl.work, job := hl.job }

end Sys2Proof.Machine
end

