-- ==== Sys2Proof/Laws/Hold.lean ====
section
/-! SUPPORT. The operations that change no table, no spare's state, no mode, no work and no job: each keeps all that the laws of the tables read. -/

namespace Sys2Proof.Machine

/-- A change of zones that keeps their spares. -/
theorem Chip.holdView_modifyZone (c : Chip) (g : Nat) (f : Zone → Zone) (hf : ∀ z, (f z).spares = z.spares) :
    (c.modifyZone g f).holdView = c.holdView := by
  simp [Chip.modifyZone, Chip.holdView, Chip.lawView, zoneStates_modify_of_keep _ _ _ hf]

@[simp] theorem Chip.holdView_putSlot (c : Chip) (k : AccessClass) (s : Slot) :
    (c.putSlot k s).holdView = c.holdView := by
  unfold Chip.putSlot; (try dsimp only); (repeat' split) <;> first | rfl | (simp; done) | (simp; rfl)

@[simp] theorem Chip.holdView_issue (c : Chip) (purpose : Purpose) (phys : PhysRow) (data : Option (List Word)) :
    (c.issue purpose phys data).holdView = c.holdView := by
  unfold Chip.issue; (try dsimp only); (repeat' split) <;> first | rfl | (simp; done) | (simp; rfl)

@[simp] theorem Chip.holdView_issueForeground (c : Chip) (purpose : Purpose) (phys : PhysRow) (data : Option (List Word)) :
    (c.issueForeground purpose phys data).holdView = c.holdView := by
  unfold Chip.issueForeground; (try dsimp only); (repeat' split) <;> first | rfl | (simp; done) | (simp; rfl)

@[simp] theorem Chip.holdView_markClaims (c : Chip) (l : Nat) :
    (c.markClaims l).holdView = c.holdView := by
  unfold Chip.markClaims; (try dsimp only); (repeat' split) <;> first | rfl | (simp; done) | (simp; rfl)

@[simp] theorem Chip.holdView_markPatrolClaim (c : Chip) (l : Nat) :
    (c.markPatrolClaim l).holdView = c.holdView := by
  unfold Chip.markPatrolClaim; (try dsimp only); (repeat' split) <;> first | rfl | (simp; done) | (simp; rfl)

@[simp] theorem Chip.holdView_raise (c : Chip) (b : NoticeBody) :
    (c.raise b).holdView = c.holdView := by
  unfold Chip.raise; (try dsimp only); (repeat' split) <;> first | rfl | (simp; done) | (simp; rfl)

@[simp] theorem Chip.holdView_regradeDevice (c : Chip) :
    (c.regradeDevice).holdView = c.holdView := by
  unfold Chip.regradeDevice; (try dsimp only); (repeat' split) <;> first | rfl | (simp; done) | (simp; rfl)

@[simp] theorem Chip.holdView_setDirty (c : Chip) :
    (c.setDirty).holdView = c.holdView := by
  unfold Chip.setDirty; (try dsimp only); (repeat' split) <;> first | rfl | (simp; done) | (simp; rfl)

@[simp] theorem Chip.holdView_offer (c : Chip) (ws : List Word) :
    (c.offer ws).holdView = c.holdView := by
  unfold Chip.offer; (try dsimp only); (repeat' split) <;> first | rfl | (simp; done) | (simp; rfl)

@[simp] theorem Chip.holdView_askRow (c : Chip) :
    (c.askRow).holdView = c.holdView := by
  unfold Chip.askRow; (try dsimp only); (repeat' split) <;> first | rfl | (simp; done) | (simp; rfl)

@[simp] theorem Chip.holdView_setResult0 (c : Chip) (n : Nat) :
    (c.setResult0 n).holdView = c.holdView := by
  unfold Chip.setResult0; (try dsimp only); (repeat' split) <;> first | rfl | (simp; done) | (simp; rfl)

@[simp] theorem Chip.holdView_updatePending (c : Chip) (l : Nat) (f : PendingEntry → PendingEntry) :
    (c.updatePending l f).holdView = c.holdView := by
  unfold Chip.updatePending; (try dsimp only); (repeat' split) <;> first | rfl | (simp; done) | (simp; rfl)

@[simp] theorem Chip.holdView_removePending (c : Chip) (l : Nat) :
    (c.removePending l).holdView = c.holdView := by
  unfold Chip.removePending; (try dsimp only); (repeat' split) <;> first | rfl | (simp; done) | (simp; rfl)

@[simp] theorem Chip.holdView_setRestarts (c : Chip) (l n : Nat) :
    (c.setRestarts l n).holdView = c.holdView := by
  unfold Chip.setRestarts; (try dsimp only); (repeat' split) <;> first | rfl | (simp; done) | (simp; rfl)

@[simp] theorem Chip.holdView_clearRestarts (c : Chip) :
    (c.clearRestarts).holdView = c.holdView := by
  unfold Chip.clearRestarts; (try dsimp only); (repeat' split) <;> first | rfl | (simp; done) | (simp; rfl)

@[simp] theorem Chip.holdView_deferPending (c : Chip) (l : Nat) :
    (c.deferPending l).holdView = c.holdView := by
  unfold Chip.deferPending; (try dsimp only); (repeat' split) <;> first | rfl | (simp; done) | (simp; rfl)

@[simp] theorem Chip.holdView_putWatch (c : Chip) (i : Nat) (o : Option WatchEntry) :
    (c.putWatch i o).holdView = c.holdView := by
  unfold Chip.putWatch; (try dsimp only); (repeat' split) <;> first | rfl | (simp; done) | (simp; rfl)

@[simp] theorem Chip.holdView_removeWatch (c : Chip) (l : Nat) :
    (c.removeWatch l).holdView = c.holdView := by
  unfold Chip.removeWatch; (try dsimp only); (repeat' split) <;> first | rfl | (simp; done) | (simp; rfl)

@[simp] theorem Chip.holdView_watchInsert (c : Chip) (l : Nat) :
    (c.watchInsert l).holdView = c.holdView := by
  unfold Chip.watchInsert; (try dsimp only); (repeat' split) <;> first | rfl | (simp; done) | (simp; rfl)

@[simp] theorem Chip.holdView_ageWatch (c : Chip) :
    (c.ageWatch).holdView = c.holdView := by
  unfold Chip.ageWatch; (try dsimp only); (repeat' split) <;> first | rfl | (simp; done) | (simp; rfl)

@[simp] theorem Chip.holdView_addPending (c : Chip) (l : Nat) (cause : Cause) (source : Origin) :
    (c.addPending l cause source).holdView = c.holdView := by
  unfold Chip.addPending; (try dsimp only); (repeat' split) <;> first | rfl | (simp; done) | (simp; rfl)

@[simp] theorem Chip.holdView_offerUnc (c : Chip) (l : Nat) (path : Origin) :
    (c.offerUnc l path).holdView = c.holdView := by
  unfold Chip.offerUnc; (try dsimp only); (repeat' split) <;> first | rfl | (simp; done) | (simp; rfl)

@[simp] theorem Chip.holdView_countUnc (c : Chip) (l : Nat) : (c.countUnc l).holdView = c.holdView :=
  Chip.holdView_modifyZone _ _ _ fun _ => rfl

@[simp] theorem Chip.holdView_reportUnc (c : Chip) (l : Nat) (path : Origin) :
    (c.reportUnc l path).holdView = c.holdView := by
  unfold Chip.reportUnc; (try dsimp only); (repeat' split) <;> first | rfl | (simp; done) | (simp; rfl)

@[simp] theorem Chip.holdView_readableAgain (c : Chip) (l : Nat) :
    (c.readableAgain l).holdView = c.holdView := by
  unfold Chip.readableAgain; (try dsimp only); (repeat' split) <;> first | rfl | (simp; done) | (simp; rfl)

@[simp] theorem Chip.holdView_watchCount (c : Chip) (l : Nat) (i : Nat) (e : WatchEntry) (path : Origin) :
    (c.watchCount l i e path).holdView = c.holdView := by
  unfold Chip.watchCount; (try dsimp only); (repeat' split) <;> first | rfl | (simp; done) | (simp; rfl)

@[simp] theorem Chip.holdView_reportCorrected (c : Chip) (l : Nat) (path : Origin) :
    (c.reportCorrected l path).holdView = c.holdView := by
  unfold Chip.reportCorrected; (try dsimp only); (repeat' split) <;> first | rfl | (simp; done) | (simp; rfl)

@[simp] theorem Chip.holdView_reportClean (c : Chip) (l : Nat) :
    (c.reportClean l).holdView = c.holdView := by
  unfold Chip.reportClean; (try dsimp only); (repeat' split) <;> first | rfl | (simp; done) | (simp; rfl)

@[simp] theorem Chip.holdView_reportCleanReadBack (c : Chip) (l : Nat) :
    (c.reportCleanReadBack l).holdView = c.holdView := by
  unfold Chip.reportCleanReadBack; (try dsimp only); (repeat' split) <;> first | rfl | (simp; done) | (simp; rfl)

@[simp] theorem Chip.holdView_report (c : Chip) (r : Report) :
    (c.report r).holdView = c.holdView := by
  unfold Chip.report; (try dsimp only); (repeat' split) <;> first | rfl | (simp; done) | (simp; rfl)

@[simp] theorem Chip.holdView_setStarved (c : Chip) (l : Nat) :
    (c.setStarved l).holdView = c.holdView := by
  unfold Chip.setStarved; (try dsimp only); (repeat' split) <;> first | rfl | (simp; done) | (simp; rfl)

@[simp] theorem Chip.holdView_setStuck (c : Chip) (l : Nat) :
    (c.setStuck l).holdView = c.holdView := by
  unfold Chip.setStuck; (try dsimp only); (repeat' split) <;> first | rfl | (simp; done) | (simp; rfl)

@[simp] theorem Chip.holdView_setCopy (c : Chip) (k : Copy) (valid : Bool) (seq : BitVec 32) :
    (c.setCopy k valid seq).holdView = c.holdView := by
  unfold Chip.setCopy; (try dsimp only); (repeat' split) <;> first | rfl | (simp; done) | (simp; rfl)

@[simp] theorem Chip.holdView_reportExhausted (c : Chip) (home : Nat) : (c.reportExhausted home).holdView = c.holdView := by
  unfold Chip.reportExhausted
  split
  · rfl
  · rw [Chip.holdView_raise]; exact Chip.holdView_modifyZone _ _ _ fun _ => rfl

@[simp] theorem Chip.holdView_countBorrow (c : Chip) (l : Nat) (t : SpareId) (f : Nat → Nat) :
    (c.countBorrow l t f).holdView = c.holdView := by
  unfold Chip.countBorrow
  split
  · rfl
  · rw [Chip.holdView_modifyZone, Chip.holdView_modifyZone] <;> intro _ <;> rfl

@[simp] theorem Chip.holdView_setPat (c : Chip) (p : PatrolEngine) :
    (c.setPat p).holdView = c.holdView := by
  unfold Chip.setPat; (try dsimp only); (repeat' split) <;> first | rfl | (simp; done) | (simp; rfl)

@[simp] theorem Chip.holdView_clearPatrolClaim (c : Chip) :
    (c.clearPatrolClaim).holdView = c.holdView := by
  unfold Chip.clearPatrolClaim; (try dsimp only); (repeat' split) <;> first | rfl | (simp; done) | (simp; rfl)

@[simp] theorem Chip.holdView_stopPatrol (c : Chip) (why : StopReason) :
    (c.stopPatrol why).holdView = c.holdView := by
  unfold Chip.stopPatrol; (try dsimp only); (repeat' split) <;> first | rfl | (simp; done) | (simp; rfl)

@[simp] theorem Chip.holdView_endPass (c : Chip) :
    (c.endPass).holdView = c.holdView := by
  unfold Chip.endPass; (try dsimp only); (repeat' split) <;> first | rfl | (simp; done) | (simp; rfl)

@[simp] theorem Chip.holdView_advanceCursor (c : Chip) :
    (c.advanceCursor).holdView = c.holdView := by
  unfold Chip.advanceCursor; (try dsimp only); (repeat' split) <;> first | rfl | (simp; done) | (simp; rfl)

@[simp] theorem Chip.holdView_beginVisit (c : Chip) (p : PhysRow) :
    (c.beginVisit p).holdView = c.holdView := by
  unfold Chip.beginVisit; (try dsimp only); (repeat' split) <;> first | rfl | (simp; done) | (simp; rfl)

@[simp] theorem Chip.holdView_skipRow (c : Chip) :
    (c.skipRow).holdView = c.holdView := by
  unfold Chip.skipRow; (try dsimp only); (repeat' split) <;> first | rfl | (simp; done) | (simp; rfl)

@[simp] theorem Chip.holdView_handleCursor (n : Nat) (c : Chip) : (Chip.handleCursor n c).holdView = c.holdView := by
  induction n generalizing c with
  | zero => rfl
  | succ n ih => simp only [Chip.handleCursor]; (repeat' split) <;> simp [ih]

@[simp] theorem Chip.holdView_patrolOn (c : Chip) :
    (c.patrolOn).holdView = c.holdView := by
  unfold Chip.patrolOn; (try dsimp only); (repeat' split) <;> first | rfl | (simp; done) | (simp; rfl)

@[simp] theorem Chip.holdView_restartPass (c : Chip) :
    (c.restartPass).holdView = c.holdView := by
  unfold Chip.restartPass; (try dsimp only); (repeat' split) <;> first | rfl | (simp; done) | (simp; rfl)

@[simp] theorem Chip.holdView_abandonVisit (c : Chip) :
    (c.abandonVisit).holdView = c.holdView := by
  unfold Chip.abandonVisit; (try dsimp only); (repeat' split) <;> first | rfl | (simp; done) | (simp; rfl)

@[simp] theorem Chip.holdView_paceNow (c : Chip) :
    (c.paceNow).holdView = c.holdView := by
  unfold Chip.paceNow; (try dsimp only); (repeat' split) <;> first | rfl | (simp; done) | (simp; rfl)

@[simp] theorem Chip.holdView_startLoading (c : Chip) :
    (c.startLoading).holdView = c.holdView := by
  unfold Chip.startLoading; (try dsimp only); (repeat' split) <;> first | rfl | (simp; done) | (simp; rfl)

@[simp] theorem Chip.holdView_setRepairClaim (c : Chip) (l : Nat) :
    (c.setRepairClaim l).holdView = c.holdView := by
  unfold Chip.setRepairClaim; (try dsimp only); (repeat' split) <;> first | rfl | (simp; done) | (simp; rfl)

@[simp] theorem Chip.holdView_zeroWritten (c : Chip) (p : PhysRow) :
    (c.zeroWritten p).holdView = c.holdView := by
  unfold Chip.zeroWritten; (try dsimp only); (repeat' split) <;> first | rfl | (simp; done) | (simp; rfl)

@[simp] theorem Chip.holdView_dropWaiting (c : Chip) :
    (c.dropWaiting).holdView = c.holdView := by
  unfold Chip.dropWaiting; (try dsimp only); (repeat' split) <;> first | rfl | (simp; done) | (simp; rfl)

@[simp] theorem Chip.holdView_refuseCommand (c : Chip) :
    (c.refuseCommand).holdView = c.holdView := by
  unfold Chip.refuseCommand; (try dsimp only); (repeat' split) <;> first | rfl | (simp; done) | (simp; rfl)

@[simp] theorem Chip.holdView_clearStarved (c : Chip) : (c.clearStarved).holdView = c.holdView := by
  simp [Chip.clearStarved, Chip.holdView, Chip.lawView, Function.comp_def]

@[simp] theorem Chip.holdView_regradeAll (c : Chip) : (c.regradeAll).holdView = c.holdView := by
  unfold Chip.regradeAll
  rw [Chip.holdView_regradeDevice]
  have : (c.alloc.zones.zipIdx.map fun zg => if zg.2 < 8 * c.devices then { zg.1 with grade := zoneGrade c.health.policy zg.1.free }
      else zg.1).map Zone.spares = c.alloc.zones.map Zone.spares := by
    rw [List.map_map]
    apply List.ext_getElem?
    intro i
    simp only [List.getElem?_map, List.getElem?_zipIdx]
    cases c.alloc.zones[i]? with
    | none => rfl
    | some z => simp only [Option.map_some, Function.comp]; split <;> rfl
  simp only [Chip.holdView, Chip.lawView, this]

@[simp] theorem Chip.holdView_restartDelay (c : Chip) :
    (c.restartDelay).holdView = c.holdView := by
  unfold Chip.restartDelay; (try dsimp only); (repeat' split) <;> first | rfl | (simp; done) | (simp; rfl)

@[simp] theorem Chip.holdView_misuse (c : Chip) :
    (c.misuse).holdView = c.holdView := by
  unfold Chip.misuse; (try dsimp only); (repeat' split) <;> first | rfl | (simp; done) | (simp; rfl)

@[simp] theorem Chip.holdView_writeEvents (c : Chip) (w : Word) :
    (c.writeEvents w).holdView = c.holdView := by
  unfold Chip.writeEvents; (try dsimp only); (repeat' split) <;> first | rfl | (simp; done) | (simp; rfl)

@[simp] theorem Chip.holdView_writeEnable (c : Chip) (w : Word) :
    (c.writeEnable w).holdView = c.holdView := by
  unfold Chip.writeEnable; (try dsimp only); (repeat' split) <;> first | rfl | (simp; done) | (simp; rfl)

@[simp] theorem Chip.holdView_popNotice (c : Chip) :
    (c.popNotice).holdView = c.holdView := by
  unfold Chip.popNotice; (try dsimp only); (repeat' split) <;> first | rfl | (simp; done) | (simp; rfl)

@[simp] theorem Chip.holdView_writeIdent (c : Chip) (w : Word) :
    (c.writeIdent w).holdView = c.holdView := by
  unfold Chip.writeIdent; (try dsimp only); (repeat' split) <;> first | rfl | (simp; done) | (simp; rfl)

@[simp] theorem Chip.holdView_writeParam (c : Chip) (i : Nat) (w : Word) :
    (c.writeParam i w).holdView = c.holdView := by
  unfold Chip.writeParam; (try dsimp only); (repeat' split) <;> first | rfl | (simp; done) | (simp; rfl)

end Sys2Proof.Machine
end

