-- ==== Sys2Proof/Laws/Lawful.lean ====
section
/-! SUPPORT. The laws over the spare each engine holds: commit triggers, spares taken and given back, relocation and retirement (R14 to R16, R73, R76, R101, R113, R145). -/

namespace Sys2Proof.Machine

variable {ht hj : Option SpareId} {tr jb : Bool} {c d : Chip}

/-! ## The laws of a part as it stands -/

/-- The laws hold for the work and the job the part has. -/
def Chip.Good (c : Chip) : Prop := c.Lawful c.cmd.work.spare c.cmd.work.isTransfer (c.rep.job.bind Job.spare) c.rep.job.isSome

/-- The laws hold with a transfer whose spare is `ht` as the work. -/
def Chip.GoodT (ht : Option SpareId) (c : Chip) : Prop := c.Lawful ht true (c.rep.job.bind Job.spare) c.rep.job.isSome

/-- The laws hold with a job in flight whose spare is `hj`. -/
def Chip.GoodJ (hj : Option SpareId) (c : Chip) : Prop := c.Lawful c.cmd.work.spare c.cmd.work.isTransfer hj true

theorem Chip.lawView_of (h : d.holdView = c.holdView) : d.lawView = c.lawView := congrArg Prod.fst h
theorem Chip.work_of (h : d.holdView = c.holdView) : d.cmd.work = c.cmd.work := congrArg (fun x => x.2.1) h
theorem Chip.job_of (h : d.holdView = c.holdView) : d.rep.job = c.rep.job := congrArg (fun x => x.2.2) h

theorem Chip.Lawful.same (hl : c.Lawful ht tr hj jb) (h : d.holdView = c.holdView) : d.Lawful ht tr hj jb := hl.congr (Chip.lawView_of h)
theorem Chip.Good.same (hl : c.Good) (h : d.holdView = c.holdView) : d.Good := by
  unfold Chip.Good; rw [Chip.work_of h, Chip.job_of h]; exact Chip.Lawful.same hl h
theorem Chip.GoodT.same (hl : c.GoodT ht) (h : d.holdView = c.holdView) : d.GoodT ht := by
  unfold Chip.GoodT; rw [Chip.job_of h]; exact Chip.Lawful.same hl h
theorem Chip.GoodJ.same (hl : c.GoodJ hj) (h : d.holdView = c.holdView) : d.GoodJ hj := by
  unfold Chip.GoodJ; rw [Chip.work_of h]; exact Chip.Lawful.same hl h

theorem Work.spare_of_not_transfer {w : Work} (h : w.isTransfer = false) : w.spare = Option.none := by cases w <;> first | rfl | cases h

/-- The work and the job are kept, but that the work may give way to one that is no transfer. -/
def Chip.Keeps (c d : Chip) : Prop := (d.cmd.work = c.cmd.work ∨ d.cmd.work.isTransfer = false) ∧ d.rep.job = c.rep.job

theorem Chip.keeps_of (h : d.holdView = c.holdView) : Chip.Keeps c d := ⟨Or.inl (Chip.work_of h), Chip.job_of h⟩
theorem Chip.Keeps.trans {e : Chip} (h : Chip.Keeps c d) (h' : Chip.Keeps d e) : Chip.Keeps c e := by
  refine ⟨?_, h'.2.trans h.2⟩
  rcases h'.1 with h1 | h1
  · rcases h.1 with h2 | h2
    · exact Or.inl (h1.trans h2)
    · right; rw [h1]; exact h2
  · exact Or.inr h1

/-- What keeps the laws with the same spares held keeps a lawful part lawful. -/
theorem Chip.good_of_keeps (h : d.Lawful c.cmd.work.spare c.cmd.work.isTransfer (c.rep.job.bind Job.spare) c.rep.job.isSome)
    (hk : Chip.Keeps c d) : d.Good := by
  unfold Chip.Good
  rw [hk.2]
  rcases hk.1 with h1 | h1
  · rw [h1]; exact h
  · rw [Work.spare_of_not_transfer h1, h1]
    exact h.weaken (Or.inl rfl) (Or.inl rfl) (Or.inr rfl) (Or.inr rfl) (fun h => absurd rfl h) h.job
theorem Chip.goodJ_of_keeps (h : d.Lawful c.cmd.work.spare c.cmd.work.isTransfer hj true)
    (hk : Chip.Keeps c d) : d.GoodJ hj := by
  unfold Chip.GoodJ
  rcases hk.1 with h1 | h1
  · rw [h1]; exact h
  · rw [Work.spare_of_not_transfer h1, h1]
    exact h.weaken (Or.inl rfl) (Or.inl rfl) (Or.inr rfl) (Or.inr rfl) (fun h => absurd rfl h) h.job
theorem Chip.goodT_of_keeps (h : d.Lawful ht true (c.rep.job.bind Job.spare) c.rep.job.isSome)
    (hk : Chip.Keeps c d) : d.GoodT ht := by
  unfold Chip.GoodT; rw [hk.2]; exact h

theorem Chip.GoodT.drop (h : c.GoodT ht) : c.GoodT none :=
  Chip.Lawful.weaken h (Or.inl rfl) (Or.inr rfl) (Or.inr rfl) (Or.inr rfl) (fun h => absurd rfl h) (Chip.Lawful.job h)
theorem Chip.GoodJ.drop (h : c.GoodJ hj) : c.GoodJ none :=
  Chip.Lawful.weaken h (Or.inr rfl) (Or.inr rfl) (Or.inl rfl) (Or.inr rfl) (Chip.Lawful.work h) (fun h => absurd rfl h)

/-! ## Commands -/

theorem Chip.good_endCommand_of {w : Option SpareId} {b : Bool} (h : c.Lawful w b (c.rep.job.bind Job.spare) c.rep.job.isSome)
    (code : ResultCode) (res : Results) : (c.endCommand code res).Good :=
  Chip.Lawful.congr (c := c) rfl
    (h.weaken (Or.inl rfl) (Or.inl rfl) (Or.inr rfl) (Or.inr rfl) (fun h => absurd rfl h) h.job)
theorem Chip.good_endCommand (h : c.Good) (code : ResultCode) (res : Results) : (c.endCommand code res).Good :=
  Chip.good_endCommand_of h code res
theorem Chip.good_setWork (h : c.Good) {w : Work} (hw : w.isTransfer = false) : (c.setWork w).Good :=
  Chip.good_of_keeps (c := c) (Chip.Lawful.congr (c := c) rfl h) ⟨Or.inr hw, rfl⟩
theorem Chip.keeps_endCommand (c : Chip) (code : ResultCode) (res : Results) : Chip.Keeps c (c.endCommand code res) :=
  ⟨Or.inr rfl, rfl⟩

/-! ## Commits -/

/-- A commit begins (R146). -/
theorem Chip.Lawful.beginCommit (h : c.Lawful ht tr hj jb) (k : Copy) (q : BitVec 32) {of : Bool}
    (h1 : of = true → c.dir.format ≠ none) (h2 : of = false → c.dir.format = none) : (c.beginCommit k q of).Lawful ht tr hj jb := by
  have hv : (c.beginCommit k q of).lawView = ((c.tr.remap, 0, c.alloc.zones.map Zone.spares),
      (.committing, c.dir.opState, c.dir.format,
        some { target := k, seq := q, index := 0, reading := false, detached := false, ofFormat := of }, c.devices)) := by
    unfold Chip.beginCommit; cases k <;> rfl
  have hd : ({ c with
      tr := { c.tr with changes := 0 }
      dir := { c.dir with mode := .committing, commit := some { target := k, seq := q, index := 0, reading := false, detached := false, ofFormat := of } } } : Chip).Lawful ht tr hj jb :=
    { h with
      changes := Nat.zero_le _
      load := fun h => nomatch h
      quiet := fun h => absurd rfl h
      own := by
        intro j hj _
        cases hj
        exact ⟨h1, fun h f hf => absurd (h2 h) (by rw [hf]; simp)⟩ }
  exact hd.congr (d := c.beginCommit k q of) (by rw [hv]; rfl)

theorem Chip.keeps_bindCommit (c : Chip) (k : Copy) (q : BitVec 32) : Chip.Keeps c (c.bindCommit k q) := by
  unfold Chip.bindCommit
  split
  · exact ⟨Or.inr rfl, rfl⟩
  · exact ⟨Or.inl rfl, rfl⟩
theorem Chip.lawView_bindCommit (c : Chip) (k : Copy) (q : BitVec 32) : (c.bindCommit k q).lawView = c.lawView := by
  unfold Chip.bindCommit; split <;> rfl
theorem Chip.keeps_beginCommit (c : Chip) (k : Copy) (q : BitVec 32) (b : Bool) : Chip.Keeps c (c.beginCommit k q b) := by
  unfold Chip.beginCommit; cases k <;> exact ⟨Or.inl rfl, rfl⟩

theorem Chip.keeps_startCommit (c : Chip) : Chip.Keeps c c.startCommit := by
  unfold Chip.startCommit
  split
  · dsimp only
    have h0 : Chip.Keeps c (Chip.raise { c with dir := { c.dir with commitTimer := none } } (.directoryFail c.commitTarget .sequence)) :=
      Chip.keeps_of (by rw [Chip.holdView_raise]; rfl)
    split
    · exact h0.trans (Chip.keeps_endCommand _ _ _)
    · exact h0
  · exact (Chip.keeps_bindCommit _ _ _).trans (Chip.keeps_beginCommit _ _ _ _)

theorem Chip.Lawful.startCommit (h : c.Lawful ht tr hj jb) (hf : c.dir.format = none) : c.startCommit.Lawful ht tr hj jb := by
  unfold Chip.startCommit
  split
  · dsimp only
    have h0 : (Chip.raise { c with dir := { c.dir with commitTimer := none } } (.directoryFail c.commitTarget .sequence)).Lawful ht tr hj jb :=
      h.same (by rw [Chip.holdView_raise]; rfl)
    split
    · exact Chip.Lawful.congr (c := Chip.raise { c with dir := { c.dir with commitTimer := none } } (.directoryFail c.commitTarget .sequence)) rfl h0
    · exact h0
  · refine (h.congr (Chip.lawView_bindCommit _ _ _)).beginCommit _ _ (fun h => nomatch h) (fun _ => ?_)
    have : (c.bindCommit c.commitTarget (c.highestSeq + 1)).dir = c.dir := by unfold Chip.bindCommit; split <;> rfl
    rw [this]; exact hf

theorem Chip.Lawful.format_none (h : c.Lawful ht tr hj jb) (hs : c.inService = true) : c.dir.format = none := by
  by_contra hn
  have := (h.fmt hn).1
  simp [Chip.inService, this] at hs

theorem Chip.keeps_trigger (c : Chip) : Chip.Keeps c c.trigger := by
  unfold Chip.trigger
  split
  · split
    · exact Chip.keeps_startCommit c
    · exact ⟨Or.inl rfl, rfl⟩
    · exact ⟨Or.inl rfl, rfl⟩
  · exact ⟨Or.inl rfl, rfl⟩

/-- A commit trigger keeps the laws (R145). -/
theorem Chip.Lawful.trigger (h : c.Lawful ht tr hj jb) : c.trigger.Lawful ht tr hj jb := by
  unfold Chip.trigger
  split
  · rename_i hs
    split
    · exact h.startCommit (h.format_none hs)
    · exact Chip.Lawful.congr (c := c) rfl h
    · exact h
  · exact h

theorem Chip.good_trigger (h : c.Good) : c.trigger.Good := Chip.good_of_keeps (Chip.Lawful.trigger h) (Chip.keeps_trigger c)

/-! ## Spares -/

theorem Chip.holdView_regraded (c : Chip) (t : SpareId) : (c.releaseSpare t).holdView = (c.setSpare t .free).holdView := by
  unfold Chip.releaseSpare; exact Chip.holdView_regradeDevice _
theorem Chip.Lawful.release {t : SpareId} (h : c.Lawful ht tr hj jb) (hs : c.spareState t = some .testing) :
    (c.releaseSpare t).Lawful none tr none jb :=
  (h.untest hs (by simp) (by simp)).same (Chip.holdView_regraded c t)
theorem Chip.Lawful.spoil {t : SpareId} (h : c.Lawful ht tr hj jb) (hs : c.spareState t = some .testing) :
    (c.spoilSpare t).Lawful none tr none jb :=
  (h.untest hs (st := .bad) (by simp) (by simp)).same (by unfold Chip.spoilSpare; rw [Chip.holdView_raise, Chip.holdView_setDirty])

/-- With no other spare TESTING, none is once this one is BAD. -/
theorem Chip.someTesting_of_none (h : c.Lawful ht tr hj jb) (hn : ∀ t, c.spareState t ≠ some .testing) : c.someTesting = false := by
  unfold Chip.someTesting
  rw [List.any_eq_false]
  intro z hz
  simp only [decide_eq_true_eq]
  intro hm
  obtain ⟨g, hg⟩ := List.mem_iff_getElem?.1 hz
  obtain ⟨i, hi⟩ := List.mem_iff_getElem?.1 hm
  obtain ⟨hg1, hg2⟩ := List.getElem?_eq_some_iff.1 hg
  obtain ⟨hi1, hi2⟩ := List.getElem?_eq_some_iff.1 hi
  have h1 := h.le_sixteen (List.mem_map_of_mem hz)
  have h2 := h.zones
  have e1 : (spareOf g i).globalZone = g := by simp only [SpareId.globalZone, spareOf, Fin.ofNat]; omega
  have e2 : (spareOf g i).index.val = i := by simp only [spareOf, Fin.ofNat]; omega
  refine hn (spareOf g i) ?_
  unfold Chip.spareState Chip.zone
  rw [e1, e2, List.getD_eq_getElem?_getD, hg]
  exact hi

theorem Chip.Lawful.not_testing_spoil {t : SpareId} (h : c.Lawful ht tr hj jb) (hs : c.spareState t = some .testing) :
    (c.spoilSpare t).someTesting = false := by
  refine Chip.someTesting_of_none (h.spoil hs) ?_
  intro x hx
  have : (c.spoilSpare t).spareState x = (c.setSpare t .bad).spareState x :=
    Chip.spareState_congr (Chip.lawView_of (by unfold Chip.spoilSpare; rw [Chip.holdView_raise, Chip.holdView_setDirty])) x
  rw [this, Chip.spareState_setSpare, hs] at hx
  simp only [Option.isSome_some, and_true] at hx
  split at hx
  · cases hx
  · rename_i hne; exact hne (h.testing x t hx hs)

theorem Chip.Lawful.take {t : SpareId} {home : Nat} (h : c.Lawful ht tr hj jb) (hn : c.someTesting = false)
    (hc : c.chooseSpare home = some t) {ht' hj' : Option SpareId} (h1 : ht' = none ∨ ht' = some t ∧ tr = true)
    (h2 : hj' = none ∨ hj' = some t ∧ jb = true) (h3 : ht' = none ∨ hj' = none) : (c.takeSpare t).Lawful ht' tr hj' jb :=
  (h.test hn (h.spareState_chooseSpare hc) h1 h2 h3).same (by unfold Chip.takeSpare; exact Chip.holdView_regradeDevice _)

theorem Chip.keeps_takeSpare (c : Chip) (t : SpareId) : (c.takeSpare t).cmd = c.cmd ∧ (c.takeSpare t).rep = c.rep := by
  have := Chip.requesters_takeSpare c t
  exact ⟨Chip.cmd_of_requesters this, Chip.rep_of_requesters this⟩
theorem Chip.keeps_spoilSpare (c : Chip) (t : SpareId) : (c.spoilSpare t).cmd = c.cmd ∧ (c.spoilSpare t).rep = c.rep := by
  have := Chip.requesters_spoilSpare c t
  exact ⟨Chip.cmd_of_requesters this, Chip.rep_of_requesters this⟩
theorem Chip.keeps_releaseSpare (c : Chip) (t : SpareId) : (c.releaseSpare t).cmd = c.cmd ∧ (c.releaseSpare t).rep = c.rep := by
  have := Chip.requesters_releaseSpare c t
  exact ⟨Chip.cmd_of_requesters this, Chip.rep_of_requesters this⟩

/-! ## Map changes -/

theorem Chip.spareState_of (h : d.holdView = c.holdView) (t : SpareId) : d.spareState t = c.spareState t :=
  Chip.spareState_congr (Chip.lawView_of h) t

theorem Chip.holdView_dropTarget (c : Chip) (l : Nat) (t : SpareId) : (c.dropTarget l t).holdView = (c.setSpare t .bad).holdView := by
  unfold Chip.dropTarget; rw [Chip.holdView_countBorrow]

theorem Chip.frame_dropTarget (c : Chip) (l : Nat) (t : SpareId) : (c.dropTarget l t).tr = c.tr ∧ (c.dropTarget l t).pat = c.pat
    ∧ (c.dropTarget l t).dir = c.dir ∧ (c.dropTarget l t).cmd = c.cmd ∧ (c.dropTarget l t).rep = c.rep := by
  unfold Chip.dropTarget Chip.countBorrow
  split <;> exact ⟨rfl, rfl, rfl, rfl, rfl⟩

/-- The parts of a map change before the tracker's, the claims' and the grades' (R14, R15). -/
theorem Chip.dropOld_facts (hl : c.Lawful ht tr hj jb) (l : Nat) :
    (c.dropOld l).tr = c.tr ∧ (c.dropOld l).pat = c.pat ∧ (c.dropOld l).dir = c.dir ∧ (c.dropOld l).cmd = c.cmd ∧ (c.dropOld l).rep = c.rep
      ∧ (∀ x, (c.dropOld l).spareState x = if c.oldTarget l = some x then some .bad else c.spareState x)
      ∧ (c.dropOld l).alloc.zones.length = c.alloc.zones.length
      ∧ (c.dropOld l).devices = c.devices ∧ SizeOk c.devices ((c.dropOld l).alloc.zones.map Zone.spares) := by
  unfold Chip.dropOld Chip.oldTarget
  cases h : c.lookup l with
  | home p => exact ⟨rfl, rfl, rfl, rfl, rfl, fun x => by simp, rfl, rfl, hl.size⟩
  | retired => exact ⟨rfl, rfl, rfl, rfl, rfl, fun x => by simp, rfl, rfl, hl.size⟩
  | spared old =>
    obtain ⟨e, he, -, hp⟩ := hl.lookup_spared.1 h
    have hu : c.spareState old = some .inUse := (hl.inUse old).1 (mem_sparedTargets.2 ⟨e, he, hp⟩)
    have h3 : (c.dropTarget l old).alloc.zones.map Zone.spares = (c.setSpare old .bad).alloc.zones.map Zone.spares :=
      congrArg (fun x => x.1.1.2.2) (Chip.holdView_dropTarget c l old)
    obtain ⟨g1, g2, g3, g4, g5⟩ := Chip.frame_dropTarget c l old
    refine ⟨g1, g2, g3, g4, g5, ?_, ?_, congrArg (fun x => x.1.2.2.2.2.2) (Chip.holdView_dropTarget c l old), ?_⟩
    · intro x
      show (c.dropTarget l old).spareState x = _
      rw [Chip.spareState_of (Chip.holdView_dropTarget c l old), Chip.spareState_setSpare, hu]
      by_cases hx : x = old
      · subst hx; simp
      · have : ¬ old = x := fun e => hx e.symm
        simp [hx, this]
    · have := congrArg List.length h3
      simpa [zones_setSpare] using this
    · show SizeOk c.devices ((c.dropTarget l old).alloc.zones.map Zone.spares)
      rw [h3]; exact size_setSpare _ _ hl.size

theorem Chip.changes_countChange (c : Chip) : c.countChange.tr.changes ≤ 16 := Nat.min_le_left _ _

/-- Insert and retarget, before the commit trigger of R16. -/
def Chip.updated (c : Chip) (l : Nat) (t : SpareId) (o : Origin) : Chip :=
  ((((((((c.dropOld l).putEntry l (.spared t) o).setSpare t .inUse).countBorrow l t (· + 1)).countChange).setDirty).removePending l).markPatrolClaim
    l).regradeDevice

theorem Chip.mapUpdate_eq (c : Chip) (l : Nat) (t : SpareId) (o : Origin) :
    c.mapUpdate l t o = if c.tr.changes + 1 = Config.changeLimit then (c.updated l t o).trigger else c.updated l t o := by
  unfold Chip.mapUpdate Chip.updated Chip.dropOld; rfl

theorem Chip.Lawful.updated {l : Nat} {t : SpareId} {o : Origin} (hl : c.Lawful ht tr hj jb) (hs : c.spareState t = some .testing) :
    (c.updated l t o).Lawful none tr none jb ∧ Chip.Keeps c (c.updated l t o) := by
  obtain ⟨f1, f2, f3, f4, f5, f6, f7, f9, f8⟩ := Chip.dropOld_facts hl l
  let d : Chip := ((((c.dropOld l).putEntry l (.spared t) o).setSpare t .inUse).countBorrow l t (· + 1)).countChange
  have hv : (c.updated l t o).holdView = d.holdView := by
    unfold Chip.updated
    rw [Chip.holdView_regradeDevice, Chip.holdView_markPatrolClaim, Chip.holdView_removePending, Chip.holdView_setDirty]
  have hcb := Chip.holdView_countBorrow (((c.dropOld l).putEntry l (.spared t) o).setSpare t .inUse) l t (· + 1)
  have hne : c.oldTarget l ≠ some t := by
    intro h
    unfold Chip.oldTarget at h
    split at h
    · rename_i old ho
      cases h
      obtain ⟨e, he, -, hp⟩ := hl.lookup_spared.1 ho
      rw [(hl.inUse t).1 (mem_sparedTargets.2 ⟨e, he, hp⟩)] at hs; cases hs
    · cases h
    · cases h
  have hst : ∀ x, d.spareState x = if Placement.spared t = .spared x then some .inUse
      else if c.oldTarget l = some x then some .bad else c.spareState x := by
    intro x
    have e1 : d.spareState x = (((c.dropOld l).putEntry l (.spared t) o).setSpare t .inUse).spareState x :=
      Chip.spareState_of hcb x
    have e2 : ∀ y, ((c.dropOld l).putEntry l (.spared t) o).spareState y = (c.dropOld l).spareState y := fun _ => rfl
    rw [e1, Chip.spareState_setSpare, e2, e2, f6, f6, if_neg hne, hs]
    by_cases hx : x = t
    · subst hx; simp
    · have : ¬ t = x := fun e => hx e.symm
      simp [hx, this]
  have h := hl.mapChange (d := d) (l := l) (place := .spared t) (o := o) (by intro x hx; cases hx; exact hs) (fun h => nomatch h)
    (by
      show (((c.dropOld l).putEntry l (.spared t) o).setSpare t .inUse |>.countBorrow l t (· + 1)).tr.remap = _
      rw [Chip.tr_countBorrow]
      show placeEntry { row := l, place := _, origin := o, stamp := (c.dropOld l).pat.pass } (c.dropOld l).tr.remap = _
      rw [f1, f2])
    (Chip.changes_countChange _) hst
    (by
      have := congrArg List.length (congrArg (fun x => x.1.1.2.2) hcb)
      simp only [Chip.holdView, Chip.lawView, List.length_map, zones_setSpare] at this
      exact this.trans f7)
    (by
      have h3 : d.alloc.zones.map Zone.spares = (((c.dropOld l).putEntry l (.spared t) o).setSpare t .inUse).alloc.zones.map Zone.spares :=
        congrArg (fun x => x.1.1.2.2) hcb
      have h4 : d.devices = c.devices := (congrArg (fun x => x.1.2.2.2.2.2) hcb : _).trans f9
      rw [h3, h4]
      exact size_setSpare (c := (c.dropOld l).putEntry l (.spared t) o) _ _ f8)
    (by show (Chip.countBorrow _ _ _ _).dir.mode = _; rw [Chip.dir_countBorrow]; exact congrArg DirectoryUnit.mode f3)
    (by show (Chip.countBorrow _ _ _ _).dir.opState = _; rw [Chip.dir_countBorrow]; exact congrArg DirectoryUnit.opState f3)
    (by show (Chip.countBorrow _ _ _ _).dir.format = _; rw [Chip.dir_countBorrow]; exact congrArg DirectoryUnit.format f3)
    (by show (Chip.countBorrow _ _ _ _).dir.commit = _; rw [Chip.dir_countBorrow]; exact congrArg DirectoryUnit.commit f3)
  refine ⟨(h.2 (fun h => nomatch h)).same hv, ?_⟩
  have hk : Chip.Keeps c d := by
    refine ⟨Or.inl ?_, ?_⟩
    · have w := Chip.work_of hcb
      exact w.trans (congrArg CommandEngine.work f4)
    · have w := Chip.job_of hcb
      exact w.trans (congrArg RepairEngine.job f5)
  exact hk.trans (Chip.keeps_of hv)

/-- A relocation completes: nobody holds a spare (R76, R113). -/
theorem Chip.Lawful.relocateTo {l : Nat} {t : SpareId} {o : Origin} (hl : c.Lawful ht tr hj jb) (hs : c.spareState t = some .testing) :
    (c.relocateTo l t o).Lawful none tr none jb ∧ Chip.Keeps c (c.relocateTo l t o) := by
  obtain ⟨h1, h2⟩ := hl.updated (l := l) (o := o) hs
  unfold Chip.relocateTo
  rw [Chip.mapUpdate_eq]
  split
  · exact ⟨h1.trigger.same (Chip.holdView_raise _ _), (h2.trans (Chip.keeps_trigger _)).trans (Chip.keeps_of (Chip.holdView_raise _ _))⟩
  · exact ⟨h1.same (Chip.holdView_raise _ _), h2.trans (Chip.keeps_of (Chip.holdView_raise _ _))⟩

/-- A retirement, before the commit trigger of R16. -/
def Chip.retiredRow (c : Chip) (l : Nat) (o : Origin) : Chip :=
  ((((((((c.dropOld l).putEntry l .retired o).modifyZone (homeZone l) fun z => { z with retiredRows := z.retiredRows + 1 }).countChange).removeWatch l).setDirty).removePending
    l).markPatrolClaim l).regradeDevice

theorem Chip.retireRow_eq (c : Chip) (l : Nat) (o : Origin) :
    c.retireRow l o = if c.tr.changes + 1 = Config.changeLimit then (c.retiredRow l o).trigger else c.retiredRow l o := by
  unfold Chip.retireRow Chip.retiredRow Chip.dropOld; rfl

theorem Chip.Lawful.retiredRow {l : Nat} {o : Origin} (hl : c.Lawful ht tr hj jb) (hn : c.retiredCount < 128) :
    (c.retiredRow l o).Lawful ht tr hj jb ∧ Chip.Keeps c (c.retiredRow l o) := by
  obtain ⟨f1, f2, f3, f4, f5, f6, f7, f9, f8⟩ := Chip.dropOld_facts hl l
  let d : Chip := (((c.dropOld l).putEntry l .retired o).modifyZone (homeZone l) fun z => { z with retiredRows := z.retiredRows + 1 }).countChange
  have hv : (c.retiredRow l o).holdView = d.holdView := by
    unfold Chip.retiredRow
    rw [Chip.holdView_regradeDevice, Chip.holdView_markPatrolClaim, Chip.holdView_removePending, Chip.holdView_setDirty, Chip.holdView_removeWatch]
  have hcb := Chip.holdView_modifyZone ((c.dropOld l).putEntry l .retired o) (homeZone l)
    (fun z => { z with retiredRows := z.retiredRows + 1 }) (fun _ => rfl)
  have h := hl.mapChange (d := d) (l := l) (place := .retired) (o := o) (fun _ h => nomatch h) (fun _ => hn)
    (by
      show placeEntry { row := l, place := _, origin := o, stamp := (c.dropOld l).pat.pass } (c.dropOld l).tr.remap = _
      rw [f1, f2])
    (Chip.changes_countChange _)
    (by
      intro x
      have e1 : d.spareState x = (c.dropOld l).spareState x := Chip.spareState_of hcb x
      rw [e1, f6]; simp)
    (by
      show ((c.dropOld l).alloc.zones.modify _ _).length = _
      rw [List.length_modify]; exact f7)
    (by
      have h3 : d.alloc.zones.map Zone.spares = (c.dropOld l).alloc.zones.map Zone.spares := congrArg (fun x => x.1.1.2.2) hcb
      have h4 : d.devices = c.devices := f9
      rw [h3, h4]
      exact f8)
    (congrArg DirectoryUnit.mode f3) (congrArg DirectoryUnit.opState f3) (congrArg DirectoryUnit.format f3) (congrArg DirectoryUnit.commit f3)
  refine ⟨(h.1 rfl).same hv, ?_⟩
  have hk : Chip.Keeps c d := ⟨Or.inl (congrArg CommandEngine.work f4), congrArg RepairEngine.job f5⟩
  exact hk.trans (Chip.keeps_of hv)

/-- A retire request keeps the laws and who holds what (R15). -/
theorem Chip.Lawful.retireOrStick (hl : c.Lawful ht tr hj jb) (l : Nat) (o : Origin) :
    (c.retireOrStick l o).1.Lawful ht tr hj jb ∧ Chip.Keeps c (c.retireOrStick l o).1 := by
  unfold Chip.retireOrStick
  split
  · exact ⟨hl, Chip.keeps_of rfl⟩
  · split
    · have : ((c.setStuck l).raise (.stuck l)).holdView = c.holdView := by simp
      exact ⟨hl.same this, Chip.keeps_of this⟩
    · rename_i h
      have hn : c.retiredCount < 128 := Nat.lt_of_not_le h
      obtain ⟨h1, h2⟩ := hl.retiredRow (l := l) (o := o) hn
      have fin : ∀ X : Chip, X.Lawful ht tr hj jb → Chip.Keeps c X →
          (X.raise (.retired l)).Lawful ht tr hj jb ∧ Chip.Keeps c (X.raise (.retired l)) :=
        fun X a b => ⟨a.same (Chip.holdView_raise _ _), b.trans (Chip.keeps_of (Chip.holdView_raise _ _))⟩
      refine fin (c.retireRow l o) ?_ ?_ <;> rw [Chip.retireRow_eq] <;> split
      · exact h1.trigger
      · exact h1
      · exact h2.trans (Chip.keeps_trigger _)
      · exact h2

end Sys2Proof.Machine
end

