-- ==== Sys2Proof/Laws/LawfulModes.lean ====
section
/-! SUPPORT. FORMAT ARRAY, commits, loading and the patrol keep the laws of the tables, the spares and the modes (R146 to R168). -/

namespace Sys2Proof.Machine

variable {ht hj : Option SpareId} {tr jb : Bool} {c d : Chip}

/-! ## Modes -/

/-- No commit stands in the way of a format: none is in flight, or one left without effect or a commit of FORMAT ARRAY's own. -/
def Chip.CommitYields (c : Chip) : Prop := ∀ j, c.dir.commit = some j → j.detached = true ∨ j.ofFormat = true

/-- A change of mode, state, format and commit that keeps the laws of the modes. -/
theorem Chip.Lawful.redirect (h : c.Lawful ht tr hj jb)
    (e : (((d.tr.remap, d.tr.changes, d.alloc.zones.map Zone.spares), d.devices) : (List RemapEntry × Nat × List (List SpareState)) × Nat)
      = ((c.tr.remap, c.tr.changes, c.alloc.zones.map Zone.spares), c.devices))
    (fmt : d.dir.format ≠ none → d.dir.opState = .formatting ∧ tr = false)
    (load : d.dir.mode = .loading → d.dir.opState = .loading ∧ tr = false ∧ jb = false ∧ d.dir.format = none)
    (quiet : d.dir.mode ≠ .committing → d.dir.commit = none)
    (own : ∀ j, d.dir.commit = some j → j.detached = false →
      (j.ofFormat = true → d.dir.format ≠ none)
      ∧ (j.ofFormat = false → ∀ f, d.dir.format = some f → f.phase = .waitCommit)) : d.Lawful ht tr hj jb := by
  let e' : Chip := { c with dir := { c.dir with mode := d.dir.mode, opState := d.dir.opState, format := d.dir.format, commit := d.dir.commit } }
  have h' : e'.Lawful ht tr hj jb := { h with fmt := fmt, load := load, quiet := quiet, own := own }
  refine h'.congr ?_
  show ((d.tr.remap, d.tr.changes, d.alloc.zones.map Zone.spares), _, _, _, _, d.devices)
    = ((c.tr.remap, c.tr.changes, c.alloc.zones.map Zone.spares), _, _, _, _, c.devices)
  obtain ⟨e1, e2⟩ := Prod.mk.inj e
  rw [e1, e2]

theorem Chip.Lawful.closeCommit (h : c.Lawful ht tr hj jb) : c.closeCommit.Lawful ht tr hj jb :=
  h.redirect rfl h.fmt (fun h => nomatch h) (fun _ => rfl) (fun _ h => nomatch h)

theorem Chip.Lawful.setOpState (h : c.Lawful ht tr hj jb) (st : OperatingState) (h1 : c.dir.format = none ∨ st = .formatting ∧ tr = false)
    (h2 : c.dir.mode ≠ .loading) : (c.setOpState st).Lawful ht tr hj jb := by
  unfold Chip.setOpState
  split
  · exact h
  · refine h.redirect rfl ?_ (fun h3 => absurd h3 h2) h.quiet h.own
    intro hf
    rcases h1 with h1 | h1
    · exact absurd h1 hf
    · exact h1

theorem Chip.Lawful.setCommit {j : CommitJob} (h : c.Lawful ht tr hj jb) (hj' : c.dir.commit = some j) (j' : CommitJob)
    (e1 : j'.detached = j.detached) (e2 : j'.ofFormat = j.ofFormat) : (c.setCommit j').Lawful ht tr hj jb := by
  refine h.redirect rfl h.fmt h.load ?_ ?_
  · intro hm; rw [h.quiet hm] at hj'; cases hj'
  · intro k hk hd
    cases hk
    rw [e2]; exact h.own j hj' (by rw [← e1]; exact hd)

theorem Chip.Lawful.detachCommit (h : c.Lawful ht tr hj jb) : c.detachCommit.Lawful ht tr hj jb := by
  refine h.redirect rfl h.fmt h.load ?_ ?_
  · intro hm; show Option.map _ c.dir.commit = none; rw [h.quiet hm]; rfl
  · intro k hk hd
    obtain ⟨j, -, rfl⟩ := Option.map_eq_some_iff.1 hk
    cases hd

/-- The format's place is set while the part is FORMATTING and runs no transfer. -/
theorem Chip.Lawful.setFormat (h : c.Lawful ht tr hj jb) (f : FormatJob) (h1 : c.dir.opState = .formatting) (h2 : tr = false)
    (h3 : c.dir.mode ≠ .loading) (h4 : f.phase = .waitCommit ∨ c.CommitYields) : (c.setFormat (some f)).Lawful ht tr hj jb := by
  refine h.redirect rfl (fun _ => ⟨h1, h2⟩) (fun h => absurd h h3) h.quiet ?_
  intro j hj' hd
  refine ⟨fun _ => Option.some_ne_none f, ?_⟩
  intro hof f' hf'
  cases hf'
  rcases h4 with h4 | h4
  · exact h4
  · rcases h4 j hj' with h | h
    · rw [hd] at h; cases h
    · rw [hof] at h; cases h

theorem stateIn_fresh (n : Nat) (t : SpareId) : stateIn ((freshZones n).map Zone.spares) t = none
    ∨ stateIn ((freshZones n).map Zone.spares) t = some .free := by
  unfold stateIn freshZones
  rw [List.getD_eq_getElem?_getD, List.getElem?_map, List.getElem?_map]
  cases h : (List.range 32)[t.globalZone]? with
  | none => left; simp
  | some g =>
    simp only [Option.map_some, Option.getD_some]
    split
    · right
      show (List.replicate 16 SpareState.free)[t.index.val]? = _
      rw [List.getElem?_replicate, if_pos t.index.isLt]
    · left; simp [Zone.absent]

/-- Fresh zones are of the right size (R103). -/
theorem size_fresh (n : Nat) : SizeOk n ((freshZones n).map Zone.spares) := by
  intro g hg
  rw [List.getD_eq_getElem?_getD, List.getElem?_map, freshZones, List.getElem?_map, List.getElem?_range hg]
  simp only [Option.map_some, Option.getD_some]
  split <;> simp [Zone.fresh, Zone.absent]

/-- Emptied tables keep the laws whatever they held; nobody holds a spare (R164). -/
theorem Chip.Lawful.fresh (h : c.Lawful ht tr hj jb) (e1 : d.tr.remap = []) (e2 : d.tr.changes = 0) {n : Nat}
    (e3 : d.alloc.zones = freshZones n) (e8 : d.devices = n) (e4 : d.dir.mode = c.dir.mode) (e5 : d.dir.opState = c.dir.opState)
    (e6 : d.dir.format = c.dir.format) (e7 : d.dir.commit = c.dir.commit) : d.Lawful none tr none jb := by
  have hs : ∀ t, d.spareState t = none ∨ d.spareState t = some .free := by
    intro t; rw [Chip.spareState_eq, e3]; exact stateIn_fresh n t
  have hne : ∀ t st, st ≠ .free → d.spareState t ≠ some st := by
    intro t st hst h
    rcases hs t with h1 | h1 <;> rw [h1] at h
    · cases h
    · exact hst (Option.some.inj h).symm
  refine { sorted := by rw [e1]; exact List.Pairwise.nil
           nodup := by rw [e1]; exact List.nodup_nil
           inUse := fun t => by rw [e1]; exact ⟨fun h => (nomatch h), fun h => absurd h (hne t _ (by simp))⟩
           retired := by unfold Chip.retiredCount; rw [e1]; exact Nat.zero_le _
           changes := by rw [e2]; exact Nat.zero_le _
           testing := fun a _ h => absurd h (hne a _ (by simp))
           heldT := (fun _ h => nomatch h), heldJ := (fun _ h => nomatch h), one := Or.inl rfl
           zones := by rw [e3]; simp [freshZones]
           size := by rw [e3, e8]; exact size_fresh n
           work := fun h => absurd rfl h, job := fun h => absurd rfl h
           fmt := by rw [e5, e6]; exact h.fmt, load := by rw [e4, e5, e6]; exact h.load
           quiet := by rw [e4, e7]; exact h.quiet, own := by rw [e6, e7]; exact h.own }

/-- The emptying (R164): it runs while no transfer does. -/
theorem Chip.Lawful.emptyTables (h : c.Lawful ht false hj jb) : c.emptyTables.Lawful none false none false := by
  let d : Chip := { c with
      tr := { remap := [], changes := 0, repairClaim := none, patrolClaim := none }
      rep := { st := .idle, job := none, waiting := none }
      seq := { c.seq with repair := c.seq.repair.abandon, patrol := c.seq.patrol.abandon }
      alloc := { zones := freshZones c.devices }
      trk := { watch := List.replicate 64 none, pendingList := [] }
      health := { c.health with policy := Policy.default, queue := [], lost := false }
      pat := c.pat.formatted
      dir := { c.dir with dirty := false, commitRequest := false, commitTimer := none } }
  have h1 : d.Lawful none false none jb := h.fresh (d := d) rfl rfl rfl rfl rfl rfl rfl rfl
  have h2 : d.Lawful none false none false :=
    h1.weaken (Or.inl rfl) (Or.inl rfl) (Or.inl rfl) (Or.inl rfl) (fun h => absurd rfl h) (fun h => absurd rfl h)
  exact h2.same (d := c.emptyTables) (by
    show (Chip.regradeDevice (Chip.raise d _)).holdView = _
    rw [Chip.holdView_regradeDevice, Chip.holdView_raise])

theorem Chip.hold_emptyTables (c : Chip) : c.emptyTables.cmd.work = c.cmd.work ∧ c.emptyTables.rep.job = none
    ∧ c.emptyTables.dir.format = c.dir.format ∧ c.emptyTables.dir.opState = c.dir.opState ∧ c.emptyTables.dir.mode = c.dir.mode
    ∧ c.emptyTables.dir.commit = c.dir.commit := by
  let d : Chip := { c with
      tr := { remap := [], changes := 0, repairClaim := none, patrolClaim := none }
      rep := { st := .idle, job := none, waiting := none }
      seq := { c.seq with repair := c.seq.repair.abandon, patrol := c.seq.patrol.abandon }
      alloc := { zones := freshZones c.devices }
      trk := { watch := List.replicate 64 none, pendingList := [] }
      health := { c.health with policy := Policy.default, queue := [], lost := false }
      pat := c.pat.formatted
      dir := { c.dir with dirty := false, commitRequest := false, commitTimer := none } }
  have h : c.emptyTables.holdView = d.holdView := by
    show (Chip.regradeDevice (Chip.raise d _)).holdView = _
    rw [Chip.holdView_regradeDevice, Chip.holdView_raise]
  exact ⟨congrArg (fun x => x.2.1) h, congrArg (fun x => x.2.2) h, congrArg (fun x => x.1.2.2.2.1) h, congrArg (fun x => x.1.2.2.1) h,
    congrArg (fun x => x.1.2.1) h, congrArg (fun x => x.1.2.2.2.2.1) h⟩

/-- The part's work is no transfer while a format is in flight. -/
theorem Chip.Good.no_transfer (h : c.Good) (hf : c.dir.format ≠ none) : c.cmd.work.isTransfer = false := (Chip.Lawful.fmt h hf).2
theorem Chip.Good.not_loading (h : c.Good) (hf : c.dir.format ≠ none) : c.dir.mode ≠ .loading :=
  fun hm => hf (Chip.Lawful.load h hm).2.2.2

theorem Chip.good_emptyTables (h : c.Good) (hw : c.cmd.work.isTransfer = false) : c.emptyTables.Good := by
  obtain ⟨h1, h2, -⟩ := Chip.hold_emptyTables c
  unfold Chip.Good
  rw [h1, h2, hw, Work.spare_of_not_transfer hw]
  unfold Chip.Good at h
  rw [hw] at h
  exact h.emptyTables

/-- A format ends (R166, R167). -/
theorem Chip.good_endFormat (h : c.Good) (st : OperatingState) (code : ResultCode) (n : Nat) (hm : c.dir.mode ≠ .loading)
    (hc : ∀ j, c.dir.commit = some j → j.detached = true) : (c.endFormat st code n).Good := by
  have h1 : (c.setFormat none).Lawful c.cmd.work.spare c.cmd.work.isTransfer (c.rep.job.bind Job.spare) c.rep.job.isSome := by
    refine Chip.Lawful.redirect (c := c) h rfl (fun h => absurd rfl h) (fun h => absurd h hm) (Chip.Lawful.quiet (c := c) h) ?_
    intro j hj hd
    rw [hc j hj] at hd; cases hd
  have h2 := h1.setOpState st (Or.inl rfl) hm
  have e : ((c.setFormat none).setOpState st).cmd = c.cmd ∧ ((c.setFormat none).setOpState st).rep = c.rep := by
    unfold Chip.setOpState; split <;> exact ⟨rfl, rfl⟩
  have h3 : ((c.setFormat none).setOpState st).Good := by
    unfold Chip.Good; rw [e.1, e.2]; exact h2
  unfold Chip.endFormat
  dsimp only
  split
  · exact Chip.good_endCommand h3 _ _
  · exact h3

theorem Chip.good_endFormatEarly (h : c.Good) (code : ResultCode) : (c.endFormatEarly code).Good := by
  unfold Chip.endFormatEarly
  split
  · exact h
  · rename_i f hf
    have hne : c.dir.format ≠ none := by rw [hf]; simp
    have hw := h.no_transfer hne
    have hm := h.not_loading hne
    have h1 : ((c.setCopy .a false 0).setCopy .b false 0).Good := h.same (by simp)
    dsimp only
    have fin : ∀ X : Chip, X.Good → X.dir.mode ≠ .loading → (X.detachCommit.endFormat .unformatted code 0).Good := by
      intro X hX hXm
      refine Chip.good_endFormat ?_ _ _ _ hXm ?_
      · exact Chip.Lawful.detachCommit hX
      · intro j hj
        obtain ⟨k, -, rfl⟩ := Option.map_eq_some_iff.1 hj
        rfl
    split
    · exact fin _ h1 hm
    · refine fin _ (Chip.good_emptyTables h1 hw) ?_
      rw [(Chip.hold_emptyTables _).2.2.2.2.1]; exact hm

theorem Chip.good_setFormat (h : c.Good) (f : FormatJob) (h1 : c.dir.opState = .formatting) (h2 : c.cmd.work.isTransfer = false)
    (h3 : c.dir.mode ≠ .loading) (h4 : f.phase = .waitCommit ∨ c.CommitYields) : (c.setFormat (some f)).Good :=
  Chip.Lawful.setFormat (c := c) h f h1 h2 h3 h4

theorem Chip.good_invalidate (h : c.Good) (k : Copy) (h1 : c.dir.opState = .formatting) (h2 : c.cmd.work.isTransfer = false)
    (h3 : c.dir.mode ≠ .loading) (h4 : c.CommitYields) : (c.invalidate k).Good := by
  unfold Chip.invalidate
  exact (Chip.good_setFormat h _ h1 h2 h3 (Or.inr h4)).same (Chip.holdView_issue _ _ _ _)

theorem Chip.good_startInvalidation (h : c.Good) (h1 : c.dir.opState = .formatting) (h2 : c.cmd.work.isTransfer = false)
    (h3 : c.dir.mode ≠ .loading) (h4 : c.CommitYields) : c.startInvalidation.Good := by
  unfold Chip.startInvalidation
  exact Chip.good_invalidate (h.same (by simp)) _ h1 h2 h3 h4

theorem Chip.good_initialiseRow (h : c.Good) (k : Nat) (h1 : c.dir.opState = .formatting) (h2 : c.cmd.work.isTransfer = false)
    (h3 : c.dir.mode ≠ .loading) (h4 : c.CommitYields) : (c.initialiseRow k).Good := by
  unfold Chip.initialiseRow
  exact (Chip.good_setFormat h _ h1 h2 h3 (Or.inr h4)).same (Chip.holdView_issueForeground _ _ _ _)

theorem Chip.good_formatCommit (h : c.Good) (k : Copy) (h1 : c.dir.opState = .formatting) (h2 : c.cmd.work.isTransfer = false)
    (h3 : c.dir.mode ≠ .loading) (h4 : c.CommitYields) : (c.formatCommit k).Good := by
  unfold Chip.formatCommit
  have h5 := Chip.good_setFormat h { phase := .committing k, ending := false } h1 h2 h3 (Or.inr h4)
  exact Chip.good_of_keeps (Chip.Lawful.beginCommit h5 _ _ (fun _ h => nomatch h) (fun h => nomatch h)) (Chip.keeps_beginCommit _ _ _ _)

theorem Chip.good_setResult0 (h : c.Good) (n : Nat) : (c.setResult0 n).Good := h.same (Chip.holdView_setResult0 c n)

/-- The commit in flight yields to a format whose phase is no wait. -/
theorem Chip.Good.yields (h : c.Good) {f : FormatJob} (hf : c.dir.format = some f) (hp : f.phase ≠ .waitCommit) : c.CommitYields := by
  intro j hj
  cases hd : j.detached with
  | true => exact Or.inl rfl
  | false =>
    cases ho : j.ofFormat with
    | true => exact Or.inr rfl
    | false => exact absurd ((Chip.Lawful.own h j hj hd).2 ho f hf) hp

theorem Chip.good_invalidated (h : c.Good) : c.invalidated.Good := by
  unfold Chip.invalidated
  split
  · exact h
  · rename_i f hf
    have hne : c.dir.format ≠ none := by rw [hf]; simp
    have hop := (Chip.Lawful.fmt h hne).1
    have hw := h.no_transfer hne
    have hm := h.not_loading hne
    split
    · rename_i hp
      split
      · exact Chip.good_endFormatEarly h _
      · exact Chip.good_invalidate h _ hop hw hm (h.yields hf (by rw [hp]; simp))
    · rename_i hp
      split
      · exact Chip.good_endFormatEarly h _
      · obtain ⟨e1, -, -, e4, e5, e6⟩ := Chip.hold_emptyTables c
        exact Chip.good_initialiseRow (Chip.good_emptyTables h hw) _ (by rw [e4]; exact hop) (by rw [e1]; exact hw) (by rw [e5]; exact hm)
          (by
            intro j hj; rw [e6] at hj
            exact h.yields hf (by rw [hp]; simp) j hj)
    · exact h
    · exact h
    · exact h

theorem Chip.good_rowInitialised (h : c.Good) : c.rowInitialised.Good := by
  unfold Chip.rowInitialised
  split
  · exact h
  · rename_i f hf
    have hne : c.dir.format ≠ none := by rw [hf]; simp
    have hop := (Chip.Lawful.fmt h hne).1
    have hw := h.no_transfer hne
    have hm := h.not_loading hne
    split
    · rename_i k hp
      have hy := h.yields hf (by rw [hp]; simp)
      dsimp only
      split
      · exact Chip.good_endFormatEarly (Chip.good_setResult0 h _) _
      · split
        · exact Chip.good_initialiseRow (Chip.good_setResult0 h _) _ hop hw hm hy
        · exact Chip.good_formatCommit (Chip.good_setResult0 h _) _ hop hw hm hy
    · exact h
    · exact h
    · exact h

theorem Chip.good_startFormat (h : c.Good) (hl : c.dir.opState ≠ .loading) : c.startFormat.Good := by
  have hm : c.dir.mode ≠ .loading := fun hm => hl (Chip.Lawful.load h hm).1
  have h1 : c.Lawful none false (c.rep.job.bind Job.spare) c.rep.job.isSome :=
    Chip.Lawful.weaken h (Or.inl rfl) (Or.inl rfl) (Or.inr rfl) (Or.inr rfl) (fun h => absurd rfl h) (Chip.Lawful.job h)
  have h2 := h1.setOpState .formatting (Or.inr ⟨rfl, rfl⟩) hm
  have e : (c.setOpState .formatting).rep = c.rep ∧ (c.setOpState .formatting).dir = { c.dir with opState := .formatting } := by
    unfold Chip.setOpState
    split
    · rename_i h; exact ⟨rfl, by rw [← h]⟩
    · exact ⟨rfl, rfl⟩
  have h3 : ((c.setOpState .formatting).setWork .format).Good := by
    unfold Chip.Good
    show ((c.setOpState .formatting).setWork .format).Lawful none false ((c.setOpState .formatting).rep.job.bind Job.spare)
      (c.setOpState .formatting).rep.job.isSome
    rw [e.1]; exact Chip.Lawful.congr (c := c.setOpState .formatting) rfl h2
  have hop : ((c.setOpState .formatting).setWork .format).dir.opState = .formatting := congrArg DirectoryUnit.opState e.2
  have hmm : ((c.setOpState .formatting).setWork .format).dir.mode = c.dir.mode := by
    have := congrArg DirectoryUnit.mode e.2; exact this
  have hcc : ((c.setOpState .formatting).setWork .format).dir.commit = c.dir.commit := by
    have := congrArg DirectoryUnit.commit e.2; exact this
  unfold Chip.startFormat
  dsimp only
  have idle : c.dir.mode = .idle → ((c.setOpState .formatting).setWork .format).startInvalidation.Good := by
    intro hi
    refine Chip.good_startInvalidation h3 hop rfl (by rw [hmm]; exact hm) ?_
    intro j hj
    rw [hcc, Chip.Lawful.quiet h (by rw [hi]; simp)] at hj; cases hj
  split
  · exact Chip.good_setFormat h3 _ hop rfl (by rw [hmm]; exact hm) (Or.inl rfl)
  · rename_i hi; exact idle (by rw [← hmm]; exact hi)
  · rename_i hi; exact absurd (by rw [← hmm]; exact hi) hm

/-! ## The commit's accesses and its end -/

theorem Chip.good_issueCommit (h : c.Good) {j : CommitJob} (hj : c.dir.commit = some j) (j' : CommitJob)
    (e1 : j'.detached = j.detached) (e2 : j'.ofFormat = j.ofFormat) : (c.issueCommit j').Good := by
  have h1 : (c.setCommit j').Good := Chip.Lawful.setCommit (c := c) h hj j' e1 e2
  unfold Chip.issueCommit
  split <;> exact h1.same (Chip.holdView_issue _ _ _ _)

theorem Chip.good_commitWritten (h : c.Good) : c.commitWritten.Good := by
  unfold Chip.commitWritten
  split
  · exact h
  · rename_i j hj
    split
    · exact Chip.good_issueCommit h hj _ rfl rfl
    · exact Chip.good_issueCommit h hj _ rfl rfl

theorem Chip.good_closeCommit (h : c.Good) : c.closeCommit.Good := Chip.Lawful.closeCommit h

theorem Chip.good_endCommitCommand (h : c.Good) (why : Option CommitFailure) : (c.endCommitCommand why).Good := by
  unfold Chip.endCommitCommand
  split
  · split <;> exact Chip.good_endCommand h _ _
  all_goals exact h

theorem Chip.good_takeCommitRequest (h : c.Good) : c.takeCommitRequest.Good := by
  unfold Chip.takeCommitRequest
  split
  · rename_i hs
    have h1 : ({ c with dir := { c.dir with commitRequest := false } } : Chip).Good := h.same rfl
    have hi : c.inService = true := by simp only [Bool.and_eq_true] at hs; exact hs.2
    exact Chip.good_of_keeps (Chip.Lawful.startCommit h1 (Chip.Lawful.format_none (c := c) h hi)) (Chip.keeps_startCommit _)
  · exact h

theorem Chip.hold_judgeCommit (c : Chip) (j : CommitJob) (why : Option CommitFailure) :
    (c.judgeCommit j why).holdView = c.closeCommit.holdView := by
  unfold Chip.judgeCommit
  cases why with
  | none => cases j.target <;> rfl
  | some w =>
    have : ((c.setCopy j.target false 0).raise (.directoryFail j.target w)).holdView = c.holdView := by simp
    have h1 : ∀ X : Chip, X.holdView = c.holdView → X.closeCommit.holdView = c.closeCommit.holdView := by
      intro X hX
      have e := Chip.lawView_of hX
      simp only [Chip.holdView, Chip.lawView, Prod.mk.injEq] at hX
      obtain ⟨⟨⟨a1, a2, a3⟩, a4, a5, a6, a7⟩, a8, a9⟩ := hX
      simp only [Chip.holdView, Chip.lawView, Chip.closeCommit, a1, a2, a3, a5, a6, a7.2, a8, a9]
    exact h1 ((c.setCopy j.target false 0).raise (.directoryFail j.target w)) this

theorem Chip.good_formatCommitEnds (h : c.Good) {j : CommitJob} (hj : c.dir.commit = some j) (hd : j.detached = false)
    (ho : j.ofFormat = true) (why : Option CommitFailure) : (c.formatCommitEnds j why).Good := by
  have hne : c.dir.format ≠ none := (Chip.Lawful.own h j hj hd).1 ho
  have hop := (Chip.Lawful.fmt h hne).1
  have hw := h.no_transfer hne
  have hcl : ∀ X : Chip, X.holdView = c.holdView → X.closeCommit.Good ∧ X.closeCommit.dir.opState = .formatting
      ∧ X.closeCommit.cmd.work.isTransfer = false ∧ X.closeCommit.dir.mode ≠ .loading ∧ X.closeCommit.dir.commit = none := by
    intro X hX
    refine ⟨Chip.good_closeCommit (h.same hX), ?_, ?_, (fun h => nomatch h), rfl⟩
    · have := congrArg (fun x => x.1.2.2.1) hX; exact this.trans hop
    · have := congrArg (fun x => x.2.1) hX
      show X.cmd.work.isTransfer = false
      rw [show X.cmd.work = c.cmd.work from this]; exact hw
  have hend : ∀ X : Chip, X.holdView = c.holdView → ∀ st code n, (X.closeCommit.endFormat st code n).Good := by
    intro X hX st code n
    obtain ⟨a, b, e, f, g⟩ := hcl X hX
    exact Chip.good_endFormat a _ _ _ f (fun j hj => by rw [g] at hj; cases hj)
  unfold Chip.formatCommitEnds
  split
  · obtain ⟨a, b, e, f, g⟩ := hcl (c.setCopy .a true j.seq) (by simp)
    exact Chip.good_formatCommit a _ b e f (fun j hj => by rw [g] at hj; cases hj)
  · exact hend _ (by simp) _ _ _
  · exact hend _ (by simp) _ _ _
  · exact hend _ (by simp) _ _ _

theorem Chip.good_commitEnds (h : c.Good) (why : Option CommitFailure) : (c.commitEnds why).Good := by
  have waits : ∀ X : Chip, X.Good → X.dir.format = c.dir.format → c.formatWaits = true → X.dir.commit = none → X.dir.mode = .idle →
      X.startInvalidation.Good := by
    intro X hX hf hw hc hm
    have hne : X.dir.format ≠ none := by
      rw [hf]; intro e; unfold Chip.formatWaits at hw; rw [e] at hw; cases hw
    exact Chip.good_startInvalidation hX (Chip.Lawful.fmt hX hne).1 (hX.no_transfer hne) (by rw [hm]; simp)
      (fun j hj => by rw [hc] at hj; cases hj)
  unfold Chip.commitEnds
  split
  · exact h
  · rename_i j hj
    have hclose := Chip.good_closeCommit h
    have hjv := Chip.hold_judgeCommit c j why
    have hjg : (c.judgeCommit j why).Good := hclose.same hjv
    have j1 : (c.judgeCommit j why).dir.format = c.dir.format := congrArg (fun x => x.1.2.2.2.1) hjv
    have j2 : (c.judgeCommit j why).dir.commit = none := congrArg (fun x => x.1.2.2.2.2.1) hjv
    have j3 : (c.judgeCommit j why).dir.mode = .idle := congrArg (fun x => x.1.2.1) hjv
    split
    · split
      · rename_i hw; exact waits _ hclose rfl hw rfl rfl
      · exact hclose
    · rename_i hd
      split
      · rename_i ho
        exact Chip.good_formatCommitEnds h hj (by simpa using hd) ho why
      · rename_i ho
        split
        · rename_i hw; exact waits _ hjg j1 hw j2 j3
        · rename_i hw
          have hfn : c.dir.format = none := by
            cases hf : c.dir.format with
            | none => rfl
            | some f =>
              have := (Chip.Lawful.own h j hj (by simpa using hd)).2 (by simpa using ho) f hf
              unfold Chip.formatWaits at hw; rw [hf] at hw; simp [this] at hw
          have hset : (c.judgeCommit j why).settleState.Good := by
            unfold Chip.settleState
            have h1 := Chip.Lawful.setOpState hjg (if (c.judgeCommit j why).dir.validA && (c.judgeCommit j why).dir.validB then .ready else .degraded)
              (Or.inl (by rw [j1]; exact hfn)) (by rw [j3]; simp)
            refine Chip.good_of_keeps h1 ?_
            unfold Chip.setOpState; dsimp only; split <;> split <;> exact ⟨Or.inl rfl, rfl⟩
          exact Chip.good_takeCommitRequest (Chip.good_endCommitCommand hset why)

theorem Chip.good_commitReadBack (h : c.Good) (d : Delivered) : (c.commitReadBack d).Good := by
  unfold Chip.commitReadBack
  split
  · exact h
  · rename_i j hj
    split
    · split
      · exact Chip.good_issueCommit h hj _ rfl rfl
      · exact Chip.good_commitEnds h _
    · exact Chip.good_commitEnds h _

/-! ## Loading -/

/-- The zones a copy gives: 32, of the right size, no spare of them TESTING (R139, R182). -/
theorem zones_of_readContent {rows : List (List Word)} {l : Loaded} (h : readContent rows = some l) :
    l.zones.length = 32 ∧ SizeOk l.devices (l.zones.map Zone.spares) ∧ (∀ z, z ∈ l.zones → .testing ∉ z.spares) := by
  unfold readContent at h
  dsimp only at h
  split at h
  · cases h
    refine ⟨by simp, ?_, ?_⟩
    · intro g hg
      rw [List.getD_eq_getElem?_getD, List.getElem?_map, List.getElem?_map, List.getElem?_range hg]
      simp only [Option.map_some, Option.getD_some]
      split <;> simp [storedZone, Zone.absent]
    intro z hz
    obtain ⟨g, -, rfl⟩ := List.mem_map.1 hz
    split
    · intro hm
      simp only [storedZone, List.mem_map] at hm
      obtain ⟨i, -, hi⟩ := hm
      unfold SpareState.ofCode at hi
      split at hi <;> cases hi
    · simp [Zone.absent]
  · cases h
  · cases h

theorem spareOf_place (t : SpareId) : spareOf t.globalZone t.index.val = t := by
  have h1 := t.device.isLt
  have h2 := t.zone.isLt
  have h3 := t.index.isLt
  refine SpareId.eq_of_place ?_ ?_
  · simp only [SpareId.globalZone, spareOf, Fin.ofNat]; omega
  · simp only [spareOf, Fin.ofNat]; omega

/-- The tables a lawful copy gives keep the laws; nobody holds a spare (R182). -/
theorem lawful_of_loaded {l : Loaded} {rows : List (List Word)} (hr : readContent rows = some l) (hl : l.lawful = true)
    (e1 : d.tr.remap = l.remap) (e2 : d.tr.changes = 0) (e3 : d.alloc.zones.map Zone.spares = l.zones.map Zone.spares)
    (e7 : l.devices = d.devices) (e4 : d.dir.format = none) (e5 : d.dir.commit = none) (e6 : d.dir.mode = .idle) : d.Lawful none tr none jb := by
  obtain ⟨z1, z3, z2⟩ := zones_of_readContent hr
  simp only [Loaded.lawful, Bool.and_eq_true, List.all_eq_true, decide_eq_true_eq] at hl
  obtain ⟨⟨⟨⟨⟨⟨⟨⟨⟨⟨k1, k2⟩, k3⟩, k4⟩, k5⟩, k6⟩, k7⟩, k8⟩, k9⟩, k10⟩, k11⟩ := hl
  have hst : ∀ t, d.spareState t = (l.zones.getD t.globalZone Zone.absent).spares[t.index.val]? := by
    intro t
    rw [Chip.spareState_eq, e3]
    unfold stateIn
    simp only [List.getD_eq_getElem?_getD, List.getElem?_map]
    cases l.zones[t.globalZone]? <;> rfl
  have hnt : ∀ t, d.spareState t ≠ some .testing := by
    intro t h
    rw [hst, List.getD_eq_getElem?_getD] at h
    cases hz : l.zones[t.globalZone]? with
    | none => rw [hz] at h; simp [Zone.absent] at h
    | some z =>
      rw [hz] at h
      exact z2 z (List.mem_of_getElem? hz) (List.mem_of_getElem? h)
  refine { sorted := by rw [e1]; exact (strictlyAscending_iff _).1 k1
           nodup := by rw [e1]; exact (noRepeats_iff _).1 k4
           inUse := ?_
           retired := by unfold Chip.retiredCount; rw [e1]; exact k8
           changes := by rw [e2]; exact Nat.zero_le _
           testing := fun a _ h => absurd h (hnt a)
           heldT := (fun _ h => nomatch h), heldJ := (fun _ h => nomatch h), one := Or.inl rfl
           zones := by have := congrArg List.length e3; simpa [z1] using this
           size := by rw [e3, ← e7]; exact z3
           work := fun h => absurd rfl h, job := fun h => absurd rfl h
           fmt := fun h => absurd e4 h, load := fun h => by rw [e6] at h; cases h
           quiet := fun _ => e5, own := fun j h => by rw [e5] at h; cases h }
  · intro t
    rw [e1, hst]
    constructor
    · intro h
      exact (k3 t h).2
    · intro h
      refine k5 t ?_
      rw [mem_inUseSpares]
      rw [List.getD_eq_getElem?_getD] at h
      cases hz : l.zones[t.globalZone]? with
      | none => rw [hz] at h; simp [Zone.absent] at h
      | some z =>
        rw [hz] at h
        exact ⟨_, z, _, hz, h, (spareOf_place t).symm⟩

theorem Loaded.spares_gradedZones (l : Loaded) : l.gradedZones.map Zone.spares = l.zones.map Zone.spares := by
  unfold Loaded.gradedZones
  rw [List.map_map]
  apply List.ext_getElem?
  intro i
  simp only [List.getElem?_map, List.getElem?_zipIdx]
  cases l.zones[i]? with
  | none => rfl
  | some z => simp only [Option.map_some, Function.comp]; split <;> rfl

theorem Chip.good_handOver {l : Loaded} {rows : List (List Word)} (hr : readContent rows = some l) (hl : l.lawful = true)
    (st : OperatingState) (hw : c.cmd.work.isTransfer = false) (hj : c.rep.job = none) (hf : c.dir.format = none)
    (hc : c.dir.commit = none) (hm : c.dir.mode = .idle) (hd : l.devices = c.devices) : (c.handOver l st).Good := by
  have key : ∀ X : Chip, X.tr.remap = l.remap → X.tr.changes = 0 → X.alloc.zones.map Zone.spares = l.zones.map Zone.spares →
      X.dir.format = none → X.dir.commit = none → X.dir.mode = .idle → X.cmd.work = c.cmd.work → X.rep.job = c.rep.job →
      X.devices = c.devices → X.Good := by
    intro X a1 a2 a3 a4 a5 a6 a7 a8 a9
    have h : X.Lawful none false none false := lawful_of_loaded hr hl a1 a2 a3 (hd.trans a9.symm) a4 a5 a6
    unfold Chip.Good
    rw [a7, a8, hj, hw, Work.spare_of_not_transfer hw]
    exact h
  unfold Chip.handOver
  dsimp only
  refine Chip.Good.same ?_ (Chip.holdView_patrolOn _)
  unfold Chip.setOpState
  split
  · exact key _ rfl rfl l.spares_gradedZones hf hc hm rfl rfl rfl
  · exact key _ rfl rfl l.spares_gradedZones hf hc hm rfl rfl rfl

theorem Chip.good_endLoad (h : c.Good) (hm : c.dir.mode = .loading) : c.endLoad.Good := by
  obtain ⟨-, hw, hj, hf⟩ := Chip.Lawful.load h hm
  have hc : c.dir.commit = none := Chip.Lawful.quiet h (by rw [hm]; simp)
  have hj' : c.rep.job = none := by simpa using hj
  unfold Chip.endLoad
  dsimp only
  generalize hX : (({ (c.setCopy .a (judgeCopy c.dir.loadOkA c.dir.loadBuffer).isSome (seqOf (judgeCopy c.dir.loadOkA c.dir.loadBuffer))).setCopy .b
      (if (judgeCopy c.dir.loadOkA c.dir.loadBuffer).isSome = true ∧ seqOf (judgeCopy c.dir.loadOkA c.dir.loadBuffer) = seqOf (judgeCopy c.dir.loadOkB c.dir.image) then none else judgeCopy c.dir.loadOkB c.dir.image).isSome
      (seqOf (if (judgeCopy c.dir.loadOkA c.dir.loadBuffer).isSome = true ∧ seqOf (judgeCopy c.dir.loadOkA c.dir.loadBuffer) = seqOf (judgeCopy c.dir.loadOkB c.dir.image) then none else judgeCopy c.dir.loadOkB c.dir.image)) with
        dir := { ((c.setCopy .a (judgeCopy c.dir.loadOkA c.dir.loadBuffer).isSome (seqOf (judgeCopy c.dir.loadOkA c.dir.loadBuffer))).setCopy .b
      (if (judgeCopy c.dir.loadOkA c.dir.loadBuffer).isSome = true ∧ seqOf (judgeCopy c.dir.loadOkA c.dir.loadBuffer) = seqOf (judgeCopy c.dir.loadOkB c.dir.image) then none else judgeCopy c.dir.loadOkB c.dir.image).isSome
      (seqOf (if (judgeCopy c.dir.loadOkA c.dir.loadBuffer).isSome = true ∧ seqOf (judgeCopy c.dir.loadOkA c.dir.loadBuffer) = seqOf (judgeCopy c.dir.loadOkB c.dir.image) then none else judgeCopy c.dir.loadOkB c.dir.image))).dir with mode := .idle, image := [], loadBuffer := [] } } : Chip)) = X
  have x1 : X.cmd = c.cmd ∧ X.rep = c.rep ∧ X.dir.format = none ∧ X.dir.commit = none ∧ X.dir.mode = .idle ∧ X.devices = c.devices := by
    subst hX; exact ⟨rfl, rfl, hf, hc, rfl, rfl⟩
  have x2 : X.Good := by
    have h1 : X.Lawful c.cmd.work.spare c.cmd.work.isTransfer (c.rep.job.bind Job.spare) c.rep.job.isSome := by
      refine Chip.Lawful.redirect (c := c) (d := X) h (by subst hX; rfl) ?_ ?_ (fun _ => x1.2.2.2.1) ?_
      · intro hne; exact absurd x1.2.2.1 hne
      · intro hl; rw [x1.2.2.2.2.1] at hl; cases hl
      · intro j hj; rw [x1.2.2.2.1] at hj; cases hj
    unfold Chip.Good; rw [x1.1, x1.2.1]; exact h1
  have hset : ∀ st, (X.setOpState st).Good := by
    intro st
    refine Chip.good_of_keeps (Chip.Lawful.setOpState x2 st (Or.inl x1.2.2.1) (by rw [x1.2.2.2.2.1]; simp)) ?_
    unfold Chip.setOpState; split <;> exact ⟨Or.inl rfl, rfl⟩
  clear hX
  split
  · exact hset _
  · rename_i l hl
    have hvalid : ∃ ok rows, judgeCopy ok rows = some l := by
      (repeat' split at hl) <;> first
        | cases hl; done
        | exact ⟨_, _, hl⟩
    obtain ⟨ok, rows, hv⟩ := hvalid
    obtain ⟨-, -, -, -, -, hrc, hlaw⟩ := judgeCopy_eq_some.1 hv
    split
    · rename_i hdev
      exact Chip.good_handOver hrc hlaw _ (by rw [x1.1]; exact hw) (by rw [x1.2.1]; exact hj') x1.2.2.1 x1.2.2.2.1 x1.2.2.2.2.1 (hdev.trans x1.2.2.2.2.2.symm)
    · exact hset _

theorem Chip.good_loadRead (h : c.Good) (d : Option Delivered) : (c.loadRead d).Good := by
  unfold Chip.loadRead
  split
  · rename_i hm
    unfold Chip.loadStep
    dsimp only
    have h1 : (if c.dir.loadIndex < Config.imageRows then
        ({ c with dir := { c.dir with
          loadBuffer := c.dir.loadBuffer ++ [(d.map Delivered.words).getD zeroRow]
          loadOkA := c.dir.loadOkA && (d.map fun x => x.outcomes.all fun o => decide (o ≠ .uncorrectable)).getD false } } : Chip)
      else
        { c with dir := { c.dir with
          image := c.dir.image ++ [(d.map Delivered.words).getD zeroRow]
          loadOkB := c.dir.loadOkB && (d.map fun x => x.outcomes.all fun o => decide (o ≠ .uncorrectable)).getD false } }).holdView
        = c.holdView := by split <;> rfl
    split
    · refine Chip.Good.same ?_ (Chip.holdView_issue _ _ _ _)
      exact h.same h1
    · exact Chip.good_endLoad (h.same h1) ((congrArg (fun x => x.1.2.1) h1).trans hm)
  · exact h
  · exact h

/-! ## The patrol -/

theorem Chip.good_endPatrolHalt (h : c.Good) : c.endPatrolHalt.Good := by
  unfold Chip.endPatrolHalt; split
  · exact Chip.good_endCommand h _ _
  · exact h
theorem Chip.good_endPatrolRestart (h : c.Good) : c.endPatrolRestart.Good := by
  unfold Chip.endPatrolRestart; split
  · exact Chip.good_endCommand h _ _
  · exact h
theorem Chip.good_patrolOn (h : c.Good) : c.patrolOn.Good := h.same (Chip.holdView_patrolOn c)
theorem Chip.good_setPat (h : c.Good) (p : PatrolEngine) : (c.setPat p).Good := h.same (Chip.holdView_setPat c p)
theorem Chip.good_stopPatrol (h : c.Good) (w : StopReason) : (c.stopPatrol w).Good := h.same (Chip.holdView_stopPatrol c w)

theorem Chip.good_endVisit (h : c.Good) (o : ReadOutcome) : (c.endVisit o).Good := by
  have h0 : c.clearPatrolClaim.Good := h.same (Chip.holdView_clearPatrolClaim c)
  unfold Chip.endVisit
  dsimp only
  split
  · exact Chip.good_patrolOn (Chip.good_endPatrolRestart (h0.same (Chip.holdView_restartPass _)))
  · have h1 : ∀ p, ((c.clearPatrolClaim.setPat p).advanceCursor).Good := fun p =>
      (Chip.good_setPat h0 p).same (Chip.holdView_advanceCursor _)
    split
    · exact Chip.good_endPatrolHalt (h1 _)
    · split
      · exact Chip.good_endPatrolHalt (Chip.good_stopPatrol (h1 _) _)
      · exact Chip.good_patrolOn (Chip.good_setPat (h1 _) _)

theorem Chip.good_visitRead (h : c.Good) (p : PhysRow) (d : Delivered) : (c.visitRead p d).Good := by
  unfold Chip.visitRead
  dsimp only
  split
  · exact (h.same (Chip.holdView_report c _)).same (Chip.holdView_issue _ _ _ _)
  · exact Chip.good_endVisit (h.same (Chip.holdView_report c _)) _
  · exact Chip.good_endVisit (h.same (Chip.holdView_report c _)) _

theorem Chip.good_patrolTimeout (h : c.Good) : c.patrolTimeout.Good := by
  have h1 : (c.clearPatrolClaim.stopPatrol .timeout).Good := Chip.good_stopPatrol (h.same (Chip.holdView_clearPatrolClaim c)) _
  unfold Chip.patrolTimeout
  dsimp only
  split
  · exact Chip.good_patrolOn (Chip.good_endPatrolRestart ((Chip.good_setPat h1 _).same (Chip.holdView_restartPass _)))
  · exact Chip.good_endPatrolHalt h1

theorem Chip.good_paceRunsOut (h : c.Good) : c.paceRunsOut.Good := by
  unfold Chip.paceRunsOut
  split
  · exact h
  · exact Chip.good_patrolOn (Chip.good_setPat h _)

theorem Chip.good_softResetPatrol (h : c.Good) : c.softResetPatrol.Good := by
  unfold Chip.softResetPatrol
  split
  · exact h
  · exact Chip.good_patrolOn (h.same (Chip.holdView_paceNow _))
  · exact Chip.good_patrolOn ((h.same (Chip.holdView_abandonVisit _)).same (Chip.holdView_paceNow _))
  · exact Chip.good_stopPatrol (Chip.good_setPat (h.same (Chip.holdView_abandonVisit _)) _) _

theorem Chip.good_startPatrol (h : c.Good) (m : PatrolMode) (n : Nat) (r : Bool) : (c.startPatrol m n r).Good := by
  have h1 : ∀ p, (c.setPat p).Good := Chip.good_setPat h
  unfold Chip.startPatrol
  dsimp only
  split
  · split
    · exact Chip.good_patrolOn (Chip.good_endCommand ((h1 _).same (Chip.holdView_restartPass _)) _ _)
    · exact Chip.good_patrolOn (Chip.good_endCommand ((h1 _).same (Chip.holdView_paceNow _)) _ _)
  · split
    · exact Chip.good_patrolOn (Chip.good_endCommand ((h1 _).same (Chip.holdView_restartPass _)) _ _)
    · exact Chip.good_patrolOn (Chip.good_endCommand (h1 _) _ _)
  all_goals
    split
    · exact Chip.good_setWork (Chip.good_setPat (Chip.good_setPat (h1 _) _) _) rfl
    · exact Chip.good_endCommand (Chip.good_setPat (h1 _) _) _ _

theorem Chip.good_haltPatrol (h : c.Good) : c.haltPatrol.Good := by
  unfold Chip.haltPatrol
  split
  · exact Chip.good_endCommand h _ _
  · exact Chip.good_endCommand (Chip.good_stopPatrol h _) _ _
  · exact Chip.good_setWork (Chip.good_setPat h _) rfl
  · exact Chip.good_setWork (Chip.good_setPat h _) rfl

end Sys2Proof.Machine
end

