-- ==== Sys2Proof/Laws/LawfulEngines.lean ====
section
/-! SUPPORT. The repair engine, the transfers and the port keep the laws of the tables, the spares and the modes (R26 to R35, R63 to R79, R102 to R120). -/

namespace Sys2Proof.Machine

variable {ht hj : Option SpareId} {tr jb : Bool} {c d : Chip}

/-! ## The repair engine -/

/-- A job in flight, and what it holds. -/
theorem Chip.Good.goodJ (h : c.Good) {j : Job} (hj : c.rep.job = some j) : c.GoodJ j.spare := by
  unfold Chip.Good at h; rw [hj] at h; exact h
theorem Chip.GoodJ.good (h : c.GoodJ hj) {j : Job} (e : c.rep.job = some j) (hs : j.spare = hj) : c.Good := by
  unfold Chip.Good; rw [e]; show c.Lawful _ _ j.spare true; rw [hs]; exact h

theorem Chip.goodJ_freeJobSpare {j : Job} (h : c.GoodJ j.spare) : (c.freeJobSpare j).GoodJ none ∧ (c.freeJobSpare j).cmd = c.cmd := by
  unfold Chip.freeJobSpare
  cases hs : j.spare with
  | none => rw [hs] at h; exact ⟨h, rfl⟩
  | some t =>
    rw [hs] at h
    have ht := Chip.Lawful.heldJ h t rfl
    have hw : c.cmd.work.spare = none := by
      rcases Chip.Lawful.one h with h1 | h1
      · exact h1
      · cases h1
    refine ⟨?_, (Chip.keeps_releaseSpare c t).1⟩
    unfold Chip.GoodJ
    rw [(Chip.keeps_releaseSpare c t).1, hw]
    exact Chip.Lawful.release h ht

theorem Chip.good_idleRepair (h : c.Lawful c.cmd.work.spare c.cmd.work.isTransfer hj jb) : c.idleRepair.Good :=
  Chip.Lawful.congr (c := c) rfl
    (h.weaken (Or.inr rfl) (Or.inr rfl) (Or.inl rfl) (Or.inl rfl) h.work (fun h => absurd rfl h))

theorem Chip.good_endJob {j : Job} (h : c.GoodJ j.spare) (code : ResultCode) : (c.endJob j code).Good := by
  have h1 := Chip.good_idleRepair (Chip.goodJ_freeJobSpare h).1
  unfold Chip.endJob
  dsimp only
  split
  · exact Chip.good_endCommand h1 _ _
  · exact h1

theorem Chip.good_abandonJob {j : Job} (h : c.GoodJ j.spare) (code : ResultCode) : (c.abandonJob j code).Good :=
  Chip.good_endJob (h.same (Chip.holdView_setRestarts c _ _)) code

theorem Chip.good_putJob {j : Job} (h : c.GoodJ j.spare) (st : RepairState) : (c.putJob st j).Good :=
  Chip.Lawful.congr (c := c) rfl h

theorem Chip.good_issueJob {j : Job} (h : c.GoodJ j.spare) (st : RepairState) (p : Purpose) (x : PhysRow) (ws : Option (List Word)) :
    (c.issueJob st j p x ws).Good := by
  unfold Chip.issueJob
  split
  · exact Chip.good_abandonJob h _
  · exact (Chip.good_putJob h st).same (Chip.holdView_issue _ _ _ _)

/-- What a move leaves: a lawful part, and a next move whose job the laws allow; a request to serve finds no spare TESTING. -/
def Chip.MoveOk (x : Chip × Option (RepairMove × Job)) : Prop :=
  x.1.Good ∧ ∀ m j, x.2 = some (m, j) → x.1.GoodJ j.spare ∧ (m = .serve → x.1.someTesting = false)

theorem Chip.moveOk_none (h : c.Good) : Chip.MoveOk (c, none) := ⟨h, fun _ _ h => nomatch h⟩
theorem Chip.moveOk_some (h : c.Good) {m : RepairMove} {j : Job} (hj : c.GoodJ j.spare) (hm : m = .serve → c.someTesting = false) :
    Chip.MoveOk (c, some (m, j)) := by
  refine ⟨h, ?_⟩
  intro m' j' e
  cases e
  exact ⟨hj, hm⟩

theorem Chip.moveOk_withData {j : Job} (h : c.Good) (hj : c.GoodJ j.spare) : Chip.MoveOk (c.withData j) := by
  unfold Chip.withData
  split
  · exact Chip.moveOk_none (Chip.good_issueJob hj _ _ _ _)
  · exact Chip.moveOk_some h hj (fun h => nomatch h)

theorem Chip.moveOk_enterSource {j : Job} (h : c.Good) (hj : c.GoodJ j.spare) : Chip.MoveOk (c.enterSource j) := by
  unfold Chip.enterSource
  split
  · exact Chip.moveOk_none (Chip.good_endJob hj _)
  · exact Chip.moveOk_none (Chip.good_endJob hj _)
  · split
    · exact Chip.moveOk_withData h hj
    · exact Chip.moveOk_none (Chip.good_issueJob (j := { j with discard := false }) hj _ _ _ _)

theorem Chip.moveOk_enterAllocate {j : Job} (hj : c.GoodJ j.spare) : Chip.MoveOk (c.enterAllocate j) := by
  unfold Chip.enterAllocate
  split
  · exact Chip.moveOk_none (Chip.good_abandonJob hj _)
  · split
    · exact Chip.moveOk_none (Chip.good_putJob hj _)
    · rename_i hn
      refine Chip.moveOk_some (Chip.good_putJob hj _) (Chip.Lawful.congr (c := c) rfl hj) (fun _ => ?_)
      simp only [Bool.or_eq_true, not_or, Bool.not_eq_true] at hn
      exact hn.2

theorem Chip.moveOk_jobUnserved {j : Job} (h : c.Good) (hj : c.GoodJ j.spare) : Chip.MoveOk (c.jobUnserved j) := by
  unfold Chip.jobUnserved
  split
  · exact Chip.moveOk_none (Chip.good_endJob hj _)
  · split
    · exact Chip.moveOk_none (Chip.good_endJob hj _)
    · split
      · exact Chip.moveOk_some h hj (fun h => nomatch h)
      · split
        · exact Chip.moveOk_none (Chip.good_endJob ((hj.same (Chip.holdView_setStarved c _)).same (Chip.holdView_setRestarts _ _ _)) _)
        · exact Chip.moveOk_none (Chip.good_endJob ((hj.same (Chip.holdView_setStarved c _)).same (Chip.holdView_setRestarts _ _ _)) _)
        · exact Chip.moveOk_none (Chip.good_endJob (hj.same (Chip.holdView_setRestarts c _ _)) _)

theorem Chip.moveOk_serveJob {j : Job} (h : c.Good) (hj : c.GoodJ j.spare) (hn : c.someTesting = false) : Chip.MoveOk (c.serveJob j) := by
  unfold Chip.serveJob
  split
  · rename_i t ht
    have hw := (Chip.Lawful.none_held hj (Chip.not_testing hn)).1
    refine Chip.moveOk_none (Chip.good_issueJob (j := { j with spare := some t }) ?_ _ _ _ _)
    unfold Chip.GoodJ
    rw [(Chip.keeps_takeSpare c t).1, hw]
    exact Chip.Lawful.take hj hn ht (Or.inl rfl) (Or.inr ⟨rfl, rfl⟩) (Or.inl rfl)
  · exact Chip.moveOk_jobUnserved (h.same (Chip.holdView_reportExhausted c _)) (hj.same (Chip.holdView_reportExhausted c _))

theorem Chip.moveOk_enterNoSpare {j : Job} (h : c.Good) (hj : c.GoodJ j.spare) : Chip.MoveOk (c.enterNoSpare j) := by
  unfold Chip.enterNoSpare
  split
  · exact Chip.moveOk_some h hj (fun h => nomatch h)
  · split
    · split
      · refine Chip.moveOk_none ((Chip.good_putJob ?_ _).same (Chip.holdView_issue _ _ _ _))
        exact hj.same (Chip.holdView_markPatrolClaim c _)
      · exact Chip.moveOk_some h hj (fun h => nomatch h)
    · exact Chip.moveOk_some h hj (fun h => nomatch h)
    · exact Chip.moveOk_some h hj (fun h => nomatch h)

theorem Chip.moveOk_overtakeJob {j : Job} (h : c.Good) (hj : c.GoodJ j.spare) : Chip.MoveOk (c.overtakeJob j) := by
  unfold Chip.overtakeJob
  split
  · exact Chip.moveOk_some h hj (fun h => nomatch h)
  · split
    · exact Chip.moveOk_some ((h.same (Chip.holdView_setRestarts c _ _)).same (Chip.holdView_setRepairClaim _ _))
        ((hj.same (Chip.holdView_setRestarts c _ _)).same (Chip.holdView_setRepairClaim _ _)) (fun h => nomatch h)
    · exact Chip.moveOk_none (Chip.good_endJob (hj.same (Chip.holdView_deferPending c _)) _)

theorem Chip.good_repairRun (n : Nat) (x : Chip × Option (RepairMove × Job)) (h : Chip.MoveOk x) : (Chip.repairRun n x).Good := by
  induction n generalizing x with
  | zero => obtain ⟨c, _ | m⟩ := x <;> exact h.1
  | succ n ih =>
    obtain ⟨c, _ | ⟨m, j⟩⟩ := x
    · exact h.1
    · obtain ⟨h1, h2⟩ := h
      obtain ⟨h3, h4⟩ := h2 m j rfl
      refine ih _ ?_
      cases m
      · exact Chip.moveOk_enterSource h1 h3
      · exact Chip.moveOk_enterAllocate h3
      · exact Chip.moveOk_serveJob h1 h3 (h4 rfl)
      · exact Chip.moveOk_enterNoSpare h1 h3
      · exact Chip.moveOk_overtakeJob h1 h3

theorem Chip.good_repairGo (h : c.Good) {m : RepairMove} {j : Job} (hj : c.GoodJ j.spare) (hm : m = .serve → c.someTesting = false) :
    (c.repairGo m j).Good := Chip.good_repairRun 8 _ (Chip.moveOk_some h hj hm)

theorem Chip.goodJ_spoilSpare {t : SpareId} (h : c.GoodJ (some t)) : (c.spoilSpare t).GoodJ none := by
  have ht := Chip.Lawful.heldJ h t rfl
  have hw : c.cmd.work.spare = none := by
    rcases Chip.Lawful.one h with h1 | h1
    · exact h1
    · cases h1
  unfold Chip.GoodJ
  rw [(Chip.keeps_spoilSpare c t).1, hw]
  exact Chip.Lawful.spoil h ht

theorem Chip.good_failSpare {j : Job} {t : SpareId} (h : c.GoodJ (some t)) : (c.failSpare j t).Good := by
  unfold Chip.failSpare Chip.repairGo
  rw [show (8 : Nat) = 7 + 1 from rfl]
  exact Chip.good_repairRun 7 _ (Chip.moveOk_enterAllocate (j := { j with spare := none, madeBad := j.madeBad + 1 }) (Chip.goodJ_spoilSpare h))

theorem Chip.good_sourceRead {j : Job} (h : c.Good) (hj : c.GoodJ j.spare) (p : PhysRow) (d : Delivered) : (c.sourceRead j p d).Good := by
  have h1 := Chip.Good.same h (Chip.holdView_report c { row := j.row, phys := p, outcome := d.outcome, path := j.origin, readBack := false })
  have h2 := Chip.GoodJ.same hj (Chip.holdView_report c { row := j.row, phys := p, outcome := d.outcome, path := j.origin, readBack := false })
  unfold Chip.sourceRead
  dsimp only
  split
  · exact Chip.good_abandonJob h2 _
  · exact Chip.good_repairRun 8 _ (Chip.moveOk_withData (j := { j with data := some d.words }) h1 h2)
  · exact Chip.good_repairRun 8 _ (Chip.moveOk_withData (j := { j with data := some d.words }) h1 h2)

theorem Chip.good_qualified {j : Job} {t : SpareId} (h : c.GoodJ j.spare) (hs : j.spare = some t) (k : Nat) (d : Delivered) :
    (c.qualified j t k d).Good := by
  unfold Chip.qualified
  split
  · split
    · exact Chip.good_issueJob h _ _ _ _
    · exact Chip.good_issueJob h _ _ _ _
  · exact Chip.good_failSpare (hs ▸ h)

theorem Chip.good_copied {j : Job} (h : c.Good) (hj : c.GoodJ j.spare) (t : SpareId) : (c.copied j t).Good := by
  unfold Chip.copied
  split
  · exact Chip.good_repairGo h hj (fun h => nomatch h)
  · exact Chip.good_issueJob hj _ _ _ _

theorem Chip.goodJ_relocateTo {l : Nat} {t : SpareId} {o : Origin} (h : c.GoodJ (some t)) : (c.relocateTo l t o).GoodJ none := by
  have ht := Chip.Lawful.heldJ h t rfl
  have hw : c.cmd.work.spare = none := by
    rcases Chip.Lawful.one h with h1 | h1
    · exact h1
    · cases h1
  obtain ⟨h1, h2⟩ := Chip.Lawful.relocateTo (l := l) (o := o) h ht
  exact Chip.goodJ_of_keeps (c := c) (by rw [hw]; exact h1) h2

theorem Chip.good_verified {j : Job} {t : SpareId} (h : c.Good) (hj : c.GoodJ j.spare) (hs : j.spare = some t) (d : Delivered) :
    (c.verified j t d).Good := by
  unfold Chip.verified
  split
  · split
    · exact Chip.good_repairGo h hj (fun h => nomatch h)
    split
    · exact Chip.good_endJob hj _
    · exact Chip.good_endJob (j := { j with spare := none }) (Chip.goodJ_relocateTo (hs ▸ hj)) _
  · exact Chip.good_failSpare (hs ▸ hj)

theorem Chip.goodJ_retireOrStick (h : c.GoodJ hj) (l : Nat) (o : Origin) : (c.retireOrStick l o).1.GoodJ hj := by
  obtain ⟨h1, h2⟩ := Chip.Lawful.retireOrStick h l o
  exact Chip.goodJ_of_keeps h1 h2

theorem Chip.good_zeroReadBack {j : Job} (h : c.Good) (hj : c.GoodJ j.spare) (p : PhysRow) (d : Delivered) : (c.zeroReadBack j p d).Good := by
  unfold Chip.zeroReadBack
  split
  · exact Chip.good_repairGo h hj (fun h => nomatch h)
  · dsimp only
    have h2 := Chip.GoodJ.same hj (Chip.holdView_report c { row := j.row, phys := p, outcome := d.outcome, path := .write, readBack := true })
    split
    · exact Chip.good_endJob h2 _
    · exact Chip.good_endJob h2 _
    · have h3 := Chip.goodJ_retireOrStick h2 j.row .host
      split <;> (rename_i e; rw [e] at h3; exact Chip.good_endJob h3 _)

theorem Chip.good_zeroDropped (h : c.Good) : c.zeroDropped.Good := by
  unfold Chip.zeroDropped
  split
  · rename_i j hj; exact Chip.good_repairGo h (h.goodJ hj) (fun h => nomatch h)
  · exact h

theorem Chip.good_repairTimeout (h : c.Good) : c.repairTimeout.Good := by
  unfold Chip.repairTimeout
  split
  · rename_i j hj; exact Chip.good_abandonJob (h.goodJ hj) _
  · exact h

/-- A job may start where the part is not LOADING. -/
theorem Chip.Good.idle_goodJ (h : c.Good) (hm : c.dir.mode ≠ .loading) : c.GoodJ none :=
  { Chip.Lawful.weaken (hj' := none) (jb' := false) h (Or.inr rfl) (Or.inr rfl) (Or.inl rfl) (Or.inl rfl) (Chip.Lawful.work h) (fun h => absurd rfl h) with
    job := fun h => absurd rfl h
    load := fun h => absurd h hm }

theorem Chip.Good.mode_of_service (h : c.Good) (hs : c.inService = true) : c.dir.mode ≠ .loading := by
  intro hm
  have := (Chip.Lawful.load h hm).1
  simp [Chip.inService, this] at hs

theorem Chip.good_startJob {j : Job} (h : c.Good) (hm : c.dir.mode ≠ .loading) (hs : j.spare = none) : (c.startJob j).Good := by
  have h1 := h.idle_goodJ hm
  have hX : ({ c.setRepairClaim j.row with rep := { st := .sourceRead, job := some j, waiting := none } } : Chip).GoodJ none :=
    Chip.Lawful.congr (c := c) rfl h1
  unfold Chip.startJob
  exact Chip.good_repairGo (hX.good rfl hs) (by rw [hs]; exact hX) (fun h => nomatch h)

theorem Chip.good_startCommandJob (h : c.Good) (hm : c.dir.mode ≠ .loading) (l : Nat) (b : Bool) : (c.startCommandJob l b).Good := by
  unfold Chip.startCommandJob
  split
  · exact Chip.good_endCommand (h.same (Chip.holdView_dropWaiting c)) _ _
  · split
    · exact Chip.good_startJob h hm rfl
    · split
      · exact Chip.good_endCommand (h.same (Chip.holdView_dropWaiting c)) _ _
      · have hv := Chip.holdView_addPending c l .host .host
        exact Chip.good_startJob (h.same hv) (by rw [show (c.addPending l .host .host).dir.mode = c.dir.mode from congrArg (fun x => x.1.2.1) hv]; exact hm) rfl

theorem Chip.good_jobStart (h : c.Good) : c.jobStart.Good := by
  unfold Chip.jobStart
  split
  · rename_i hr
    have hs : c.inService = true := by
      unfold Chip.repairReady at hr; simp only [Bool.and_eq_true] at hr; exact hr.1.1
    have hm := h.mode_of_service hs
    split
    · exact Chip.good_startCommandJob h hm _ _
    · split
      · exact Chip.good_startJob h hm rfl
      · exact h
  · exact h

theorem Chip.good_softResetRepair (h : c.Good) : c.softResetRepair.Good := by
  have h0 : ({ c with seq := { c.seq with repair := c.seq.repair.abandon } } : Chip).Good := h.same rfl
  unfold Chip.softResetRepair
  dsimp only
  refine Chip.Good.same ?_ (Chip.holdView_clearRestarts _)
  refine Chip.Good.same ?_ (Chip.holdView_dropWaiting _)
  split
  · rename_i j hj
    exact Chip.good_idleRepair (Chip.goodJ_freeJobSpare (h0.goodJ hj)).1
  · exact Chip.good_idleRepair h0

theorem Chip.good_stopRelocate (h : c.Good) (l : Nat) : (c.stopRelocate l).Good := by
  unfold Chip.stopRelocate
  split
  · exact Chip.good_endCommand (h.same (Chip.holdView_dropWaiting c)) _ _
  · rename_i j hw hj
    split
    · exact h
    · exact Chip.good_abandonJob (c := { c with seq := { c.seq with repair := .empty } }) (Chip.Lawful.congr (c := c) rfl (h.goodJ hj)) _
  · exact h

/-! ## READ ROWS, WRITE ROWS and CHECK ROWS -/

theorem Chip.Good.goodT (h : c.Good) {t : Transfer} (hw : c.cmd.work = .transfer t) : c.GoodT t.spare := by
  unfold Chip.Good at h; rw [hw] at h; exact h

theorem Chip.good_putTransfer {t : Transfer} (h : c.GoodT t.spare) : (c.putTransfer t).Good := Chip.Lawful.congr (c := c) rfl h

theorem Chip.good_endTransfer (h : c.GoodT ht) (t : Transfer) (code : ResultCode) : (c.endTransfer t code).Good :=
  Chip.good_endCommand_of h _ _

theorem Chip.goodT_freeTransferSpare {t : Transfer} (h : c.GoodT t.spare) : (c.freeTransferSpare t).GoodT none := by
  unfold Chip.freeTransferSpare
  cases hs : t.spare with
  | none => rw [hs] at h; exact h
  | some s =>
    rw [hs] at h
    have ht := Chip.Lawful.heldT h s rfl
    have hw : c.rep.job.bind Job.spare = none := by
      rcases Chip.Lawful.one h with h1 | h1
      · cases h1
      · exact h1
    unfold Chip.GoodT
    rw [(Chip.keeps_releaseSpare c s).2, hw]
    exact Chip.Lawful.release h ht

theorem Chip.good_cutTransfer {t : Transfer} (h : c.GoodT t.spare) (code : ResultCode) : (c.cutTransfer t code).Good :=
  Chip.good_endTransfer (Chip.goodT_freeTransferSpare h) _ _

theorem Chip.good_offerRow {t : Transfer} (h : c.GoodT t.spare) (k : RowKind) (ws : List Word) : (c.offerRow t k ws).Good :=
  (Chip.good_putTransfer (t := { t with phase := .offering k }) h).same (Chip.holdView_offer _ _)

theorem Chip.good_readRow {t : Transfer} (h : c.GoodT t.spare) (p : Purpose) (x : PhysRow) : (c.readRow t p x).Good := by
  unfold Chip.readRow
  split
  · exact (Chip.good_putTransfer (t := { t with phase := .reading }) h).same (Chip.holdView_issue _ _ _ _)
  · exact Chip.good_putTransfer (t := { t with phase := .awaitSlot }) h
  · exact Chip.good_putTransfer (t := { t with phase := .awaitSlot }) h

theorem Transfer.spare_count (t : Transfer) (f : Option ResultCode) (n : Nat) : (t.count f n).spare = none := by
  unfold Transfer.count; split <;> rfl

theorem Chip.goodT_setResult0 (h : c.GoodT ht) (n : Nat) : (c.setResult0 n).GoodT ht := h.same (Chip.holdView_setResult0 c n)

theorem Chip.good_beginRow (n : Nat) {c : Chip} {t : Transfer} (h : c.GoodT t.spare) : (Chip.beginRow n c t).Good := by
  induction n generalizing c t with
  | zero => exact Chip.good_putTransfer h
  | succ n ih =>
    unfold Chip.beginRow
    split
    · exact (Chip.good_putTransfer (t := { t with phase := .dataIn }) h).same (Chip.holdView_askRow _)
    · split
      · exact Chip.good_readRow h _ _
      · exact Chip.good_offerRow h _ _
    · split
      · exact Chip.good_readRow h _ _
      · dsimp only
        split
        · refine ih ?_
          show (c.setResult0 _).GoodT (t.count (some .retired) 0).spare
          rw [Transfer.spare_count]
          exact (Chip.goodT_setResult0 h _).drop
        · exact Chip.good_endTransfer (Chip.goodT_setResult0 h _) _ _

theorem Chip.good_rowDone (h : c.GoodT ht) (t : Transfer) (f : Option ResultCode) (n : Nat) : (c.rowDone t f n).Good := by
  unfold Chip.rowDone
  dsimp only
  split
  · exact Chip.good_endTransfer (Chip.goodT_setResult0 h _) _ _
  · split
    · refine Chip.good_beginRow 256 ?_
      show (c.setResult0 _).GoodT (t.count f n).spare
      rw [Transfer.spare_count]
      exact (Chip.goodT_setResult0 h _).drop
    · exact Chip.good_endTransfer (Chip.goodT_setResult0 h _) _ _

theorem Chip.good_rowRead {t : Transfer} (h : c.GoodT t.spare) (o : ReadOutcome) (ws : List Word) : (c.rowRead t o ws).Good := by
  unfold Chip.rowRead
  split
  · split
    · exact Chip.good_cutTransfer h _
    · exact Chip.good_offerRow h _ _
  · exact Chip.good_rowDone h _ _ _
  · exact Chip.good_rowDone h _ _ _

theorem Chip.good_transferRead {t : Transfer} (h : c.GoodT t.spare) (p : PhysRow) (d : Delivered) : (c.transferRead t p d).Good := by
  have h1 := Chip.GoodT.same h (Chip.holdView_report c { row := t.row, phys := p, outcome := d.outcome, path := t.kind.path, readBack := false })
  unfold Chip.transferRead
  dsimp only
  split
  · split
    · exact Chip.good_cutTransfer h1 _
    · exact (Chip.good_putTransfer (t := { t with phase := .scrubbing }) h1).same (Chip.holdView_issue _ _ _ _)
  · exact Chip.good_rowRead h1 _ _

theorem Chip.good_hostWrite {t : Transfer} (h : c.GoodT t.spare) (ph : RowPhase) (p : Purpose) (x : PhysRow) : (c.hostWrite t ph p x).Good := by
  unfold Chip.hostWrite
  exact (Chip.good_putTransfer (t := { t with phase := ph }) (h.same (Chip.holdView_markClaims c _))).same (Chip.holdView_issueForeground _ _ _ _)

theorem Chip.good_writeInPlace {t : Transfer} (h : c.GoodT t.spare) : (c.writeInPlace t).Good := by
  unfold Chip.writeInPlace
  split
  · exact Chip.good_hostWrite h _ _ _
  · exact Chip.good_rowDone h _ _ _

theorem Chip.good_qualifyForWrite {s : SpareId} (h : c.GoodT (some s)) (t : Transfer) (k : Nat) : (c.qualifyForWrite t s k).Good := by
  unfold Chip.qualifyForWrite
  exact (Chip.good_putTransfer (t := { t with phase := .repairQualify, spare := some s }) h).same (Chip.holdView_issueForeground _ _ _ _)

theorem Chip.good_allocateForWrite {t : Transfer} (h : c.GoodT t.spare) (hn : c.someTesting = false) : (c.allocateForWrite t).Good := by
  unfold Chip.allocateForWrite
  split
  · rename_i s hs
    have hj := (Chip.Lawful.none_held h (Chip.not_testing hn)).2
    refine Chip.good_qualifyForWrite ?_ _ _
    unfold Chip.GoodT
    rw [(Chip.keeps_takeSpare c s).2, hj]
    exact Chip.Lawful.take h hn hs (Or.inr ⟨rfl, rfl⟩) (Or.inl rfl) (Or.inr rfl)
  · exact Chip.good_writeInPlace (h.same (Chip.holdView_reportExhausted c _))

theorem Chip.good_beginWriteRepair {t : Transfer} (h : c.GoodT t.spare) : (c.beginWriteRepair t).Good := by
  unfold Chip.beginWriteRepair
  split
  · exact Chip.good_putTransfer (t := { t with phase := .repairWait }) h
  · rename_i hn; exact Chip.good_allocateForWrite h (by simpa using hn)

theorem Chip.good_classify {t : Transfer} (h : c.GoodT t.spare) : (c.classify t).Good := by
  unfold Chip.classify
  split
  · exact Chip.good_rowDone h _ _ _
  · split
    · exact Chip.good_beginWriteRepair h
    · exact Chip.good_hostWrite h _ _ _

theorem Chip.good_failWriteSpare {t : Transfer} {s : SpareId} (h : c.GoodT (some s)) : (c.failWriteSpare t s).Good := by
  have ht := Chip.Lawful.heldT h s rfl
  have hw : c.rep.job.bind Job.spare = none := by
    rcases Chip.Lawful.one h with h1 | h1
    · cases h1
    · exact h1
  have h1 : (c.spoilSpare s).GoodT none := by
    unfold Chip.GoodT
    rw [(Chip.keeps_spoilSpare c s).2, hw]
    exact Chip.Lawful.spoil h ht
  unfold Chip.failWriteSpare
  split
  · exact Chip.good_endTransfer h1 _ _
  · exact Chip.good_allocateForWrite (t := { t with spare := none }) h1 (Chip.Lawful.not_testing_spoil h ht)

theorem Chip.good_writeFoundRetired {t : Transfer} (h : c.GoodT t.spare) : (c.writeFoundRetired t).Good :=
  Chip.good_rowDone (Chip.goodT_freeTransferSpare h) _ _ _

theorem Chip.good_writeToSpare {t : Transfer} (h : c.GoodT t.spare) (s : SpareId) : (c.writeToSpare t s).Good := by
  unfold Chip.writeToSpare
  split
  · exact Chip.good_writeFoundRetired h
  · exact Chip.good_hostWrite h _ _ _

theorem Chip.good_writeQualified {t : Transfer} {s : SpareId} (h : c.GoodT t.spare) (hs : t.spare = some s) (k : Nat) (d : Delivered) :
    (c.writeQualified t s k d).Good := by
  unfold Chip.writeQualified
  split
  · split
    · exact Chip.good_cutTransfer h _
    · split
      · exact Chip.good_qualifyForWrite (hs ▸ h) _ _
      · exact Chip.good_writeToSpare h _
  · exact Chip.good_failWriteSpare (hs ▸ h)

theorem Chip.good_spareWritten {t : Transfer} (h : c.GoodT t.spare) (s : SpareId) : (c.spareWritten t s).Good := by
  unfold Chip.spareWritten
  split
  · exact Chip.good_cutTransfer h _
  · exact (Chip.good_putTransfer (t := { t with phase := .repairVerify }) h).same (Chip.holdView_issue _ _ _ _)

theorem Chip.goodT_relocateTo {l : Nat} {t : SpareId} {o : Origin} (h : c.GoodT (some t)) : (c.relocateTo l t o).GoodT none := by
  have ht := Chip.Lawful.heldT h t rfl
  have hw : c.rep.job.bind Job.spare = none := by
    rcases Chip.Lawful.one h with h1 | h1
    · cases h1
    · exact h1
  obtain ⟨h1, h2⟩ := Chip.Lawful.relocateTo (l := l) (o := o) h ht
  exact Chip.goodT_of_keeps (c := c) (by rw [hw]; exact h1) h2

theorem Chip.good_spareVerified {t : Transfer} {s : SpareId} (h : c.GoodT t.spare) (hs : t.spare = some s) (d : Delivered) :
    (c.spareVerified t s d).Good := by
  unfold Chip.spareVerified
  split
  · split
    · exact Chip.good_writeFoundRetired h
    · exact Chip.good_rowDone (Chip.goodT_relocateTo (hs ▸ h)) _ _ _
  · exact Chip.good_failWriteSpare (hs ▸ h)

theorem Chip.good_writtenInPlace {t : Transfer} (h : c.GoodT t.spare) (p : PhysRow) : (c.writtenInPlace t p).Good :=
  (Chip.good_putTransfer (t := { t with phase := .readBack }) h).same (Chip.holdView_issue _ _ _ _)

theorem Chip.good_writeReadBack {t : Transfer} (h : c.GoodT t.spare) (p : PhysRow) (d : Delivered) : (c.writeReadBack t p d).Good := by
  have h1 := Chip.GoodT.same h (Chip.holdView_report c { row := t.row, phys := p, outcome := d.outcome, path := .write, readBack := true })
  unfold Chip.writeReadBack
  dsimp only
  split
  · exact Chip.good_rowDone h1 _ _ _
  · exact Chip.good_rowDone h1 _ _ _
  · obtain ⟨h2, h3⟩ := Chip.Lawful.retireOrStick h1 t.row .write
    have h4 := Chip.goodT_of_keeps h2 h3
    split <;> (rename_i e; rw [e] at h4; exact Chip.good_rowDone h4 _ _ _)

theorem Chip.good_stopTransfer {t : Transfer} (h : c.Good) (hT : c.GoodT t.spare) : (c.stopTransfer t).Good := by
  unfold Chip.stopTransfer
  split
  all_goals first
    | exact Chip.good_cutTransfer hT _
    | (split
       · exact Chip.good_cutTransfer hT _
       · split
         · exact Chip.good_cutTransfer (c := { c with seq := { c.seq with foreground := .empty } }) (Chip.Lawful.congr (c := c) rfl hT) _
         · exact h)

/-! ## Lists, and the port -/

theorem Chip.good_nextFill (h : c.Good) (l : Listing) : (c.nextFill l).Good := by
  unfold Chip.nextFill
  split
  · exact Chip.good_endCommand h _ _
  · exact (Chip.good_setWork h rfl).same (Chip.holdView_offer _ _)

theorem Chip.good_nominate (h : c.Good) (l : Nat) : (c.nominate l).Good := by
  unfold Chip.nominate Chip.endNominate
  split
  · exact Chip.good_endCommand h _ _
  · split
    · exact Chip.good_endCommand h _ _
    · split
      · exact Chip.good_endCommand h _ _
      · exact Chip.good_endCommand (h.same (Chip.holdView_addPending c _ _ _)) _ _

theorem Chip.good_dropped (h : c.Good) (p : Purpose) : (c.dropped p).Good := by
  unfold Chip.dropped
  split
  all_goals first
    | exact Chip.good_endVisit h _
    | exact Chip.good_zeroDropped h
    | exact h

theorem Chip.good_foldl_dropped (ps : List Purpose) {c : Chip} (h : c.Good) : (ps.foldl Chip.dropped c).Good := by
  induction ps generalizing c with
  | nil => exact h
  | cons p ps ih => exact ih (Chip.good_dropped h p)

theorem Chip.holdView_grant (n : Nat) (c : Chip) : (c.grant n).1.holdView = c.holdView := by
  induction n generalizing c with
  | zero => rfl
  | succ n ih =>
    unfold Chip.grant
    split
    · rfl
    · split
      · exact (ih _).trans (Chip.holdView_putSlot _ _ _)
      · rfl

theorem Chip.good_settle (n : Nat) {c : Chip} (h : c.Good) : (Chip.settle n c).Good := by
  induction n generalizing c with
  | zero => exact h
  | succ n ih =>
    unfold Chip.settle
    split
    · exact h
    · split
      · exact h.same (Chip.holdView_grant 4 c)
      · exact ih (Chip.good_foldl_dropped _ (h.same (Chip.holdView_grant 4 c)))

theorem Chip.good_discarded (h : c.Good) (k : AccessClass) : (c.discarded k).Good := by
  unfold Chip.discarded
  split
  · split
    · exact Chip.Good.same (h.same (d := { c with cmd := { c.cmd with held := none } }) rfl) (Chip.holdView_putSlot _ _ _)
    · rename_i t hw
      split
      · exact Chip.good_beginRow 256 (h.goodT hw)
      · exact h
    all_goals
      split
      · exact Chip.good_endFormatEarly h _
      · exact h
  · exact Chip.good_patrolOn h
  · exact h
  · exact h

theorem Chip.good_finishAccess (h : c.Good) (k : AccessClass) (r : Request) (act : Chip → Chip) (ha : ∀ x : Chip, x.Good → (act x).Good) :
    (c.finishAccess k r act).Good := by
  have h1 : ({ c with seq := { c.seq.put k .empty with readyTimer := false } } : Chip).Good := h.same rfl
  unfold Chip.finishAccess
  dsimp only
  split
  · exact Chip.good_settle 8 (Chip.good_discarded h1 k)
  · exact Chip.good_settle 8 (ha _ (Chip.good_foldl_dropped _ (h1.same (Chip.holdView_grant 4 _))))

theorem Chip.good_onTransfer (h : c.Good) (f : Chip → Transfer → Chip) (hf : ∀ t, c.cmd.work = .transfer t → (f c t).Good) :
    (c.onTransfer f).Good := by
  unfold Chip.onTransfer
  split
  · rename_i t ht; exact hf t ht
  all_goals exact h

theorem Chip.good_onWriteRepair (h : c.Good) (f : Chip → Transfer → SpareId → Chip)
    (hf : ∀ t s, c.cmd.work = .transfer t → t.spare = some s → (f c t s).Good) : (c.onWriteRepair f).Good := by
  unfold Chip.onWriteRepair
  refine Chip.good_onTransfer h _ ?_
  intro t ht
  split
  · rename_i s hs; exact hf t s ht hs
  · exact h

theorem Chip.good_onJob (h : c.Good) (f : Chip → Job → Chip) (hf : ∀ j, c.rep.job = some j → (f c j).Good) : (c.onJob f).Good := by
  unfold Chip.onJob
  split
  · rename_i j hj; exact hf j hj
  · exact h

theorem Chip.good_onJobSpare (h : c.Good) (f : Chip → Job → SpareId → Chip)
    (hf : ∀ j t, c.rep.job = some j → j.spare = some t → (f c j t).Good) : (c.onJobSpare f).Good := by
  unfold Chip.onJobSpare
  refine Chip.good_onJob h _ ?_
  intro j hj
  split
  · rename_i s hs; exact hf j s hj hs
  · exact h

theorem Chip.good_timedOut (h : c.Good) (p : Purpose) : (c.timedOut p).Good := by
  unfold Chip.timedOut
  split
  all_goals first
    | exact Chip.good_onTransfer h _ fun t ht => Chip.good_cutTransfer (h.goodT ht) _
    | exact Chip.good_endFormatEarly h _
    | exact Chip.good_loadRead h _
    | exact Chip.good_commitEnds h _
    | exact Chip.good_repairTimeout h
    | exact Chip.good_patrolTimeout h

theorem Chip.good_serveWaitingJob (h : c.Good) : c.serveWaitingJob.Good := by
  unfold Chip.serveWaitingJob
  split
  · rename_i j hj
    split
    · rename_i hc
      exact Chip.good_repairGo h (h.goodJ hj) (fun _ => by simpa using hc.2.2)
    · exact h
  · exact h

theorem Chip.good_allocationServed (h : c.Good) : c.allocationServed.Good := by
  unfold Chip.allocationServed
  split
  · rename_i t ht
    split
    · split
      · exact h
      · exact Chip.good_classify (h.goodT ht)
    · split
      · exact h
      · exact Chip.good_serveWaitingJob h
  all_goals exact Chip.good_serveWaitingJob h

end Sys2Proof.Machine
end

