-- ==== Sys2Proof/Laws/LawfulWindow.lean ====
section
/-! SUPPORT. Register accesses, timers, supply and RSTn, and the step's parts keep the laws of the tables, the spares and the modes. -/

namespace Sys2Proof.Machine

variable {ht hj : Option SpareId} {tr jb : Bool} {c d : Chip}

/-! ## Taking a command -/

/-- An accepted command starts with no work. -/
theorem Chip.good_acceptCommand (h : c.Good) : c.acceptCommand.Good :=
  Chip.Lawful.congr (c := c) rfl
    (Chip.Lawful.weaken (ht' := none) (tr' := false) (hj' := c.rep.job.bind Job.spare) (jb' := c.rep.job.isSome) h
      (Or.inl rfl) (Or.inl rfl) (Or.inr rfl) (Or.inr rfl) (fun h => absurd rfl h) (Chip.Lawful.job h))

/-- A command that is taken keeps the laws where its run from acceptance does. -/
theorem Chip.good_takeCommand (h : c.Good) {inState : OperatingState → Bool} {params : Params → Bool}
    {range : Chip → Params → Bool} {run : Chip → Params → Chip}
    (hr : ∀ x : Chip, x.Good → c.busy = false → inState x.dir.opState = true → x.dir.opState = c.dir.opState →
      x.cmd.work = .none → ∀ p, (run x p).Good) : (c.takeCommand inState params range run).Good := by
  have ha := Chip.good_acceptCommand h
  unfold Chip.takeCommand Chip.endByCheck
  split
  · exact h.same (Chip.holdView_refuseCommand c)
  · rename_i hb
    split
    · rename_i hs
      split
      · split
        · exact hr _ ha (by simpa using hb) hs rfl rfl _
        · exact Chip.good_endCommand ha _ _
      · exact Chip.good_endCommand ha _ _
    · exact Chip.good_endCommand ha _ _

theorem serves_not {st : OperatingState} (h : st.serves = true) : st ≠ .formatting ∧ st ≠ .loading := by
  cases st <;> simp [OperatingState.serves] at h ⊢

/-- In service with no work, a transfer may run. -/
theorem Chip.Good.may_transfer (h : c.Good) (hs : c.dir.opState.serves = true) (hw : c.cmd.work = .none) : c.GoodT none := by
  unfold Chip.Good at h
  rw [hw] at h
  obtain ⟨h1, h2⟩ := serves_not hs
  exact { h with
    heldT := (fun _ h => nomatch h), one := Or.inl rfl, work := (fun h => absurd rfl h)
    fmt := (fun hf => absurd (h.fmt hf).1 h1), load := (fun hm => absurd (h.load hm).1 h2) }

theorem Chip.good_transferCommand (h : c.Good) (k : TransferKind) : (c.transferCommand k).Good :=
  Chip.good_takeCommand h fun _ hx _ hs _ hw _ => Chip.good_beginRow 256 (Chip.Good.may_transfer hx hs hw)

theorem Chip.good_relocateLook (h : c.Good) (l : Nat) (b : Bool) : (c.relocateLook l b).Good := by
  unfold Chip.relocateLook
  split
  · exact Chip.good_endCommand h _ _
  · split
    · exact Chip.good_endCommand h _ _
    · exact Chip.good_setWork (c := { c with rep := { c.rep with waiting := some (l, b) } }) (Chip.Good.same h rfl) rfl

theorem Chip.good_applyPolicy (h : c.Good) (p : Policy) : (c.applyPolicy p).Good := by
  have h1 : (Chip.setDirty { c with health := { c.health with policy := p } }).Good :=
    Chip.Good.same (Chip.Good.same (d := { c with health := { c.health with policy := p } }) h rfl) (Chip.holdView_setDirty _)
  unfold Chip.applyPolicy
  refine Chip.good_endCommand ?_ _ _
  have h2 : ∀ (b : Prop) [Decidable b] (x : Chip), x.Good → (if b then x else x.restartDelay).Good := by
    intro b _ x hx; split
    · exact hx
    · exact hx.same (Chip.holdView_restartDelay x)
  have h3 : ∀ (b : Prop) [Decidable b] (x : Chip), x.Good → (if b then x.clearStarved else x).Good := by
    intro b _ x hx; split
    · exact hx.same (Chip.holdView_clearStarved x)
    · exact hx
  have h4 : ∀ (b : Prop) [Decidable b] (x : Chip), x.Good → (if b then x.regradeAll else x).Good := by
    intro b _ x hx; split
    · exact hx.same (Chip.holdView_regradeAll x)
    · exact hx
  exact h4 _ _ (h3 _ _ (h2 _ _ h1))

theorem Chip.not_loading_of_not_busy (h : c.busy = false) : c.dir.opState ≠ .loading := by
  intro e; simp [Chip.busy, e] at h

theorem Chip.good_unknownCommand (h : c.Good) : c.unknownCommand.Good := by
  unfold Chip.unknownCommand Chip.endByCheck
  split
  · exact h.same (Chip.holdView_refuseCommand c)
  · exact Chip.good_endCommand (Chip.good_acceptCommand h) _ _

theorem Chip.good_queryCommand (h : c.Good) : c.queryCommand.Good :=
  Chip.good_takeCommand h fun _ hx _ _ _ _ _ => Chip.good_endCommand hx _ _
theorem Chip.good_nominateCommand (h : c.Good) : c.nominateCommand.Good :=
  Chip.good_takeCommand h fun _ hx _ _ _ _ _ => Chip.good_nominate hx _
theorem Chip.good_listCommand (h : c.Good) (k : ListKind) : (c.listCommand k).Good :=
  Chip.good_takeCommand h fun _ hx _ _ _ _ _ => Chip.good_nextFill hx _
theorem Chip.good_relocateCommand (h : c.Good) : c.relocateCommand.Good :=
  Chip.good_takeCommand h fun _ hx _ _ _ _ _ => Chip.good_relocateLook hx _ _
theorem Chip.good_patrolStartCommand (h : c.Good) : c.patrolStartCommand.Good :=
  Chip.good_takeCommand h fun _ hx _ _ _ _ _ => Chip.good_startPatrol hx _ _ _
theorem Chip.good_patrolHaltCommand (h : c.Good) : c.patrolHaltCommand.Good :=
  Chip.good_takeCommand h fun _ hx _ _ _ _ _ => Chip.good_haltPatrol hx
theorem Chip.good_patrolReportCommand (h : c.Good) : c.patrolReportCommand.Good :=
  Chip.good_takeCommand h fun _ hx _ _ _ _ _ => Chip.good_endCommand hx _ _
theorem Chip.good_commitCommand (h : c.Good) : c.commitCommand.Good :=
  Chip.good_takeCommand h fun _ hx _ _ _ _ _ => Chip.good_trigger (Chip.good_setWork hx rfl)
theorem Chip.good_formatCommand (h : c.Good) : c.formatCommand.Good :=
  Chip.good_takeCommand h fun _ hx hb _ he _ _ => Chip.good_startFormat hx (by rw [he]; exact Chip.not_loading_of_not_busy hb)
theorem Chip.good_setPolicyCommand (h : c.Good) : c.setPolicyCommand.Good :=
  Chip.good_takeCommand h fun _ hx _ _ _ _ _ => Chip.good_applyPolicy hx _

/-- A COMMAND write keeps the laws. -/
theorem Chip.good_writeCommand (h : c.Good) (w : Word) : (c.writeCommand w).Good := by
  unfold Chip.writeCommand
  split <;> first
    | exact Chip.good_transferCommand h _
    | exact Chip.good_queryCommand h
    | exact Chip.good_nominateCommand h
    | exact Chip.good_relocateCommand h
    | exact Chip.good_listCommand h _
    | exact Chip.good_commitCommand h
    | exact Chip.good_setPolicyCommand h
    | exact Chip.good_patrolStartCommand h
    | exact Chip.good_patrolHaltCommand h
    | exact Chip.good_patrolReportCommand h
    | exact Chip.good_formatCommand h
    | exact Chip.good_unknownCommand h

/-! ## CONTROL -/

theorem Chip.good_stopFormat (h : c.Good) : c.stopFormat.Good := by
  unfold Chip.stopFormat
  split
  · exact h
  · split
    · exact Chip.good_endFormatEarly h _
    · exact Chip.good_endFormatEarly h _
    · exact h
    · split
      · exact Chip.good_endFormatEarly h _
      · split
        · exact Chip.good_endFormatEarly (c := { c with seq := { c.seq with foreground := .empty } }) (Chip.Good.same h rfl) _
        · exact h
        · exact h

theorem Chip.good_stopWork (h : c.Good) : c.stopWork.Good := by
  unfold Chip.stopWork
  split
  · exact h
  · rename_i t ht; exact Chip.good_stopTransfer h (h.goodT ht)
  · exact Chip.good_endCommand h _ _
  · exact Chip.good_stopRelocate h _
  · exact Chip.good_endCommand (Chip.good_setPat h _) _ _
  · exact Chip.good_endCommand h _ _
  · exact Chip.good_endCommand h _ _
  · exact Chip.good_endCommand h _ _
  · exact Chip.good_stopFormat h

theorem Chip.good_stopCommand (h : c.Good) : c.stopCommand.Good := by
  unfold Chip.stopCommand
  split
  · exact h
  · exact Chip.good_stopWork (c := { c with cmd := { c.cmd with stopRequest := true } }) (Chip.Good.same h rfl)

theorem Chip.good_softResetEngine (h : c.Good) : c.softResetEngine.Good := by
  unfold Chip.softResetEngine
  dsimp only
  split
  · rename_i t ht
    let X : Chip := { c with cmd := c.cmd.softReset, seq := { c.seq with foreground := c.seq.foreground.abandon } }
    have h1 : X.GoodT t.spare := Chip.Lawful.congr (c := c) rfl (h.goodT ht)
    have h2 := Chip.goodT_freeTransferSpare (c := X) h1
    have hw : (X.freeTransferSpare t).cmd.work = .none := by
      unfold Chip.freeTransferSpare
      split
      · rw [(Chip.keeps_releaseSpare X _).1]; rfl
      · rfl
    show (X.freeTransferSpare t).Good
    unfold Chip.Good
    rw [hw]
    exact Chip.Lawful.weaken h2 (Or.inl rfl) (Or.inl rfl) (Or.inr rfl) (Or.inr rfl) (fun h => absurd rfl h) (Chip.Lawful.job h2)
  all_goals
    exact Chip.Lawful.congr (c := c) rfl
      (Chip.Lawful.weaken (ht' := none) (tr' := false) (hj' := c.rep.job.bind Job.spare) (jb' := c.rep.job.isSome) h
        (Or.inl rfl) (Or.inl rfl) (Or.inr rfl) (Or.inr rfl) (fun h => absurd rfl h) (Chip.Lawful.job h))

theorem Chip.good_softResetFormat (h : c.Good) : c.softResetFormat.Good := by
  unfold Chip.softResetFormat
  split
  · exact h
  · rename_i f hf
    have hne : c.dir.format ≠ none := by rw [hf]; simp
    have set : ∀ p, f.phase = p → p ≠ .waitCommit → (c.setFormat (some { f with ending := true })).Good := fun p hp hn =>
      Chip.good_setFormat h _ (Chip.Lawful.fmt h hne).1 (h.no_transfer hne) (h.not_loading hne)
        (Or.inr (h.yields hf (by rw [hp]; exact hn)))
    split
    · exact Chip.good_endFormatEarly h _
    · exact Chip.good_endFormatEarly h _
    · rename_i hp; exact set _ hp (by simp)
    · rename_i hp
      split
      · exact set _ hp (by simp)
      · exact Chip.good_endFormatEarly h _
      · exact Chip.good_endFormatEarly h _

theorem Chip.good_softReset (h : c.Good) : c.softReset.Good :=
  Chip.good_softResetPatrol (Chip.good_softResetRepair (Chip.good_softResetFormat
    (Chip.good_softResetEngine (c := { c with bus := c.bus.softReset }) (Chip.Good.same h rfl))))

theorem Chip.good_writeControl (h : c.Good) (w : Word) : (c.writeControl w).Good := by
  unfold Chip.writeControl
  split
  · exact Chip.good_softReset h
  · split
    · exact Chip.good_stopCommand h
    · exact h

/-! ## DATA and the other registers -/

theorem Chip.good_offerEnds (h : c.Good) : c.offerEnds.Good := by
  have h1 : ({ c with bus := { c.bus with pointer := 0 }, cmd := { c.cmd with st := .executing } } : Chip).Good := Chip.Good.same h rfl
  unfold Chip.offerEnds
  dsimp only
  split
  · rename_i t ht
    split
    · exact Chip.good_rowDone (h1.goodT ht) _ _ _
    all_goals exact h1
  · exact Chip.good_nextFill h1 _
  all_goals exact h1

theorem Chip.good_readData (h : c.Good) : c.readData.Good := by
  have h1 : ({ c with bus := { c.bus with dataOut := some c.dataWord } } : Chip).Good := Chip.Good.same h rfl
  unfold Chip.readData
  dsimp only
  split
  · split
    · exact Chip.Good.same h rfl
    · exact Chip.good_offerEnds h1
  · exact h1.same (Chip.holdView_misuse _)

theorem Chip.good_transferEnds (h : c.Good) : c.transferEnds.Good := by
  have h1 : ({ c with bus := { c.bus with pointer := 0 }, cmd := { c.cmd with st := .executing } } : Chip).Good := Chip.Good.same h rfl
  exact Chip.good_onTransfer h1 _ fun t ht => Chip.good_classify (h1.goodT ht)

theorem Chip.good_writeData (h : c.Good) (w : Word) : (c.writeData w).Good := by
  have h1 : ({ c with bus := { c.bus with buffer := c.bus.buffer.set c.bus.pointer w } } : Chip).Good := Chip.Good.same h rfl
  unfold Chip.writeData
  dsimp only
  split
  · split
    · exact Chip.Good.same h rfl
    · exact Chip.good_transferEnds h1
  · exact h.same (Chip.holdView_misuse _)

theorem Chip.good_writeRegister (h : c.Good) (o : BitVec 5) (w : Word) : (c.writeRegister o w).Good := by
  unfold Chip.writeRegister
  split <;> first
    | exact Chip.good_writeCommand h _
    | exact h.same (Chip.holdView_writeParam c _ _)
    | exact Chip.good_writeData h _
    | exact Chip.good_writeControl h _
    | exact h.same (Chip.holdView_writeEvents c _)
    | exact h.same (Chip.holdView_writeEnable c _)
    | exact h.same (Chip.holdView_popNotice c)
    | exact h.same (Chip.holdView_writeIdent c _)
    | exact h

/-! ## The machine -/

theorem Chip.good_delayRunsOut (h : c.Good) : c.delayRunsOut.Good := by
  unfold Chip.delayRunsOut
  split
  · exact h
  · exact Chip.good_trigger (c := { c with dir := { c.dir with commitTimer := none } }) (Chip.Good.same h rfl)

theorem Chip.good_resetBlocks (p r : Bool) (n : Nat) : (Chip.resetBlocks p r n).Good := by
  have h : (Chip.resetBlocks p r n).Lawful none false none false :=
    { sorted := List.Pairwise.nil, nodup := List.nodup_nil
      inUse := by
        intro t
        rw [Chip.spareState_eq]
        constructor
        · intro h; cases h
        · intro h
          rcases stateIn_fresh n t with e | e
          · exact absurd (e.symm.trans h) (by simp)
          · exact absurd (e.symm.trans h) (by simp)
      retired := Nat.zero_le _, changes := Nat.zero_le _
      testing := by
        intro a b h
        rw [Chip.spareState_eq] at h
        rcases stateIn_fresh n a with e | e
        · exact absurd (e.symm.trans h) (by simp)
        · exact absurd (e.symm.trans h) (by simp)
      heldT := (fun _ h => nomatch h), heldJ := (fun _ h => nomatch h), one := Or.inl rfl
      zones := by simp [Chip.resetBlocks, freshZones]
      size := size_fresh n
      work := (fun h => absurd rfl h), job := (fun h => absurd rfl h)
      fmt := (fun h => absurd rfl h), load := (fun _ => ⟨rfl, rfl, rfl, rfl⟩)
      quiet := (fun _ => rfl), own := (fun _ h => nomatch h) }
  exact h

theorem good_bringUp (r : Bool) (b : BitVec 2) : (bringUp r b).Good := by
  unfold bringUp
  split
  · exact Chip.good_resetBlocks _ _ _
  · exact Chip.good_settle 8 ((Chip.good_resetBlocks _ _ _).same (Chip.holdView_startLoading _))

theorem State.good_onChip {s : State} (h : s.toChip.Good) {f : Chip → Chip} (hf : (f s.toChip).Good) : (s.onChip f).toChip.Good :=
  Chip.good_settle 8 hf

theorem State.good_onBus {s : State} (h : s.toChip.Good) {f : Chip → Chip} (hf : (f s.toChip).Good) : (s.onBus f).toChip.Good := by
  unfold State.onBus
  split
  · exact Chip.good_settle 8 hf
  · exact h

theorem State.good_complete {s t : State} (h : s.toChip.Good) {cov : Purpose → Bool} {fl : RowPatch}
    {act : Request → Delivered → Chip → Chip} (hf : ∀ r x (c : Chip), c.Good → (act r x c).Good)
    (e : s.complete cov fl act = .next t) : t.toChip.Good := by
  unfold State.complete at e
  (repeat' split at e) <;> cases e
  · exact h
  · exact Chip.good_finishAccess h _ _ _ (hf _ _)
  · exact h

theorem State.good_readyExpires {s : State} (h : s.toChip.Good) (x : Bool) (l : RowPatch) : (s.readyExpires x l).toChip.Good := by
  unfold State.readyExpires
  (repeat' split) <;> first
    | exact h
    | exact Chip.good_finishAccess h _ _ _ fun c hc => Chip.good_timedOut hc _

end Sys2Proof.Machine
end

