-- ==== Sys2Proof/Laws/Limits.lean ====
section
/-! SUPPORT. Every operation of the part keeps its collections within their limits (R86, R87, R123, R177). -/

namespace Sys2Proof.Machine

/-! The limits carry `dv`, the device count and whether the watch table and the pending list are held apart, so that simp reads it
off the goal. -/

/-- The pending list's limit (R86). -/
def PendOk (_d : Nat × Bool) (l : List PendingEntry) : Prop := l.length ≤ 32
/-- The watch table's size (R87). -/
def WatchOk (_d : Nat × Bool) (l : List (Option WatchEntry)) : Prop := l.length = 64
/-- The notice queue's limit (R177). -/
def QueueOk (_d : Nat × Bool) (l : List Notice) : Prop := l.length ≤ 16
/-- The cursor's limit (R123). -/
def CursorOk (dv : Nat × Bool) (n : Nat) : Prop := n < 8064 * dv.1
/-- The device count is that of `dv`. -/
def DevOk (dv : Nat × Bool) (n : Nat) : Prop := n = dv.1
/-- No row is watched and pending at once, where `dv` asks for it (R86). -/
def ApartOk (dv : Nat × Bool) (w : List (Option WatchEntry)) (l : List PendingEntry) : Prop :=
  dv.2 = true → ∀ e ∈ l, ∀ o ∈ w, slotHolds e.row o = false

/-- A row has a RETIRED entry in a remap table. -/
def retiredIn (m : List RemapEntry) (l : Nat) : Bool :=
  ((m.find? fun e => decide (e.row = l)).map fun e => decide (e.place = .retired)).getD false
/-- No row with a RETIRED entry is watched or pending, where `dv` asks for it (R86). -/
def RetireOk (dv : Nat × Bool) (m : List RemapEntry) (w : List (Option WatchEntry)) (p : List PendingEntry) : Prop :=
  dv.2 = true → ∀ l, retiredIn m l = true → (∀ e ∈ p, e.row ≠ l) ∧ ∀ o ∈ w, slotHolds l o = false

theorem Placement.retired_iff (p : Placement) : ((match p with
    | .spared t => Lookup.spared t
    | .retired => Lookup.retired) = Lookup.retired) ↔ p = .retired := by cases p <;> simp

theorem Chip.isRetired_eq (c : Chip) (l : Nat) : c.isRetired l = retiredIn c.tr.remap l := by
  unfold Chip.isRetired Chip.lookup Chip.entryOf retiredIn
  cases c.tr.remap.find? fun e => decide (e.row = l) with
  | none => rfl
  | some e => exact decide_eq_decide.2 e.place.retired_iff

/-- The collections of a part stand within the limits of `dv`. -/
def Chip.Within (dv : Nat × Bool) (c : Chip) : Prop :=
  PendOk dv c.trk.pendingList ∧ WatchOk dv c.trk.watch ∧ QueueOk dv c.health.queue ∧ CursorOk dv c.pat.cursor
    ∧ DevOk dv c.devices ∧ ApartOk dv c.trk.watch c.trk.pendingList ∧ RetireOk dv c.tr.remap c.trk.watch c.trk.pendingList

@[simp] theorem Chip.within_mk (dv : Nat × Bool) (powered rst : Bool) (devices : Nat) (bus : BusInterface) (cmd : CommandEngine)
    (seq : Sequencer) (tr : Translator) (trk : ErrorTracker) (alloc : SpareAllocator) (rep : RepairEngine)
    (pat : PatrolEngine) (dir : DirectoryUnit) (health : HealthUnit) :
    Chip.Within dv (Chip.mk powered rst devices bus cmd seq tr trk alloc rep pat dir health) ↔
      PendOk dv trk.pendingList ∧ WatchOk dv trk.watch ∧ QueueOk dv health.queue ∧ CursorOk dv pat.cursor
        ∧ DevOk dv devices ∧ ApartOk dv trk.watch trk.pendingList ∧ RetireOk dv tr.remap trk.watch trk.pendingList := Iff.rfl

@[simp] theorem Chip.within_pending {dv : Nat × Bool} {c : Chip} (h : c.Within dv) : PendOk dv c.trk.pendingList := h.1
@[simp] theorem Chip.within_watch {dv : Nat × Bool} {c : Chip} (h : c.Within dv) : WatchOk dv c.trk.watch := h.2.1
@[simp] theorem Chip.within_queue {dv : Nat × Bool} {c : Chip} (h : c.Within dv) : QueueOk dv c.health.queue := h.2.2.1
@[simp] theorem Chip.within_cursor {dv : Nat × Bool} {c : Chip} (h : c.Within dv) : CursorOk dv c.pat.cursor := h.2.2.2.1
@[simp] theorem Chip.within_devices {dv : Nat × Bool} {c : Chip} (h : c.Within dv) : DevOk dv c.devices := h.2.2.2.2.1
@[simp] theorem Chip.within_apart {dv : Nat × Bool} {c : Chip} (h : c.Within dv) : ApartOk dv c.trk.watch c.trk.pendingList :=
  h.2.2.2.2.2.1
@[simp] theorem Chip.within_retire {dv : Nat × Bool} {c : Chip} (h : c.Within dv) :
    RetireOk dv c.tr.remap c.trk.watch c.trk.pendingList := h.2.2.2.2.2.2

@[simp] theorem pendOk_map {dv : Nat × Bool} {l : List PendingEntry} (f : PendingEntry → PendingEntry) :
    PendOk dv (l.map f) ↔ PendOk dv l := by simp [PendOk]
@[simp] theorem pendOk_filter {dv : Nat × Bool} {l : List PendingEntry} (p : PendingEntry → Bool) (h : PendOk dv l) :
    PendOk dv (l.filter p) := Nat.le_trans (List.length_filter_le p l) h
@[simp] theorem watchOk_map {dv : Nat × Bool} {l : List (Option WatchEntry)} (f : Option WatchEntry → Option WatchEntry) :
    WatchOk dv (l.map f) ↔ WatchOk dv l := by simp [WatchOk]
@[simp] theorem watchOk_set {dv : Nat × Bool} {l : List (Option WatchEntry)} (i : Nat) (o : Option WatchEntry) :
    WatchOk dv (l.set i o) ↔ WatchOk dv l := by simp [WatchOk]
/-- A change of entries that keeps their rows keeps the table and the list apart. -/
@[simp] theorem apartOk_map {dv : Nat × Bool} {w : List (Option WatchEntry)} {l : List PendingEntry} (f : PendingEntry → PendingEntry)
    (hf : ∀ e, (f e).row = e.row) : ApartOk dv w (l.map f) ↔ ApartOk dv w l := by
  simp [ApartOk, hf]
theorem apartOk_filter {dv : Nat × Bool} {w : List (Option WatchEntry)} {l : List PendingEntry} (p : PendingEntry → Bool)
    (h : ApartOk dv w l) : ApartOk dv w (l.filter p) := fun hd e he => h hd e (List.mem_of_mem_filter he)
/-- A change of slots that only empties them keeps the table and the list apart. -/
theorem apartOk_mapWatch {dv : Nat × Bool} {w : List (Option WatchEntry)} {l : List PendingEntry}
    (f : Option WatchEntry → Option WatchEntry) (hf : ∀ o, f o = none ∨ f o = o) (h : ApartOk dv w l) :
    ApartOk dv (w.map f) l := by
  intro hd e he o ho
  obtain ⟨o', h1, rfl⟩ := List.mem_map.1 ho
  rcases hf o' with h2 | h2 <;> rw [h2]
  · rfl
  · exact h hd e he o' h1
/-- A slot filled with a row that is not pending keeps the table and the list apart. -/
theorem apartOk_set {dv : Nat × Bool} {w : List (Option WatchEntry)} {l : List PendingEntry} (i : Nat) (x : WatchEntry)
    (hn : ∀ e ∈ l, e.row ≠ x.row) (h : ApartOk dv w l) : ApartOk dv (w.set i (some x)) l := by
  intro hd e he o ho
  rcases List.mem_or_eq_of_mem_set ho with h1 | rfl
  · exact h hd e he o h1
  · simpa [slotHolds] using fun h2 => hn e he h2.symm
/-- Fewer entries and emptier slots keep the RETIRED rows out. -/
theorem RetireOk.mono {dv : Nat × Bool} {m : List RemapEntry} {w w' : List (Option WatchEntry)} {p p' : List PendingEntry}
    (h : RetireOk dv m w p) (hp : ∀ e ∈ p', ∃ e' ∈ p, e'.row = e.row) (hw : ∀ o ∈ w', o = none ∨ o ∈ w) : RetireOk dv m w' p' := by
  intro hd l hl
  obtain ⟨h1, h2⟩ := h hd l hl
  refine ⟨fun e he => ?_, fun o ho => ?_⟩
  · obtain ⟨e', he', hr⟩ := hp e he
    exact hr ▸ h1 e' he'
  · rcases hw o ho with rfl | ho
    · rfl
    · exact h2 o ho
@[simp] theorem retireOk_map {dv : Nat × Bool} {m : List RemapEntry} {w : List (Option WatchEntry)} {p : List PendingEntry}
    (f : PendingEntry → PendingEntry) (hf : ∀ e, (f e).row = e.row) (h : RetireOk dv m w p) : RetireOk dv m w (p.map f) :=
  h.mono (fun e he => by obtain ⟨e', h1, rfl⟩ := List.mem_map.1 he; exact ⟨e', h1, (hf e').symm⟩) fun _ ho => Or.inr ho
theorem retireOk_filter {dv : Nat × Bool} {m : List RemapEntry} {w : List (Option WatchEntry)} {p : List PendingEntry}
    (q : PendingEntry → Bool) (h : RetireOk dv m w p) : RetireOk dv m w (p.filter q) :=
  h.mono (fun e he => ⟨e, List.mem_of_mem_filter he, rfl⟩) fun _ ho => Or.inr ho
theorem retireOk_mapWatch {dv : Nat × Bool} {m : List RemapEntry} {w : List (Option WatchEntry)} {p : List PendingEntry}
    (f : Option WatchEntry → Option WatchEntry) (hf : ∀ o, f o = none ∨ f o = o) (h : RetireOk dv m w p) : RetireOk dv m (w.map f) p :=
  h.mono (fun e he => ⟨e, he, rfl⟩) fun o ho => by
    obtain ⟨o', h1, rfl⟩ := List.mem_map.1 ho
    rcases hf o' with h2 | h2
    · exact Or.inl h2
    · rw [h2]; exact Or.inr h1
/-- A slot filled with a row that is not RETIRED. -/
theorem retireOk_set {dv : Nat × Bool} {m : List RemapEntry} {w : List (Option WatchEntry)} {p : List PendingEntry} (i : Nat) (x : WatchEntry)
    (hn : retiredIn m x.row = false) (h : RetireOk dv m w p) : RetireOk dv m (w.set i (some x)) p := by
  intro hd l hl
  obtain ⟨h1, h2⟩ := h hd l hl
  refine ⟨h1, fun o ho => ?_⟩
  rcases List.mem_or_eq_of_mem_set ho with h3 | rfl
  · exact h2 o h3
  · by_cases hx : x.row = l
    · rw [hx, hl] at hn; cases hn
    · simpa [slotHolds] using hx
/-- An entry added for a row that is not RETIRED. -/
theorem retireOk_add {dv : Nat × Bool} {m : List RemapEntry} {w : List (Option WatchEntry)} {p : List PendingEntry} (x : PendingEntry)
    (hn : retiredIn m x.row = false) (h : RetireOk dv m w p) : RetireOk dv m w (p ++ [x]) := by
  intro hd l hl
  obtain ⟨h1, h2⟩ := h hd l hl
  refine ⟨fun e he hr => ?_, h2⟩
  rcases List.mem_append.1 he with h3 | h3
  · exact h1 e h3 hr
  · rw [List.mem_singleton.1 h3] at hr
    rw [hr, hl] at hn; cases hn
/-- A new entry of the table decides its own row alone. -/
theorem retiredIn_placeEntry (e : RemapEntry) (m : List RemapEntry) (l : Nat) :
    retiredIn (placeEntry e m) l = if e.row = l then decide (e.place = .retired) else retiredIn m l := by
  unfold retiredIn
  rw [find?_placeEntry]
  split <;> rfl
/-- The first row is a row. -/
theorem Chip.within_first {dv : Nat × Bool} {c : Chip} (h : c.Within dv) : CursorOk dv 0 := by
  have h4 : c.pat.cursor < 8064 * dv.1 := h.2.2.2.1
  show 0 < 8064 * dv.1
  omega

@[simp] theorem Chip.within_putSlot {dv : Nat × Bool} (c : Chip) (k : AccessClass) (s : Slot) (hw : c.Within dv) :
    Chip.Within dv (c.putSlot k s) := by
  unfold Chip.putSlot; (try dsimp only); (repeat' split) <;> first | (simp (maxDischargeDepth := 20) [*]; done) | (simp_all (maxDischargeDepth := 20); done)

@[simp] theorem Chip.within_issue {dv : Nat × Bool} (c : Chip) (purpose : Purpose) (phys : PhysRow) (data : Option (List Word)) (hw : c.Within dv) :
    Chip.Within dv (c.issue purpose phys data) := by
  unfold Chip.issue; (try dsimp only); (repeat' split) <;> first | (simp (maxDischargeDepth := 20) [*]; done) | (simp_all (maxDischargeDepth := 20); done)

@[simp] theorem Chip.within_issueForeground {dv : Nat × Bool} (c : Chip) (purpose : Purpose) (phys : PhysRow) (data : Option (List Word)) (hw : c.Within dv) :
    Chip.Within dv (c.issueForeground purpose phys data) := by
  unfold Chip.issueForeground; (try dsimp only); (repeat' split) <;> first | (simp (maxDischargeDepth := 20) [*]; done) | (simp_all (maxDischargeDepth := 20); done)

@[simp] theorem Chip.within_markClaims {dv : Nat × Bool} (c : Chip) (l : Nat) (hw : c.Within dv) :
    Chip.Within dv (c.markClaims l) := by
  unfold Chip.markClaims; (try dsimp only); (repeat' split) <;> first | (simp (maxDischargeDepth := 20) [*]; done) | (simp_all (maxDischargeDepth := 20); done)

@[simp] theorem Chip.within_markPatrolClaim {dv : Nat × Bool} (c : Chip) (l : Nat) (hw : c.Within dv) :
    Chip.Within dv (c.markPatrolClaim l) := by
  unfold Chip.markPatrolClaim; (try dsimp only); (repeat' split) <;> first | (simp (maxDischargeDepth := 20) [*]; done) | (simp_all (maxDischargeDepth := 20); done)

@[simp] theorem Chip.within_raise {dv : Nat × Bool} (c : Chip) (b : NoticeBody) (hw : c.Within dv) :
    Chip.Within dv (c.raise b) := by
  unfold Chip.raise
  split
  · rename_i hl
    obtain ⟨h1, h2, _, h4, h5, h6⟩ := hw
    refine ⟨h1, h2, ?_, h4, h5, h6⟩
    show (c.health.queue ++ _).length ≤ 16
    simp only [List.length_append, List.length_cons, List.length_nil]
    exact hl
  · exact hw

@[simp] theorem Chip.within_regradeDevice {dv : Nat × Bool} (c : Chip) (hw : c.Within dv) :
    Chip.Within dv (c.regradeDevice) := by
  unfold Chip.regradeDevice; (try dsimp only); (repeat' split) <;> first | (simp (maxDischargeDepth := 20) [*]; done) | (simp_all (maxDischargeDepth := 20); done)

@[simp] theorem Chip.within_modifyZone {dv : Nat × Bool} (c : Chip) (g : Nat) (f : Zone → Zone) (hw : c.Within dv) :
    Chip.Within dv (c.modifyZone g f) := by
  unfold Chip.modifyZone; (try dsimp only); (repeat' split) <;> first | (simp (maxDischargeDepth := 20) [*]; done) | (simp_all (maxDischargeDepth := 20); done)

@[simp] theorem Chip.within_setSpare {dv : Nat × Bool} (c : Chip) (t : SpareId) (st : SpareState) (hw : c.Within dv) :
    Chip.Within dv (c.setSpare t st) := by
  unfold Chip.setSpare; (try dsimp only); (repeat' split) <;> first | (simp (maxDischargeDepth := 20) [*]; done) | (simp_all (maxDischargeDepth := 20); done)

@[simp] theorem Chip.within_releaseSpare {dv : Nat × Bool} (c : Chip) (t : SpareId) (hw : c.Within dv) :
    Chip.Within dv (c.releaseSpare t) := by
  unfold Chip.releaseSpare; (try dsimp only); (repeat' split) <;> first | (simp (maxDischargeDepth := 20) [*]; done) | (simp_all (maxDischargeDepth := 20); done)

@[simp] theorem Chip.within_setDirty {dv : Nat × Bool} (c : Chip) (hw : c.Within dv) :
    Chip.Within dv (c.setDirty) := by
  unfold Chip.setDirty; (try dsimp only); (repeat' split) <;> first | (simp (maxDischargeDepth := 20) [*]; done) | (simp_all (maxDischargeDepth := 20); done)

@[simp] theorem Chip.within_setOpState {dv : Nat × Bool} (c : Chip) (st : OperatingState) (hw : c.Within dv) :
    Chip.Within dv (c.setOpState st) := by
  unfold Chip.setOpState; (try dsimp only); (repeat' split) <;> first | (simp (maxDischargeDepth := 20) [*]; done) | (simp_all (maxDischargeDepth := 20); done)

@[simp] theorem Chip.within_endCommand {dv : Nat × Bool} (c : Chip) (code : ResultCode) (res : Results) (hw : c.Within dv) :
    Chip.Within dv (c.endCommand code res) := by
  unfold Chip.endCommand; (try dsimp only); (repeat' split) <;> first | (simp (maxDischargeDepth := 20) [*]; done) | (simp_all (maxDischargeDepth := 20); done)

@[simp] theorem Chip.within_setWork {dv : Nat × Bool} (c : Chip) (w : Work) (hw : c.Within dv) :
    Chip.Within dv (c.setWork w) := by
  unfold Chip.setWork; (try dsimp only); (repeat' split) <;> first | (simp (maxDischargeDepth := 20) [*]; done) | (simp_all (maxDischargeDepth := 20); done)

@[simp] theorem Chip.within_offer {dv : Nat × Bool} (c : Chip) (ws : List Word) (hw : c.Within dv) :
    Chip.Within dv (c.offer ws) := by
  unfold Chip.offer; (try dsimp only); (repeat' split) <;> first | (simp (maxDischargeDepth := 20) [*]; done) | (simp_all (maxDischargeDepth := 20); done)

@[simp] theorem Chip.within_askRow {dv : Nat × Bool} (c : Chip) (hw : c.Within dv) :
    Chip.Within dv (c.askRow) := by
  unfold Chip.askRow; (try dsimp only); (repeat' split) <;> first | (simp (maxDischargeDepth := 20) [*]; done) | (simp_all (maxDischargeDepth := 20); done)

@[simp] theorem Chip.within_setResult0 {dv : Nat × Bool} (c : Chip) (n : Nat) (hw : c.Within dv) :
    Chip.Within dv (c.setResult0 n) := by
  unfold Chip.setResult0; (try dsimp only); (repeat' split) <;> first | (simp (maxDischargeDepth := 20) [*]; done) | (simp_all (maxDischargeDepth := 20); done)

/-- A change of a pending entry keeps its row. -/
@[simp] theorem Chip.within_updatePending {dv : Nat × Bool} (c : Chip) (l : Nat) (f : PendingEntry → PendingEntry) (hf : ∀ e, (f e).row = e.row)
    (hw : c.Within dv) : Chip.Within dv (c.updatePending l f) :=
  ⟨(pendOk_map _).2 hw.1, hw.2.1, hw.2.2.1, hw.2.2.2.1, hw.2.2.2.2.1,
    (apartOk_map _ fun e => by split <;> [exact hf e; rfl]).2 hw.2.2.2.2.2.1,
    retireOk_map _ (fun e => by split <;> [exact hf e; rfl]) hw.2.2.2.2.2.2⟩

@[simp] theorem Chip.within_removePending {dv : Nat × Bool} (c : Chip) (l : Nat) (hw : c.Within dv) :
    Chip.Within dv (c.removePending l) := by
  unfold Chip.removePending
  split
  · exact hw
  · exact Chip.within_setDirty _ ⟨pendOk_filter _ hw.1, hw.2.1, hw.2.2.1, hw.2.2.2.1, hw.2.2.2.2.1, apartOk_filter _ hw.2.2.2.2.2.1,
      retireOk_filter _ hw.2.2.2.2.2.2⟩

/-- Removing an entry that is there leaves room (R92). -/
theorem filter_length_lt {α : Type} (p : α → Bool) (l : List α) {x : α} (hx : x ∈ l) (h : p x = false) :
    (l.filter p).length < l.length := by
  have h1 := List.length_filter_le p l
  rcases Nat.lt_or_ge (l.filter p).length l.length with h2 | h2
  · exact h2
  · have h3 := List.filter_eq_self.mp (List.filter_sublist.eq_of_length (Nat.le_antisymm h1 h2)) x hx
    simp [h] at h3

theorem Chip.pendingOf_some {c : Chip} {l : Nat} {e : PendingEntry} (h : c.pendingOf l = some e) :
    e ∈ c.trk.pendingList ∧ e.row = l :=
  ⟨List.mem_of_find?_eq_some h, by simpa using List.find?_some h⟩

theorem Chip.removePending_length {c : Chip} {l : Nat} {e : PendingEntry} (h : e ∈ c.trk.pendingList) (hl : e.row = l) :
    (c.removePending l).trk.pendingList.length < c.trk.pendingList.length := by
  unfold Chip.removePending
  split
  · rename_i hn
    exact absurd hl (by simpa using List.find?_eq_none.mp hn e h)
  · have : (Chip.setDirty { c with trk := { c.trk with
        pendingList := c.trk.pendingList.filter fun e => decide (e.row ≠ l) } }).trk.pendingList
        = c.trk.pendingList.filter fun e => decide (e.row ≠ l) := by
      unfold Chip.setDirty; (repeat' split) <;> rfl
    rw [this]
    exact filter_length_lt _ _ h (by simp [hl])

@[simp] theorem Chip.within_setRestarts {dv : Nat × Bool} (c : Chip) (l n : Nat) (hw : c.Within dv) :
    Chip.Within dv (c.setRestarts l n) := by
  unfold Chip.setRestarts; (try dsimp only); (repeat' split) <;> first | (simp (maxDischargeDepth := 20) [*]; done) | (simp_all (maxDischargeDepth := 20); done)

@[simp] theorem Chip.within_clearRestarts {dv : Nat × Bool} (c : Chip) (hw : c.Within dv) :
    Chip.Within dv (c.clearRestarts) := by
  unfold Chip.clearRestarts; (try dsimp only); (repeat' split) <;> first | (simp (maxDischargeDepth := 20) [*]; done) | (simp_all (maxDischargeDepth := 20); done)

@[simp] theorem Chip.within_deferPending {dv : Nat × Bool} (c : Chip) (l : Nat) (hw : c.Within dv) :
    Chip.Within dv (c.deferPending l) := by
  unfold Chip.deferPending
  split
  · exact hw
  · rename_i e he
    refine Chip.within_setDirty _ ⟨?_, hw.2.1, hw.2.2.1, hw.2.2.2.1, hw.2.2.2.2.1, ?_, ?_⟩
    rotate_left
    · intro hd x hx o ho
      rcases List.mem_append.1 hx with hx | hx
      · exact hw.2.2.2.2.2.1 hd x (List.mem_of_mem_filter hx) o ho
      · rw [List.mem_singleton.1 hx]
        exact hw.2.2.2.2.2.1 hd e (Chip.pendingOf_some he).1 o ho
    · refine hw.2.2.2.2.2.2.mono (fun x hx => ?_) fun _ ho => Or.inr ho
      rcases List.mem_append.1 hx with hx | hx
      · exact ⟨x, List.mem_of_mem_filter hx, rfl⟩
      · rw [List.mem_singleton.1 hx]
        exact ⟨e, (Chip.pendingOf_some he).1, rfl⟩
    have h1 := filter_length_lt (fun x => decide (x.row ≠ l)) c.trk.pendingList (Chip.pendingOf_some he).1
      (by simp [(Chip.pendingOf_some he).2])
    have h2 : c.trk.pendingList.length ≤ 32 := hw.1
    show (List.filter _ _ ++ _).length ≤ 32
    simp only [List.length_append, List.length_cons, List.length_nil]
    omega

theorem Chip.within_putWatch {dv : Nat × Bool} (c : Chip) (i : Nat) (x : WatchEntry) (hn : c.pendingOf x.row = none)
    (hr : c.isRetired x.row = false) (hw : c.Within dv) : Chip.Within dv (c.putWatch i (some x)) := by
  refine ⟨hw.1, (watchOk_set _ _).2 hw.2.1, hw.2.2.1, hw.2.2.2.1, hw.2.2.2.2.1, apartOk_set _ _ ?_ hw.2.2.2.2.2.1,
    retireOk_set _ _ ((c.isRetired_eq _).symm.trans hr) hw.2.2.2.2.2.2⟩
  intro e he h
  simpa [h] using List.find?_eq_none.1 hn e he

@[simp] theorem Chip.within_removeWatch {dv : Nat × Bool} (c : Chip) (l : Nat) (hw : c.Within dv) :
    Chip.Within dv (c.removeWatch l) :=
  ⟨hw.1, (watchOk_map _).2 hw.2.1, hw.2.2.1, hw.2.2.2.1, hw.2.2.2.2.1,
    apartOk_mapWatch _ (fun o => by split <;> simp) hw.2.2.2.2.2.1,
    retireOk_mapWatch _ (fun o => by split <;> simp) hw.2.2.2.2.2.2⟩

theorem Chip.within_watchInsert {dv : Nat × Bool} (c : Chip) (l : Nat) (hn : c.pendingOf l = none) (hr : c.isRetired l = false)
    (hw : c.Within dv) : Chip.Within dv (c.watchInsert l) := by
  unfold Chip.watchInsert
  split
  · exact Chip.within_putWatch _ _ _ hn hr hw
  · exact hw

@[simp] theorem Chip.within_ageWatch {dv : Nat × Bool} (c : Chip) (hw : c.Within dv) :
    Chip.Within dv (c.ageWatch) :=
  ⟨hw.1, (watchOk_map _).2 hw.2.1, hw.2.2.1, hw.2.2.2.1, hw.2.2.2.2.1,
    apartOk_mapWatch _ (fun o => by cases o <;> simp; omega) hw.2.2.2.2.2.1,
    retireOk_mapWatch _ (fun o => by cases o <;> simp; omega) hw.2.2.2.2.2.2⟩

theorem Chip.within_addPending {dv : Nat × Bool} (c : Chip) (l : Nat) (cause : Cause) (source : Origin) (hr : c.isRetired l = false)
    (hw : c.Within dv) (hl : c.trk.pendingList.length < 32) : Chip.Within dv (c.addPending l cause source) := by
  refine Chip.within_setDirty _ ⟨?_, (c.within_removeWatch l hw).2.1, hw.2.2.1, hw.2.2.2.1, hw.2.2.2.2.1, ?_,
    retireOk_add _ ((c.isRetired_eq _).symm.trans hr) (c.within_removeWatch l hw).2.2.2.2.2.2⟩
  rotate_left
  · intro hd e he o ho
    rcases List.mem_append.1 he with he | he
    · exact (c.within_removeWatch l hw).2.2.2.2.2.1 hd e he o ho
    · rw [List.mem_singleton.1 he]
      obtain ⟨o', -, rfl⟩ := List.mem_map.1 ho
      dsimp only
      split
      · rfl
      · rename_i h; simpa using h
  show (c.trk.pendingList ++ _).length ≤ 32
  simp only [List.length_append, List.length_cons, List.length_nil]
  omega

theorem Chip.remap_removePending (c : Chip) (l : Nat) : (c.removePending l).tr.remap = c.tr.remap := by
  unfold Chip.removePending Chip.setDirty
  (repeat' split) <;> rfl

theorem Chip.room_of_pendingFull {c : Chip} (h : ¬ c.pendingFull = true) : c.trk.pendingList.length < 32 := by
  simpa [Chip.pendingFull, Config.pendingLimit] using h

theorem Chip.within_offerUnc {dv : Nat × Bool} (c : Chip) (l : Nat) (path : Origin) (hr : c.isRetired l = false)
    (hw : c.Within dv) : Chip.Within dv (c.offerUnc l path) := by
  unfold Chip.offerUnc
  split
  · split
    · rename_i v hv
      have h1 := Chip.removePending_length (List.mem_of_find?_eq_some hv) rfl
      have h2 : c.trk.pendingList.length ≤ 32 := hw.1
      have h3 : (c.removePending v.row).isRetired l = false := by
        rw [Chip.isRetired_eq, Chip.remap_removePending, ← Chip.isRetired_eq]; exact hr
      exact Chip.within_raise _ _ (Chip.within_addPending _ _ _ _ h3 (by simp [hw]) (by omega))
    · simp [hw]
  · rename_i h
    exact Chip.within_raise _ _ (Chip.within_addPending _ _ _ _ hr hw (Chip.room_of_pendingFull h))

@[simp] theorem Chip.within_countUnc {dv : Nat × Bool} (c : Chip) (l : Nat) (hw : c.Within dv) :
    Chip.Within dv (c.countUnc l) := by
  unfold Chip.countUnc; (try dsimp only); (repeat' split) <;> first | (simp (maxDischargeDepth := 20) [*]; done) | (simp_all (maxDischargeDepth := 20); done)

theorem Chip.within_reportUnc {dv : Nat × Bool} (c : Chip) (l : Nat) (path : Origin) (hr : c.isRetired l = false)
    (hw : c.Within dv) : Chip.Within dv (c.reportUnc l path) := by
  unfold Chip.reportUnc
  split
  · (repeat' split) <;> simp (maxDischargeDepth := 20) [*]
  · exact Chip.within_offerUnc _ _ _ hr (by simp [hw])

@[simp] theorem Chip.within_readableAgain {dv : Nat × Bool} (c : Chip) (l : Nat) (hw : c.Within dv) :
    Chip.Within dv (c.readableAgain l) := by
  unfold Chip.readableAgain; (try dsimp only); (repeat' split) <;> first | (simp (maxDischargeDepth := 20) [*]; done) | (simp_all (maxDischargeDepth := 20); done)

theorem Chip.within_watchCount {dv : Nat × Bool} (c : Chip) (l : Nat) (i : Nat) (e : WatchEntry) (path : Origin)
    (hn : c.pendingOf e.row = none) (hl : e.row = l) (hr : c.isRetired l = false) (hw : c.Within dv) :
    Chip.Within dv (c.watchCount l i e path) := by
  unfold Chip.watchCount
  split
  · exact Chip.within_putWatch _ _ _ hn (hl ▸ hr) hw
  · rename_i h
    exact Chip.within_addPending _ _ _ _ hr hw (Chip.room_of_pendingFull fun h2 => h (Or.inr h2))

/-- The watch entry of a row has that row. -/
theorem Chip.row_of_watchOf {c : Chip} {l : Nat} {e : WatchEntry} (h : c.watchOf l = some e) : e.row = l := by
  unfold Chip.watchOf at h
  cases hf : c.trk.watch.find? (slotHolds l) with
  | none => rw [hf] at h; cases h
  | some o =>
    rw [hf] at h
    have h1 := List.find?_some hf
    rw [show o = some e from h] at h1
    simpa [slotHolds] using h1

theorem Chip.within_reportCorrected {dv : Nat × Bool} (c : Chip) (l : Nat) (path : Origin) (hr : c.isRetired l = false)
    (hw : c.Within dv) : Chip.Within dv (c.reportCorrected l path) := by
  unfold Chip.reportCorrected
  split
  · split <;> simp [hw]
  · rename_i hn
    split
    · rename_i e i he hi
      exact Chip.within_watchCount _ _ _ _ _ (by rw [Chip.row_of_watchOf he]; exact hn) (Chip.row_of_watchOf he) hr hw
    · exact Chip.within_watchInsert _ _ hn hr hw
    · exact Chip.within_watchInsert _ _ hn hr hw

@[simp] theorem Chip.within_reportClean {dv : Nat × Bool} (c : Chip) (l : Nat) (hw : c.Within dv) :
    Chip.Within dv (c.reportClean l) := by
  unfold Chip.reportClean; (try dsimp only); (repeat' split) <;> first | (simp (maxDischargeDepth := 20) [*]; done) | (simp_all (maxDischargeDepth := 20); done)

@[simp] theorem Chip.within_reportCleanReadBack {dv : Nat × Bool} (c : Chip) (l : Nat) (hw : c.Within dv) :
    Chip.Within dv (c.reportCleanReadBack l) := by
  unfold Chip.reportCleanReadBack; (try dsimp only); (repeat' split) <;> first | (simp (maxDischargeDepth := 20) [*]; done) | (simp_all (maxDischargeDepth := 20); done)

@[simp] theorem Chip.within_report {dv : Nat × Bool} (c : Chip) (r : Report) (hw : c.Within dv) :
    Chip.Within dv (c.report r) := by
  unfold Chip.report
  split
  · rename_i h
    have hr : c.isRetired r.row = false := by
      unfold Chip.isRetired
      cases hl : c.lookup r.row <;> simp_all [Lookup.phys]
    split
    · exact Chip.within_reportUnc _ _ _ hr hw
    · exact Chip.within_reportCorrected _ _ _ hr hw
    · split <;> simp [hw]
  · exact hw

@[simp] theorem Chip.within_setStarved {dv : Nat × Bool} (c : Chip) (l : Nat) (hw : c.Within dv) :
    Chip.Within dv (c.setStarved l) := by
  unfold Chip.setStarved; (try dsimp only); (repeat' split) <;> first | (simp (maxDischargeDepth := 20) [*]; done) | (simp_all (maxDischargeDepth := 20); done)

@[simp] theorem Chip.within_setStuck {dv : Nat × Bool} (c : Chip) (l : Nat) (hw : c.Within dv) :
    Chip.Within dv (c.setStuck l) := by
  unfold Chip.setStuck; (try dsimp only); (repeat' split) <;> first | (simp (maxDischargeDepth := 20) [*]; done) | (simp_all (maxDischargeDepth := 20); done)

@[simp] theorem Chip.within_setCopy {dv : Nat × Bool} (c : Chip) (k : Copy) (valid : Bool) (seq : BitVec 32) (hw : c.Within dv) :
    Chip.Within dv (c.setCopy k valid seq) := by
  unfold Chip.setCopy; (try dsimp only); (repeat' split) <;> first | (simp (maxDischargeDepth := 20) [*]; done) | (simp_all (maxDischargeDepth := 20); done)

@[simp] theorem Chip.within_beginCommit {dv : Nat × Bool} (c : Chip) (target : Copy) (seq : BitVec 32) (ofFormat : Bool) (hw : c.Within dv) :
    Chip.Within dv (c.beginCommit target seq ofFormat) := by
  unfold Chip.beginCommit; (try dsimp only); (repeat' split) <;> first | (simp (maxDischargeDepth := 20) [*]; done) | (simp_all (maxDischargeDepth := 20); done)

@[simp] theorem Chip.within_bindCommit {dv : Nat × Bool} (c : Chip) (target : Copy) (seq : BitVec 32) (hw : c.Within dv) :
    Chip.Within dv (c.bindCommit target seq) := by
  unfold Chip.bindCommit; (try dsimp only); (repeat' split) <;> first | (simp (maxDischargeDepth := 20) [*]; done) | (simp_all (maxDischargeDepth := 20); done)

@[simp] theorem Chip.within_startCommit {dv : Nat × Bool} (c : Chip) (hw : c.Within dv) :
    Chip.Within dv (c.startCommit) := by
  unfold Chip.startCommit; (try dsimp only); (repeat' split) <;> first | (simp (maxDischargeDepth := 20) [*]; done) | (simp_all (maxDischargeDepth := 20); done)

@[simp] theorem Chip.within_trigger {dv : Nat × Bool} (c : Chip) (hw : c.Within dv) :
    Chip.Within dv (c.trigger) := by
  unfold Chip.trigger; (try dsimp only); (repeat' split) <;> first | (simp (maxDischargeDepth := 20) [*]; done) | (simp_all (maxDischargeDepth := 20); done)

@[simp] theorem Chip.within_setCommit {dv : Nat × Bool} (c : Chip) (j : CommitJob) (hw : c.Within dv) :
    Chip.Within dv (c.setCommit j) := by
  unfold Chip.setCommit; (try dsimp only); (repeat' split) <;> first | (simp (maxDischargeDepth := 20) [*]; done) | (simp_all (maxDischargeDepth := 20); done)

@[simp] theorem Chip.within_issueCommit {dv : Nat × Bool} (c : Chip) (j : CommitJob) (hw : c.Within dv) :
    Chip.Within dv (c.issueCommit j) := by
  unfold Chip.issueCommit; (try dsimp only); (repeat' split) <;> first | (simp (maxDischargeDepth := 20) [*]; done) | (simp_all (maxDischargeDepth := 20); done)

@[simp] theorem Chip.within_commitWritten {dv : Nat × Bool} (c : Chip) (hw : c.Within dv) :
    Chip.Within dv (c.commitWritten) := by
  unfold Chip.commitWritten; (try dsimp only); (repeat' split) <;> first | (simp (maxDischargeDepth := 20) [*]; done) | (simp_all (maxDischargeDepth := 20); done)

@[simp] theorem Chip.within_takeSpare {dv : Nat × Bool} (c : Chip) (t : SpareId) (hw : c.Within dv) :
    Chip.Within dv (c.takeSpare t) := by
  unfold Chip.takeSpare; (try dsimp only); (repeat' split) <;> first | (simp (maxDischargeDepth := 20) [*]; done) | (simp_all (maxDischargeDepth := 20); done)

@[simp] theorem Chip.within_reportExhausted {dv : Nat × Bool} (c : Chip) (home : Nat) (hw : c.Within dv) :
    Chip.Within dv (c.reportExhausted home) := by
  unfold Chip.reportExhausted; (try dsimp only); (repeat' split) <;> first | (simp (maxDischargeDepth := 20) [*]; done) | (simp_all (maxDischargeDepth := 20); done)

@[simp] theorem Chip.within_spoilSpare {dv : Nat × Bool} (c : Chip) (t : SpareId) (hw : c.Within dv) :
    Chip.Within dv (c.spoilSpare t) := by
  unfold Chip.spoilSpare; (try dsimp only); (repeat' split) <;> first | (simp (maxDischargeDepth := 20) [*]; done) | (simp_all (maxDischargeDepth := 20); done)

@[simp] theorem Chip.within_countBorrow {dv : Nat × Bool} (c : Chip) (l : Nat) (t : SpareId) (f : Nat → Nat) (hw : c.Within dv) :
    Chip.Within dv (c.countBorrow l t f) := by
  unfold Chip.countBorrow; (try dsimp only); (repeat' split) <;> first | (simp (maxDischargeDepth := 20) [*]; done) | (simp_all (maxDischargeDepth := 20); done)

@[simp] theorem Chip.within_putEntry {dv : Nat × Bool} (c : Chip) (l : Nat) (t : SpareId) (origin : Origin) (hw : c.Within dv) :
    Chip.Within dv (c.putEntry l (.spared t) origin) := by
  refine ⟨hw.1, hw.2.1, hw.2.2.1, hw.2.2.2.1, hw.2.2.2.2.1, hw.2.2.2.2.2.1, ?_⟩
  intro hd l' hl'
  refine hw.2.2.2.2.2.2 hd l' ?_
  rw [Chip.putEntry, retiredIn_placeEntry] at hl'
  split at hl'
  · cases hl'
  · exact hl' 

@[simp] theorem Chip.within_dropTarget {dv : Nat × Bool} (c : Chip) (l : Nat) (t : SpareId) (hw : c.Within dv) :
    Chip.Within dv (c.dropTarget l t) := by
  unfold Chip.dropTarget; (try dsimp only); (repeat' split) <;> first | (simp (maxDischargeDepth := 20) [*]; done) | (simp_all (maxDischargeDepth := 20); done)

@[simp] theorem Chip.within_countChange {dv : Nat × Bool} (c : Chip) (hw : c.Within dv) :
    Chip.Within dv (c.countChange) := by
  unfold Chip.countChange; (try dsimp only); (repeat' split) <;> first | (simp (maxDischargeDepth := 20) [*]; done) | (simp_all (maxDischargeDepth := 20); done)

@[simp] theorem Chip.within_mapUpdate {dv : Nat × Bool} (c : Chip) (l : Nat) (t : SpareId) (origin : Origin) (hw : c.Within dv) :
    Chip.Within dv (c.mapUpdate l t origin) := by
  unfold Chip.mapUpdate; (try dsimp only); (repeat' split) <;> first | (simp (maxDischargeDepth := 20) [*]; done) | (simp_all (maxDischargeDepth := 20); done)

@[simp] theorem Chip.within_relocateTo {dv : Nat × Bool} (c : Chip) (l : Nat) (t : SpareId) (origin : Origin) (hw : c.Within dv) :
    Chip.Within dv (c.relocateTo l t origin) := by
  unfold Chip.relocateTo; (try dsimp only); (repeat' split) <;> first | (simp (maxDischargeDepth := 20) [*]; done) | (simp_all (maxDischargeDepth := 20); done)

/-- What removing a row's pending entry leaves (R96). -/
theorem Chip.removePending_parts (c : Chip) (l : Nat) :
    (c.removePending l).trk.pendingList = c.trk.pendingList.filter (fun e => decide (e.row ≠ l))
    ∧ (c.removePending l).trk.watch = c.trk.watch ∧ (c.removePending l).tr = c.tr ∧ (c.removePending l).health = c.health
    ∧ (c.removePending l).pat = c.pat ∧ (c.removePending l).devices = c.devices := by
  unfold Chip.removePending
  split
  · rename_i hn
    refine ⟨(List.filter_eq_self.2 fun e he => ?_).symm, rfl, rfl, rfl, rfl, rfl⟩
    have := List.find?_eq_none.1 hn e he
    simpa using this
  · unfold Chip.setDirty
    (repeat' split) <;> exact ⟨rfl, rfl, rfl, rfl, rfl, rfl⟩

/-- With a row's entries gone from the list and the table, its RETIRED entry leaves no RETIRED row in either (R86). -/
theorem Chip.within_cleared {dv : Nat × Bool} {c d : Chip} (l : Nat) (hw : c.Within dv)
    (h0 : d.trk.pendingList = c.trk.pendingList.filter (fun e => decide (e.row ≠ l)))
    (h1 : d.trk.watch = c.trk.watch.map fun o => if slotHolds l o then none else o)
    (h2 : d.health = c.health) (h3 : d.pat = c.pat) (h4 : d.devices = c.devices)
    (h5 : ∀ r, r ≠ l → retiredIn d.tr.remap r = retiredIn c.tr.remap r) : d.Within dv := by
  have hslot : ∀ o, o ∈ d.trk.watch → o = none ∨ o ∈ c.trk.watch ∧ slotHolds l o = false := by
    intro o ho
    rw [h1] at ho
    obtain ⟨o', h6, rfl⟩ := List.mem_map.1 ho
    split
    · exact Or.inl rfl
    · rename_i h7; exact Or.inr ⟨h6, by simpa using h7⟩
  have hold : ∀ e, e ∈ d.trk.pendingList → e ∈ c.trk.pendingList ∧ e.row ≠ l := by
    intro e he; rw [h0] at he; simpa using he
  refine ⟨h0 ▸ pendOk_filter _ hw.1, h1 ▸ (watchOk_map _).2 hw.2.1, h2 ▸ hw.2.2.1, h3 ▸ hw.2.2.2.1, h4 ▸ hw.2.2.2.2.1, ?_, ?_⟩
  · intro hdv e he o ho
    rcases hslot o ho with rfl | ⟨h6, -⟩
    · rfl
    · exact hw.2.2.2.2.2.1 hdv e (hold e he).1 o h6
  · intro hdv r hret
    by_cases hrl : r = l
    · subst hrl
      refine ⟨fun e he => (hold e he).2, fun o ho => ?_⟩
      rcases hslot o ho with rfl | ⟨-, h6⟩
      · rfl
      · exact h6
    · obtain ⟨g1, g2⟩ := hw.2.2.2.2.2.2 hdv r ((h5 r hrl).symm.trans hret)
      refine ⟨fun e he => g1 e (hold e he).1, fun o ho => ?_⟩
      rcases hslot o ho with rfl | ⟨h6, -⟩
      · rfl
      · exact g2 o h6

@[simp] theorem Chip.within_retireRow {dv : Nat × Bool} (c : Chip) (l : Nat) (origin : Origin) (hw : c.Within dv) :
    Chip.Within dv (c.retireRow l origin) := by
  have hb : ∀ (d : Chip) (t : SpareId) (f : Nat → Nat), (d.countBorrow l t f).trk = d.trk ∧ (d.countBorrow l t f).health = d.health
      ∧ (d.countBorrow l t f).pat = d.pat ∧ (d.countBorrow l t f).devices = d.devices ∧ (d.countBorrow l t f).tr = d.tr := by
    intro d t f; unfold Chip.countBorrow; split <;> exact ⟨rfl, rfl, rfl, rfl, rfl⟩
  have hs : ∀ d : Chip, d.setDirty.trk = d.trk ∧ d.setDirty.health = d.health ∧ d.setDirty.pat = d.pat
      ∧ d.setDirty.devices = d.devices ∧ d.setDirty.tr = d.tr := by
    intro d; unfold Chip.setDirty; split <;> exact ⟨rfl, rfl, rfl, rfl, rfl⟩
  have key : ∀ X : Chip, X.trk = c.trk → X.health = c.health → X.pat = c.pat → X.devices = c.devices → X.tr = c.tr →
      Chip.Within dv (((((X.putEntry l .retired origin).modifyZone (homeZone l) fun z => { z with retiredRows := z.retiredRows + 1 }).countChange).removeWatch
        l).setDirty.removePending l) := by
    intro X e1 e2 e3 e4 e5
    let Y : Chip := (((X.putEntry l .retired origin).modifyZone (homeZone l) fun z => { z with retiredRows := z.retiredRows + 1 }).countChange).removeWatch l
    obtain ⟨s1, s2, s3, s4, s5⟩ := hs Y
    obtain ⟨p1, p2, p3, p4, p5, p6⟩ := Chip.removePending_parts Y.setDirty l
    refine Chip.within_cleared l hw ?_ ?_ ?_ ?_ ?_ ?_
    · rw [p1, s1, ← e1]; rfl
    · rw [p2, s1, ← e1]; rfl
    · rw [p4, s2]; exact e2
    · rw [p5, s3]; exact e3
    · rw [p6, s4]; exact e4
    · intro r hr
      rw [p3, s5]
      show retiredIn (placeEntry _ X.tr.remap) r = _
      rw [retiredIn_placeEntry, if_neg (fun h => hr h.symm), e5]
  have fin : ∀ X : Chip, X.Within dv → Chip.Within dv (if c.tr.changes + 1 = Config.changeLimit then X.trigger else X) := by
    intro X hX
    split
    · exact Chip.within_trigger _ hX
    · exact hX
  unfold Chip.retireRow
  refine fin _ (Chip.within_regradeDevice _ (Chip.within_markPatrolClaim _ _ ?_))
  cases c.lookup l with
  | spared t => exact key _ (hb _ _ _).1 (hb _ _ _).2.1 (hb _ _ _).2.2.1 (hb _ _ _).2.2.2.1 (hb _ _ _).2.2.2.2
  | home p => exact key c rfl rfl rfl rfl rfl
  | retired => exact key c rfl rfl rfl rfl rfl

@[simp] theorem Chip.within_retireOrStick {dv : Nat × Bool} (c : Chip) (l : Nat) (origin : Origin) (hw : c.Within dv) :
    Chip.Within dv (c.retireOrStick l origin).1 := by
  unfold Chip.retireOrStick; (try dsimp only); (repeat' split) <;> first | (simp (maxDischargeDepth := 20) [*]; done) | (simp_all (maxDischargeDepth := 20); done)

@[simp] theorem Chip.within_emptyTables {dv : Nat × Bool} (c : Chip) (hw : c.Within dv) :
    Chip.Within dv (c.emptyTables) := by
  unfold Chip.emptyTables
  exact Chip.within_regradeDevice _ (Chip.within_raise _ _
    ⟨Nat.zero_le _, List.length_replicate, Nat.zero_le _, Chip.within_first hw, hw.2.2.2.2.1, (fun _ e he => nomatch he),
      fun _ l hl => nomatch hl⟩)

@[simp] theorem Chip.within_setFormat {dv : Nat × Bool} (c : Chip) (f : Option FormatJob) (hw : c.Within dv) :
    Chip.Within dv (c.setFormat f) := by
  unfold Chip.setFormat; (try dsimp only); (repeat' split) <;> first | (simp (maxDischargeDepth := 20) [*]; done) | (simp_all (maxDischargeDepth := 20); done)

@[simp] theorem Chip.within_invalidate {dv : Nat × Bool} (c : Chip) (k : Copy) (hw : c.Within dv) :
    Chip.Within dv (c.invalidate k) := by
  unfold Chip.invalidate; (try dsimp only); (repeat' split) <;> first | (simp (maxDischargeDepth := 20) [*]; done) | (simp_all (maxDischargeDepth := 20); done)

@[simp] theorem Chip.within_startInvalidation {dv : Nat × Bool} (c : Chip) (hw : c.Within dv) :
    Chip.Within dv (c.startInvalidation) := by
  unfold Chip.startInvalidation; (try dsimp only); (repeat' split) <;> first | (simp (maxDischargeDepth := 20) [*]; done) | (simp_all (maxDischargeDepth := 20); done)

@[simp] theorem Chip.within_initialiseRow {dv : Nat × Bool} (c : Chip) (k : Nat) (hw : c.Within dv) :
    Chip.Within dv (c.initialiseRow k) := by
  unfold Chip.initialiseRow; (try dsimp only); (repeat' split) <;> first | (simp (maxDischargeDepth := 20) [*]; done) | (simp_all (maxDischargeDepth := 20); done)

@[simp] theorem Chip.within_formatCommit {dv : Nat × Bool} (c : Chip) (k : Copy) (hw : c.Within dv) :
    Chip.Within dv (c.formatCommit k) := by
  unfold Chip.formatCommit; (try dsimp only); (repeat' split) <;> first | (simp (maxDischargeDepth := 20) [*]; done) | (simp_all (maxDischargeDepth := 20); done)

@[simp] theorem Chip.within_endFormat {dv : Nat × Bool} (c : Chip) (st : OperatingState) (code : ResultCode) (copies : Nat) (hw : c.Within dv) :
    Chip.Within dv (c.endFormat st code copies) := by
  unfold Chip.endFormat; (try dsimp only); (repeat' split) <;> first | (simp (maxDischargeDepth := 20) [*]; done) | (simp_all (maxDischargeDepth := 20); done)

@[simp] theorem Chip.within_detachCommit {dv : Nat × Bool} (c : Chip) (hw : c.Within dv) :
    Chip.Within dv (c.detachCommit) := by
  unfold Chip.detachCommit; (try dsimp only); (repeat' split) <;> first | (simp (maxDischargeDepth := 20) [*]; done) | (simp_all (maxDischargeDepth := 20); done)

@[simp] theorem Chip.within_endFormatEarly {dv : Nat × Bool} (c : Chip) (code : ResultCode) (hw : c.Within dv) :
    Chip.Within dv (c.endFormatEarly code) := by
  unfold Chip.endFormatEarly; (try dsimp only); (repeat' split) <;> first | (simp (maxDischargeDepth := 20) [*]; done) | (simp_all (maxDischargeDepth := 20); done)

@[simp] theorem Chip.within_invalidated {dv : Nat × Bool} (c : Chip) (hw : c.Within dv) :
    Chip.Within dv (c.invalidated) := by
  unfold Chip.invalidated; (try dsimp only); (repeat' split) <;> first | (simp (maxDischargeDepth := 20) [*]; done) | (simp_all (maxDischargeDepth := 20); done)

@[simp] theorem Chip.within_rowInitialised {dv : Nat × Bool} (c : Chip) (hw : c.Within dv) :
    Chip.Within dv (c.rowInitialised) := by
  unfold Chip.rowInitialised; (try dsimp only); (repeat' split) <;> first | (simp (maxDischargeDepth := 20) [*]; done) | (simp_all (maxDischargeDepth := 20); done)

@[simp] theorem Chip.within_startFormat {dv : Nat × Bool} (c : Chip) (hw : c.Within dv) :
    Chip.Within dv (c.startFormat) := by
  unfold Chip.startFormat; (try dsimp only); (repeat' split) <;> first | (simp (maxDischargeDepth := 20) [*]; done) | (simp_all (maxDischargeDepth := 20); done)

@[simp] theorem Chip.within_closeCommit {dv : Nat × Bool} (c : Chip) (hw : c.Within dv) :
    Chip.Within dv (c.closeCommit) := by
  unfold Chip.closeCommit; (try dsimp only); (repeat' split) <;> first | (simp (maxDischargeDepth := 20) [*]; done) | (simp_all (maxDischargeDepth := 20); done)

@[simp] theorem Chip.within_settleState {dv : Nat × Bool} (c : Chip) (hw : c.Within dv) :
    Chip.Within dv (c.settleState) := by
  unfold Chip.settleState; (try dsimp only); (repeat' split) <;> first | (simp (maxDischargeDepth := 20) [*]; done) | (simp_all (maxDischargeDepth := 20); done)

@[simp] theorem Chip.within_endCommitCommand {dv : Nat × Bool} (c : Chip) (why : Option CommitFailure) (hw : c.Within dv) :
    Chip.Within dv (c.endCommitCommand why) := by
  unfold Chip.endCommitCommand; (try dsimp only); (repeat' split) <;> first | (simp (maxDischargeDepth := 20) [*]; done) | (simp_all (maxDischargeDepth := 20); done)

@[simp] theorem Chip.within_takeCommitRequest {dv : Nat × Bool} (c : Chip) (hw : c.Within dv) :
    Chip.Within dv (c.takeCommitRequest) := by
  unfold Chip.takeCommitRequest; (try dsimp only); (repeat' split) <;> first | (simp (maxDischargeDepth := 20) [*]; done) | (simp_all (maxDischargeDepth := 20); done)

@[simp] theorem Chip.within_judgeCommit {dv : Nat × Bool} (c : Chip) (j : CommitJob) (why : Option CommitFailure) (hw : c.Within dv) :
    Chip.Within dv (c.judgeCommit j why) := by
  unfold Chip.judgeCommit; (try dsimp only); (repeat' split) <;> first | (simp (maxDischargeDepth := 20) [*]; done) | (simp_all (maxDischargeDepth := 20); done)

@[simp] theorem Chip.within_formatCommitEnds {dv : Nat × Bool} (c : Chip) (j : CommitJob) (why : Option CommitFailure) (hw : c.Within dv) :
    Chip.Within dv (c.formatCommitEnds j why) := by
  unfold Chip.formatCommitEnds; (try dsimp only); (repeat' split) <;> first | (simp (maxDischargeDepth := 20) [*]; done) | (simp_all (maxDischargeDepth := 20); done)

@[simp] theorem Chip.within_commitEnds {dv : Nat × Bool} (c : Chip) (why : Option CommitFailure) (hw : c.Within dv) :
    Chip.Within dv (c.commitEnds why) := by
  unfold Chip.commitEnds; (try dsimp only); (repeat' split) <;> first | (simp (maxDischargeDepth := 20) [*]; done) | (simp_all (maxDischargeDepth := 20); done)

@[simp] theorem Chip.within_commitReadBack {dv : Nat × Bool} (c : Chip) (d : Delivered) (hw : c.Within dv) :
    Chip.Within dv (c.commitReadBack d) := by
  unfold Chip.commitReadBack; (try dsimp only); (repeat' split) <;> first | (simp (maxDischargeDepth := 20) [*]; done) | (simp_all (maxDischargeDepth := 20); done)

@[simp] theorem Chip.within_setPat {dv : Nat × Bool} (c : Chip) (p : PatrolEngine) (hw : c.Within dv) :
    Chip.Within dv (c.setPat p) ↔ CursorOk dv p.cursor := by
  simp [Chip.setPat, hw]

@[simp] theorem Chip.within_clearPatrolClaim {dv : Nat × Bool} (c : Chip) (hw : c.Within dv) :
    Chip.Within dv (c.clearPatrolClaim) := by
  unfold Chip.clearPatrolClaim; (try dsimp only); (repeat' split) <;> first | (simp (maxDischargeDepth := 20) [*]; done) | (simp_all (maxDischargeDepth := 20); done)

@[simp] theorem Chip.within_stopPatrol {dv : Nat × Bool} (c : Chip) (why : StopReason) (hw : c.Within dv) :
    Chip.Within dv (c.stopPatrol why) := by
  unfold Chip.stopPatrol; (try dsimp only); (repeat' split) <;> first | (simp (maxDischargeDepth := 20) [*]; done) | (simp_all (maxDischargeDepth := 20); done)

@[simp] theorem Chip.within_endPass {dv : Nat × Bool} (c : Chip) (hw : c.Within dv) :
    Chip.Within dv (c.endPass) := by
  have h0 := Chip.within_first hw
  unfold Chip.endPass; dsimp only
  have h1 : ∀ p : PatrolEngine, p.cursor = 0 → ∀ n,
      (((c.setPat p).ageWatch).raise n).Within dv ∧ CursorOk dv (((c.setPat p).ageWatch).raise n).pat.cursor := by
    intro p hp n
    have h2 : (((c.setPat p).ageWatch).raise n).Within dv :=
      Chip.within_raise _ _ (Chip.within_ageWatch _ ((Chip.within_setPat c p hw).2 (hp ▸ h0)))
    exact ⟨h2, h2.2.2.2.1⟩
  split
  · exact Chip.within_stopPatrol _ _ ((Chip.within_setPat _ _ (h1 _ rfl _).1).2 (h1 _ rfl _).2)
  · exact (Chip.within_setPat _ _ (h1 _ rfl _).1).2 (h1 _ rfl _).2
  · exact (Chip.within_setPat _ _ (h1 _ rfl _).1).2 (h1 _ rfl _).2

@[simp] theorem Chip.within_advanceCursor {dv : Nat × Bool} (c : Chip) (hw : c.Within dv) :
    Chip.Within dv (c.advanceCursor) := by
  unfold Chip.advanceCursor
  split
  · rename_i h
    refine (Chip.within_setPat _ _ hw).2 ?_
    have h5 : c.devices = dv.1 := hw.2.2.2.2.1
    have h6 : c.pat.cursor + 1 < 8064 * c.devices := h
    rw [h5] at h6
    exact h6
  · exact Chip.within_endPass _ hw

@[simp] theorem Chip.within_beginVisit {dv : Nat × Bool} (c : Chip) (p : PhysRow) (hw : c.Within dv) :
    Chip.Within dv (c.beginVisit p) := by
  unfold Chip.beginVisit; (try dsimp only); (repeat' split) <;> first | (simp (maxDischargeDepth := 20) [*]; done) | (simp_all (maxDischargeDepth := 20); done)

@[simp] theorem Chip.within_skipRow {dv : Nat × Bool} (c : Chip) (hw : c.Within dv) :
    Chip.Within dv (c.skipRow) := by
  unfold Chip.skipRow; (try dsimp only); (repeat' split) <;> first | (simp (maxDischargeDepth := 20) [*]; done) | (simp_all (maxDischargeDepth := 20); done)

@[simp] theorem Chip.within_handleCursor {dv : Nat × Bool} (n : Nat) (c : Chip) (hw : c.Within dv) :
    Chip.Within dv (Chip.handleCursor n c) := by
  induction n generalizing c with
  | zero => first | exact hw | simpa [Chip.handleCursor] using hw
  | succ n ih => simp only [Chip.handleCursor]; (repeat' split) <;> simp (maxDischargeDepth := 20) [*]

@[simp] theorem Chip.within_patrolOn {dv : Nat × Bool} (c : Chip) (hw : c.Within dv) :
    Chip.Within dv (c.patrolOn) := by
  unfold Chip.patrolOn; (try dsimp only); (repeat' split) <;> first | (simp (maxDischargeDepth := 20) [*]; done) | (simp_all (maxDischargeDepth := 20); done)

@[simp] theorem Chip.within_endPatrolHalt {dv : Nat × Bool} (c : Chip) (hw : c.Within dv) :
    Chip.Within dv (c.endPatrolHalt) := by
  unfold Chip.endPatrolHalt; (try dsimp only); (repeat' split) <;> first | (simp (maxDischargeDepth := 20) [*]; done) | (simp_all (maxDischargeDepth := 20); done)

@[simp] theorem Chip.within_endPatrolRestart {dv : Nat × Bool} (c : Chip) (hw : c.Within dv) :
    Chip.Within dv (c.endPatrolRestart) := by
  unfold Chip.endPatrolRestart; (try dsimp only); (repeat' split) <;> first | (simp (maxDischargeDepth := 20) [*]; done) | (simp_all (maxDischargeDepth := 20); done)

@[simp] theorem Chip.within_restartPass {dv : Nat × Bool} (c : Chip) (hw : c.Within dv) :
    Chip.Within dv (c.restartPass) := (Chip.within_setPat _ _ hw).2 (Chip.within_first hw)

@[simp] theorem Chip.within_endVisit {dv : Nat × Bool} (c : Chip) (o : ReadOutcome) (hw : c.Within dv) :
    Chip.Within dv (c.endVisit o) := by
  unfold Chip.endVisit; (try dsimp only); (repeat' split) <;> first | (simp (maxDischargeDepth := 20) [*]; done) | (simp_all (maxDischargeDepth := 20); done)

@[simp] theorem Chip.within_visitRead {dv : Nat × Bool} (c : Chip) (p : PhysRow) (d : Delivered) (hw : c.Within dv) :
    Chip.Within dv (c.visitRead p d) := by
  unfold Chip.visitRead; (try dsimp only); (repeat' split) <;> first | (simp (maxDischargeDepth := 20) [*]; done) | (simp_all (maxDischargeDepth := 20); done)

@[simp] theorem Chip.within_patrolTimeout {dv : Nat × Bool} (c : Chip) (hw : c.Within dv) :
    Chip.Within dv (c.patrolTimeout) := by
  unfold Chip.patrolTimeout; (try dsimp only); (repeat' split) <;> first | (simp (maxDischargeDepth := 20) [*]; done) | (simp_all (maxDischargeDepth := 20); done)

@[simp] theorem Chip.within_paceRunsOut {dv : Nat × Bool} (c : Chip) (hw : c.Within dv) :
    Chip.Within dv (c.paceRunsOut) := by
  unfold Chip.paceRunsOut; (try dsimp only); (repeat' split) <;> first | (simp (maxDischargeDepth := 20) [*]; done) | (simp_all (maxDischargeDepth := 20); done)

@[simp] theorem Chip.within_abandonVisit {dv : Nat × Bool} (c : Chip) (hw : c.Within dv) :
    Chip.Within dv (c.abandonVisit) := by
  unfold Chip.abandonVisit; (try dsimp only); (repeat' split) <;> first | (simp (maxDischargeDepth := 20) [*]; done) | (simp_all (maxDischargeDepth := 20); done)

@[simp] theorem Chip.within_paceNow {dv : Nat × Bool} (c : Chip) (hw : c.Within dv) :
    Chip.Within dv (c.paceNow) := by
  unfold Chip.paceNow; (try dsimp only); (repeat' split) <;> first | (simp (maxDischargeDepth := 20) [*]; done) | (simp_all (maxDischargeDepth := 20); done)

@[simp] theorem Chip.within_softResetPatrol {dv : Nat × Bool} (c : Chip) (hw : c.Within dv) :
    Chip.Within dv (c.softResetPatrol) := by
  unfold Chip.softResetPatrol; (try dsimp only); (repeat' split) <;> first | (simp (maxDischargeDepth := 20) [*]; done) | (simp_all (maxDischargeDepth := 20); done)

@[simp] theorem Chip.within_startPatrol {dv : Nat × Bool} (c : Chip) (mode : PatrolMode) (pace : Nat) (restart : Bool) (hw : c.Within dv) :
    Chip.Within dv (c.startPatrol mode pace restart) := by
  unfold Chip.startPatrol; (try dsimp only); (repeat' split) <;> first | (simp (maxDischargeDepth := 20) [*]; done) | (simp_all (maxDischargeDepth := 20); done)

@[simp] theorem Chip.within_haltPatrol {dv : Nat × Bool} (c : Chip) (hw : c.Within dv) :
    Chip.Within dv (c.haltPatrol) := by
  unfold Chip.haltPatrol; (try dsimp only); (repeat' split) <;> first | (simp (maxDischargeDepth := 20) [*]; done) | (simp_all (maxDischargeDepth := 20); done)

theorem Chip.within_handOver {dv : Nat × Bool} (c : Chip) (l : Loaded) (st : OperatingState) (hw : c.Within dv)
    (hl : l.pendingList.length ≤ 32) (hp : ∀ e ∈ l.pendingList, retiredIn l.remap e.row = false) :
    Chip.Within dv (c.handOver l st) := by
  have h0 := Chip.within_first hw
  have h5 : c.devices = dv.1 := hw.2.2.2.2.1
  refine Chip.within_patrolOn _ (Chip.within_setOpState _ _ ⟨hl, List.length_replicate, hw.2.2.1, ?_, h5, ?_, ?_⟩)
  rotate_left
  · intro _ e _ o ho
    rw [(List.mem_replicate.1 ho).2]; rfl
  · intro _ r hr
    refine ⟨fun e he h => ?_, fun o ho => by rw [(List.mem_replicate.1 ho).2]; rfl⟩
    have h6 := hp e he
    rw [h, show retiredIn l.remap r = true from hr] at h6; cases h6
  show (if l.cursor < c.logicalRows then l.cursor else 0) < 8064 * dv.1
  split
  · rename_i h
    have h6 : l.cursor < 8064 * c.devices := h
    rw [h5] at h6
    exact h6
  · exact h0

/-- All elements of a list of options are as many as the list. -/
theorem allSome_length {α : Type} {l : List (Option α)} {r : List α} (h : allSome l = some r) : r.length = l.length := by
  induction l generalizing r with
  | nil => cases h; rfl
  | cons x l ih =>
    cases x with
    | none => cases h
    | some x =>
      simp only [allSome, Option.map_eq_some_iff] at h
      obtain ⟨r', h1, rfl⟩ := h
      simp [ih h1]

/-- A copy held valid holds at most 32 pending entries (R182). -/
theorem judgeCopy_pending {ok : Bool} {rows : List (List Word)} {l : Loaded} (h : judgeCopy ok rows = some l) :
    l.pendingList.length ≤ 32 := by
  unfold judgeCopy at h
  split at h
  · split at h
    · rename_i l' hl
      split at h
      · cases h
        unfold readContent at hl
        dsimp only at hl
        split at hl
        · rename_i h2
          cases hl
          have h3 := allSome_length h2
          simp only [List.length_map, List.length_range, Config.pendingLimit] at h3
          exact Nat.le_trans (Nat.le_of_eq h3) (Nat.min_le_left _ _)
        · cases hl
        · cases hl
      · cases h
    · cases h
  · cases h

/-- A copy held valid holds no RETIRED row among its pending entries (R182). -/
theorem judgeCopy_retired {ok : Bool} {rows : List (List Word)} {l : Loaded} (h : judgeCopy ok rows = some l) :
    ∀ e ∈ l.pendingList, retiredIn l.remap e.row = false := by
  have hl : l.lawful = true := by
    unfold judgeCopy at h
    split at h
    · split at h
      · split at h
        · cases h; assumption
        · cases h
      · cases h
    · cases h
  simp only [Loaded.lawful, Bool.and_eq_true, List.all_eq_true, decide_eq_true_eq] at hl
  obtain ⟨⟨⟨⟨⟨-, k7⟩, -⟩, -⟩, -⟩, -⟩ := hl
  intro e he
  have h1 := (k7 e he).1.1.2
  unfold retiredIn
  cases hf : l.remap.find? fun x => decide (x.row = e.row) with
  | none => rfl
  | some x =>
    have h2 : x.row = e.row := by simpa using List.find?_some hf
    simp only [Bool.not_eq_true', List.any_eq_false, Bool.and_eq_true, decide_eq_true_eq, not_and] at h1
    simpa using h1 x (List.mem_of_find?_eq_some hf) h2

@[simp] theorem Chip.within_endLoad {dv : Nat × Bool} (c : Chip) (hw : c.Within dv) :
    Chip.Within dv (c.endLoad) := by
  unfold Chip.endLoad; dsimp only
  split
  · simp (maxDischargeDepth := 20) [*]
  · rename_i l hl
    split
    · have h3 : judgeCopy c.dir.loadOkA c.dir.loadBuffer = some l ∨ judgeCopy c.dir.loadOkB c.dir.image = some l := by
        (repeat' split at hl) <;> first
          | cases hl; done
          | exact Or.inl hl
          | exact Or.inr hl
      exact Chip.within_handOver _ _ _ (by simp (maxDischargeDepth := 20) [*]) (h3.elim judgeCopy_pending judgeCopy_pending)
        (h3.elim judgeCopy_retired judgeCopy_retired)
    · simp (maxDischargeDepth := 20) [*]

@[simp] theorem Chip.within_startLoading {dv : Nat × Bool} (c : Chip) (hw : c.Within dv) :
    Chip.Within dv (c.startLoading) := by
  unfold Chip.startLoading; (try dsimp only); (repeat' split) <;> first | (simp (maxDischargeDepth := 20) [*]; done) | (simp_all (maxDischargeDepth := 20); done)

@[simp] theorem Chip.within_loadStep {dv : Nat × Bool} (c : Chip) (d : Option Delivered) (hw : c.Within dv) :
    Chip.Within dv (c.loadStep d) := by
  unfold Chip.loadStep; (try dsimp only); (repeat' split) <;> first | (simp (maxDischargeDepth := 20) [*]; done) | (simp_all (maxDischargeDepth := 20); done)

@[simp] theorem Chip.within_loadRead {dv : Nat × Bool} (c : Chip) (d : Option Delivered) (hw : c.Within dv) :
    Chip.Within dv (c.loadRead d) := by
  unfold Chip.loadRead; (try dsimp only); (repeat' split) <;> first | (simp (maxDischargeDepth := 20) [*]; done) | (simp_all (maxDischargeDepth := 20); done)

@[simp] theorem Chip.within_freeJobSpare {dv : Nat × Bool} (c : Chip) (j : Job) (hw : c.Within dv) :
    Chip.Within dv (c.freeJobSpare j) := by
  unfold Chip.freeJobSpare; (try dsimp only); (repeat' split) <;> first | (simp (maxDischargeDepth := 20) [*]; done) | (simp_all (maxDischargeDepth := 20); done)

@[simp] theorem Chip.within_idleRepair {dv : Nat × Bool} (c : Chip) (hw : c.Within dv) :
    Chip.Within dv (c.idleRepair) := by
  unfold Chip.idleRepair; (try dsimp only); (repeat' split) <;> first | (simp (maxDischargeDepth := 20) [*]; done) | (simp_all (maxDischargeDepth := 20); done)

@[simp] theorem Chip.within_endJob {dv : Nat × Bool} (c : Chip) (j : Job) (code : ResultCode) (hw : c.Within dv) :
    Chip.Within dv (c.endJob j code) := by
  unfold Chip.endJob; (try dsimp only); (repeat' split) <;> first | (simp (maxDischargeDepth := 20) [*]; done) | (simp_all (maxDischargeDepth := 20); done)

@[simp] theorem Chip.within_abandonJob {dv : Nat × Bool} (c : Chip) (j : Job) (code : ResultCode) (hw : c.Within dv) :
    Chip.Within dv (c.abandonJob j code) := by
  unfold Chip.abandonJob; (try dsimp only); (repeat' split) <;> first | (simp (maxDischargeDepth := 20) [*]; done) | (simp_all (maxDischargeDepth := 20); done)

@[simp] theorem Chip.within_putJob {dv : Nat × Bool} (c : Chip) (st : RepairState) (j : Job) (hw : c.Within dv) :
    Chip.Within dv (c.putJob st j) := by
  unfold Chip.putJob; (try dsimp only); (repeat' split) <;> first | (simp (maxDischargeDepth := 20) [*]; done) | (simp_all (maxDischargeDepth := 20); done)

@[simp] theorem Chip.within_issueJob {dv : Nat × Bool} (c : Chip) (st : RepairState) (j : Job) (p : Purpose) (phys : PhysRow) (data : Option (List Word)) (hw : c.Within dv) :
    Chip.Within dv (c.issueJob st j p phys data) := by
  unfold Chip.issueJob; (try dsimp only); (repeat' split) <;> first | (simp (maxDischargeDepth := 20) [*]; done) | (simp_all (maxDischargeDepth := 20); done)

@[simp] theorem Chip.within_copyJob {dv : Nat × Bool} (c : Chip) (j : Job) (t : SpareId) (hw : c.Within dv) :
    Chip.Within dv (c.copyJob j t) := by
  unfold Chip.copyJob; (try dsimp only); (repeat' split) <;> first | (simp (maxDischargeDepth := 20) [*]; done) | (simp_all (maxDischargeDepth := 20); done)

@[simp] theorem Chip.within_withData {dv : Nat × Bool} (c : Chip) (j : Job) (hw : c.Within dv) :
    Chip.Within dv (c.withData j).1 := by
  unfold Chip.withData; (try dsimp only); (repeat' split) <;> first | (simp (maxDischargeDepth := 20) [*]; done) | (simp_all (maxDischargeDepth := 20); done)

@[simp] theorem Chip.within_enterSource {dv : Nat × Bool} (c : Chip) (j : Job) (hw : c.Within dv) :
    Chip.Within dv (c.enterSource j).1 := by
  unfold Chip.enterSource; (try dsimp only); (repeat' split) <;> first | (simp (maxDischargeDepth := 20) [*]; done) | (simp_all (maxDischargeDepth := 20); done)

@[simp] theorem Chip.within_enterAllocate {dv : Nat × Bool} (c : Chip) (j : Job) (hw : c.Within dv) :
    Chip.Within dv (c.enterAllocate j).1 := by
  unfold Chip.enterAllocate; (try dsimp only); (repeat' split) <;> first | (simp (maxDischargeDepth := 20) [*]; done) | (simp_all (maxDischargeDepth := 20); done)

@[simp] theorem Chip.within_jobUnserved {dv : Nat × Bool} (c : Chip) (j : Job) (hw : c.Within dv) :
    Chip.Within dv (c.jobUnserved j).1 := by
  unfold Chip.jobUnserved; (try dsimp only); (repeat' split) <;> first | (simp (maxDischargeDepth := 20) [*]; done) | (simp_all (maxDischargeDepth := 20); done)

@[simp] theorem Chip.within_serveJob {dv : Nat × Bool} (c : Chip) (j : Job) (hw : c.Within dv) :
    Chip.Within dv (c.serveJob j).1 := by
  unfold Chip.serveJob; (try dsimp only); (repeat' split) <;> first | (simp (maxDischargeDepth := 20) [*]; done) | (simp_all (maxDischargeDepth := 20); done)

@[simp] theorem Chip.within_setRepairClaim {dv : Nat × Bool} (c : Chip) (l : Nat) (hw : c.Within dv) :
    Chip.Within dv (c.setRepairClaim l) := by
  unfold Chip.setRepairClaim; (try dsimp only); (repeat' split) <;> first | (simp (maxDischargeDepth := 20) [*]; done) | (simp_all (maxDischargeDepth := 20); done)

@[simp] theorem Chip.within_enterNoSpare {dv : Nat × Bool} (c : Chip) (j : Job) (hw : c.Within dv) :
    Chip.Within dv (c.enterNoSpare j).1 := by
  unfold Chip.enterNoSpare; (try dsimp only); (repeat' split) <;> first | (simp (maxDischargeDepth := 20) [*]; done) | (simp_all (maxDischargeDepth := 20); done)

@[simp] theorem Chip.within_overtakeJob {dv : Nat × Bool} (c : Chip) (j : Job) (hw : c.Within dv) :
    Chip.Within dv (c.overtakeJob j).1 := by
  unfold Chip.overtakeJob; (try dsimp only); (repeat' split) <;> first | (simp (maxDischargeDepth := 20) [*]; done) | (simp_all (maxDischargeDepth := 20); done)

@[simp] theorem Chip.within_repairMove {dv : Nat × Bool} (c : Chip) (m : RepairMove) (j : Job) (hw : c.Within dv) :
    Chip.Within dv (c.repairMove m j).1 := by
  unfold Chip.repairMove; (try dsimp only); (repeat' split) <;> first | (simp (maxDischargeDepth := 20) [*]; done) | (simp_all (maxDischargeDepth := 20); done)

theorem Chip.within_repairRun {dv : Nat × Bool} (n : Nat) (x : Chip × Option (RepairMove × Job)) (hw : x.1.Within dv) :
    Chip.Within dv (Chip.repairRun n x) := by
  induction n generalizing x with
  | zero => obtain ⟨c, _ | m⟩ := x <;> exact hw
  | succ n ih =>
    obtain ⟨c, _ | ⟨m, j⟩⟩ := x
    · exact hw
    · exact ih _ (Chip.within_repairMove _ _ _ hw)

@[simp] theorem Chip.within_repairGo {dv : Nat × Bool} (c : Chip) (m : RepairMove) (j : Job) (hw : c.Within dv) :
    Chip.Within dv (c.repairGo m j) := by
  exact Chip.within_repairRun _ _ hw

@[simp] theorem Chip.within_failSpare {dv : Nat × Bool} (c : Chip) (j : Job) (t : SpareId) (hw : c.Within dv) :
    Chip.Within dv (c.failSpare j t) := by
  unfold Chip.failSpare; (try dsimp only); (repeat' split) <;> first | (simp (maxDischargeDepth := 20) [*]; done) | (simp_all (maxDischargeDepth := 20); done)

@[simp] theorem Chip.within_sourceRead {dv : Nat × Bool} (c : Chip) (j : Job) (p : PhysRow) (d : Delivered) (hw : c.Within dv) :
    Chip.Within dv (c.sourceRead j p d) := by
  unfold Chip.sourceRead; dsimp only
  split
  · simp (maxDischargeDepth := 20) [*]
  · exact Chip.within_repairRun _ _ (by simp (maxDischargeDepth := 20) [*])
  · exact Chip.within_repairRun _ _ (by simp (maxDischargeDepth := 20) [*])

@[simp] theorem Chip.within_qualified {dv : Nat × Bool} (c : Chip) (j : Job) (t : SpareId) (k : Nat) (d : Delivered) (hw : c.Within dv) :
    Chip.Within dv (c.qualified j t k d) := by
  unfold Chip.qualified; (try dsimp only); (repeat' split) <;> first | (simp (maxDischargeDepth := 20) [*]; done) | (simp_all (maxDischargeDepth := 20); done)

@[simp] theorem Chip.within_copied {dv : Nat × Bool} (c : Chip) (j : Job) (t : SpareId) (hw : c.Within dv) :
    Chip.Within dv (c.copied j t) := by
  unfold Chip.copied; (try dsimp only); (repeat' split) <;> first | (simp (maxDischargeDepth := 20) [*]; done) | (simp_all (maxDischargeDepth := 20); done)

@[simp] theorem Chip.within_verified {dv : Nat × Bool} (c : Chip) (j : Job) (t : SpareId) (d : Delivered) (hw : c.Within dv) :
    Chip.Within dv (c.verified j t d) := by
  unfold Chip.verified; (try dsimp only); (repeat' split) <;> first | (simp (maxDischargeDepth := 20) [*]; done) | (simp_all (maxDischargeDepth := 20); done)

@[simp] theorem Chip.within_zeroWritten {dv : Nat × Bool} (c : Chip) (p : PhysRow) (hw : c.Within dv) :
    Chip.Within dv (c.zeroWritten p) := by
  unfold Chip.zeroWritten; (try dsimp only); (repeat' split) <;> first | (simp (maxDischargeDepth := 20) [*]; done) | (simp_all (maxDischargeDepth := 20); done)

@[simp] theorem Chip.within_zeroReadBack {dv : Nat × Bool} (c : Chip) (j : Job) (p : PhysRow) (d : Delivered) (hw : c.Within dv) :
    Chip.Within dv (c.zeroReadBack j p d) := by
  unfold Chip.zeroReadBack; dsimp only
  have hr : ∀ r l o, ((c.report r).retireOrStick l o).1.Within dv := fun r l o =>
    Chip.within_retireOrStick _ _ _ (Chip.within_report _ _ hw)
  (repeat' split) <;> first | (simp (maxDischargeDepth := 20) [*]; done) |
    (rename_i heq; have h2 := heq ▸ hr _ _ _; simp (maxDischargeDepth := 20) [h2])

@[simp] theorem Chip.within_zeroDropped {dv : Nat × Bool} (c : Chip) (hw : c.Within dv) :
    Chip.Within dv (c.zeroDropped) := by
  unfold Chip.zeroDropped; (try dsimp only); (repeat' split) <;> first | (simp (maxDischargeDepth := 20) [*]; done) | (simp_all (maxDischargeDepth := 20); done)

@[simp] theorem Chip.within_repairTimeout {dv : Nat × Bool} (c : Chip) (hw : c.Within dv) :
    Chip.Within dv (c.repairTimeout) := by
  unfold Chip.repairTimeout; (try dsimp only); (repeat' split) <;> first | (simp (maxDischargeDepth := 20) [*]; done) | (simp_all (maxDischargeDepth := 20); done)

@[simp] theorem Chip.within_startJob {dv : Nat × Bool} (c : Chip) (j : Job) (hw : c.Within dv) :
    Chip.Within dv (c.startJob j) := by
  unfold Chip.startJob; (try dsimp only); (repeat' split) <;> first | (simp (maxDischargeDepth := 20) [*]; done) | (simp_all (maxDischargeDepth := 20); done)

@[simp] theorem Chip.within_dropWaiting {dv : Nat × Bool} (c : Chip) (hw : c.Within dv) :
    Chip.Within dv (c.dropWaiting) := by
  unfold Chip.dropWaiting; (try dsimp only); (repeat' split) <;> first | (simp (maxDischargeDepth := 20) [*]; done) | (simp_all (maxDischargeDepth := 20); done)

@[simp] theorem Chip.within_startCommandJob {dv : Nat × Bool} (c : Chip) (l : Nat) (discard : Bool) (hw : c.Within dv) :
    Chip.Within dv (c.startCommandJob l discard) := by
  unfold Chip.startCommandJob
  split
  · simp (maxDischargeDepth := 20) [*]
  rename_i hr
  split
  · simp (maxDischargeDepth := 20) [*]
  split
  · simp (maxDischargeDepth := 20) [*]
  · rename_i h
    exact Chip.within_startJob _ _ (Chip.within_addPending _ _ _ _ (by simpa using hr) hw (Chip.room_of_pendingFull h))

@[simp] theorem Chip.within_jobStart {dv : Nat × Bool} (c : Chip) (hw : c.Within dv) :
    Chip.Within dv (c.jobStart) := by
  unfold Chip.jobStart; (try dsimp only); (repeat' split) <;> first | (simp (maxDischargeDepth := 20) [*]; done) | (simp_all (maxDischargeDepth := 20); done)

@[simp] theorem Chip.within_softResetRepair {dv : Nat × Bool} (c : Chip) (hw : c.Within dv) :
    Chip.Within dv (c.softResetRepair) := by
  unfold Chip.softResetRepair; (try dsimp only); (repeat' split) <;> first | (simp (maxDischargeDepth := 20) [*]; done) | (simp_all (maxDischargeDepth := 20); done)

@[simp] theorem Chip.within_stopRelocate {dv : Nat × Bool} (c : Chip) (l : Nat) (hw : c.Within dv) :
    Chip.Within dv (c.stopRelocate l) := by
  unfold Chip.stopRelocate; (try dsimp only); (repeat' split) <;> first | (simp (maxDischargeDepth := 20) [*]; done) | (simp_all (maxDischargeDepth := 20); done)

@[simp] theorem Chip.within_putTransfer {dv : Nat × Bool} (c : Chip) (t : Transfer) (hw : c.Within dv) :
    Chip.Within dv (c.putTransfer t) := by
  unfold Chip.putTransfer; (try dsimp only); (repeat' split) <;> first | (simp (maxDischargeDepth := 20) [*]; done) | (simp_all (maxDischargeDepth := 20); done)

@[simp] theorem Chip.within_endTransfer {dv : Nat × Bool} (c : Chip) (t : Transfer) (code : ResultCode) (hw : c.Within dv) :
    Chip.Within dv (c.endTransfer t code) := by
  unfold Chip.endTransfer; (try dsimp only); (repeat' split) <;> first | (simp (maxDischargeDepth := 20) [*]; done) | (simp_all (maxDischargeDepth := 20); done)

@[simp] theorem Chip.within_freeTransferSpare {dv : Nat × Bool} (c : Chip) (t : Transfer) (hw : c.Within dv) :
    Chip.Within dv (c.freeTransferSpare t) := by
  unfold Chip.freeTransferSpare; (try dsimp only); (repeat' split) <;> first | (simp (maxDischargeDepth := 20) [*]; done) | (simp_all (maxDischargeDepth := 20); done)

@[simp] theorem Chip.within_cutTransfer {dv : Nat × Bool} (c : Chip) (t : Transfer) (code : ResultCode) (hw : c.Within dv) :
    Chip.Within dv (c.cutTransfer t code) := by
  unfold Chip.cutTransfer; (try dsimp only); (repeat' split) <;> first | (simp (maxDischargeDepth := 20) [*]; done) | (simp_all (maxDischargeDepth := 20); done)

@[simp] theorem Chip.within_offerRow {dv : Nat × Bool} (c : Chip) (t : Transfer) (k : RowKind) (ws : List Word) (hw : c.Within dv) :
    Chip.Within dv (c.offerRow t k ws) := by
  unfold Chip.offerRow; (try dsimp only); (repeat' split) <;> first | (simp (maxDischargeDepth := 20) [*]; done) | (simp_all (maxDischargeDepth := 20); done)

@[simp] theorem Chip.within_readRow {dv : Nat × Bool} (c : Chip) (t : Transfer) (purpose : Purpose) (p : PhysRow) (hw : c.Within dv) :
    Chip.Within dv (c.readRow t purpose p) := by
  unfold Chip.readRow; (try dsimp only); (repeat' split) <;> first | (simp (maxDischargeDepth := 20) [*]; done) | (simp_all (maxDischargeDepth := 20); done)

@[simp] theorem Chip.within_beginRow {dv : Nat × Bool} (n : Nat) (c : Chip) (t : Transfer) (hw : c.Within dv) :
    Chip.Within dv (Chip.beginRow n c t) := by
  induction n generalizing c t with
  | zero => first | exact hw | simpa [Chip.beginRow] using hw
  | succ n ih => simp only [Chip.beginRow]; (repeat' split) <;> simp (maxDischargeDepth := 20) [*]

@[simp] theorem Chip.within_rowDone {dv : Nat × Bool} (c : Chip) (t : Transfer) (fail : Option ResultCode) (extra : Nat) (hw : c.Within dv) :
    Chip.Within dv (c.rowDone t fail extra) := by
  unfold Chip.rowDone; (try dsimp only); (repeat' split) <;> first | (simp (maxDischargeDepth := 20) [*]; done) | (simp_all (maxDischargeDepth := 20); done)

@[simp] theorem Chip.within_rowRead {dv : Nat × Bool} (c : Chip) (t : Transfer) (o : ReadOutcome) (ws : List Word) (hw : c.Within dv) :
    Chip.Within dv (c.rowRead t o ws) := by
  unfold Chip.rowRead; (try dsimp only); (repeat' split) <;> first | (simp (maxDischargeDepth := 20) [*]; done) | (simp_all (maxDischargeDepth := 20); done)

@[simp] theorem Chip.within_transferRead {dv : Nat × Bool} (c : Chip) (t : Transfer) (p : PhysRow) (d : Delivered) (hw : c.Within dv) :
    Chip.Within dv (c.transferRead t p d) := by
  unfold Chip.transferRead; (try dsimp only); (repeat' split) <;> first | (simp (maxDischargeDepth := 20) [*]; done) | (simp_all (maxDischargeDepth := 20); done)

@[simp] theorem Chip.within_scrubbed {dv : Nat × Bool} (c : Chip) (t : Transfer) (ws : List Word) (hw : c.Within dv) :
    Chip.Within dv (c.scrubbed t ws) := by
  unfold Chip.scrubbed; (try dsimp only); (repeat' split) <;> first | (simp (maxDischargeDepth := 20) [*]; done) | (simp_all (maxDischargeDepth := 20); done)

@[simp] theorem Chip.within_hostWrite {dv : Nat × Bool} (c : Chip) (t : Transfer) (phase : RowPhase) (purpose : Purpose) (p : PhysRow) (hw : c.Within dv) :
    Chip.Within dv (c.hostWrite t phase purpose p) := by
  unfold Chip.hostWrite; (try dsimp only); (repeat' split) <;> first | (simp (maxDischargeDepth := 20) [*]; done) | (simp_all (maxDischargeDepth := 20); done)

@[simp] theorem Chip.within_writeInPlace {dv : Nat × Bool} (c : Chip) (t : Transfer) (hw : c.Within dv) :
    Chip.Within dv (c.writeInPlace t) := by
  unfold Chip.writeInPlace; (try dsimp only); (repeat' split) <;> first | (simp (maxDischargeDepth := 20) [*]; done) | (simp_all (maxDischargeDepth := 20); done)

@[simp] theorem Chip.within_qualifyForWrite {dv : Nat × Bool} (c : Chip) (t : Transfer) (s : SpareId) (k : Nat) (hw : c.Within dv) :
    Chip.Within dv (c.qualifyForWrite t s k) := by
  unfold Chip.qualifyForWrite; (try dsimp only); (repeat' split) <;> first | (simp (maxDischargeDepth := 20) [*]; done) | (simp_all (maxDischargeDepth := 20); done)

@[simp] theorem Chip.within_allocateForWrite {dv : Nat × Bool} (c : Chip) (t : Transfer) (hw : c.Within dv) :
    Chip.Within dv (c.allocateForWrite t) := by
  unfold Chip.allocateForWrite; (try dsimp only); (repeat' split) <;> first | (simp (maxDischargeDepth := 20) [*]; done) | (simp_all (maxDischargeDepth := 20); done)

@[simp] theorem Chip.within_beginWriteRepair {dv : Nat × Bool} (c : Chip) (t : Transfer) (hw : c.Within dv) :
    Chip.Within dv (c.beginWriteRepair t) := by
  unfold Chip.beginWriteRepair; (try dsimp only); (repeat' split) <;> first | (simp (maxDischargeDepth := 20) [*]; done) | (simp_all (maxDischargeDepth := 20); done)

@[simp] theorem Chip.within_classify {dv : Nat × Bool} (c : Chip) (t : Transfer) (hw : c.Within dv) :
    Chip.Within dv (c.classify t) := by
  unfold Chip.classify; (try dsimp only); (repeat' split) <;> first | (simp (maxDischargeDepth := 20) [*]; done) | (simp_all (maxDischargeDepth := 20); done)

@[simp] theorem Chip.within_written {dv : Nat × Bool} (c : Chip) (t : Transfer) (hw : c.Within dv) :
    Chip.Within dv (c.written t) := by
  unfold Chip.written; (try dsimp only); (repeat' split) <;> first | (simp (maxDischargeDepth := 20) [*]; done) | (simp_all (maxDischargeDepth := 20); done)

@[simp] theorem Chip.within_failWriteSpare {dv : Nat × Bool} (c : Chip) (t : Transfer) (s : SpareId) (hw : c.Within dv) :
    Chip.Within dv (c.failWriteSpare t s) := by
  unfold Chip.failWriteSpare; (try dsimp only); (repeat' split) <;> first | (simp (maxDischargeDepth := 20) [*]; done) | (simp_all (maxDischargeDepth := 20); done)

@[simp] theorem Chip.within_writeFoundRetired {dv : Nat × Bool} (c : Chip) (t : Transfer) (hw : c.Within dv) :
    Chip.Within dv (c.writeFoundRetired t) := by
  unfold Chip.writeFoundRetired; (try dsimp only); (repeat' split) <;> first | (simp (maxDischargeDepth := 20) [*]; done) | (simp_all (maxDischargeDepth := 20); done)

@[simp] theorem Chip.within_writeToSpare {dv : Nat × Bool} (c : Chip) (t : Transfer) (s : SpareId) (hw : c.Within dv) :
    Chip.Within dv (c.writeToSpare t s) := by
  unfold Chip.writeToSpare; (try dsimp only); (repeat' split) <;> first | (simp (maxDischargeDepth := 20) [*]; done) | (simp_all (maxDischargeDepth := 20); done)

@[simp] theorem Chip.within_writeQualified {dv : Nat × Bool} (c : Chip) (t : Transfer) (s : SpareId) (k : Nat) (d : Delivered) (hw : c.Within dv) :
    Chip.Within dv (c.writeQualified t s k d) := by
  unfold Chip.writeQualified; (try dsimp only); (repeat' split) <;> first | (simp (maxDischargeDepth := 20) [*]; done) | (simp_all (maxDischargeDepth := 20); done)

@[simp] theorem Chip.within_spareWritten {dv : Nat × Bool} (c : Chip) (t : Transfer) (s : SpareId) (hw : c.Within dv) :
    Chip.Within dv (c.spareWritten t s) := by
  unfold Chip.spareWritten; (try dsimp only); (repeat' split) <;> first | (simp (maxDischargeDepth := 20) [*]; done) | (simp_all (maxDischargeDepth := 20); done)

@[simp] theorem Chip.within_spareVerified {dv : Nat × Bool} (c : Chip) (t : Transfer) (s : SpareId) (d : Delivered) (hw : c.Within dv) :
    Chip.Within dv (c.spareVerified t s d) := by
  unfold Chip.spareVerified; (try dsimp only); (repeat' split) <;> first | (simp (maxDischargeDepth := 20) [*]; done) | (simp_all (maxDischargeDepth := 20); done)

@[simp] theorem Chip.within_writtenInPlace {dv : Nat × Bool} (c : Chip) (t : Transfer) (p : PhysRow) (hw : c.Within dv) :
    Chip.Within dv (c.writtenInPlace t p) := by
  unfold Chip.writtenInPlace; (try dsimp only); (repeat' split) <;> first | (simp (maxDischargeDepth := 20) [*]; done) | (simp_all (maxDischargeDepth := 20); done)

@[simp] theorem Chip.within_writeReadBack {dv : Nat × Bool} (c : Chip) (t : Transfer) (p : PhysRow) (d : Delivered) (hw : c.Within dv) :
    Chip.Within dv (c.writeReadBack t p d) := by
  unfold Chip.writeReadBack; dsimp only
  have hr : ∀ r l o, ((c.report r).retireOrStick l o).1.Within dv := fun r l o =>
    Chip.within_retireOrStick _ _ _ (Chip.within_report _ _ hw)
  (repeat' split) <;> first | (simp (maxDischargeDepth := 20) [*]; done) |
    (rename_i heq; have h2 := heq ▸ hr _ _ _; simp (maxDischargeDepth := 20) [h2])

@[simp] theorem Chip.within_stopTransfer {dv : Nat × Bool} (c : Chip) (t : Transfer) (hw : c.Within dv) :
    Chip.Within dv (c.stopTransfer t) := by
  unfold Chip.stopTransfer; (try dsimp only); (repeat' split) <;> first | (simp (maxDischargeDepth := 20) [*]; done) | (simp_all (maxDischargeDepth := 20); done)

@[simp] theorem Chip.within_nextFill {dv : Nat × Bool} (c : Chip) (l : Listing) (hw : c.Within dv) :
    Chip.Within dv (c.nextFill l) := by
  unfold Chip.nextFill; (try dsimp only); (repeat' split) <;> first | (simp (maxDischargeDepth := 20) [*]; done) | (simp_all (maxDischargeDepth := 20); done)

@[simp] theorem Chip.within_fillRead {dv : Nat × Bool} (c : Chip) (l : Listing) (hw : c.Within dv) :
    Chip.Within dv (c.fillRead l) := by
  unfold Chip.fillRead; (try dsimp only); (repeat' split) <;> first | (simp (maxDischargeDepth := 20) [*]; done) | (simp_all (maxDischargeDepth := 20); done)

@[simp] theorem Chip.within_startListing {dv : Nat × Bool} (c : Chip) (kind : ListKind) (start count : Nat) (hw : c.Within dv) :
    Chip.Within dv (c.startListing kind start count) := by
  unfold Chip.startListing; (try dsimp only); (repeat' split) <;> first | (simp (maxDischargeDepth := 20) [*]; done) | (simp_all (maxDischargeDepth := 20); done)

@[simp] theorem Chip.within_endNominate {dv : Nat × Bool} (c : Chip) (code : ResultCode) (index : Word) (hw : c.Within dv) :
    Chip.Within dv (c.endNominate code index) := by
  unfold Chip.endNominate; (try dsimp only); (repeat' split) <;> first | (simp (maxDischargeDepth := 20) [*]; done) | (simp_all (maxDischargeDepth := 20); done)

@[simp] theorem Chip.within_nominate {dv : Nat × Bool} (c : Chip) (l : Nat) (hw : c.Within dv) :
    Chip.Within dv (c.nominate l) := by
  unfold Chip.nominate
  split
  · simp (maxDischargeDepth := 20) [*]
  rename_i hr
  split
  · simp (maxDischargeDepth := 20) [*]
  split
  · simp (maxDischargeDepth := 20) [*]
  · rename_i h
    exact Chip.within_endNominate _ _ _ (Chip.within_addPending _ _ _ _ (by simpa using hr) hw (Chip.room_of_pendingFull h))

@[simp] theorem Chip.within_dropped {dv : Nat × Bool} (c : Chip) (p : Purpose) (hw : c.Within dv) :
    Chip.Within dv (c.dropped p) := by
  unfold Chip.dropped; (try dsimp only); (repeat' split) <;> first | (simp (maxDischargeDepth := 20) [*]; done) | (simp_all (maxDischargeDepth := 20); done)

@[simp] theorem Chip.within_foldl_dropped {dv : Nat × Bool} (ps : List Purpose) (c : Chip) (hw : c.Within dv) :
    Chip.Within dv (ps.foldl Chip.dropped c) := by
  induction ps generalizing c with
  | nil => exact hw
  | cons p ps ih => exact ih _ (Chip.within_dropped _ _ hw)

@[simp] theorem Chip.within_grant {dv : Nat × Bool} (n : Nat) (c : Chip) (hw : c.Within dv) :
    Chip.Within dv (Chip.grant n c).1 := by
  induction n generalizing c with
  | zero => first | exact hw | simpa [Chip.grant] using hw
  | succ n ih => simp only [Chip.grant]; (repeat' split) <;> simp (maxDischargeDepth := 20) [*]

@[simp] theorem Chip.within_settle {dv : Nat × Bool} (n : Nat) (c : Chip) (hw : c.Within dv) :
    Chip.Within dv (Chip.settle n c) := by
  induction n generalizing c with
  | zero => first | exact hw | simpa [Chip.settle] using hw
  | succ n ih => simp only [Chip.settle]; (repeat' split) <;> simp (maxDischargeDepth := 20) [*]

@[simp] theorem Chip.within_discarded {dv : Nat × Bool} (c : Chip) (k : AccessClass) (hw : c.Within dv) :
    Chip.Within dv (c.discarded k) := by
  unfold Chip.discarded; (try dsimp only); (repeat' split) <;> first | (simp (maxDischargeDepth := 20) [*]; done) | (simp_all (maxDischargeDepth := 20); done)

theorem Chip.within_finishAccess {dv : Nat × Bool} (c : Chip) (k : AccessClass) (r : Request) (act : Chip → Chip)
    (h : ∀ c : Chip, c.Within dv → (act c).Within dv) (hw : c.Within dv) :
    Chip.Within dv (c.finishAccess k r act) := by
  have h1 : ∀ n, (Chip.grant n { c with seq := { c.seq.put k .empty with readyTimer := false } }).1.Within dv :=
    fun n => Chip.within_grant _ _ hw
  unfold Chip.finishAccess; dsimp only
  split
  · exact Chip.within_settle _ _ (Chip.within_discarded _ _ hw)
  · exact Chip.within_settle _ _ (h _ (Chip.within_foldl_dropped _ _ (h1 4)))

theorem Chip.within_onTransfer {dv : Nat × Bool} (c : Chip) (f : Chip → Transfer → Chip)
    (h : ∀ (c : Chip) t, c.Within dv → (f c t).Within dv) (hw : c.Within dv) :
    Chip.Within dv (c.onTransfer f) := by
  unfold Chip.onTransfer; split <;> first | exact hw | exact h _ _ hw

theorem Chip.within_onWriteRepair {dv : Nat × Bool} (c : Chip) (f : Chip → Transfer → SpareId → Chip)
    (h : ∀ (c : Chip) t s, c.Within dv → (f c t s).Within dv) (hw : c.Within dv) :
    Chip.Within dv (c.onWriteRepair f) := by
  refine Chip.within_onTransfer _ _ ?_ hw; intro c t hw; (try dsimp only); split <;> first | exact hw | exact h _ _ _ hw

theorem Chip.within_onJob {dv : Nat × Bool} (c : Chip) (f : Chip → Job → Chip)
    (h : ∀ (c : Chip) j, c.Within dv → (f c j).Within dv) (hw : c.Within dv) :
    Chip.Within dv (c.onJob f) := by
  unfold Chip.onJob; split <;> first | exact hw | exact h _ _ hw

theorem Chip.within_onJobSpare {dv : Nat × Bool} (c : Chip) (f : Chip → Job → SpareId → Chip)
    (h : ∀ (c : Chip) j t, c.Within dv → (f c j t).Within dv) (hw : c.Within dv) :
    Chip.Within dv (c.onJobSpare f) := by
  refine Chip.within_onJob _ _ ?_ hw; intro c t hw; (try dsimp only); split <;> first | exact hw | exact h _ _ _ hw

@[simp] theorem Chip.within_timedOut {dv : Nat × Bool} (c : Chip) (p : Purpose) (hw : c.Within dv) :
    Chip.Within dv (c.timedOut p) := by
  unfold Chip.timedOut; split <;> first | (simp (maxDischargeDepth := 20) [*]; done) |
    exact Chip.within_onTransfer _ _ (fun c t hw => by simp (maxDischargeDepth := 20) [*]) hw

@[simp] theorem Chip.within_serveWaitingJob {dv : Nat × Bool} (c : Chip) (hw : c.Within dv) :
    Chip.Within dv (c.serveWaitingJob) := by
  unfold Chip.serveWaitingJob; (try dsimp only); (repeat' split) <;> first | (simp (maxDischargeDepth := 20) [*]; done) | (simp_all (maxDischargeDepth := 20); done)

@[simp] theorem Chip.within_allocationServed {dv : Nat × Bool} (c : Chip) (hw : c.Within dv) :
    Chip.Within dv (c.allocationServed) := by
  unfold Chip.allocationServed; (try dsimp only); (repeat' split) <;> first | (simp (maxDischargeDepth := 20) [*]; done) | (simp_all (maxDischargeDepth := 20); done)

@[simp] theorem Chip.within_refuseCommand {dv : Nat × Bool} (c : Chip) (hw : c.Within dv) :
    Chip.Within dv (c.refuseCommand) := by
  unfold Chip.refuseCommand; (try dsimp only); (repeat' split) <;> first | (simp (maxDischargeDepth := 20) [*]; done) | (simp_all (maxDischargeDepth := 20); done)

@[simp] theorem Chip.within_acceptCommand {dv : Nat × Bool} (c : Chip) (hw : c.Within dv) :
    Chip.Within dv (c.acceptCommand) := by
  unfold Chip.acceptCommand; (try dsimp only); (repeat' split) <;> first | (simp (maxDischargeDepth := 20) [*]; done) | (simp_all (maxDischargeDepth := 20); done)

@[simp] theorem Chip.within_endByCheck {dv : Nat × Bool} (c : Chip) (code : ResultCode) (hw : c.Within dv) :
    Chip.Within dv (c.endByCheck code) := by
  unfold Chip.endByCheck; (try dsimp only); (repeat' split) <;> first | (simp (maxDischargeDepth := 20) [*]; done) | (simp_all (maxDischargeDepth := 20); done)

theorem Chip.within_takeCommand {dv : Nat × Bool} (c : Chip) (inState : OperatingState → Bool) (params : Params → Bool)
    (range : Chip → Params → Bool) (run : Chip → Params → Chip)
    (h : ∀ (c : Chip) p, c.Within dv → (run c p).Within dv) (hw : c.Within dv) :
    Chip.Within dv (c.takeCommand inState params range run) := by
  unfold Chip.takeCommand; (repeat' split) <;> first | (simp (maxDischargeDepth := 20) [*]; done) | exact h _ _ (Chip.within_acceptCommand _ hw)

@[simp] theorem Chip.within_transferCommand {dv : Nat × Bool} (c : Chip) (kind : TransferKind) (hw : c.Within dv) :
    Chip.Within dv (c.transferCommand kind) := by
  unfold Chip.transferCommand; refine Chip.within_takeCommand _ _ _ _ _ ?_ hw; intro c p hw; (try dsimp only)
  (repeat' split) <;> simp (maxDischargeDepth := 20) [*]

@[simp] theorem Chip.within_queryCommand {dv : Nat × Bool} (c : Chip) (hw : c.Within dv) :
    Chip.Within dv (c.queryCommand) := by
  unfold Chip.queryCommand; refine Chip.within_takeCommand _ _ _ _ _ ?_ hw; intro c p hw; (try dsimp only)
  (repeat' split) <;> simp (maxDischargeDepth := 20) [*]

@[simp] theorem Chip.within_nominateCommand {dv : Nat × Bool} (c : Chip) (hw : c.Within dv) :
    Chip.Within dv (c.nominateCommand) := by
  unfold Chip.nominateCommand; refine Chip.within_takeCommand _ _ _ _ _ ?_ hw; intro c p hw; (try dsimp only)
  (repeat' split) <;> simp (maxDischargeDepth := 20) [*]

@[simp] theorem Chip.within_listCommand {dv : Nat × Bool} (c : Chip) (kind : ListKind) (hw : c.Within dv) :
    Chip.Within dv (c.listCommand kind) := by
  unfold Chip.listCommand; refine Chip.within_takeCommand _ _ _ _ _ ?_ hw; intro c p hw; (try dsimp only)
  (repeat' split) <;> simp (maxDischargeDepth := 20) [*]

@[simp] theorem Chip.within_relocateLook {dv : Nat × Bool} (c : Chip) (l : Nat) (discard : Bool) (hw : c.Within dv) :
    Chip.Within dv (c.relocateLook l discard) := by
  unfold Chip.relocateLook; (try dsimp only); (repeat' split) <;> first | (simp (maxDischargeDepth := 20) [*]; done) | (simp_all (maxDischargeDepth := 20); done)

@[simp] theorem Chip.within_relocateCommand {dv : Nat × Bool} (c : Chip) (hw : c.Within dv) :
    Chip.Within dv (c.relocateCommand) := by
  unfold Chip.relocateCommand; refine Chip.within_takeCommand _ _ _ _ _ ?_ hw; intro c p hw; (try dsimp only)
  (repeat' split) <;> simp (maxDischargeDepth := 20) [*]

@[simp] theorem Chip.within_patrolStartCommand {dv : Nat × Bool} (c : Chip) (hw : c.Within dv) :
    Chip.Within dv (c.patrolStartCommand) := by
  unfold Chip.patrolStartCommand; refine Chip.within_takeCommand _ _ _ _ _ ?_ hw; intro c p hw; (try dsimp only)
  (repeat' split) <;> simp (maxDischargeDepth := 20) [*]

@[simp] theorem Chip.within_patrolHaltCommand {dv : Nat × Bool} (c : Chip) (hw : c.Within dv) :
    Chip.Within dv (c.patrolHaltCommand) := by
  unfold Chip.patrolHaltCommand; refine Chip.within_takeCommand _ _ _ _ _ ?_ hw; intro c p hw; (try dsimp only)
  (repeat' split) <;> simp (maxDischargeDepth := 20) [*]

@[simp] theorem Chip.within_patrolReportCommand {dv : Nat × Bool} (c : Chip) (hw : c.Within dv) :
    Chip.Within dv (c.patrolReportCommand) := by
  unfold Chip.patrolReportCommand; refine Chip.within_takeCommand _ _ _ _ _ ?_ hw; intro c p hw; (try dsimp only)
  (repeat' split) <;> simp (maxDischargeDepth := 20) [*]

@[simp] theorem Chip.within_commitCommand {dv : Nat × Bool} (c : Chip) (hw : c.Within dv) :
    Chip.Within dv (c.commitCommand) := by
  unfold Chip.commitCommand; refine Chip.within_takeCommand _ _ _ _ _ ?_ hw; intro c p hw; (try dsimp only)
  (repeat' split) <;> simp (maxDischargeDepth := 20) [*]

@[simp] theorem Chip.within_formatCommand {dv : Nat × Bool} (c : Chip) (hw : c.Within dv) :
    Chip.Within dv (c.formatCommand) := by
  unfold Chip.formatCommand; refine Chip.within_takeCommand _ _ _ _ _ ?_ hw; intro c p hw; (try dsimp only)
  (repeat' split) <;> simp (maxDischargeDepth := 20) [*]

@[simp] theorem Chip.within_clearStarved {dv : Nat × Bool} (c : Chip) (hw : c.Within dv) :
    Chip.Within dv (c.clearStarved) := by
  unfold Chip.clearStarved; (try dsimp only); (repeat' split) <;> first | (simp (maxDischargeDepth := 20) [*]; done) | (simp_all (maxDischargeDepth := 20); done)

@[simp] theorem Chip.within_regradeAll {dv : Nat × Bool} (c : Chip) (hw : c.Within dv) :
    Chip.Within dv (c.regradeAll) := by
  unfold Chip.regradeAll; (try dsimp only); (repeat' split) <;> first | (simp (maxDischargeDepth := 20) [*]; done) | (simp_all (maxDischargeDepth := 20); done)

@[simp] theorem Chip.within_restartDelay {dv : Nat × Bool} (c : Chip) (hw : c.Within dv) :
    Chip.Within dv (c.restartDelay) := by
  unfold Chip.restartDelay; (try dsimp only); (repeat' split) <;> first | (simp (maxDischargeDepth := 20) [*]; done) | (simp_all (maxDischargeDepth := 20); done)

@[simp] theorem Chip.within_applyPolicy {dv : Nat × Bool} (c : Chip) (p : Policy) (hw : c.Within dv) :
    Chip.Within dv (c.applyPolicy p) := by
  unfold Chip.applyPolicy; (try dsimp only); (repeat' split) <;> first | (simp (maxDischargeDepth := 20) [*]; done) | (simp_all (maxDischargeDepth := 20); done)

@[simp] theorem Chip.within_setPolicyCommand {dv : Nat × Bool} (c : Chip) (hw : c.Within dv) :
    Chip.Within dv (c.setPolicyCommand) := by
  unfold Chip.setPolicyCommand; refine Chip.within_takeCommand _ _ _ _ _ ?_ hw; intro c p hw; (try dsimp only)
  (repeat' split) <;> simp (maxDischargeDepth := 20) [*]

@[simp] theorem Chip.within_unknownCommand {dv : Nat × Bool} (c : Chip) (hw : c.Within dv) :
    Chip.Within dv (c.unknownCommand) := by
  unfold Chip.unknownCommand; (try dsimp only); (repeat' split) <;> first | (simp (maxDischargeDepth := 20) [*]; done) | (simp_all (maxDischargeDepth := 20); done)

@[simp] theorem Chip.within_writeCommand {dv : Nat × Bool} (c : Chip) (w : Word) (hw : c.Within dv) :
    Chip.Within dv (c.writeCommand w) := by
  unfold Chip.writeCommand; (try dsimp only); (repeat' split) <;> first | (simp (maxDischargeDepth := 20) [*]; done) | (simp_all (maxDischargeDepth := 20); done)

@[simp] theorem Chip.within_stopFormat {dv : Nat × Bool} (c : Chip) (hw : c.Within dv) :
    Chip.Within dv (c.stopFormat) := by
  unfold Chip.stopFormat; (try dsimp only); (repeat' split) <;> first | (simp (maxDischargeDepth := 20) [*]; done) | (simp_all (maxDischargeDepth := 20); done)

@[simp] theorem Chip.within_stopWork {dv : Nat × Bool} (c : Chip) (hw : c.Within dv) :
    Chip.Within dv (c.stopWork) := by
  unfold Chip.stopWork; (try dsimp only); (repeat' split) <;> first | (simp (maxDischargeDepth := 20) [*]; done) | (simp_all (maxDischargeDepth := 20); done)

@[simp] theorem Chip.within_stopCommand {dv : Nat × Bool} (c : Chip) (hw : c.Within dv) :
    Chip.Within dv (c.stopCommand) := by
  unfold Chip.stopCommand; (try dsimp only); (repeat' split) <;> first | (simp (maxDischargeDepth := 20) [*]; done) | (simp_all (maxDischargeDepth := 20); done)

@[simp] theorem Chip.within_softResetEngine {dv : Nat × Bool} (c : Chip) (hw : c.Within dv) :
    Chip.Within dv (c.softResetEngine) := by
  unfold Chip.softResetEngine; (try dsimp only); (repeat' split) <;> first | (simp (maxDischargeDepth := 20) [*]; done) | (simp_all (maxDischargeDepth := 20); done)

@[simp] theorem Chip.within_softResetFormat {dv : Nat × Bool} (c : Chip) (hw : c.Within dv) :
    Chip.Within dv (c.softResetFormat) := by
  unfold Chip.softResetFormat; (try dsimp only); (repeat' split) <;> first | (simp (maxDischargeDepth := 20) [*]; done) | (simp_all (maxDischargeDepth := 20); done)

@[simp] theorem Chip.within_softReset {dv : Nat × Bool} (c : Chip) (hw : c.Within dv) :
    Chip.Within dv (c.softReset) := by
  unfold Chip.softReset; (try dsimp only); (repeat' split) <;> first | (simp (maxDischargeDepth := 20) [*]; done) | (simp_all (maxDischargeDepth := 20); done)

@[simp] theorem Chip.within_writeControl {dv : Nat × Bool} (c : Chip) (w : Word) (hw : c.Within dv) :
    Chip.Within dv (c.writeControl w) := by
  unfold Chip.writeControl; (try dsimp only); (repeat' split) <;> first | (simp (maxDischargeDepth := 20) [*]; done) | (simp_all (maxDischargeDepth := 20); done)

@[simp] theorem Chip.within_misuse {dv : Nat × Bool} (c : Chip) (hw : c.Within dv) :
    Chip.Within dv (c.misuse) := by
  unfold Chip.misuse; (try dsimp only); (repeat' split) <;> first | (simp (maxDischargeDepth := 20) [*]; done) | (simp_all (maxDischargeDepth := 20); done)

@[simp] theorem Chip.within_offerEnds {dv : Nat × Bool} (c : Chip) (hw : c.Within dv) :
    Chip.Within dv (c.offerEnds) := by
  unfold Chip.offerEnds; (try dsimp only); (repeat' split) <;> first | (simp (maxDischargeDepth := 20) [*]; done) | (simp_all (maxDischargeDepth := 20); done)

@[simp] theorem Chip.within_readData {dv : Nat × Bool} (c : Chip) (hw : c.Within dv) :
    Chip.Within dv (c.readData) := by
  unfold Chip.readData; (try dsimp only); (repeat' split) <;> first | (simp (maxDischargeDepth := 20) [*]; done) | (simp_all (maxDischargeDepth := 20); done)

@[simp] theorem Chip.within_transferEnds {dv : Nat × Bool} (c : Chip) (hw : c.Within dv) :
    Chip.Within dv (c.transferEnds) := by
  exact Chip.within_onTransfer _ _ (fun c t hw => by simp (maxDischargeDepth := 20) [*]) hw

@[simp] theorem Chip.within_writeData {dv : Nat × Bool} (c : Chip) (w : Word) (hw : c.Within dv) :
    Chip.Within dv (c.writeData w) := by
  unfold Chip.writeData; (try dsimp only); (repeat' split) <;> first | (simp (maxDischargeDepth := 20) [*]; done) | (simp_all (maxDischargeDepth := 20); done)

@[simp] theorem Chip.within_writeEvents {dv : Nat × Bool} (c : Chip) (w : Word) (hw : c.Within dv) :
    Chip.Within dv (c.writeEvents w) := by
  unfold Chip.writeEvents; (try dsimp only); (repeat' split) <;> first | (simp (maxDischargeDepth := 20) [*]; done) | (simp_all (maxDischargeDepth := 20); done)

@[simp] theorem Chip.within_writeEnable {dv : Nat × Bool} (c : Chip) (w : Word) (hw : c.Within dv) :
    Chip.Within dv (c.writeEnable w) := by
  unfold Chip.writeEnable; (try dsimp only); (repeat' split) <;> first | (simp (maxDischargeDepth := 20) [*]; done) | (simp_all (maxDischargeDepth := 20); done)

@[simp] theorem Chip.within_popNotice {dv : Nat × Bool} (c : Chip) (hw : c.Within dv) :
    Chip.Within dv (c.popNotice) := by
  unfold Chip.popNotice
  split
  · exact hw
  · rename_i n rest h
    have h3 : c.health.queue.length ≤ 16 := hw.2.2.1
    rw [h] at h3
    exact ⟨hw.1, hw.2.1, Nat.le_trans (Nat.le_succ _) h3, hw.2.2.2.1, hw.2.2.2.2.1, hw.2.2.2.2.2⟩

@[simp] theorem Chip.within_writeIdent {dv : Nat × Bool} (c : Chip) (w : Word) (hw : c.Within dv) :
    Chip.Within dv (c.writeIdent w) := by
  unfold Chip.writeIdent; (try dsimp only); (repeat' split) <;> first | (simp (maxDischargeDepth := 20) [*]; done) | (simp_all (maxDischargeDepth := 20); done)

@[simp] theorem Chip.within_writeParam {dv : Nat × Bool} (c : Chip) (i : Nat) (w : Word) (hw : c.Within dv) :
    Chip.Within dv (c.writeParam i w) := by
  unfold Chip.writeParam; (try dsimp only); (repeat' split) <;> first | (simp (maxDischargeDepth := 20) [*]; done) | (simp_all (maxDischargeDepth := 20); done)

@[simp] theorem Chip.within_writeRegister {dv : Nat × Bool} (c : Chip) (offset : BitVec 5) (w : Word) (hw : c.Within dv) :
    Chip.Within dv (c.writeRegister offset w) := by
  unfold Chip.writeRegister; (try dsimp only); (repeat' split) <;> first | (simp (maxDischargeDepth := 20) [*]; done) | (simp_all (maxDischargeDepth := 20); done)

@[simp] theorem Chip.within_delayRunsOut {dv : Nat × Bool} (c : Chip) (hw : c.Within dv) :
    Chip.Within dv (c.delayRunsOut) := by
  unfold Chip.delayRunsOut; (try dsimp only); (repeat' split) <;> first | (simp (maxDischargeDepth := 20) [*]; done) | (simp_all (maxDischargeDepth := 20); done)

/-! ## Steps -/

theorem State.within_onBus {d : Nat × Bool} {s : State} {f : Chip → Chip} (hf : ∀ c : Chip, c.Within d → (f c).Within d)
    (hw : s.toChip.Within d) : (s.onBus f).toChip.Within d := by
  unfold State.onBus
  split
  · exact Chip.within_settle _ _ (hf _ hw)
  · exact hw

theorem State.within_complete {d : Nat × Bool} {s t : State} {cov : Purpose → Bool} {fl : RowPatch}
    {act : Request → Delivered → Chip → Chip} (hf : ∀ r x (c : Chip), c.Within d → (act r x c).Within d)
    (hw : s.toChip.Within d) (h : s.complete cov fl act = .next t) : t.toChip.Within d := by
  unfold State.complete at h
  (repeat' split at h) <;> cases h
  · exact hw
  · exact Chip.within_finishAccess _ _ _ _ (hf _ _) hw
  · exact hw

theorem Chip.within_reset (p r b : Bool) (d : Nat) (h : 0 < d) : (Chip.resetBlocks p r d).Within (d, b) := by
  refine ⟨Nat.zero_le _, by simp [Chip.resetBlocks, WatchOk], Nat.zero_le _, ?_, rfl, (fun _ e he => nomatch he),
    fun _ l hl => nomatch hl⟩
  show 0 < 8064 * d
  omega

end Sys2Proof.Machine
end

