-- ==== Sys2Proof/Laws/Invariants.lean ====
section
/-! SUPPORT. The invariants of Safety.lean in the forms the libraries carry. -/

namespace Sys2Proof.Machine

/-- The limits of Safety.lean are the ones the library carries. -/
theorem Chip.withinLimits_iff (c : Chip) : c.withinLimits = true ↔ c.Within (c.devices, false) := by
  simp only [Chip.withinLimits, Bool.and_eq_true, decide_eq_true_iff]
  exact ⟨fun ⟨⟨⟨a, b⟩, e⟩, f⟩ => ⟨a, b, e, f, rfl, (fun h => nomatch h), fun h => nomatch h⟩, fun ⟨a, b, e, f, _⟩ => ⟨⟨⟨a, b⟩, e⟩, f⟩⟩

/-- The limits with the law of the watch table (R86). -/
theorem Chip.watchLaw_iff (c : Chip) : (c.withinLimits = true ∧ c.watchLaw) ↔ c.Within (c.devices, true) := by
  rw [Chip.withinLimits_iff]
  constructor
  · rintro ⟨⟨a, b, e, f, g, -⟩, h, k⟩
    refine ⟨a, b, e, f, g, ?_, ?_⟩
    · intro _ x hx o ho
      cases o with
      | none => rfl
      | some w => simpa [slotHolds] using h x w hx ho
    · intro _ l hl
      obtain ⟨k1, k2⟩ := k l ((c.isRetired_eq l).trans hl)
      refine ⟨k1, fun o ho => ?_⟩
      cases o with
      | none => rfl
      | some w => simpa [slotHolds] using k2 w ho
  · rintro ⟨a, b, e, f, g, h, k⟩
    refine ⟨⟨a, b, e, f, g, (fun h => nomatch h), fun h => nomatch h⟩, ?_, ?_⟩
    · intro x w hx hw
      simpa [slotHolds] using h rfl x hx _ hw
    · intro l hl
      obtain ⟨k1, k2⟩ := k rfl l ((c.isRetired_eq l).symm.trans hl)
      refine ⟨k1, fun w hw => ?_⟩
      simpa [slotHolds] using k2 _ hw

/-- The four counts of a zone count each of its spares once (R103). -/
theorem Zone.counts_sum (z : Zone) :
    z.countOf .free + z.countOf .testing + z.countOf .inUse + z.countOf .bad = z.spares.length := by
  unfold Zone.countOf
  induction z.spares with
  | nil => rfl
  | cons x xs ih => cases x <;> simp only [List.countP_cons, List.length_cons, reduceCtorEq, decide_true, decide_false, if_true, if_false, Bool.false_eq_true] <;> omega

theorem Chip.spares_getD (c : Chip) (g : Nat) : (c.alloc.zones.map Zone.spares).getD g [] = (c.zone g).spares := by
  unfold Chip.zone
  rw [List.getD_eq_getElem?_getD, List.getElem?_map, List.getD_eq_getElem?_getD]
  cases c.alloc.zones[g]? <;> rfl

/-- The other laws of Safety.lean are the one the library carries. -/
theorem Chip.good_iff (c : Chip) : (c.tableLaw ∧ c.testingLaw ∧ c.modeLaw) ↔ c.Good := by
  constructor
  · rintro ⟨⟨a1, a2, a3, -, a5, -, a7⟩, ⟨b1, b2, b3, b4, b5, b6⟩, ⟨m1, m2, m3, m4⟩⟩
    exact { sorted := a1, nodup := a2, inUse := a3, retired := a5, changes := a7, testing := b1, heldT := b2, heldJ := b3, one := b4, zones := b5
            size := fun g hg => by rw [c.spares_getD, ← Zone.counts_sum]; exact b6 g hg
            work := by
              intro h
              cases hw : c.cmd.work <;> rw [hw] at h <;> first | rfl | exact absurd rfl h
            job := by
              intro h
              cases hw : c.rep.job with
              | none => rw [hw] at h; exact absurd rfl h
              | some j => rfl
            fmt := m1
            load := by
              intro h
              obtain ⟨x, y, z, w⟩ := m2 h
              exact ⟨x, y, by rw [z]; rfl, w⟩
            quiet := m3, own := m4 }
  · intro h
    have hs : c.sparedCount ≤ 512 := by
      have := nodup_spares_length h.nodup
      rw [sparedTargets_length] at this; exact this
    refine ⟨⟨h.sorted, h.nodup, h.inUse, hs, h.retired, ?_, h.changes⟩, ⟨h.testing, h.heldT, h.heldJ, h.one, h.zones, ?_⟩, ⟨h.fmt, ?_, h.quiet, h.own⟩⟩
    · rw [remap_length]
      have h2 := h.retired
      unfold Chip.sparedCount at hs
      unfold Chip.retiredCount at h2
      omega
    · intro g hg; rw [Zone.counts_sum, ← c.spares_getD]; exact h.size g hg
    · intro hm
      obtain ⟨x, y, z, w⟩ := h.load hm
      exact ⟨x, y, by simpa using z, w⟩

end Sys2Proof.Machine
end

