-- ==== Sys2Proof/Laws/Memory.lean ====
section
/-! SUPPORT. The array list: every store keeps its canonical form, and a read after a store gives the stored row at its key and the old row elsewhere. -/

namespace Sys2Proof.Machine

theorem wfAbove_cons (low : Option Nat) (k : Nat) (r : StoredRow) (rest : Memory) :
    Memory.wfAbove low ((k, r) :: rest) = true ↔
      (∀ l, low = some l → l < k) ∧ r.length = 32 ∧ r ≠ blankRow ∧ Memory.wfAbove (some k) rest = true := by
  cases low <;> simp [Memory.wfAbove, and_assoc]

theorem wfAbove_weaken {low low' : Option Nat} {m : Memory} (h : Memory.wfAbove low m = true)
    (hl : ∀ l, low' = some l → ∃ l', low = some l' ∧ l ≤ l') : Memory.wfAbove low' m = true := by
  cases m with
  | nil => cases low' <;> rfl
  | cons e rest =>
    obtain ⟨k, r⟩ := e
    rw [wfAbove_cons] at h ⊢
    refine ⟨fun l hl' => ?_, h.2⟩
    obtain ⟨l', h1, h2⟩ := hl l hl'
    exact Nat.lt_of_le_of_lt h2 (h.1 l' h1)

theorem store_wfAbove {low : Option Nat} {m : Memory} {k : Nat} {r : StoredRow}
    (h : Memory.wfAbove low m = true) (hk : ∀ l, low = some l → l < k) (hr : r.length = 32) :
    Memory.wfAbove low (m.store k r) = true := by
  induction m generalizing low with
  | nil =>
    by_cases hb : r = blankRow
    · rw [Memory.store, if_pos hb]; exact h
    · rw [Memory.store, if_neg hb, wfAbove_cons]
      exact ⟨hk, hr, hb, rfl⟩
  | cons e rest ih =>
    obtain ⟨k', r'⟩ := e
    have h' := (wfAbove_cons _ _ _ _).1 h
    by_cases h1 : k < k'
    · by_cases hb : r = blankRow
      · simp only [Memory.store, h1, hb, if_true]; exact h
      · simp only [Memory.store, h1, hb, if_true, if_false]
        rw [wfAbove_cons]
        refine ⟨hk, hr, hb, ?_⟩
        rw [wfAbove_cons]
        exact ⟨fun l hl => by cases hl; exact h1, h'.2⟩
    · by_cases h2 : k = k'
      · subst h2
        by_cases hb : r = blankRow
        · simp only [Memory.store, hb, if_true, lt_irrefl, if_false]
          exact wfAbove_weaken h'.2.2.2 fun l hl => ⟨k, rfl, Nat.le_of_lt (h'.1 l hl)⟩
        · simp only [Memory.store, hb, if_true, lt_irrefl, if_false]
          rw [wfAbove_cons]
          exact ⟨hk, hr, hb, h'.2.2.2⟩
      · simp only [Memory.store, h1, h2, if_false]
        rw [wfAbove_cons]
        exact ⟨h'.1, h'.2.1, h'.2.2.1, ih h'.2.2.2 fun l hl => by cases hl; omega⟩

/-- A store of a row of 32 words keeps the canonical form. -/
theorem Memory.store_wf {m : Memory} {k : Nat} {r : StoredRow} (h : m.wf = true) (hr : r.length = 32) :
    (m.store k r).wf = true :=
  store_wfAbove h (fun _ hl => by cases hl) hr

theorem read_of_below {low : Option Nat} {m : Memory} {k : Nat} (h : Memory.wfAbove low m = true)
    (hk : ∃ l, low = some l ∧ k ≤ l) : m.read k = blankRow := by
  induction m generalizing low with
  | nil => rfl
  | cons e rest ih =>
    obtain ⟨k', r'⟩ := e
    obtain ⟨l, hl, hkl⟩ := hk
    have h' := (wfAbove_cons _ _ _ _).1 h
    have hlt := h'.1 l hl
    rw [Memory.read, if_neg (by omega)]
    exact ih h'.2.2.2 ⟨k', rfl, by omega⟩

/-- A read after a store: the stored row at its key, the old row at every other key. -/
theorem Memory.read_store {m : Memory} {k k' : Nat} {r : StoredRow} (h : m.wf = true) :
    (m.store k r).read k' = if k' = k then r else m.read k' := by
  suffices H : ∀ low, Memory.wfAbove low m = true → (m.store k r).read k' = if k' = k then r else m.read k' from H none h
  clear h
  induction m with
  | nil =>
    intro low _
    by_cases hb : r = blankRow
    · by_cases hk : k' = k <;> simp [Memory.store, Memory.read, hb, hk]
    · by_cases hk : k' = k
      · subst hk; simp [Memory.store, Memory.read, hb]
      · simp [Memory.store, Memory.read, hb, hk, Ne.symm hk]
  | cons e rest ih =>
    intro low h
    obtain ⟨k0, r0⟩ := e
    have h' := (wfAbove_cons _ _ _ _).1 h
    by_cases h1 : k < k0
    · by_cases hb : r = blankRow
      · simp only [Memory.store, h1, hb, if_true]
        by_cases hk : k' = k
        · subst hk
          rw [if_pos rfl, Memory.read, if_neg (by omega)]
          exact read_of_below h'.2.2.2 ⟨k0, rfl, by omega⟩
        · rw [if_neg hk]
      · simp only [Memory.store, h1, hb, if_true, if_false]
        by_cases hk : k' = k
        · subst hk; simp [Memory.read]
        · rw [if_neg hk, Memory.read, if_neg (Ne.symm hk)]
    · by_cases h2 : k = k0
      · subst h2
        by_cases hb : r = blankRow
        · simp only [Memory.store, hb, if_true, lt_irrefl, if_false]
          by_cases hk : k' = k
          · subst hk
            rw [if_pos rfl]
            exact read_of_below h'.2.2.2 ⟨k', rfl, le_refl _⟩
          · rw [if_neg hk, Memory.read, if_neg (Ne.symm hk)]
        · simp only [Memory.store, hb, if_true, lt_irrefl, if_false]
          by_cases hk : k' = k
          · subst hk; simp [Memory.read]
          · simp [Memory.read, hk, Ne.symm hk]
      · simp only [Memory.store, h1, h2, if_false, Memory.read]
        by_cases h3 : k0 = k'
        · subst h3; simp [Ne.symm h2]
        · rw [if_neg h3, if_neg h3]; exact ih _ h'.2.2.2

/-! ## The rows the part and the devices store -/

theorem storedRow_length (ws : List Word) : (storedRow ws).length = 32 := by simp [storedRow]

theorem patchedRow_length (row : StoredRow) (left : RowPatch) : (patchedRow row left).length = 32 := by
  simp [patchedRow]

/-- A write that completes with DONE keeps the canonical form. -/
theorem Memory.write_wf {m : Memory} (p : PhysRow) (ws : List Word) (h : m.wf = true) : (m.write p ws).wf = true :=
  Memory.store_wf h (storedRow_length ws)

/-- A write that did not complete keeps the canonical form. -/
theorem Memory.tear_wf {m : Memory} (p : PhysRow) (left : RowPatch) (h : m.wf = true) : (m.tear p left).wf = true :=
  Memory.store_wf h (patchedRow_length _ left)

end Sys2Proof.Machine
end

