-- ==== Sys2Proof/Laws/Patrol.lean ====
section
/-! SUPPORT. What the end of a visit and of a pass leave, and how the cursor row is handled (R90, R127 to R131, R137). -/

namespace Sys2Proof.Machine

/-! ## The end of a pass -/

/-- What ageing leaves of the watch table (R90). -/
theorem Chip.ageWatch_eq (c : Chip) : c.ageWatch = { c with trk := { c.trk with
      watch := c.trk.watch.map fun o =>
        o.filter fun e => decide ((c.pat.pass - e.last).toNat < c.health.policy.forgetSpan) } } := by
  unfold Chip.ageWatch
  have h0 : ∀ w w' : List (Option WatchEntry), w = w' →
      ({ c with trk := { c.trk with watch := w } } : Chip) = { c with trk := { c.trk with watch := w' } } := by
    rintro w _ rfl; rfl
  refine h0 _ _ (List.map_congr_left fun o _ => ?_)
  cases o with
  | none => rfl
  | some e =>
    show (if c.health.policy.forgetSpan ≤ e.age c.pat.pass then none else some e)
      = if decide (e.age c.pat.pass < c.health.policy.forgetSpan) = true then some e else none
    by_cases h : c.health.policy.forgetSpan ≤ e.age c.pat.pass
    · rw [if_pos h, if_neg (by simpa using h)]
    · rw [if_neg h, if_pos (by simpa using h)]

/-- What the end of a pass leaves (R131). -/
theorem Chip.endPass_eq (c : Chip) :
    let e : Chip := { c with
      trk := { c.trk with watch := c.trk.watch.map fun (w : Option WatchEntry) => w.filter (fun e =>
          decide ((c.pat.pass + 1 - e.last).toNat < c.health.policy.forgetSpan)) }
      pat := { c.pat with
          cursor := 0, lastPass := some { tallies := c.pat.tallies, complete := c.pat.whole }, pass := c.pat.pass + 1
          tallies := ⟨0, 0, 0, 0⟩, whole := true } }
    let m : Chip := { e with health := (e.raise (.passDone c.pat.pass)).health }
    c.endPass = if c.pat.mode = .single then m.stopPatrol .singleDone else m := by
  intro e m
  unfold Chip.endPass
  simp only [Chip.setPat]
  rw [Chip.ageWatch_eq]
  dsimp only
  rw [Chip.raise_congr (c := e) (d := { e with pat := { e.pat with tallies := c.pat.tallies, whole := c.pat.whole } }) rfl rfl]
  show (match c.pat.mode with
      | .single => m.stopPatrol .singleDone
      | .continuous => m
      | .off => m) = _
  cases c.pat.mode <;> rfl

/-! ## The end of a visit -/

/-- What the end of a visit leaves, no restart being asked for (R130, R131, R137). -/
theorem Chip.endVisit_eq (c : Chip) (o : ReadOutcome) (hr : c.pat.restartRequest = false) (hst : c.pat.st = .visiting ∨ c.pat.st = .halting) :
    let counted := { c.pat.tallies with
      visited := c.pat.tallies.visited + 1
      corrected := if o = .corrected then min 255 (c.pat.tallies.corrected + 1) else c.pat.tallies.corrected
      unc := if o = .uncorrectable then min 255 (c.pat.tallies.unc + 1) else c.pat.tallies.unc }
    let last := 8064 * c.devices ≤ c.pat.cursor + 1
    let ended : Chip :=
      { c with
        tr := { c.tr with patrolClaim := none }
        trk := { c.trk with watch := c.trk.watch.map fun (w : Option WatchEntry) => w.filter (fun e =>
          decide ((c.pat.pass + 1 - e.last).toNat < c.health.policy.forgetSpan)) }
        pat := { c.pat with
          cursor := 0, lastPass := some { tallies := counted, complete := c.pat.whole }, pass := c.pat.pass + 1
          tallies := ⟨0, 0, 0, 0⟩, whole := true } }
    let moved : Chip :=
      if last then { ended with health := (ended.raise (.passDone c.pat.pass)).health }
      else { c with
        tr := { c.tr with patrolClaim := none }, pat := { c.pat with cursor := c.pat.cursor + 1, tallies := counted } }
    let stopped := fun w => { moved with
      pat := { moved.pat with mode := .off, st := .stopped, paceTimer := none }
      health := (moved.raise (.patrolStopped w)).health
      bus := if c.cmd.work = .patrolHalt then moved.bus.commandDone else moved.bus
      cmd := if c.cmd.work = .patrolHalt then c.cmd.finished .ok ⟨word moved.pat.cursor, moved.pat.pass, 0, 0⟩ else c.cmd }
    let paced : Chip := { moved with pat := { moved.pat with st := .pacing } }
    (last → c.pat.mode = .single → c.endVisit o = stopped .singleDone)
      ∧ (¬ (last ∧ c.pat.mode = .single) → c.pat.st = .halting → c.endVisit o = stopped .halted)
      ∧ (¬ (last ∧ c.pat.mode = .single) → c.pat.st = .visiting → c.endVisit o = paced.patrolOn) := by
  intro counted last ended moved stopped paced
  have hcount : c.pat.tallies.count o = counted := by cases o <;> rfl
  have hstop : ∀ (d : Chip) (w : StopReason), d.cmd = c.cmd → (d.stopPatrol w).endPatrolHalt = { d with
      pat := { d.pat with mode := .off, st := .stopped, paceTimer := none }
      health := (d.raise (.patrolStopped w)).health
      bus := if c.cmd.work = .patrolHalt then d.bus.commandDone else d.bus
      cmd := if c.cmd.work = .patrolHalt then c.cmd.finished .ok ⟨word d.pat.cursor, d.pat.pass, 0, 0⟩ else d.cmd } := by
    intro d w hd
    unfold Chip.stopPatrol
    rw [Chip.raise_congr (c := d) (d := d.setPat { d.pat with mode := .off, st := .stopped, paceTimer := none }) rfl rfl]
    unfold Chip.endPatrolHalt
    show (if d.cmd.work = .patrolHalt then _ else _) = _
    by_cases hw : d.cmd.work = .patrolHalt
    · rw [if_pos hw, if_pos (by rw [← hd]; exact hw), if_pos (by rw [← hd]; exact hw), ← hd]; rfl
    · rw [if_neg hw, if_neg (by rw [← hd]; exact hw), if_neg (by rw [← hd]; exact hw)]; rfl
  let c1 : Chip := (c.clearPatrolClaim.setPat { c.clearPatrolClaim.pat with tallies := c.clearPatrolClaim.pat.tallies.count o })
  have hc1 : c1 = { c with tr := { c.tr with patrolClaim := none }, pat := { c.pat with tallies := counted } } := by
    show Chip.setPat _ _ = _
    unfold Chip.setPat Chip.clearPatrolClaim
    rw [← hcount]
  have hend : ∀ X : Chip, (X.raise (.passDone c.pat.pass)) = { X with health := (X.raise (.passDone c.pat.pass)).health } := fun X => Chip.raise_congr (c := X) rfl rfl _
  have hpass : last → c1.advanceCursor = if c.pat.mode = .single then (moved.stopPatrol .singleDone) else moved := by
    intro hl
    have hm : moved = { ended with health := (ended.raise (.passDone c.pat.pass)).health } := if_pos hl
    unfold Chip.advanceCursor
    rw [hc1]
    refine (if_neg (show ¬ (c.pat.cursor + 1 < 8064 * c.devices) from Nat.not_lt.2 hl)).trans ?_
    rw [Chip.endPass_eq, hm]
  have hnl : ¬ last → c1.advanceCursor = moved := by
    intro hl
    have hm : moved = { c with
        tr := { c.tr with patrolClaim := none }, pat := { c.pat with cursor := c.pat.cursor + 1, tallies := counted } } := if_neg hl
    unfold Chip.advanceCursor
    rw [hc1, hm]
    exact if_pos (show c.pat.cursor + 1 < 8064 * c.devices from Nat.not_le.1 hl)
  have hmc : moved.cmd = c.cmd ∧ moved.pat.st = c.pat.st := by
    show (if last then _ else _ : Chip).cmd = _ ∧ (if last then _ else _ : Chip).pat.st = _
    by_cases hl : last
    · rw [if_pos hl]; exact ⟨rfl, rfl⟩
    · rw [if_neg hl]; exact ⟨rfl, rfl⟩
  have hnst : ¬ (c.pat.st = .stopped) := by rcases hst with h | h <;> rw [h] <;> simp
  have hev : c.endVisit o = (if c1.advanceCursor.pat.st = .stopped then c1.advanceCursor.endPatrolHalt
      else if c.pat.st = .halting then (c1.advanceCursor.stopPatrol .halted).endPatrolHalt
      else (c1.advanceCursor.setPat { c1.advanceCursor.pat with st := .pacing }).patrolOn) := by
    unfold Chip.endVisit
    have : ¬ (c.clearPatrolClaim.pat.restartRequest = true) := by show ¬ (c.pat.restartRequest = true); rw [hr]; simp
    simp only [if_neg this]
    rfl
  refine ⟨?_, ?_, ?_⟩
  · intro hl hm
    rw [hev, hpass hl, if_pos hm]
    have : (moved.stopPatrol .singleDone).pat.st = .stopped := by
      unfold Chip.stopPatrol Chip.raise; split <;> rfl
    rw [if_pos this, hstop moved _ hmc.1, hmc.1]
  · intro hl hh
    have hadv : c1.advanceCursor = moved := by
      by_cases h : last
      · rw [hpass h, if_neg (fun hm => hl ⟨h, hm⟩)]
      · exact hnl h
    rw [hev, hadv, if_neg (by rw [hmc.2]; exact hnst), if_pos hh, hstop moved _ hmc.1, hmc.1]
  · intro hl hv
    have hadv : c1.advanceCursor = moved := by
      by_cases h : last
      · rw [hpass h, if_neg (fun hm => hl ⟨h, hm⟩)]
      · exact hnl h
    rw [hev, hadv, if_neg (by rw [hmc.2]; exact hnst), if_neg (by rw [hv]; simp)]
    rfl

/-- A scrub of a marked row issued at an idle port is dropped and ends its visit (R28, R129). -/
theorem Chip.settle_dropped_scrub {c : Chip} (hq : c.seq = Sequencer.reset) (x : PhysRow) (d : Option (List Word)) (hc : claimMarked c.tr.patrolClaim = true) :
    (c.issue .patrolScrub x d).settle 8 = (c.endVisit .corrected).settle 7 := by
  have hcf : (c.issue .patrolScrub x d).conditionFails .patrolScrub = true := hc
  have hs : (c.issue .patrolScrub x d).seq = Sequencer.reset.put .patrol (.waiting (request .patrolScrub x d)) := by rw [Chip.seq_issue, hq]; rfl
  have hg : (c.issue .patrolScrub x d).grant 4 = (c, [.patrolScrub]) := by
    rw [show (4 : Nat) = 3 + 1 from rfl]
    unfold Chip.grant
    have hw : (c.issue .patrolScrub x d).seq.firstWaiting = some (.patrol, request .patrolScrub x d) := by rw [hs]; rfl
    rw [hw]; simp only
    rw [if_pos (show (c.issue .patrolScrub x d).conditionFails (request .patrolScrub x d).purpose = true from hcf)]
    have hp : (c.issue .patrolScrub x d).putSlot .patrol .empty = c := by
      unfold Chip.putSlot; rw [hs]
      show ({ c with seq := Sequencer.reset } : Chip) = c
      rw [← hq]
    rw [hp, Chip.grant_of_none 3 (by rw [hq]; rfl)]; rfl
  rw [show (8 : Nat) = 7 + 1 from rfl]
  conv => lhs; unfold Chip.settle
  have hcu : (c.issue .patrolScrub x d).seq.current = none := by rw [hs]; rfl
  rw [hcu]; simp only
  rw [hg, if_neg (by simp)]; rfl

/-! ## The cursor row -/

/-- A cursor row that is RETIRED or under the repair claim is skipped first (R127). -/
theorem Chip.patrolOn_skip {c : Chip} (h1 : c.pat.st = .pacing) (h2 : c.pat.intervalOut = true) (h3 : c.seq.patrol = .empty)
    (h : c.lookup c.pat.cursor = .retired ∨ claimHolds c.tr.repairClaim c.pat.cursor = true) :
    c.patrolOn = Chip.handleCursor (c.tr.remap.length + 1) c.skipRow := by
  unfold Chip.patrolOn
  rw [show c.tr.remap.length + 2 = (c.tr.remap.length + 1) + 1 from rfl]
  conv => lhs; unfold Chip.handleCursor
  rw [if_pos (by simp [Chip.patrolReady, h1, h2, h3])]
  rcases h with h | h
  · rw [h]; rfl
  · cases (c.lookup c.pat.cursor).phys with
    | none => rfl
    | some p => simp [h]

/-- A cursor row with a physical row and no repair claim is visited (R127). -/
theorem Chip.handleCursor_visit {c : Chip} {x : PhysRow} (n : Nat) (h1 : c.pat.st = .pacing) (h2 : c.pat.intervalOut = true)
    (h3 : c.seq.patrol = .empty) (h4 : (c.lookup c.pat.cursor).phys = some x)
    (h5 : claimHolds c.tr.repairClaim c.pat.cursor = false) : c.handleCursor (n + 1) = c.beginVisit x := by
  unfold Chip.handleCursor
  rw [if_pos (by simp [Chip.patrolReady, h1, h2, h3])]
  rw [h4]; simp [h5]

end Sys2Proof.Machine
end

