-- ==== Sys2Proof/Laws/Watch.lean ====
section
/-! SUPPORT. The victim of a full watch table (R89). -/

namespace Sys2Proof.Machine

/-! ## The victim -/

/-- The victim of a full watch table (R89). -/
theorem weakest_of_lowest (pass : Word) (l : List (Option WatchEntry × Nat)) (v : WatchEntry) (i : Nat) (hn : (l.map Prod.snd).Nodup)
    (hm : (some v, i) ∈ l) (hb : ∀ w j, j ≠ i → (some w, j) ∈ l → v.weaker pass w = true ∧ w.weaker pass v = false) :
    weakest pass l = some (v, i) := by
  have sub : ∀ (l : List (Option WatchEntry × Nat)) e k, weakest pass l = some (e, k) → (some e, k) ∈ l := by
    intro l
    induction l with
    | nil => intro e k h; simp [weakest] at h
    | cons a l ih =>
      intro e k h
      obtain ⟨o, ia⟩ := a
      cases o with
      | none => exact List.mem_cons_of_mem _ (ih e k h)
      | some w =>
        unfold weakest at h
        cases hl : weakest pass l with
        | none => rw [hl] at h; simp at h; obtain ⟨rfl, rfl⟩ := h; simp
        | some p =>
          obtain ⟨e', i'⟩ := p
          rw [hl] at h; simp only at h
          split at h
          · simp at h; obtain ⟨rfl, rfl⟩ := h; exact List.mem_cons_of_mem _ (ih _ _ hl)
          · simp at h; obtain ⟨rfl, rfl⟩ := h; simp
  induction l with
  | nil => simp at hm
  | cons a l ih =>
    obtain ⟨o, ia⟩ := a
    simp only [List.map_cons, List.nodup_cons] at hn
    rcases List.mem_cons.1 hm with h | h
    · simp at h; obtain ⟨rfl, rfl⟩ := h
      unfold weakest
      cases hl : weakest pass l with
      | none => rfl
      | some p =>
        obtain ⟨e', i'⟩ := p
        have hmem := sub l e' i' hl
        have hne : i' ≠ i := by
          rintro rfl; exact hn.1 (List.mem_map.2 ⟨_, hmem, rfl⟩)
        have := (hb e' i' hne (List.mem_cons_of_mem _ hmem)).2
        simp [this]
    · have h1 := ih hn.2 h fun w j hj hw => hb w j hj (List.mem_cons_of_mem _ hw)
      have hne : ia ≠ i := by
        rintro rfl; exact hn.1 (List.mem_map.2 ⟨_, h, rfl⟩)
      cases o with
      | none => exact h1
      | some w =>
        unfold weakest; rw [h1]
        have := (hb w ia hne (by simp)).1
        simp [this]

end Sys2Proof.Machine
end

