-- ==== Sys2Proof/Tests/Slice0.lean ====
section
/-! SUPPORT. Small tests: the well-formedness checks, values of the spec, one step of every command, and for every obligation with hypotheses a state that meets them. -/

namespace Sys2Proof.Tests

open Sys2Proof.Machine

/-! ## Well-formedness: an ill-formed term for each check -/

theorem test_patch_must_rise :
    Instr.wellFormed (.rstnAssert [(3, 1), (3, 2)]) = false ∧ Instr.wellFormed (.powerLoss [(4, 1), (3, 2)]) = false
      ∧ Instr.wellFormed (.powerLoss [(3, 1), (4, 2)]) = true := by decide

theorem test_changed_bits_must_change :
    Instr.wellFormed (.visitReadDone [(3, 0)]) = false ∧ Instr.wellFormed (.visitReadDone [(3, 1)]) = true
      ∧ Instr.wellFormed (.readRowsReadDone [(4, 1), (3, 1)]) = false := by decide

theorem test_first_ready_wait_leaves_no_patch :
    Instr.wellFormed (.readyTimeout false [(0, 1)]) = false ∧ Instr.wellFormed (.readyTimeout true [(0, 1)]) = true
      ∧ Instr.wellFormed (.readyTimeout true [(1, 1), (0, 1)]) = false ∧ Instr.wellFormed (.readyTimeout false []) = true := by
  decide

theorem test_register_writes_of_other_rows_are_not_plain :
    Instr.wellFormed (.registerWrite 0x0C 5) = false ∧ Instr.wellFormed (.registerWrite 0x0E 5) = false
      ∧ Instr.wellFormed (.registerWrite 0x0F 5) = false ∧ Instr.wellFormed (.registerWrite 0x14 5) = false
      ∧ Instr.wellFormed (.registerWrite 0x18 0) = false := by decide

theorem test_control_and_command_writes_of_other_rows_are_not_plain :
    Instr.wellFormed (.registerWrite 0x0D 1) = false ∧ Instr.wellFormed (.registerWrite 0x0D 2) = false
      ∧ Instr.wellFormed (.registerWrite 0x0D 4) = true ∧ Instr.wellFormed (.registerWrite 0x01 0x7F) = false
      ∧ Instr.wellFormed (.registerWrite 0x01 0x77) = true := by decide

/-! ## States used below -/

/-- A part with N = 1 that is READY, both copies valid, nothing in progress. -/
def ready : State :=
  { Chip.resetBlocks true false 1 with
    dir := { DirectoryUnit.reset with
      mode := .idle, opState := .ready, validA := true, validB := true, seqA := 1, seqB := 2 }
    array := [], pending := [] }

/-- The ready part with PARAM0 to PARAM2. -/
def withParams (p0 p1 p2 : Word) : State :=
  { ready with cmd := { ready.cmd with params := ⟨p0, p1, p2, 0, 0, 0⟩ } }

/-- The ready part with an access in progress. -/
def carrying (p : Purpose) (x : PhysRow) (d : Option (List Word)) : State :=
  { ready with seq := Sequencer.carrying (request p x d) }

/-- A one-row transfer in a phase. -/
def oneRow (kind : TransferKind) (phase : RowPhase) (sp : Option SpareId) : Transfer :=
  { kind, row := 5, last := 5, done := 0, firstFail := none, fails := 0, extra := 0, phase, spare := sp }

/-- A state with this work in EXECUTING. -/
def working (w : Work) (s : State) : State := { s with cmd := { s.cmd with st := .executing, work := w } }

/-- Spare 0 of zone 0. -/
def spare0 : SpareId := ⟨0, 0, 0⟩

/-- Physical row 5 of device 0, the home row of logical row 5. -/
def row5 : PhysRow := ⟨0, 5⟩

/-- An AUTO job for row 5. -/
def job5 (sp : Option SpareId) : Job :=
  { row := 5, command := false, discard := false, origin := .read, data := some zeroRow, spare := sp, madeBad := 0 }

/-- A pending entry of row 5. -/
def entry5 (cause : Cause) : PendingEntry :=
  { row := 5, cause, source := .read, added := 0, starved := false, stuck := false, restarts := 0 }

/-- Row 5 pending. -/
def pending5 (cause : Cause) (s : State) : State := { s with trk := { s.trk with pendingList := [entry5 cause] } }

/-- A job in flight. -/
def jobbing (j : Job) (s : State) : State := { s with rep := { s.rep with job := some j } }

/-- A format in flight. -/
def formatting (f : FormatPhase) (s : State) : State := { s with dir := { s.dir with format := some ⟨f, false⟩ } }

/-- Row l RETIRED. -/
def retiredRow (l : Nat) (s : State) : State :=
  { s with tr := { s.tr with remap := [{ row := l, place := .retired, origin := .read, stamp := 0 }] } }

/-- Row 5 RETIRED. -/
def retired5 (s : State) : State := retiredRow 5 s

/-- Row 5 served by spare 0 of zone 0. -/
def spared5 (s : State) : State :=
  { s with tr := { s.tr with remap := [{ row := 5, place := .spared spare0, origin := .read, stamp := 0 }] } }

/-- Every present spare in a state. -/
def allSpares (st : SpareState) (s : State) : State :=
  { s with alloc := { zones := s.alloc.zones.map fun z => { z with spares := z.spares.map fun _ => st } } }

/-- The next state, or reset. -/
def after (o : Host.Outcome State Fault Refusal) : State :=
  match o with
  | .next t => t
  | _ => State.reset

/-- What a state shows of its command engine and port. -/
def look (s : State) : EngineState × ResultCode × Option Purpose :=
  (s.cmd.st, s.cmd.lastResult, s.seq.current.map fun x => x.2.purpose)

/-! ## Values of the spec -/

theorem test_status_after_reset : State.reset.readRegister 0x00 = 0xF001 := by decide

theorem test_home_row_of_13181 : homePhys 13181 = ⟨1, 5197⟩ ∧ homeZone 13181 = 13 := by decide

theorem test_check_code_words :
    encodeWord 0 = 0 ∧ encodeWord 1 = 0x230001 ∧ decodeWord 0x230001 = (.clean, 1)
      ∧ decodeWord 0x230000 = (.corrected, 1) ∧ decodeWord 0x230003 = (.corrected, 1)
      ∧ decodeWord 0x230002 = (.uncorrectable, 2) := by decide

theorem test_no_word_spells_a_command : decodeTableWord 16 0x10 = none ∧ ready.withFetchWord 16 0x10 = ready := by decide

/-! ## One step of every command -/

theorem test_power_and_reset :
    look (after (exec (.powerOn 2) ready)) = (.idle, .none, some .loadRead) ∧ (after (exec (.powerOn 2) ready)).devices = 3
      ∧ look (after (exec (.rstnAssert []) ready)) = (.idle, .none, none)
      ∧ look (after (exec (.rstnRelease 0) { ready with rstAsserted := true })) = (.idle, .none, some .loadRead)
      ∧ (after (exec (.powerLoss []) ready)).powered = false := by decide

theorem test_read_write_and_check_rows :
    look (after (exec .readRows (withParams 5 1 0))) = (.executing, .none, some .readRowsRead)
      ∧ look (after (exec .writeRows (withParams 5 1 0))) = (.dataIn, .none, none)
      ∧ look (after (exec .checkRows (withParams 5 1 0))) = (.executing, .none, some .checkRowsRead)
      ∧ look (after (exec .readRows (withParams 5 0 0))) = (.idle, .param, none)
      ∧ look (after (exec .readRows (withParams 8063 2 0))) = (.idle, .range, none) := by decide

theorem test_row_commands :
    (after (exec .queryRow (pending5 .host (withParams 5 0 0)))).cmd.results = ⟨0, 0xFFFF, 0x12, 0⟩
      ∧ look (after (exec .nominateRow (withParams 5 0 0))) = (.idle, .ok, none)
      ∧ look (after (exec .nominateRow (pending5 .host (withParams 5 0 0)))) = (.idle, .already, none)
      ∧ look (after (exec .relocateRow (withParams 5 0 0))) = (.executing, .none, none)
      ∧ look (after (exec .relocateRow (withParams 5 1 0))) = (.idle, .param, none) := by decide

theorem test_list_commands :
    look (after (exec .listMap (withParams 0 1 0))) = (.idle, .ok, none)
      ∧ look (after (exec .listPending (pending5 .host (withParams 0 1 0)))) = (.dataOut, .none, none)
      ∧ look (after (exec .listWatch (withParams 0 0 0))) = (.idle, .param, none)
      ∧ look (after (exec .listZones (withParams 31 1 0))) = (.dataOut, .none, none) := by decide

theorem test_patrol_commands :
    look (after (exec .patrolStart (withParams 1 20 1))) = (.idle, .ok, some .visitRead)
      ∧ look (after (exec .patrolHalt (withParams 0 0 0))) = (.idle, .ok, none)
      ∧ look (after (exec .patrolReport (withParams 1 0 0))) = (.idle, .ok, none)
      ∧ look (after (exec .patrolReport (withParams 2 0 0))) = (.idle, .param, none) := by decide

theorem test_directory_and_policy_commands :
    look (after (exec .commitDirectory ready)) = (.executing, .none, some .commitWrite)
      ∧ look (after (exec .formatArray ready)) = (.executing, .none, some .invalidatingWrite)
      ∧ look (after (exec .setPolicy { ready with cmd := { ready.cmd with params := ⟨3, 4, 4, 7, 0x0208, 10⟩ } }))
          = (.idle, .ok, none)
      ∧ look (after (exec .setPolicy ready)) = (.idle, .param, none) := by decide

theorem test_control :
    look (after (exec .stop (working (.transfer (oneRow .write .dataIn none)) ready))) = (.idle, .aborted, none)
      ∧ look (after (exec (.softReset true) (working (.transfer (oneRow .write .dataIn none)) ready))) = (.idle, .none, none)
      := by decide

theorem test_data_port :
    (after (exec .dataRead ready)).bus.dataOut = some 0 ∧ (after (exec .dataRead ready)).bus.portMisuse = true
      ∧ (after (exec (.dataWrite 7) ready)).bus.portMisuse = true
      ∧ (after (exec (.dataWrite 7) { ready with cmd := { ready.cmd with st := .dataIn } })).bus.buffer[0]? = some 7 := by
  decide

theorem test_register_writes :
    (after (exec (.eventEnableWrite 0x7F) ready)).bus.enable = 0x7F
      ∧ (after (exec (.eventsWrite 1) { ready with bus := { ready.bus with cmdDone := true } })).bus.cmdDone = false
      ∧ (after (exec (.identWrite 1) ready)).readRegister 0x18 = 1
      ∧ after (exec (.noticePop 9) ready) = ready
      ∧ (after (exec (.registerWrite 0x02 0x123) ready)).readRegister 0x02 = 0x123
      ∧ look (after (exec (.registerWrite 0x01 0x77) ready)) = (.idle, .param, none) := by decide

theorem test_timers_and_idle_engines :
    look (after (exec (.readyTimeout false []) (working (.transfer (oneRow .read .reading none))
        (carrying .readRowsRead row5 none)))) = (.idle, .arrayTimeout, none)
      ∧ look (after (exec .paceExpiry { ready with pat := { ready.pat with st := .pacing, paceTimer := some 20 } }))
          = (.idle, .none, some .visitRead)
      ∧ look (after (exec .commitDelayExpiry { ready with dir := { ready.dir with commitTimer := some 10 } }))
          = (.idle, .none, some .commitWrite)
      ∧ look (after (exec .repairJobStart (pending5 .host ready))) = (.idle, .none, some .sourceRead)
      ∧ look (after (exec .allocationServed (working (.transfer (oneRow .write .repairWait none)) (pending5 .unc ready))))
          = (.executing, .none, some (.repairQualify 0)) := by decide

theorem test_foreground_reads_done :
    look (after (exec (.readRowsReadDone []) (working (.transfer (oneRow .read .reading none))
        (carrying .readRowsRead row5 none)))) = (.dataOut, .none, none)
      ∧ look (after (exec (.readRowsReadDone [(31, 1)]) (working (.transfer (oneRow .read .reading none))
          (carrying .readRowsRead row5 none)))) = (.executing, .none, some .scrubWrite)
      ∧ look (after (exec (.checkRowsReadDone [(0, 3)]) (working (.transfer (oneRow .check .reading none))
          (carrying .checkRowsRead row5 none)))) = (.idle, .uncorrectable, none) := by decide

theorem test_foreground_writes_done :
    look (after (exec .scrubWriteDone (working (.transfer (oneRow .read .scrubbing none))
        (carrying .scrubWrite row5 (some zeroRow))))) = (.dataOut, .none, none)
      ∧ look (after (exec .ordinaryWriteDone (working (.transfer (oneRow .write .writing none))
          (carrying .ordinaryWrite row5 (some zeroRow))))) = (.idle, .ok, none)
      ∧ look (after (exec .inPlaceWriteDone (working (.transfer (oneRow .write .inPlace none))
          (carrying .inPlaceWrite row5 (some zeroRow))))) = (.executing, .none, some .readBack)
      ∧ look (after (exec (.readBackDone []) (working (.transfer (oneRow .write .readBack none))
          (carrying .readBack row5 none)))) = (.idle, .ok, none) := by decide

theorem test_write_repair_done :
    look (after (exec (.writeRepairQualifyDone []) (working (.transfer (oneRow .write .repairQualify (some spare0)))
        (carrying (.repairQualify 0) spare0.phys (some zeroRow))))) = (.executing, .none, some (.repairQualify 1))
      ∧ look (after (exec .writeRepairDataWriteDone (working (.transfer (oneRow .write .repairData (some spare0)))
          (carrying .repairDataWrite spare0.phys (some zeroRow))))) = (.executing, .none, some .repairVerify)
      ∧ (after (exec (.writeRepairVerifyDone []) (working (.transfer (oneRow .write .repairVerify (some spare0)))
          (carrying .repairVerify spare0.phys none)))).lookup 5 = .spared spare0 := by decide

theorem test_load_and_commit_done :
    look (after (exec (.loadReadDone []) State.reset)) = (.idle, .none, some .loadRead)
      ∧ look (after (exec .commitWriteDone { carrying .commitWrite (Copy.b.phys 101) (some zeroRow) with
          dir := { ready.dir with mode := .committing, commit := some ⟨.b, 3, 101, false, false, false⟩ } }))
          = (.idle, .none, some .commitReadBack)
      ∧ (after (exec (.commitReadBackDone []) { carrying .commitReadBack (Copy.b.phys 101) none with
          dir := { ready.dir with mode := .committing, commit := some ⟨.b, 3, 101, true, false, false⟩ } })).dir.opState
          = .degraded := by decide

theorem test_format_done :
    look (after (exec .invalidatingWriteDone (formatting (.invalidating .a)
        (carrying .invalidatingWrite (Copy.a.phys 0) (some zeroRow))))) = (.idle, .none, some .invalidatingWrite)
      ∧ look (after (exec .rowInitialisationDone (formatting (.rowInit 0)
          (carrying .rowInit ⟨0, 0⟩ (some zeroRow))))) = (.idle, .none, some .rowInit) := by decide

theorem test_repair_done :
    look (after (exec (.sourceReadDone []) (jobbing (job5 none) (pending5 .host (carrying .sourceRead row5 none)))))
        = (.idle, .none, some (.qualification 0))
      ∧ look (after (exec (.qualificationAccessDone []) (jobbing (job5 (some spare0))
          (carrying (.qualification 1) spare0.phys none)))) = (.idle, .none, some (.qualification 0))
      ∧ look (after (exec .copyWriteDone (jobbing (job5 (some spare0))
          (carrying .copyWrite spare0.phys (some zeroRow))))) = (.idle, .none, some .verifyRead)
      ∧ (after (exec (.verifyReadDone []) (jobbing (job5 (some spare0))
          (carrying .verifyRead spare0.phys none)))).lookup 5 = .spared spare0 := by decide

theorem test_discard_done :
    look (after (exec .zeroWriteDone (jobbing { job5 none with command := true } (working (.relocate 5)
        (carrying .zeroWrite row5 (some zeroRow)))))) = (.executing, .none, some .zeroReadBack)
      ∧ look (after (exec (.zeroReadBackDone []) (jobbing { job5 none with command := true } (working (.relocate 5)
          (carrying .zeroReadBack row5 none))))) = (.idle, .dataLost, none) := by decide

theorem test_patrol_done :
    (after (exec (.visitReadDone []) { carrying .visitRead ⟨0, 0⟩ none with
        pat := { ready.pat with st := .visiting } })).pat.cursor = 1
      ∧ look (after (exec (.visitReadDone [(0, 1)]) { carrying .visitRead ⟨0, 0⟩ none with
          pat := { ready.pat with st := .visiting } })) = (.idle, .none, some .patrolScrub)
      ∧ (after (exec .patrolScrubDone { carrying .patrolScrub ⟨0, 0⟩ (some zeroRow) with
          pat := { ready.pat with st := .visiting } })).pat.tallies = ⟨1, 0, 1, 0⟩ := by decide

theorem test_a_row_no_device_has_is_a_fault :
    exec (.visitReadDone []) (carrying .visitRead ⟨1, 0⟩ none) = .fault .noSuchRow := by rfl

theorem test_step_takes_the_front : step { ready with pending := [.eventEnableWrite 3, .stop] }
    = .next { ready with pending := [.stop], bus := { ready.bus with enable := 3 } } := by rfl

/-! ## For every obligation with hypotheses, states and operands that meet them -/

/-- The invariants' premises, with a step that goes on. -/
theorem test_witness_invariants :
    State.reset.arrayCanonical = true ∧ State.reset.seq.settled = true ∧ State.reset.countLegal = true
      ∧ State.reset.withinLimits = true ∧ step State.reset = .next State.reset := ⟨by decide, by decide, by decide, by decide, rfl⟩

/-- A write in progress that changes its row, and a command that is none of the four of the board. -/
theorem test_witness_array_and_board_change :
    (carrying .ordinaryWrite row5 (some [1])).arrayCanonical = true
      ∧ (after (exec .ordinaryWriteDone (working (.transfer (oneRow .write .writing none))
          (carrying .ordinaryWrite row5 (some [1]))))).array.read 5 ≠ blankRow
      ∧ (∀ b, Instr.ordinaryWriteDone ≠ .powerOn b) := ⟨by decide, by decide, fun _ h => nomatch h⟩

/-- RSTn asserted or not, supplied or not; a write cut off, a read cut off, an idle port. -/
theorem test_witness_power_and_reset :
    ready.rstAsserted = false ∧ ({ ready with rstAsserted := true } : State).rstAsserted = true
      ∧ ready.powered = true ∧ ({ ready with rstAsserted := true, powered := false } : State).powered = false
      ∧ ready.arrayCanonical = true ∧ ready.seq.current = none
      ∧ (carrying .visitRead row5 none).seq.current = some (.patrol, request .visitRead row5 none)
      ∧ (carrying .ordinaryWrite ⟨0, 8447⟩ (some zeroRow)).seq.current
          = some (.foreground, request .ordinaryWrite ⟨0, 8447⟩ (some zeroRow))
      ∧ PhysRow.inArray 1 ⟨0, 8447⟩ = true := by decide

/-- Words for each line of the table of R24. -/
theorem test_witness_syndromes :
    (syndrome (0x230001 : Stored) = 0 ∧ parity (0x230001 : Stored) = false)
      ∧ (syndrome (0x030001 : Stored) = 0 ∧ parity (0x030001 : Stored) = true)
      ∧ ((syndrome (0x220001 : Stored)).toNat = 1 ∧ parity (0x220001 : Stored) = true)
      ∧ ((syndrome (0x330001 : Stored)).toNat = 16 ∧ parity (0x330001 : Stored) = true)
      ∧ ((syndrome (0x230000 : Stored)).toNat = 3 ∧ parity (0x230000 : Stored) = true)
      ∧ ((syndrome (0x238001 : Stored)).toNat = 21 ∧ parity (0x238001 : Stored) = true)
      ∧ ((syndrome (0x160000 : Stored)).toNat = 22 ∧ parity (0x160000 : Stored) = true)
      ∧ ((syndrome (0x1F0000 : Stored)).toNat = 31 ∧ parity (0x1F0000 : Stored) = true)
      ∧ (syndrome (0x230002 : Stored) ≠ 0 ∧ parity (0x230002 : Stored) = false) := by decide

theorem test_witness_rows_and_outcomes :
    Memory.wf [] = true ∧ zeroRow.length = 32 ∧ PhysRow.inArray 4 ⟨3, 8191⟩ = true ∧ PhysRow.inArray 1 ⟨0, 0⟩ = true
      ∧ (0 < 8064 * 1 ∧ 32255 < 8064 * 4)
      ∧ ReadOutcome.uncorrectable ∈ [ReadOutcome.clean, .uncorrectable]
      ∧ (ReadOutcome.uncorrectable ∉ [ReadOutcome.clean, .corrected] ∧ ReadOutcome.corrected ∈ [ReadOutcome.clean, .corrected])
      ∧ ReadOutcome.corrected ∉ [ReadOutcome.clean] := by decide

/-- A busy part, an unloaded part, an unknown code, and a part that accepts. -/
theorem test_witness_taking_commands :
    State.reset.refuses = true ∧ State.reset.seq.settled = true ∧ ready.running = true ∧ ready.cmd.st = .idle
      ∧ Instr.readRows ∈ commandWrites ∧ (0 : Word) ∉ commandCodes ∧ (0xFFFF : Word) ∉ commandCodes
      ∧ ({ ready with dir := { ready.dir with opState := .unformatted } } : State).running = true
      ∧ ({ ready with dir := { ready.dir with opState := .foreign } } : State).cmd.st = .idle
      ∧ ready.accepts = true ∧ ready.seq.settled = true ∧ ready.dir.opState ≠ .loading ∧ ready.dir.opState ≠ .formatting := by
  decide

/-- Parameters at the edges of their ranges. -/
theorem test_witness_bad_parameters :
    (withParams 0 0 0).accepts = true ∧ (withParams 0 0 0).seq.settled = true ∧ (withParams 0 0 0).cmd.params.p1.toNat = 0
      ∧ 256 < (withParams 0 257 0).cmd.params.p1.toNat
      ∧ ((withParams 0 2 0).cmd.params.p1 ≠ 0 ∧ (withParams 0 2 0).cmd.params.p1 ≠ 1)
      ∧ ((withParams 0 0 0).cmd.params.p0 ≠ 1 ∧ (withParams 3 0 0).cmd.params.p0 ≠ 2)
      ∧ 255 < (withParams 1 256 0).cmd.params.p1.toNat ∧ (withParams 1 0 2).cmd.params.p2 ≠ 1
      ∧ (withParams 2 0 0).cmd.params.p0 ≠ 0 ∧ (withParams 1 0 0).cmd.params.p0.toNat < 2
      ∧ 15 < (withParams 16 0 0).cmd.params.p0.toNat ∧ 16 < (withParams 2 1 17).cmd.params.p2.toNat
      ∧ (8064 * (withParams 8063 2 0).devices ≤ 8063 + 2 - 1) ∧ 8064 * (withParams 8064 0 0).devices ≤ 8064 := by decide

/-- The data port in each engine state, before word 31 and at it. -/
theorem test_witness_data_port :
    ready.running = true ∧ ready.cmd.st ≠ .dataOut ∧ ready.cmd.st ≠ .dataIn ∧ ready.bus.pointer < 31
      ∧ (let s := working (.transfer { oneRow .read (.offering (.seen .clean)) none with last := 6 }) ready
         s.running = true ∧ (s.lookup 6).phys = some ⟨0, 6⟩ ∧ s.seq = Sequencer.reset ∧ s.cmd.stopRequest = false)
      ∧ (let s := working (.transfer (oneRow .write .dataIn none)) ready
         (s.lookup 5).phys = some row5 ∧ s.pendingUnc 5 = false ∧ s.seq = Sequencer.reset)
      ∧ ({ ready with bus := { ready.bus with pointer := 31 }, cmd := { ready.cmd with st := .dataOut } } : State).bus.pointer
          = 31 := by decide

/-- Counts with and without a failing row. -/
theorem test_witness_counts :
    (oneRow .read .reading none).firstFail = none
      ∧ ({ oneRow .read .reading none with firstFail := some (5, .retired) } : Transfer).firstFail = some (5, .retired) := by
  decide

/-- Notice queues of 0, 1, 15 and 16 records. -/
theorem test_witness_notice_queues :
    ready.health.queue = []
      ∧ (List.replicate 15 (⟨.uncFound 0, 0⟩ : Notice)).length < 16 ∧ (List.replicate 16 (⟨.uncFound 0, 0⟩ : Notice)).length = 16
      ∧ ∃ n rest, (List.replicate 16 (⟨.uncFound 0, 0⟩ : Notice)) = n :: rest :=
  ⟨by decide, by decide, by decide, _, _, rfl⟩

/-- A record of each kind at the head. -/
theorem test_witness_notice_kinds :
    ∀ b ∈ ([.repaired 5 0 spare0 true, .spareBad 31 15, .retired 5, .stuck 5, .uncFound 5, .pendingFull 5, .zoneExhausted 0,
        .gradeChange .failing, .directoryFail .b .sequence, .patrolStopped .format, .passDone 7] : List NoticeBody),
      ({ ready with health := { ready.health with queue := [⟨b, 3⟩] } } : State).readRegister 0x13 = 3 := by decide

/-- STOP's three cases, and a soft reset with a foreground access in progress. -/
theorem test_witness_stop_and_soft_reset :
    ready.cmd.st = .idle
      ∧ (let s := working (.transfer (oneRow .write .dataIn none)) ready
         s.cmd.st ≠ .idle ∧ s.running = true ∧ s.seq.settled = true ∧ (oneRow .write .dataIn none).spare = none)
      ∧ (working (.listing ⟨.map, 0, 1, 0, 1⟩) ready).cmd.work = .listing ⟨.map, 0, 1, 0, 1⟩
      ∧ (let s := working (.transfer (oneRow .read .reading none)) (carrying .readRowsRead row5 none)
         s.running = true ∧ s.seq = Sequencer.carrying (request .readRowsRead row5 none) ∧ s.dir.format = none
           ∧ s.pat.st = .stopped ∧ s.rep.job = none) := by decide

/-- QUERY ROW and NOMINATE ROW: the last row and the first past it; each test of R99. -/
theorem test_witness_row_commands :
    (withParams 8063 0 0).accepts = true ∧ (withParams 8063 0 0).cmd.params.p0.toNat < 8064 * (withParams 8063 0 0).devices
      ∧ 8064 * (withParams 8064 0 0).devices ≤ (withParams 8064 0 0).cmd.params.p0.toNat
      ∧ (let s : State := { withParams 5 0 0 with
            tr := { ready.tr with remap := [{ row := 5, place := .retired, origin := .read, stamp := 0 }] } }
         s.lookup 5 = .retired)
      ∧ ((pending5 .unc ready).trk.pendingList.findIdx? fun e => decide (e.row = 5)) = some 0
      ∧ (ready.lookup 5 ≠ .retired ∧ ready.pendingOf 5 = none ∧ ready.trk.pendingList.length < 32)
      ∧ (let s : State := { ready with trk := { ready.trk with pendingList := List.replicate 32 { entry5 .host with row := 9 } } }
         s.lookup 5 ≠ .retired ∧ s.pendingOf 5 = none ∧ 32 ≤ s.trk.pendingList.length) := by decide

/-- Lists that are empty and not, and the two parts of PATROL REPORT with and without a record. -/
theorem test_witness_list_and_report_commands :
    (withParams 0 1 0).accepts = true ∧ (withParams 0 1 0).cmd.params.p1 ≠ 0 ∧ ready.records .map = []
      ∧ (ready.records .zones).length = 32 ∧ ready.pat.lastPass = none ∧ (withParams 1 0 0).cmd.params.p0 = 1
      ∧ ({ ready with pat := { ready.pat with lastPass := some ⟨Tallies.zero, true⟩ } } : State).pat.lastPass
          = some ⟨Tallies.zero, true⟩ := by decide

/-- SET POLICY with every setting at an end of its range and the limits as they were. -/
theorem test_witness_set_policy :
    (let s : State := { ready with cmd := { ready.cmd with params := ⟨2, 15, 16, 0, 0x0208, 255⟩ } }
     s.accepts = true ∧ (Policy.ofParams s.cmd.params).inRange = true
       ∧ (Policy.ofParams s.cmd.params).cautionLimit = s.health.policy.cautionLimit
       ∧ (Policy.ofParams s.cmd.params).criticalLimit = s.health.policy.criticalLimit) := by decide

theorem test_witness_grades :
    Policy.default.criticalLimit < Policy.default.cautionLimit ∧ (∀ z ∈ ready.alloc.zones.take 8, z.grade ≠ .failing)
      ∧ ready.computedGrade ≠ .failing := by decide

/-- Runs of 1 and 256 rows, a RETIRED first row, and the two options of RELOCATE ROW. -/
theorem test_witness_transfers_and_relocate :
    (withParams 8063 1 0).accepts = true ∧ (withParams 8063 1 0).seq = Sequencer.reset
      ∧ (8063 + 1 ≤ 8064 * (withParams 8063 1 0).devices ∧ 0 + 256 ≤ 8064 * (withParams 0 256 0).devices)
      ∧ (ready.lookup 8063).phys = some ⟨0, 8175⟩
      ∧ (let s := retired5 (withParams 5 1 0)
         s.accepts = true ∧ s.seq = Sequencer.reset ∧ s.lookup s.cmd.params.p0.toNat = .retired ∧ s.cmd.params.p1 = 1)
      ∧ (let s := retired5 (withParams 5 2 0)
         s.lookup s.cmd.params.p0.toNat = .retired ∧ 1 < s.cmd.params.p1.toNat
           ∧ (s.lookup (s.cmd.params.p0.toNat + 1)).phys = some ⟨0, 6⟩)
      ∧ (pending5 .unc ready).pendingUnc 5 = true ∧ ready.pendingUnc 5 = false ∧ ready.lookup 5 ≠ .retired := by decide

/-- PATROL START from row 0 and from the cursor, and PATROL HALT in its states. -/
theorem test_witness_patrol_commands :
    (withParams 2 255 1).accepts = true ∧ (withParams 2 255 1).seq = Sequencer.reset ∧ (withParams 2 255 1).pat.st = .stopped
      ∧ ((withParams 2 255 1).lookup 0).phys = some ⟨0, 0⟩ ∧ claimHolds (withParams 2 255 1).tr.repairClaim 0 = false
      ∧ ({ ready with pat := { ready.pat with st := .pacing } } : State).pat.st = .pacing
      ∧ ({ ready with pat := { ready.pat with st := .halting } } : State).pat.st = .halting := by decide

/-- A commit trigger that starts a commit, dirty set and clear, and each choice of target. -/
theorem test_witness_commit :
    ready.seq = Sequencer.reset ∧ ready.inService = true ∧ ready.dir.mode = .idle ∧ ready.highestSeq ≠ 0xFFFFFFFF
      ∧ ready.accepts = true ∧ ready.cmd.work ≠ .commitWait
      ∧ ({ ready with dir := { ready.dir with commitTimer := some 10 } } : State).dir.commitTimer = some 10
      ∧ ready.dir.dirty = false ∧ ready.health.policy.commitDelay ≠ 0
      ∧ (ready.dir.validA = true ∧ ready.dir.validB = true ∧ ready.dir.seqA < ready.dir.seqB) := by decide

/-- FORMAT ARRAY with no commit in flight and with one. -/
theorem test_witness_format :
    ready.running = true ∧ ready.cmd.st = .idle ∧ ready.seq = Sequencer.reset ∧ ready.dir.mode = .idle
      ∧ (let s : State := { carrying .commitWrite (Copy.a.phys 0) none with dir := { ready.dir with mode := .committing } }
         s.seq.settled = true ∧ s.dir.mode = .committing ∧ s.dir.opState ≠ .formatting)
      ∧ (let s := formatting (.invalidating .b) (carrying .invalidatingWrite (Copy.b.phys 0) (some zeroRow))
         s.dir.format = some ⟨.invalidating .b, false⟩ ∧ s.health.grade = .good ∧ s.cmd.stopRequest = false)
      ∧ 8190 + 1 < 8192 * ready.devices := by decide

/-- The pace timer in PACING and in VISITING, and the ready timer on a transfer and on a visit. -/
theorem test_witness_timers :
    (let s : State := { ready with pat := { ready.pat with st := .pacing, paceTimer := some 20 } }
     s.pat.paceTimer = some 20 ∧ s.seq = Sequencer.reset ∧ (s.lookup s.pat.cursor).phys = some ⟨0, 0⟩
       ∧ claimHolds s.tr.repairClaim s.pat.cursor = false)
      ∧ ({ ready with pat := { ready.pat with st := .visiting, paceTimer := some 20 } } : State).seq.settled = true
      ∧ (let s := working (.transfer (oneRow .write .writing none)) (carrying .ordinaryWrite row5 (some zeroRow))
         s.seq = Sequencer.carrying (request .ordinaryWrite row5 (some zeroRow)) ∧ (oneRow .write .writing none).spare = none)
      ∧ (let s := carrying .visitRead row5 none
         s.seq = Sequencer.carrying (request .visitRead row5 none) ∧ s.pat.restartRequest = false ∧ s.cmd.work ≠ .patrolHalt)
      := by decide

/-- The idle engines' premises. -/
theorem test_witness_idle_engines :
    (let s := pending5 .host ready
     s.inService = true ∧ s.rep.st = .idle ∧ s.seq = Sequencer.reset ∧ s.rep.waiting = none
       ∧ s.health.policy.autoRepair = true
       ∧ (s.trk.pendingList.find? fun y => decide (y.cause ≠ .unc) && !y.starved) = some (entry5 .host))
      ∧ (let s := working (.transfer (oneRow .write .repairWait none)) (pending5 .unc ready)
         s.someTesting = false ∧ s.pendingUnc 5 = true ∧ s.chooseSpare (homeZone 5) = some spare0)
      ∧ ((ready.zone 31).spares = [] ∧ (ready.zone 7).spares[0]? = some .free) := by decide

/-- Reports of each kind. -/
theorem test_witness_reports :
    (ready.lookup 5).phys = some row5 ∧ (ready.lookup 5).phys ≠ some ⟨0, 6⟩ ∧ ready.pendingUnc 5 = false
      ∧ ready.pendingOf 5 = none ∧ ready.watchOf 5 = none ∧ ready.trk.watch.findIdx? Option.isNone = some 0
      ∧ (pending5 .host ready).pendingOf 5 = some (entry5 .host) ∧ (pending5 .unc ready).pendingOf 5 = some (entry5 .unc)
      ∧ ready.trk.pendingList.length < 32 := by decide

/-- The completions of the two read commands and of their writes. -/
theorem test_witness_foreground_completions :
    (let s := working (.transfer (oneRow .read .reading none)) (carrying .readRowsRead row5 none)
     s.seq = Sequencer.carrying (request .readRowsRead row5 none) ∧ row5.inArray s.devices = true
       ∧ s.cmd.stopRequest = false ∧ (s.array.deliver row5 []).outcome = .clean
       ∧ (s.array.deliver row5 [(31, 0x200000)]).outcome = .corrected ∧ s.health.policy.scrubOnRead = true
       ∧ claimHolds s.tr.repairClaim 5 = false ∧ (s.lookup 5).phys = some row5)
      ∧ (oneRow .check .reading none).last ≤ (oneRow .check .reading none).row
      ∧ (let s := working (.transfer (oneRow .write .writing none)) (carrying .ordinaryWrite row5 (some zeroRow))
         s.cmd.stopRequest = false ∧ row5.inArray s.devices = true)
      ∧ ({ oneRow .write .writing none with last := 6 } : Transfer).row < ({ oneRow .write .writing none with last := 6 } : Transfer).last
      := by decide

/-- CHECK ROWS before its last row: the next row readable, the next RETIRED and last, the next RETIRED with a readable one after
it; a scrub withheld for the repair claim, for the policy and for a lookup that gives another row; a scrub that CHECK ROWS made. -/
theorem test_witness_check_rows_go_on :
    (let s := working (.transfer { oneRow .check .reading none with last := 6 }) (carrying .checkRowsRead row5 none)
     s.cmd.work = .transfer { oneRow .check .reading none with last := 6 } ∧ s.cmd.stopRequest = false
       ∧ s.seq = Sequencer.carrying (request .checkRowsRead row5 none) ∧ (s.lookup 6).phys = some ⟨0, 6⟩
       ∧ (retiredRow 6 s).lookup 6 = .retired ∧ (retiredRow 6 s).cmd.stopRequest = false)
      ∧ (let s := retiredRow 6 (working (.transfer { oneRow .check .reading none with last := 7 }) (carrying .checkRowsRead row5 none))
         s.lookup 6 = .retired ∧ (s.lookup 7).phys = some ⟨0, 7⟩ ∧ s.seq = Sequencer.carrying (request .checkRowsRead row5 none))
      ∧ (let s := working (.transfer (oneRow .read .reading none)) (carrying .readRowsRead row5 none)
         (s.array.deliver row5 [(0, 1)]).outcome = .corrected
           ∧ claimHolds ({ s with tr := { s.tr with repairClaim := some { row := 5, overtaken := false } } } : State).tr.repairClaim 5 = true
           ∧ ({ s with health := { s.health with policy := { s.health.policy with scrubOnRead := false } } } : State).health.policy.scrubOnRead
               = false
           ∧ ((spared5 s).lookup 5).phys ≠ some row5 ∧ (spared5 s).health.policy.scrubOnRead = true)
      ∧ (let s := working (.transfer { oneRow .check .scrubbing none with last := 6 }) (carrying .scrubWrite row5 (some zeroRow))
         s.seq = Sequencer.carrying (request .scrubWrite row5 (some zeroRow)) ∧ s.cmd.stopRequest = false
           ∧ row5.inArray s.devices = true) := by decide

/-- Write-repair's completions: the patterns pass where the array holds them. -/
theorem test_witness_write_repair :
    (let a := Memory.write [] spare0.phys (patternRow 0xAAAA 0x5555)
     (a.deliver spare0.phys []).passes (patternRow 0xAAAA 0x5555) = true)
      ∧ (let a := Memory.write [] spare0.phys (patternRow 0x5555 0xAAAA)
         (a.deliver spare0.phys []).passes (patternRow 0x5555 0xAAAA) = true)
      ∧ (let s := working (.transfer (oneRow .write .repairVerify (some spare0))) (carrying .repairVerify spare0.phys none)
         (s.array.deliver spare0.phys []).passes s.bus.buffer = true ∧ s.lookup 5 = .home row5 ∧ s.tr.changes < 15
           ∧ spare0.phys.inArray s.devices = true)
      ∧ (spare0.index.val < (ready.zone spare0.globalZone).spares.length ∧ spare0.globalZone < ready.alloc.zones.length) := by
  decide +kernel

set_option maxRecDepth 20000 in
/-- A part whose remap table holds 128 RETIRED entries, and one that holds none. -/
theorem test_witness_retirement :
    ready.lookup 5 = .home row5 ∧ ready.tr.changes < 15 ∧ ready.retiredCount < 128 ∧ homeZone 5 < ready.alloc.zones.length
      ∧ (let s : State := { ready with tr := { ready.tr with
            remap := (List.range 128).map fun i => { row := 6 + i, place := .retired, origin := .read, stamp := 0 } } }
         s.lookup 5 ≠ .retired ∧ 128 ≤ s.retiredCount ∧ s.lookup 6 = .retired) := by
  decide +kernel

set_option maxRecDepth 20000 in
/-- The load's first, middle and last reads. -/
theorem test_witness_load :
    State.reset.seq = Sequencer.carrying (request .loadRead ⟨0, 8192⟩ none) ∧ State.reset.dir.loadIndex < 203 ∧ State.reset.dir.mode = .loading
      ∧ PhysRow.inArray State.reset.devices ⟨0, 8192⟩ = true
      ∧ (let s : State := { carrying .loadRead ⟨0, 8421⟩ none with
            dir := { DirectoryUnit.reset with loadIndex := 203, loadOkA := false, loadOkB := false } }
         s.dir.opState = .loading ∧ s.dir.mode = .loading ∧ PhysRow.inArray s.devices ⟨0, 8421⟩ = true
         ∧ s.dir.loadIndex = 203) := by decide

set_option maxRecDepth 20000 in
/-- A commit's accesses, with a read-back that passes and one that does not. -/
theorem test_witness_commit_accesses :
    (let j : CommitJob := ⟨.b, 3, 101, true, false, false⟩
     let s : State := { carrying .commitReadBack (Copy.b.phys 101) none with
       dir := { ready.dir with mode := .committing, commit := some j, image := List.replicate 102 zeroRow } }
     s.dir.commit = some j ∧ s.dir.format = none ∧ (Copy.b.phys 101).inArray s.devices = true
       ∧ s.readBackPasses j (s.array.deliver (Copy.b.phys 101) []) = true
       ∧ s.readBackPasses j (s.array.deliver (Copy.b.phys 101) [(0, 3)]) = false
       ∧ s.dir.validA = true ∧ s.dir.opState = .ready ∧ s.cmd.work = .none ∧ s.dir.commitRequest = false) := by decide

/-- A source read that finds a spare, and the job's later accesses. -/
theorem test_witness_repair_job :
    (let s := jobbing (job5 none) (pending5 .host (carrying .sourceRead row5 none))
     s.rep.job = some (job5 none) ∧ s.writeRepairActive = false ∧ s.someTesting = false
       ∧ (s.portFreed.report { row := 5, phys := row5, outcome := .clean, path := .read, readBack := false }).chooseSpare
           (homeZone 5) = some spare0)
      ∧ (let s := jobbing (job5 (some spare0)) (carrying .verifyRead spare0.phys none)
         s.rep.job = some (job5 (some spare0)) ∧ claimMarked s.tr.repairClaim = false
           ∧ (s.array.deliver spare0.phys []).passes zeroRow = true ∧ s.tr.changes < 15 ∧ s.lookup 5 ≠ .retired
           ∧ (retired5 s).lookup 5 = .retired ∧ (retired5 s).rep.job = some (job5 (some spare0)))
      ∧ (let s := jobbing (job5 (some spare0)) (pending5 .host (carrying .sourceRead row5 none))
         s.rep.job = some (job5 (some spare0)) ∧ (s.array.deliver row5 []).outcome ≠ .uncorrectable)
      ∧ (let s := jobbing (job5 none) (pending5 .host (carrying .sourceRead row5 none))
         (working (.transfer (oneRow .write .repairQualify (some spare0))) s).writeRepairActive = true
           ∧ (allSpares .testing s).someTesting = true ∧ (allSpares .testing s).rep.job = some (job5 none)) := by decide

/-- The DISCARD no-spare path's accesses, and a patrol's visit that is CLEAN and that is CORRECTED. -/
theorem test_witness_discard_and_visits :
    (let s := jobbing { job5 none with command := true } (carrying .zeroReadBack row5 none)
     s.rep.job = some { job5 none with command := true } ∧ s.cmd.stopRequest = false
       ∧ claimMarked s.tr.repairClaim = false ∧ (s.array.deliver row5 []).outcome ≠ .uncorrectable)
      ∧ (let s : State := { carrying .visitRead ⟨0, 8174⟩ none with pat := { ready.pat with st := .visiting, cursor := 8062 } }
         (s.array.deliver ⟨0, 8174⟩ []).outcome = .clean ∧ (s.array.deliver ⟨0, 8174⟩ [(7, 1)]).outcome = .corrected
           ∧ s.pat.intervalOut = false ∧ s.pat.cursor + 1 < 8064 * s.devices ∧ s.pat.restartRequest = false
           ∧ s.tr.patrolClaim = none) := by decide

/-! ## The widened and the later statements -/

/-- Zone 0 with this first spare. -/
def firstSpare (st : SpareState) (s : State) : State :=
  { s with alloc := { zones := s.alloc.zones.modify 0 fun z => { z with spares := z.spares.set 0 st } } }

/-- Another patrol engine. -/
def patrolling (p : PatrolEngine) (s : State) : State := { s with pat := p }

/-- At word 31 of a data phase. -/
def atWord31 (st : EngineState) (w : Work) (s : State) : State :=
  { s with bus := { s.bus with pointer := 31 }, cmd := { s.cmd with st, work := w } }

/-- A patrol engine in a state at a row. -/
def patrolAt (st : PatrolState) (mode : PatrolMode) (row : Nat) : PatrolEngine :=
  { PatrolEngine.reset with st, mode, cursor := row, pace := 20 }

/-- The repair claim on row 5, its mark set or clear. -/
def claimed5 (mark : Bool) (s : State) : State :=
  { s with tr := { s.tr with repairClaim := some { row := 5, overtaken := mark } } }

/-- Word 31 of a list fill with a next one and without; of READ ROWS before a RETIRED row; of a transfer to a RETIRED row and
to a row pending UNC, with a spare TESTING, a spare to be had and none. -/
theorem test_witness_word_31 :
    (let s := atWord31 .dataOut (.listing ⟨.zones, 0, 5, 0, 4⟩) ready
     s.running = true ∧ s.cmd.st = .dataOut ∧ s.bus.pointer = 31 ∧ s.seq.settled = true
       ∧ ((s.records .zones).drop 4).take 1 ≠ [] ∧ ((s.records .map).drop 0).take 1 = [])
      ∧ (let t := { oneRow .read (.offering (.seen .clean)) none with row := 4 }
         let s := atWord31 .dataOut (.transfer t) (retired5 ready)
         t.kind = .read ∧ s.cmd.stopRequest = false ∧ t.row < t.last ∧ s.lookup (t.row + 1) = .retired)
      ∧ (let s := atWord31 .dataIn (.transfer (oneRow .write .dataIn none)) (retired5 ready)
         s.running = true ∧ s.lookup 5 = .retired ∧ s.seq.settled = true ∧ s.seq = Sequencer.reset)
      ∧ (let s := atWord31 .dataIn (.transfer (oneRow .write .dataIn none)) (pending5 .unc ready)
         (s.lookup 5).phys = some row5 ∧ s.pendingUnc 5 = true ∧ s.someTesting = false
           ∧ s.chooseSpare (homeZone 5) = some spare0 ∧ (firstSpare .testing s).someTesting = true
           ∧ (allSpares .inUse s).someTesting = false ∧ (allSpares .inUse s).chooseSpare (homeZone 5) = none) := by
  decide +kernel

/-- A cycle of each kind, and a part that drives nothing. -/
theorem test_witness_bus_cycles :
    (let y : BusCycle := { first := 0x0C, last := 0x0C, write := false, overlap := false, data := 0 }
     y.write = false ∧ y.overlap = false ∧ ready.powered = true ∧ ready.rstAsserted = false
       ∧ ready.toChip.driven y = some 0 ∧ y.row = some .dataRead ∧ State.reset.driven { y with overlap := true } = none)
      ∧ ({ ready with powered := false } : State).powered = false ∧ ({ ready with rstAsserted := true } : State).rstAsserted = true
      ∧ (let s : State := { ready with cmd := { ready.cmd with st := .dataOut }, bus := { ready.bus with buffer := List.replicate 32 7 } }
         s.cmd.st = .dataOut ∧ s.readRegister 0x0C = 7 ∧ s.readRegister 0x0E = 0x0020 ∧ ready.cmd.st ≠ .dataOut) := by decide

/-- A soft reset at an idle and a busy port, with the patrol in each state, a spare held by a transfer and by a job, and a
format in each phase. -/
theorem test_witness_soft_reset :
    ready.running = true ∧ ready.seq.settled = true ∧ ready.dir.format = none ∧ ready.pat.st = .stopped
      ∧ (patrolling (patrolAt .halting .single 3) (carrying .visitRead ⟨0, 3⟩ none)).seq.settled = true
      ∧ (let s := patrolling (patrolAt .visiting .single 5) (carrying .visitRead row5 none)
         s.pat.st = .visiting ∧ s.seq.patrol = .inProgress (request .visitRead row5 none))
      ∧ (let s := patrolling (patrolAt .pacing .single 5) ready
         s.pat.st = .pacing ∧ s.seq.patrol = .empty ∧ s.seq = Sequencer.reset ∧ (s.lookup s.pat.cursor).phys = some row5)
      ∧ (let s := patrolling (patrolAt .pacing .single 5) (carrying .readRowsRead row5 none)
         s.seq.current ≠ none ∧ s.seq.settled = true ∧ s.seq.patrol = .empty)
      ∧ (let s := { carrying .readRowsRead row5 none with
            seq := { (carrying .readRowsRead row5 none).seq with patrol := .waiting (request .visitRead row5 none) } }
         s.seq.settled = true ∧ s.seq.current ≠ none ∧ s.seq.patrol = .waiting (request .visitRead row5 none))
      ∧ (jobbing (job5 (some spare0)) ready).rep.job.bind Job.spare = some spare0
      ∧ (let s := formatting (.rowInit 7) { carrying .rowInit ⟨0, 7⟩ (some zeroRow) with
            dir := { ready.dir with opState := .formatting } }
         s.dir.format = some ⟨.rowInit 7, false⟩ ∧ s.dir.opState = .formatting ∧ s.pat.st = .stopped
           ∧ s.seq.foreground = .inProgress (request .rowInit ⟨0, 7⟩ (some zeroRow)))
      ∧ (let s := formatting .waitCommit { carrying .commitWrite (Copy.a.phys 0) (some zeroRow) with
            dir := { ready.dir with opState := .formatting } }
         s.dir.format = some ⟨.waitCommit, false⟩ ∧ s.seq.settled = true ∧ s.seq.foreground = .empty) := by decide

/-- SET POLICY with another caution limit, and a regrade that changes the device grade. -/
theorem test_witness_changed_limits_and_regrade :
    (let s : State := { ready with cmd := { ready.cmd with params := ⟨3, 4, 4, 7, 0x0210, 10⟩ } }
     s.accepts = true ∧ s.seq.settled = true ∧ (Policy.ofParams s.cmd.params).inRange = true
       ∧ (Policy.ofParams s.cmd.params).cautionLimit ≠ s.health.policy.cautionLimit)
      ∧ ready.computedGrade = ready.health.grade ∧ (retired5 ready).computedGrade ≠ (retired5 ready).health.grade
      ∧ spare0.globalZone < ready.alloc.zones.length
      ∧ ((ready.setSpare spare0 .testing).zone 0).free ≠ (ready.zone 0).free
      ∧ ((ready.setSpare spare0 .free).zone 0).free = (ready.zone 0).free
      ∧ ((pending5 .unc ready).pendingOf 5).isSome = true ∧ 0 < 8 * ready.devices ∧ ready.alloc.zones[0]?.isSome = true := by
  decide +kernel

/-- A commit trigger at the sequence limit, while COMMITTING, and out of service. -/
theorem test_witness_commit_refused :
    (let s : State := { ready with dir := { ready.dir with seqB := 0xFFFFFFFF, commitTimer := some 10 } }
     s.seq.settled = true ∧ s.inService = true ∧ s.dir.mode = .idle ∧ s.highestSeq = 0xFFFFFFFF ∧ s.accepts = true
       ∧ s.dir.commitTimer = some 10 ∧ s.cmd.work ≠ .commitWait)
      ∧ (let s : State := { carrying .commitWrite (Copy.b.phys 0) (some zeroRow) with
            dir := { ready.dir with mode := .committing, commitTimer := some 10 } }
         s.seq.settled = true ∧ s.inService = true ∧ s.dir.mode = .committing ∧ s.accepts = true)
      ∧ (let s : State := { ready with dir := { ready.dir with opState := .formatting, commitTimer := some 10 } }
         s.inService = false ∧ s.seq.settled = true) := by decide

/-- An image with a remap slot and a pending slot in use, and a spare of each stored state. -/
theorem test_witness_image_slots :
    (spared5 ready).tr.remap[0]?.isSome = true ∧ (spared5 ready).tr.remap[639]? = none
      ∧ (pending5 .unc ready).trk.pendingList[0]? = some (entry5 .unc) ∧ (pending5 .unc ready).trk.pendingList[31]? = none
      ∧ (ready.zone 7).spares[15]? = some .free ∧ ((allSpares .bad ready).zone 0).spares[0]? = some .bad
      ∧ 8 * ready.devices ≤ 8 := by decide

/-- The pace timer at a RETIRED cursor row, and at one that is the last of a SINGLE pass; a visit that times out with a
restart waiting. -/
theorem test_witness_skips_and_visit_timeouts :
    (let s := retired5 (patrolling { patrolAt .pacing .single 5 with paceTimer := some 3 } ready)
     s.pat.paceTimer = some 3 ∧ s.pat.st = .pacing ∧ s.seq = Sequencer.reset ∧ s.lookup s.pat.cursor = .retired
       ∧ s.pat.cursor + 1 < 8064 * s.devices ∧ (s.lookup (s.pat.cursor + 1)).phys = some ⟨0, 6⟩
       ∧ claimHolds s.tr.repairClaim (s.pat.cursor + 1) = false)
      ∧ (let s := claimed5 false (patrolling { patrolAt .pacing .single 5 with paceTimer := some 3 } ready)
         claimHolds s.tr.repairClaim s.pat.cursor = true)
      ∧ (let s : State := patrolling { patrolAt .pacing .single 8063 with paceTimer := some 3 } { ready with
            tr := { ready.tr with repairClaim := some { row := 8063, overtaken := false } } }
         claimHolds s.tr.repairClaim s.pat.cursor = true ∧ 8064 * s.devices ≤ s.pat.cursor + 1 ∧ s.pat.mode = .single)
      ∧ (let s := patrolling { patrolAt .visiting .single 5 with restartRequest := true } (carrying .visitRead row5 none)
         s.seq = Sequencer.carrying (request .visitRead row5 none) ∧ s.pat.restartRequest = true
           ∧ (s.lookup 0).phys = some ⟨0, 0⟩ ∧ claimHolds s.tr.repairClaim 0 = false) := by decide

/-- A COMMAND job waiting for a row of each kind. -/
theorem test_witness_command_jobs :
    (let s : State := { working (.relocate 5) ready with rep := { ready.rep with waiting := some (5, true) } }
     s.inService = true ∧ s.rep.st = .idle ∧ s.seq = Sequencer.reset ∧ s.rep.waiting = some (5, true)
       ∧ s.cmd.stopRequest = false ∧ (s.lookup 5).phys = some row5 ∧ s.pendingOf 5 = none ∧ s.trk.pendingList.length < 32
       ∧ (retired5 s).lookup 5 = .retired ∧ (pending5 .host s).pendingOf 5 = some (entry5 .host)
       ∧ (pending5 .unc s).pendingOf 5 = some (entry5 .unc) ∧ s.writeRepairActive = false ∧ s.someTesting = false
       ∧ s.chooseSpare (homeZone 5) = some spare0)
      ∧ (let s : State := { ready with
            trk := { ready.trk with pendingList := List.replicate 32 { entry5 .host with row := 9 } } }
         s.lookup 5 ≠ .retired ∧ s.pendingOf 5 = none ∧ 32 ≤ s.trk.pendingList.length) := by decide

/-- An allocation that fails: for write-repair, and for a job of a row RETIRED, not pending, REPEAT and UNC. -/
theorem test_witness_no_spare :
    (let s := allSpares .bad (working (.transfer (oneRow .write .repairWait none)) (pending5 .unc ready))
     s.someTesting = false ∧ s.seq = Sequencer.reset ∧ (s.lookup 5).phys = some row5 ∧ s.pendingUnc 5 = true
       ∧ s.chooseSpare (homeZone 5) = none)
      ∧ (let s := allSpares .bad (jobbing (job5 none) { ready with rep := { ready.rep with st := .allocate } })
         s.rep.job = some (job5 none) ∧ s.rep.st = .allocate ∧ s.seq = Sequencer.reset ∧ s.someTesting = false
           ∧ s.cmd.work = .none ∧ (job5 none).spare = none ∧ s.cmd.stopRequest = false
           ∧ s.chooseSpare (homeZone 5) = none ∧ s.lookup 5 ≠ .retired ∧ s.pendingOf 5 = none
           ∧ (retired5 s).lookup 5 = .retired ∧ (pending5 .repeat s).pendingOf 5 = some (entry5 .repeat)
           ∧ (pending5 .unc s).pendingOf 5 = some (entry5 .unc) ∧ claimMarked (claimed5 false s).tr.repairClaim = false)
      ∧ (jobbing (job5 none) ready).chooseSpare (homeZone 5) = some spare0 := by decide +kernel

/-- A home zone with no FREE spare beside one that may lend, and beside none; an EXHAUSTED mark clear and set. -/
theorem test_witness_allocation :
    (let s : State := { allSpares .inUse ready with
        alloc := { zones := (allSpares .inUse ready).alloc.zones.modify 3 fun z =>
          { z with spares := List.replicate 16 .free } }
        health := { ready.health with policy := { ready.health.policy with borrow := true } } }
     .free ∉ (s.zone 0).spares ∧ s.health.policy.borrow = true ∧ (s.zone 3).spares.length ≤ 16 ∧ 3 / 8 = 0 / 8
       ∧ s.health.policy.lendReserve < (s.zone 3).free ∧ s.chooseSpare 0 = some ⟨0, 3, 0⟩)
      ∧ (let s : State := { allSpares .inUse ready with
            health := { ready.health with policy := { ready.health.policy with borrow := true } } }
         (∀ g < 32, (s.zone g).free = 0) ∧ s.chooseSpare 0 = none)
      ∧ (ready.zone 0).spares[spare0.index.val]? = some .free ∧ spare0.globalZone < ready.alloc.zones.length
      ∧ (ready.zone 0).exhausted = false
      ∧ (Chip.zone { ready.toChip with alloc := { zones := ready.alloc.zones.modify 0 fun z => { z with exhausted := true } } }
          0).exhausted = true := by decide +kernel

/-- Reports of pending rows, of watched rows below and at the threshold, with a full watch table and with a full list. -/
theorem test_witness_later_reports :
    (let watching := fun (n : Nat) => ({ ready with trk := { ready.trk with
        watch := ready.trk.watch.set 0 (some { row := 5, count := n, last := 0 }) } } : State)
     (watching 1).watchOf 5 = some { row := 5, count := 1, last := 0 } ∧ (watching 1).trk.watch.findIdx? (slotHolds 5) = some 0
       ∧ (watching 1).pendingOf 5 = none ∧ min 15 (1 + 1) < (watching 1).health.policy.watchThreshold
       ∧ (watching 2).health.policy.watchThreshold ≤ min 15 (2 + 1) ∧ ready.trk.pendingList.length < 32)
      ∧ (let s : State := { ready with trk := { ready.trk with
            watch := (List.range 64).map fun i => some { row := 100 + i, count := 2, last := 0 } } }
         s.watchOf 5 = none ∧ s.trk.watch.findIdx? Option.isNone = none
           ∧ s.trk.watch[0]? = some (some { row := 100, count := 2, last := 0 }))
      ∧ (let s : State := { ready with
            trk := { ready.trk with pendingList := (List.range 32).map fun i => { entry5 .host with row := 100 + i } } }
         s.pendingOf 5 = none ∧ 32 ≤ s.trk.pendingList.length
           ∧ (s.trk.pendingList.find? fun e => decide (e.cause ≠ .unc) && !claimHolds s.tr.repairClaim e.row)
               = some { entry5 .host with row := 100 })
      ∧ (let s : State := { ready with
            trk := { ready.trk with pendingList := (List.range 32).map fun i => { entry5 .unc with row := 100 + i } } }
         32 ≤ s.trk.pendingList.length ∧ ∀ e ∈ s.trk.pendingList, e.cause = .unc) := by decide +kernel

/-- A SPARED row, its table ascending; a change count of 14, 15 and 16 with the directory unit IDLE and COMMITTING. -/
theorem test_witness_spared_rows :
    (spared5 ready).lookup 5 = .spared spare0 ∧ (spared5 ready).tr.remap.map RemapEntry.row = [5]
      ∧ (spared5 ready).retiredCount < 128 ∧ (spared5 ready).tr.changes < 15 ∧ 0 < ready.alloc.zones.length
      ∧ (let s : State := { spared5 ready with tr := { (spared5 ready).tr with changes := 15 } }
         s.inService = true ∧ s.tr.changes = 15 ∧ s.dir.mode = .idle ∧ s.highestSeq ≠ 0xFFFFFFFF ∧ s.seq.directory = .empty
           ∧ s.lookup 5 ≠ .retired
           ∧ ({ s with dir := { s.dir with mode := .committing } } : State).dir.mode = .committing)
      ∧ ({ ready with tr := { ready.tr with changes := 16 } } : State).tr.changes = 16 := by decide

/-- Read-backs that are UNCORRECTABLE. -/
theorem test_witness_unreadable :
    (let s := working (.transfer (oneRow .write .readBack none)) (carrying .readBack row5 none)
     s.seq = Sequencer.carrying (request .readBack row5 none) ∧ s.cmd.stopRequest = false ∧ row5.inArray s.devices = true
       ∧ (s.array.deliver row5 [(0, 3)]).outcome = .uncorrectable)
      ∧ (let s := jobbing { job5 none with command := true } (working (.relocate 5) (carrying .zeroReadBack row5 none))
         s.rep.job = some { job5 none with command := true } ∧ s.cmd.work ≠ .commitWait ∧ s.cmd.stopRequest = false
           ∧ claimMarked s.tr.repairClaim = false ∧ (s.array.deliver row5 [(0, 3)]).outcome = .uncorrectable) := by decide

/-- The rows a commit of the ready part writes, with this sequence number. -/
def savedRows (seq : BitVec 32) : List (List Word) := ready.imageOf seq

/-- A part at its last load read, with copy A in its buffer and copy B read but for its last row. -/
def loading (a b : BitVec 32) : State :=
  { carrying .loadRead ⟨0, 8421⟩ none with
    array := Memory.write [] ⟨0, 8421⟩ ((savedRows b).getD 101 [])
    dir := { DirectoryUnit.reset with
      loadIndex := 203, loadOkA := true, loadOkB := true, loadBuffer := savedRows a, image := (savedRows b).take 101 } }

set_option maxRecDepth 100000 in
/-- The last load read, with both copies valid and read by their layout. -/
theorem test_witness_loads :
    (let s := loading 7 8
     s.seq = Sequencer.carrying (request .loadRead ⟨0, 8421⟩ none) ∧ PhysRow.inArray s.devices ⟨0, 8421⟩ = true
       ∧ s.dir.mode = .loading ∧ s.dir.loadIndex = 203 ∧ s.dir.opState = .loading
       ∧ (s.array.deliver ⟨0, 8421⟩ []).words = (savedRows 8).getD 101 []
       ∧ ((s.array.deliver ⟨0, 8421⟩ []).outcomes.all fun o => decide (o ≠ .uncorrectable)) = true)
      ∧ ((judgeCopy true (savedRows 7)).map Loaded.seq = some 7 ∧ (judgeCopy true (savedRows 8)).map Loaded.seq = some 8
        ∧ judgeCopy false (savedRows 8) = none ∧ (judgeCopy true (savedRows 0)).isSome = false
        ∧ (judgeCopy true (savedRows 8)).map Loaded.devices = some ready.devices
        ∧ ((readContent (savedRows 8)).map Loaded.lawful = some true)) := by decide +kernel

/-- A commit's end by each outcome, with and without a request for the next. -/
theorem test_witness_commit_ends :
    (let j : CommitJob := ⟨.b, 3, 101, true, false, false⟩
     let s : State := { carrying .commitReadBack (Copy.b.phys 101) none with
       dir := { ready.dir with mode := .committing, commit := some j, image := List.replicate 102 zeroRow } }
     s.dir.commit = some j ∧ s.dir.format = none ∧ (Copy.b.phys 101).inArray s.devices = true
       ∧ s.readBackPasses j (s.array.deliver (Copy.b.phys 101) []) = true
       ∧ s.readBackPasses j (s.array.deliver (Copy.b.phys 101) [(0, 3)]) = false ∧ s.dir.commitRequest = false
       ∧ ({ s with dir := { s.dir with commitRequest := true } } : State).dir.commitRequest = true ∧ s.highestSeq ≠ 0xFFFFFFFF)
      ∧ (carrying .commitWrite (Copy.b.phys 9) (some zeroRow)).seq
          = Sequencer.carrying (request .commitWrite (Copy.b.phys 9) (some zeroRow)) := by decide

/-- The end of a format's initialisation, the end of its commits, and its early ends. -/
theorem test_witness_format_ends :
    (let s := formatting (.rowInit 8191) (carrying .rowInit ⟨0, 8191⟩ (some zeroRow))
     s.dir.format = some ⟨.rowInit 8191, false⟩ ∧ s.cmd.stopRequest = false ∧ PhysRow.inArray s.devices ⟨0, 8191⟩ = true
       ∧ 8192 * s.devices ≤ 8191 + 1)
      ∧ (let j : CommitJob := ⟨.a, 1, 101, true, false, true⟩
         let s := formatting (.committing .a) (working .format { carrying .commitReadBack (Copy.a.phys 101) none with
            dir := { ready.dir with
              mode := .committing, opState := .formatting, commit := some j, image := List.replicate 102 zeroRow } })
         s.dir.commit = some j ∧ s.dir.format = some ⟨.committing .a, false⟩ ∧ s.cmd.work = .format
           ∧ s.dir.opState = .formatting ∧ (Copy.a.phys 101).inArray s.devices = true
           ∧ s.readBackPasses j (s.array.deliver (Copy.a.phys 101) []) = true
           ∧ s.readBackPasses j (s.array.deliver (Copy.a.phys 101) [(0, 3)]) = false
           ∧ s.running = true ∧ s.cmd.st ≠ .idle ∧ s.cmd.held = none)
      ∧ (let s := formatting (.invalidating .a) (working .format { carrying .invalidatingWrite (Copy.a.phys 0) (some zeroRow) with
            dir := { ready.dir with opState := .formatting } })
         s.seq = Sequencer.carrying (request .invalidatingWrite (Copy.a.phys 0) (some zeroRow)) ∧ s.running = true
           ∧ ({ s with cmd := { s.cmd with stopRequest := true } } : State).cmd.stopRequest = true) := by decide

/-- Tests that fail, with another spare to be had and with none. -/
theorem test_witness_failed_tests :
    (let s := jobbing (job5 (some spare0)) (firstSpare .testing (carrying (.qualification 1) spare0.phys none))
     s.rep.job = some (job5 (some spare0)) ∧ s.cmd.stopRequest = false ∧ spare0.phys.inArray s.devices = true
       ∧ s.writeRepairActive = false ∧ (s.array.deliver spare0.phys []).passes (patternRow 0xAAAA 0x5555) = false
       ∧ (s.array.deliver spare0.phys []).passes (patternRow 0x5555 0xAAAA) = false
       ∧ (s.array.deliver spare0.phys [(0, 3)]).passes zeroRow = false
       ∧ (s.portFreed.spoilSpare spare0).someTesting = false
       ∧ (s.portFreed.spoilSpare spare0).chooseSpare (homeZone 5) = some ⟨0, 0, 1⟩)
      ∧ (let s := working (.transfer (oneRow .write .repairQualify (some spare0)))
            (firstSpare .testing (allSpares .bad (carrying (.repairQualify 1) spare0.phys none)))
         s.cmd.work = .transfer (oneRow .write .repairQualify (some spare0)) ∧ s.cmd.stopRequest = false
           ∧ (s.lookup 5).phys = some row5 ∧ (s.portFreed.spoilSpare spare0).chooseSpare (homeZone 5) = none) := by
  decide +kernel

/-- A job that is overtaken with each count of restarts and without an entry, and one whose source cannot be read. -/
theorem test_witness_overtaken_jobs :
    (let s := claimed5 true (jobbing (job5 (some spare0)) (pending5 .host (carrying .copyWrite spare0.phys (some zeroRow))))
     s.rep.job = some (job5 (some spare0)) ∧ s.cmd.stopRequest = false ∧ spare0.phys.inArray s.devices = true
       ∧ claimMarked s.tr.repairClaim = true ∧ s.pendingOf 5 = some (entry5 .host) ∧ (entry5 .host).restarts < 3
       ∧ (s.lookup 5).phys = some row5 ∧ (job5 (some spare0)).discard = false
       ∧ ({ s with trk := { s.trk with pendingList := [{ entry5 .host with restarts := 3 }] } } : State).pendingOf 5
           = some { entry5 .host with restarts := 3 }
       ∧ ({ s with trk := { s.trk with pendingList := [] } } : State).pendingOf 5 = none)
      ∧ (let s := jobbing (job5 none) (pending5 .host (carrying .sourceRead row5 none))
         s.seq = Sequencer.carrying (request .sourceRead row5 none) ∧ row5.inArray s.devices = true
           ∧ (s.array.deliver row5 [(0, 3)]).outcome = .uncorrectable)
      ∧ (let s := claimed5 true (jobbing (job5 (some spare0)) (carrying .verifyRead spare0.phys none))
         (s.array.deliver spare0.phys []).passes ((job5 (some spare0)).data.getD zeroRow) = true) := by decide

/-- A visit's end at the last row and before it, in VISITING and HALTING, its read CLEAN and UNCORRECTABLE, its scrub dropped
and done, and with a restart waiting. -/
theorem test_witness_visit_ends :
    (let s := patrolling (patrolAt .visiting .single 8063) (carrying .visitRead ⟨0, 8175⟩ none)
     PhysRow.inArray s.devices ⟨0, 8175⟩ = true ∧ s.pat.st = .visiting
       ∧ s.seq = Sequencer.carrying (request .visitRead ⟨0, 8175⟩ none)
       ∧ (s.array.deliver ⟨0, 8175⟩ []).outcome = .clean ∧ (s.array.deliver ⟨0, 8175⟩ [(0, 3)]).outcome = .uncorrectable
       ∧ s.pat.restartRequest = false ∧ 8064 * s.devices ≤ s.pat.cursor + 1 ∧ s.pat.mode = .single)
      ∧ (let s : State := patrolling { patrolAt .halting .continuous 5 with intervalOut := true }
            { carrying .visitRead row5 none with
              tr := { ready.tr with patrolClaim := some { row := 5, overtaken := true } } }
         s.pat.st = .halting ∧ (s.array.deliver row5 [(0, 1)]).outcome = .corrected ∧ claimMarked s.tr.patrolClaim = true
           ∧ ¬ (8064 * s.devices ≤ s.pat.cursor + 1) ∧ s.pat.intervalOut = true ∧ (s.lookup 6).phys = some ⟨0, 6⟩
           ∧ claimHolds s.tr.repairClaim 6 = false)
      ∧ (let s := patrolling { patrolAt .visiting .continuous 5 with restartRequest := true }
            (carrying .patrolScrub row5 (some zeroRow))
         s.pat.restartRequest = true ∧ s.seq = Sequencer.carrying (request .patrolScrub row5 (some zeroRow))
           ∧ (s.lookup 0).phys = some ⟨0, 0⟩ ∧ claimHolds s.tr.repairClaim 0 = false) := by decide

/-! ## The laws, STOP in EXECUTING, grants and abandoned work -/

/-- The ready part keeps every law, and a step of it goes on. -/
theorem test_witness_lawful : ready.lawful ∧ step ready = .next ready :=
  ⟨⟨by decide, ⟨(fun _ _ h => nomatch h), fun _ h => (Bool.false_ne_true h).elim⟩, (Chip.good_iff ready.toChip).2
    (Chip.Lawful.redirect (c := Chip.resetBlocks true false 1) (Chip.good_resetBlocks true false 1) rfl (fun h => absurd rfl h)
      (fun h => nomatch h) (fun _ => rfl) (fun _ h => nomatch h))⟩, rfl⟩

/-- A visit of row 6 in progress, and these requests waiting behind it. -/
def queued (fg dir rep : Slot) (s : State) : State :=
  { s with seq := { Sequencer.carrying (request .visitRead ⟨0, 6⟩ none) with foreground := fg, directory := dir, repair := rep } }

/-- Waiting for row 5. -/
def waits (p : Purpose) : Slot := .waiting (request p row5 none)

/-- A STOP pending. -/
def stopping (s : State) : State := { s with cmd := { s.cmd with stopRequest := true } }

/-- The job of a RELOCATE ROW for row 5. -/
def command5 (sp : Option SpareId) : Job := { job5 sp with command := true }

/-- STOP of a transfer in each phase: its request held, in progress, waiting, and waiting to read back. -/
theorem test_witness_stop_of_transfers :
    (let s := working (.transfer (oneRow .write .repairWait none)) ready
     s.running = true ∧ s.cmd.st ≠ .idle ∧ s.seq.settled = true ∧ s.cmd.work = .transfer (oneRow .write .repairWait none))
      ∧ (let s := queued (waits .ordinaryWrite) .empty .empty (working (.transfer (oneRow .write .writing none)) ready)
         s.running = true ∧ s.cmd.st ≠ .idle ∧ s.seq.settled = true ∧ s.cmd.held = none
           ∧ s.seq.foreground = .waiting (request .ordinaryWrite row5 none))
      ∧ (let s := queued (waits .readBack) .empty .empty (working (.transfer (oneRow .write .readBack none)) ready)
         s.seq.settled = true ∧ s.cmd.held = none ∧ s.seq.foreground = .waiting (request .readBack row5 none))
      ∧ (let s := working (.transfer (oneRow .read .reading none)) (carrying .readRowsRead row5 none)
         s.seq.settled = true ∧ s.cmd.held = none ∧ s.seq.foreground = .inProgress (request .readRowsRead row5 none))
      ∧ (let s := working (.transfer (oneRow .write .writing none)) { carrying .readRowsRead row5 none with
            cmd := { ready.cmd with held := some (request .ordinaryWrite row5 (some zeroRow)) } }
         s.seq.settled = true ∧ s.cmd.held ≠ none) := by decide

/-- STOP of RELOCATE ROW at each stage, of PATROL START, of PATROL HALT and of COMMIT DIRECTORY. -/
theorem test_witness_stop_of_other_commands :
    (let s : State := { working (.relocate 5) ready with rep := { ready.rep with waiting := some (5, false) } }
     s.running = true ∧ s.cmd.st ≠ .idle ∧ s.seq.settled = true ∧ s.cmd.work = .relocate 5 ∧ s.rep.waiting = some (5, false))
      ∧ (let s := working (.relocate 5) (jobbing (command5 none) (carrying .sourceRead row5 none))
         s.rep.waiting = none ∧ s.rep.job = some (command5 none) ∧ s.seq.repair = .inProgress (request .sourceRead row5 none))
      ∧ (let s := queued .empty .empty (waits .zeroReadBack) (working (.relocate 5) (jobbing (command5 none) ready))
         s.seq.settled = true ∧ s.seq.repair = .waiting (request .zeroReadBack row5 none))
      ∧ (let s := queued .empty .empty (waits .copyWrite) (working (.relocate 5) (jobbing (command5 (some spare0)) ready))
         s.seq.settled = true ∧ s.seq.repair = .waiting (request .copyWrite row5 none) ∧ (command5 (some spare0)).command = true)
      ∧ (let s := working (.relocate 5) (jobbing (command5 none) { ready with rep := { ready.rep with st := .allocate } })
         s.seq.settled = true ∧ s.seq.repair = .empty)
      ∧ (working .patrolRestart ready).cmd.st ≠ .idle ∧ (working .patrolHalt ready).cmd.st ≠ .idle
      ∧ (working .commitWait ready).cmd.st ≠ .idle ∧ (working (.commitRun .b 3) ready).seq.settled = true := by decide

/-- The completions of a transfer's accesses with a STOP pending. -/
theorem test_witness_stop_pending_transfers :
    (let s := stopping (working (.transfer (oneRow .read .reading none)) (carrying .readRowsRead row5 none))
     s.cmd.work = .transfer (oneRow .read .reading none) ∧ s.cmd.stopRequest = true ∧ row5.inArray s.devices = true
       ∧ s.seq = Sequencer.carrying (request .readRowsRead row5 none) ∧ (oneRow .read .reading none).spare = none)
      ∧ (let s := stopping (working (.transfer (oneRow .check .reading none)) (carrying .checkRowsRead row5 none))
         (s.array.deliver row5 []).outcome ≠ .corrected ∧ (s.array.deliver row5 [(0, 1)]).outcome = .corrected
           ∧ s.health.policy.scrubOnRead = true ∧ (s.lookup 5).phys = some row5 ∧ claimHolds s.tr.repairClaim 5 = false)
      ∧ (let s := stopping (working (.transfer (oneRow .check .scrubbing none)) (carrying .scrubWrite row5 (some zeroRow)))
         s.seq = Sequencer.carrying (request .scrubWrite row5 (some zeroRow)) ∧ s.cmd.stopRequest = true)
      ∧ (let s := stopping (working (.transfer (oneRow .write .writing none)) (carrying .ordinaryWrite row5 (some zeroRow)))
         s.seq = Sequencer.carrying (request .ordinaryWrite row5 (some zeroRow)) ∧ s.cmd.stopRequest = true)
      ∧ (let s := stopping (working (.transfer (oneRow .write .readBack none)) (carrying .readBack row5 none))
         s.seq = Sequencer.carrying (request .readBack row5 none) ∧ (s.array.deliver row5 []).outcome ≠ .uncorrectable
           ∧ (s.array.deliver row5 [(0, 3)]).outcome = .uncorrectable)
      ∧ (let s := stopping (working (.transfer (oneRow .write .repairQualify (some spare0)))
            (carrying (.repairQualify 1) spare0.phys none))
         s.seq = Sequencer.carrying (request (.repairQualify 1) spare0.phys none) ∧ spare0.phys.inArray s.devices = true
           ∧ (oneRow .write .repairQualify (some spare0)).spare = some spare0
           ∧ (s.array.deliver spare0.phys []).passes (patternRow 0xAAAA 0x5555) = false
           ∧ (({ s with array := Memory.write [] spare0.phys (patternRow 0xAAAA 0x5555) } : State).array.deliver spare0.phys []).passes
               (patternRow 0xAAAA 0x5555) = true)
      ∧ (let s := stopping (working (.transfer (oneRow .write .repairData (some spare0)))
            (carrying .repairDataWrite spare0.phys (some zeroRow)))
         s.seq = Sequencer.carrying (request .repairDataWrite spare0.phys (some zeroRow)) ∧ s.cmd.stopRequest = true)
      ∧ (let s := stopping (working (.transfer (oneRow .write .repairVerify (some spare0))) (carrying .repairVerify spare0.phys none))
         (s.array.deliver spare0.phys []).passes s.bus.buffer = true ∧ s.lookup 5 ≠ .retired ∧ s.tr.changes < 15
           ∧ (retired5 s).lookup 5 = .retired ∧ (s.array.deliver spare0.phys [(0, 3)]).passes s.bus.buffer = false) := by
  decide +kernel

/-- The completions of a RELOCATE ROW's accesses with a STOP pending. -/
theorem test_witness_stop_pending_jobs :
    (let s := stopping (working (.relocate 5) (jobbing (command5 none) (carrying .sourceRead row5 none)))
     s.rep.job = some (command5 none) ∧ (command5 none).command = true ∧ s.cmd.stopRequest = true
       ∧ row5.inArray s.devices = true ∧ s.seq = Sequencer.carrying (request .sourceRead row5 none))
      ∧ (let s := stopping (working (.relocate 5) (jobbing (command5 (some spare0)) (carrying (.qualification 3) spare0.phys none)))
         s.seq = Sequencer.carrying (request (.qualification 3) spare0.phys none) ∧ (command5 (some spare0)).spare = some spare0
           ∧ (s.array.deliver spare0.phys []).passes (patternRow 0x5555 0xAAAA) = false)
      ∧ (let s := stopping (working (.relocate 5) (jobbing (command5 (some spare0))
            (carrying (.qualification 0) spare0.phys (some zeroRow))))
         s.seq = Sequencer.carrying (request (.qualification 0) spare0.phys (some zeroRow)))
      ∧ (let s := stopping (working (.relocate 5) (jobbing (command5 (some spare0)) (carrying .copyWrite spare0.phys (some zeroRow))))
         s.seq = Sequencer.carrying (request .copyWrite spare0.phys (some zeroRow)) ∧ claimMarked s.tr.repairClaim = false)
      ∧ (let s := stopping (working (.relocate 5) (jobbing (command5 (some spare0)) (carrying .verifyRead spare0.phys none)))
         (s.array.deliver spare0.phys []).passes ((command5 (some spare0)).data.getD zeroRow) = true ∧ s.tr.changes < 15
           ∧ s.lookup 5 ≠ .retired ∧ (retired5 s).lookup 5 = .retired ∧ claimMarked s.tr.repairClaim = false
           ∧ (s.array.deliver spare0.phys [(0, 3)]).passes ((command5 (some spare0)).data.getD zeroRow) = false)
      ∧ (let s := stopping (working (.relocate 5) (jobbing (command5 none) (carrying .zeroWrite row5 (some zeroRow))))
         s.seq = Sequencer.carrying (request .zeroWrite row5 (some zeroRow)) ∧ (command5 none).spare = none)
      ∧ (let s := stopping (working (.relocate 5) (jobbing (command5 none) (carrying .zeroReadBack row5 none)))
         s.seq = Sequencer.carrying (request .zeroReadBack row5 none) ∧ claimMarked s.tr.repairClaim = false
           ∧ s.cmd.work ≠ .commitWait ∧ (s.array.deliver row5 []).outcome ≠ .uncorrectable
           ∧ (s.array.deliver row5 [(0, 3)]).outcome = .uncorrectable) := by decide +kernel

/-- A write of row 5 in progress, and these requests behind it. -/
def behindAWrite (dir rep pat : Slot) (s : State) : State :=
  { working (.transfer (oneRow .write .writing none)) s with seq :=
    { Sequencer.carrying (request .ordinaryWrite row5 (some zeroRow)) with directory := dir, repair := rep, patrol := pat } }

/-- Requests of every class waiting behind a foreground write, with the conditions of a zero write and of a patrol scrub clear
and set; a foreground request behind a commit; and READ ROWS behind a visit. -/
theorem test_witness_grants :
    (let s := behindAWrite (waits .loadRead) (waits .sourceRead) (waits .visitRead) ready
     s.cmd.work = .transfer (oneRow .write .writing none) ∧ s.cmd.stopRequest = false ∧ row5.inArray s.devices = true
       ∧ (oneRow .write .writing none).last ≤ (oneRow .write .writing none).row
       ∧ s.seq.foreground = .inProgress (request .ordinaryWrite row5 (some zeroRow))
       ∧ s.seq.directory = .waiting (request .loadRead row5 none) ∧ s.conditionFails .loadRead = false)
      ∧ (let s := behindAWrite .empty (waits .sourceRead) (waits .visitRead) ready
         s.seq.repair = .waiting (request .sourceRead row5 none) ∧ s.conditionFails .sourceRead = false ∧ s.seq.directory = .empty)
      ∧ (let s := behindAWrite .empty .empty (waits .visitRead) ready
         s.seq.patrol = .waiting (request .visitRead row5 none) ∧ s.conditionFails .visitRead = false ∧ s.seq.repair = .empty)
      ∧ (let s := claimed5 true (jobbing (command5 none) (pending5 .host (behindAWrite .empty (waits .zeroWrite) (waits .visitRead) ready)))
         s.seq.repair = .waiting (request .zeroWrite row5 none) ∧ claimMarked s.tr.repairClaim = true
           ∧ s.conditionFails .zeroWrite = true ∧ s.rep.job = some (command5 none) ∧ s.pendingOf 5 = some (entry5 .host)
           ∧ (entry5 .host).restarts < 3 ∧ (entry5 .host).cause ≠ .unc ∧ (s.lookup 5).phys = some row5)
      ∧ (let s : State := patrolling (patrolAt .visiting .continuous 5)
            { behindAWrite .empty .empty (waits .patrolScrub) ready with
              tr := { ready.tr with patrolClaim := some { row := 5, overtaken := true } } }
         s.seq.patrol = .waiting (request .patrolScrub row5 none) ∧ claimMarked s.tr.patrolClaim = true ∧ s.pat.st = .visiting
           ∧ s.pat.restartRequest = false ∧ s.pat.intervalOut = false ∧ s.pat.cursor + 1 < 8064 * s.devices
           ∧ s.conditionFails .patrolScrub = true)
      ∧ (let j : CommitJob := ⟨.b, 3, 9, false, false, false⟩
         let s : State := { carrying .commitWrite (Copy.b.phys 9) (some zeroRow) with
           seq := { Sequencer.carrying (request .commitWrite (Copy.b.phys 9) (some zeroRow)) with foreground := waits .readRowsRead }
           dir := { ready.dir with mode := .committing, commit := some j } }
         s.dir.commit = some j ∧ (Copy.b.phys 9).inArray s.devices = true ∧ j.reading = false ∧ j.index < 101
           ∧ s.seq.directory = .inProgress (request .commitWrite (Copy.b.phys 9) (some zeroRow))
           ∧ s.seq.foreground = .waiting (request .readRowsRead row5 none))
      ∧ (let s : State := { withParams 5 1 0 with seq := Sequencer.carrying (request .visitRead ⟨0, 6⟩ none) }
         s.accepts = true ∧ s.seq.current = some (.patrol, request .visitRead ⟨0, 6⟩ none) ∧ s.seq.foreground = .empty
           ∧ s.cmd.params.p1 = 1 ∧ 5 < 8064 * s.devices ∧ (s.lookup 5).phys = some row5) := by decide

/-- An access its requester has given up. -/
def givenUp (p : Purpose) (s : State) : State := { s with seq := Sequencer.carrying { request p row5 none with abandoned := true } }

/-- The completion of an abandoned access of each class: alone, with a write held, with a row that waits, and with a format's
initialisation that is to end. -/
theorem test_witness_abandoned :
    (givenUp .sourceRead ready).accessEnds (.sourceReadDone []) { request .sourceRead row5 none with abandoned := true } []
      ∧ (givenUp .visitRead ready).accessEnds (.readyTimeout false []) { request .visitRead row5 none with abandoned := true } []
      ∧ (let s : State := { givenUp .readRowsRead (working (.transfer (oneRow .write .writing none)) ready) with
            cmd := { ready.cmd with held := some (request .ordinaryWrite row5 (some zeroRow)) } }
         s.cmd.held = some (request .ordinaryWrite row5 (some zeroRow))
           ∧ (request .ordinaryWrite row5 (some zeroRow)).purpose.cls = .foreground)
      ∧ (let s := givenUp .readRowsRead (working (.transfer (oneRow .read .awaitSlot none)) ready)
         s.cmd.held = none ∧ (s.lookup 5).phys = some row5 ∧ (retired5 s).lookup 5 = .retired)
      ∧ (let s : State := { givenUp .rowInit ready with dir := { ready.dir with
            opState := .formatting, format := some ⟨.rowInit 5, true⟩ } }
         s.dir.format = some ⟨.rowInit 5, true⟩ ∧ s.cmd.held = none ∧ s.dir.opState = .formatting ∧ s.cmd.work = .none)
      ∧ (let s : State := patrolling { patrolAt .pacing .continuous 6 with intervalOut := true } (givenUp .visitRead ready)
         s.pat.st = .pacing ∧ s.pat.intervalOut = true ∧ (s.lookup s.pat.cursor).phys = some ⟨0, 6⟩
           ∧ claimHolds s.tr.repairClaim s.pat.cursor = false) :=
  ⟨Or.inl ⟨⟨[], rfl⟩, by decide, rfl⟩, Or.inr ⟨false, [], rfl, rfl⟩, by decide, by decide, by decide, by decide⟩

/-- The end of a commit left without effect, and of one that FORMAT ARRAY waits for. -/
theorem test_witness_commits_without_effect :
    (let j : CommitJob := ⟨.b, 3, 101, true, true, false⟩
     let s : State := { carrying .commitReadBack (Copy.b.phys 101) none with
       dir := { ready.dir with mode := .committing, commit := some j, image := List.replicate 102 zeroRow } }
     s.dir.commit = some j ∧ j.detached = true ∧ s.dir.format = none ∧ (Copy.b.phys 101).inArray s.devices = true
       ∧ s.readBackPasses j (s.array.deliver (Copy.b.phys 101) []) = true
       ∧ s.readBackPasses j (s.array.deliver (Copy.b.phys 101) [(0, 3)]) = false ∧ j.index = 101
       ∧ (formatting .waitCommit s).dir.format = some ⟨.waitCommit, false⟩)
      ∧ (let j : CommitJob := ⟨.b, 3, 101, true, false, false⟩
         let s := formatting .waitCommit { carrying .commitReadBack (Copy.b.phys 101) none with
            dir := { ready.dir with mode := .committing, commit := some j, image := List.replicate 102 zeroRow } }
         s.dir.commit = some j ∧ j.detached = false ∧ j.ofFormat = false
           ∧ s.readBackPasses j (s.array.deliver (Copy.b.phys 101) []) = true) := by decide

/-- PATROL START of a patrol that runs, with CONTINUE and with RESTART. -/
theorem test_witness_patrol_start_running :
    (let s := patrolling (patrolAt .pacing .single 5) (withParams 2 20 0)
     s.accepts = true ∧ s.cmd.params.p0 = 2 ∧ s.cmd.params.p1.toNat ≤ 255 ∧ s.cmd.params.p2 = 0 ∧ s.seq.settled = true
       ∧ s.pat.st = .pacing ∧ s.pat.intervalOut = false)
      ∧ (let s := patrolling (patrolAt .visiting .single 5) { withParams 1 255 1 with
            seq := Sequencer.carrying (request .visitRead row5 none) }
         s.accepts = true ∧ s.cmd.params.p2 = 1 ∧ s.seq.settled = true ∧ s.pat.st = .visiting ∧ s.seq.patrol ≠ .empty)
      ∧ (let s := patrolling (patrolAt .pacing .single 5) (withParams 1 0 1)
         s.seq = Sequencer.reset ∧ (s.lookup 0).phys = some ⟨0, 0⟩ ∧ claimHolds s.tr.repairClaim 0 = false)
      ∧ (patrolling (patrolAt .halting .single 5) (withParams 1 0 0)).pat.st = .halting := by decide

/-- A TIMEOUT of write-repair's accesses, of a load read, and of a visit that a restart or PATROL HALT waits for. -/
theorem test_witness_later_timeouts :
    (let s := working (.transfer (oneRow .write .repairData (some spare0))) (carrying .repairDataWrite spare0.phys (some zeroRow))
     s.seq = Sequencer.carrying (request .repairDataWrite spare0.phys (some zeroRow))
       ∧ s.cmd.work = .transfer (oneRow .write .repairData (some spare0)) ∧ (oneRow .write .repairData (some spare0)).spare = some spare0)
      ∧ (State.reset.seq = Sequencer.carrying (request .loadRead ⟨0, 8192⟩ none) ∧ State.reset.dir.mode = .loading)
      ∧ (let s := patrolling { patrolAt .visiting .single 5 with restartRequest := true } (carrying .visitRead row5 none)
         s.seq = Sequencer.carrying (request .visitRead row5 none) ∧ s.pat.restartRequest = true
           ∧ (s.lookup 0).phys = some ⟨0, 0⟩ ∧ claimHolds s.tr.repairClaim 0 = false)
      ∧ (working .patrolHalt (carrying .visitRead row5 none)).cmd.work = .patrolHalt := by decide

/-- A RELOCATE ROW whose verify read passes, for RELOCATE and for DISCARD, and its earlier accesses. -/
theorem test_witness_relocate_row_job :
    (let s := working (.relocate 5) (jobbing (command5 (some spare0)) (carrying .verifyRead spare0.phys none))
     s.rep.job = some (command5 (some spare0)) ∧ (command5 (some spare0)).command = true ∧ s.cmd.stopRequest = false
       ∧ spare0.phys.inArray s.devices = true ∧ claimMarked s.tr.repairClaim = false
       ∧ s.seq = Sequencer.carrying (request .verifyRead spare0.phys none) ∧ (command5 (some spare0)).data = some zeroRow
       ∧ s.tr.changes < 15 ∧ (s.array.deliver spare0.phys []).passes zeroRow = true)
      ∧ ({ command5 (some spare0) with discard := true } : Job).discard = true
      ∧ (let s := working (.relocate 5) (jobbing (command5 none) (carrying .sourceRead row5 none))
         s.rep.job = some (command5 none) ∧ (s.array.deliver row5 []).outcome ≠ .uncorrectable ∧ s.writeRepairActive = false
           ∧ s.someTesting = false) := by decide

/-- The rows of a copy with one remap entry, whose words 0 to 3 are given. -/
def oneSlot (v : List Word) : List (List Word) :=
  [List.replicate 14 0 ++ [1] ++ List.replicate 17 0, v ++ List.replicate 28 0]

/-- A SPARED slot without a target, slots of kinds 0 and 3, and a slot of an origin that names nothing. -/
theorem test_witness_slots_without_content :
    (let rows := oneSlot [5, 0xFFFF, 0x01, 0]
     0 < min 512 ((rows.getD 0 []).getD 14 0).toNat ∧ field ((rows.getD 1 []).getD 2 0) 0 2 = 1 ∧ (rows.getD 1 []).getD 1 0 = 0xFFFF
       ∧ readContent rows = none)
      ∧ (field (0x00 : Word) 0 2 = 0 ∧ readContent (oneSlot [5, 0, 0x00, 0]) = none)
      ∧ (field (0x03 : Word) 0 2 = 3 ∧ readContent (oneSlot [5, 0, 0x03, 0]) = none)
      ∧ (4 < field (0x51 : Word) 4 3 ∧ readContent (oneSlot [5, 0, 0x51, 0]) = none)
      ∧ (readContent (oneSlot [5, 0, 0x01, 0])).isSome = true := by decide +kernel

end Sys2Proof.Tests
end

/-! # The check code of a stored word (R23) and the lines of the table of R24 -/

namespace Sys2Proof.Machine

/-! ## The check bits as written (R23) -/

/-- Parity under a mask runs over the mask's places alone. -/
theorem parity_and {w : Nat} (x m : BitVec w) :
    parity (x &&& m) = ((List.range w).filter m.getLsbD).foldl (fun b i => b ^^ x.getLsbD i) false := by
  rw [parity, List.foldl_filter]
  congr 1
  funext b i
  rw [BitVec.getLsbD_and]
  cases m.getLsbD i <;> simp

/-- The data bits that C0 to C4 cover, as Table 2-2 lists them. -/
def coveredBits : List (List Nat) :=
  [[0, 1, 3, 4, 6, 8, 10, 11, 13, 15], [0, 2, 3, 5, 6, 9, 10, 12, 13], [1, 2, 3, 7, 8, 9, 10, 14, 15],
    [4, 5, 6, 7, 8, 9, 10], [11, 12, 13, 14, 15]]

theorem coverage_places {j : Nat} (hj : j < 5) :
    (List.range 16).filter (coverage j).getLsbD = coveredBits.getD j [] := by
  revert j; decide

/-- Cj is the exclusive-or of the data bits it covers (R23). -/
theorem checkBit_eq_covered (d : Word) {j : Nat} (hj : j < 5) :
    checkBit d j = (coveredBits.getD j []).foldl (fun b i => b ^^ d.getLsbD i) false := by
  rw [checkBit, parity_and, coverage_places hj]

/-- Bit 16 + j of a stored word is the exclusive-or of the data bits Cj covers (R22, R23). -/
theorem getLsbD_encodeWord_covered (d : Word) {j : Nat} (hj : j < 5) :
    (encodeWord d).getLsbD (16 + j) = (coveredBits.getD j []).foldl (fun b i => b ^^ d.getLsbD i) false := by
  rw [getLsbD_encodeWord_check d hj, checkBit_eq_covered d hj]

theorem parity_checkBits (d : Word) :
    parity (checkBits d) = (checkBit d 0 ^^ checkBit d 1 ^^ checkBit d 2 ^^ checkBit d 3 ^^ checkBit d 4) := by
  have bits : List.range 5 = [0, 1, 2, 3, 4] := rfl
  have check (j : Nat) (hj : j < 5) := getLsbD_checkBits d hj
  simp only [parity, bits, List.foldl_cons, List.foldl_nil, Bool.false_xor, check 0 (by decide), check 1 (by decide),
    check 2 (by decide), check 3 (by decide), check 4 (by decide)]

/-- C5 is the exclusive-or of the data bits and C0 to C4 (R23). -/
theorem getLsbD_encodeWord_last (d : Word) :
    (encodeWord d).getLsbD 21 = (parity d ^^ (encodeWord d).getLsbD 16 ^^ (encodeWord d).getLsbD 17
      ^^ (encodeWord d).getLsbD 18 ^^ (encodeWord d).getLsbD 19 ^^ (encodeWord d).getLsbD 20) := by
  have check (j : Nat) (hj : j < 5) := getLsbD_encodeWord_check d hj
  have c5 : (encodeWord d).getLsbD 21 = (parity d ^^ parity (checkBits d)) := by
    rw [getLsbD_encodeWord, if_neg (by decide), BitVec.getLsbD_append, if_neg (by decide), BitVec.getLsbD_ofBool]
    simp
  rw [c5, parity_checkBits, ← check 0 (by decide), ← check 1 (by decide), ← check 2 (by decide),
    ← check 3 (by decide), ← check 4 (by decide)]
  simp only [Bool.xor_assoc]

theorem storedRow_getElem? (ws : List Word) {i : Nat} (hi : i < 32) :
    (storedRow ws)[i]? = some (encodeWord (ws.getD i 0)) := by
  simp [storedRow, hi]

theorem encodeWord_zero : encodeWord 0 = 0 := by decide

/-- A row of zero data words is stored as zero bits (R23). -/
theorem storedRow_zeroRow : storedRow zeroRow = List.replicate 32 0 := by
  refine List.ext_getElem? fun i => ?_
  by_cases hi : i < 32
  · rw [storedRow_getElem? _ hi, zeroRow, List.getD_replicate _ hi, encodeWord_zero, List.getElem?_replicate, if_pos hi]
  · rw [List.getElem?_eq_none (by simpa [storedRow] using hi), List.getElem?_eq_none (by simpa using hi)]

/-- Settles O10: each check bit from its row of Table 2-2, the last from the parity of the others. -/
theorem storedWordCarriesItsCheckCode : Obligations.StoredWordCarriesItsCheckCode := by
  refine ⟨fun ws i hi => storedRow_getElem? ws hi, fun d => ?_, encodeWord_zero, storedRow_zeroRow⟩
  have covered (j : Nat) (hj : j < 5) := getLsbD_encodeWord_covered d hj
  refine ⟨dataBits_encodeWord d, ?_, ?_, ?_, ?_, ?_, getLsbD_encodeWord_last d, parity_encodeWord d⟩
  · simpa [coveredBits] using covered 0 (by decide)
  · simpa [coveredBits] using covered 1 (by decide)
  · simpa [coveredBits] using covered 2 (by decide)
  · simpa [coveredBits] using covered 3 (by decide)
  · simpa [coveredBits] using covered 4 (by decide)

/-! ## The lines of the table of R24 -/

/-- The syndrome compares the check bits as read with those of the data as read (R24). -/
theorem getLsbD_syndrome (x : Stored) {j : Nat} (hj : j < 5) :
    (syndrome x).getLsbD j = (x.getLsbD (16 + j) ^^ checkBit (dataBits x) j) := by
  rw [syndrome, BitVec.getLsbD_xor, BitVec.getLsbD_extractLsb', getLsbD_checkBits _ hj]
  simp [hj]

theorem decodeWord_of_syndrome_zero {x : Stored} (hs : syndrome x = 0) :
    decodeWord x = (if parity x then .corrected else .clean, dataBits x) := by
  rw [decodeWord, if_pos hs]

theorem decodeWord_of_even {x : Stored} (hs : syndrome x ≠ 0) (hp : parity x = false) :
    decodeWord x = (.uncorrectable, dataBits x) := by
  rw [decodeWord, if_neg hs, if_neg (by simp [hp])]

theorem decodeWord_of_dataBit {x : Stored} {i : Nat} (hi : dataBitAt (syndrome x).toNat = some i)
    (hp : parity x = true) : decodeWord x = (.corrected, dataBits x ^^^ BitVec.twoPow 16 i) := by
  have hs : syndrome x ≠ 0 := by
    intro h
    rw [h] at hi
    exact absurd hi (by simp [dataBitAt])
  rw [decodeWord, if_neg hs, if_pos hp, hi]

theorem decodeWord_of_no_dataBit {x : Stored} (hs : syndrome x ≠ 0) (hi : dataBitAt (syndrome x).toNat = none)
    (hp : parity x = true) :
    decodeWord x = (if (syndrome x).toNat < 22 then .corrected else .uncorrectable, dataBits x) := by
  rw [decodeWord, if_neg hs, if_pos hp, hi]

theorem syndrome_ne_zero_of_toNat {x : Stored} (h : 0 < (syndrome x).toNat) : syndrome x ≠ 0 := by
  intro hs
  simp [hs] at h

/-- The syndromes that name a check bit (Table 2-2). -/
theorem decodeWord_of_checkBit {x : Stored} (h : (syndrome x).toNat ∈ [1, 2, 4, 8, 16]) (hp : parity x = true) :
    decodeWord x = (.corrected, dataBits x) := by
  have facts : ∀ n ∈ [1, 2, 4, 8, 16], dataBitAt n = none ∧ 0 < n ∧ n < 22 := by decide
  obtain ⟨none_there, pos, small⟩ := facts _ h
  rw [decodeWord_of_no_dataBit (syndrome_ne_zero_of_toNat pos) none_there hp, if_pos small]

theorem dataBitAt_eq_none {n : Nat} (h : 22 ≤ n) : dataBitAt n = none := by
  obtain ⟨k, rfl⟩ := Nat.exists_eq_add_of_le' h
  rfl

theorem decodeWord_of_past_positions {x : Stored} (h : 22 ≤ (syndrome x).toNat) (hp : parity x = true) :
    decodeWord x = (.uncorrectable, dataBits x) := by
  rw [decodeWord_of_no_dataBit (syndrome_ne_zero_of_toNat (by omega)) (dataBitAt_eq_none h) hp, if_neg (by omega)]

/-! ## One and two changed bits (R24) -/

/-- The position numbers of D0 to D15 (Table 2-2). -/
def dataPositions : List Nat := [3, 5, 6, 7, 9, 10, 11, 12, 13, 14, 15, 17, 18, 19, 20, 21]

/-- The syndrome each stored bit gives when it alone changes: D0 to D15 and C0 to C4 their position numbers, C5 zero. -/
def bitSyndromes : List Nat := dataPositions ++ [1, 2, 4, 8, 16, 0]

theorem dataBitAt_dataPositions {i : Nat} (hi : i < 16) : dataBitAt (dataPositions.getD i 0) = some i := by
  revert i; decide

theorem toNat_syndrome_twoPow {i : Nat} (hi : i < 22) :
    (syndrome (BitVec.twoPow 22 i)).toNat = bitSyndromes.getD i 0 := by
  revert i; decide

theorem parity_twoPow {i : Nat} (hi : i < 22) : parity (BitVec.twoPow 22 i) = true := by
  revert i; decide

theorem dataBits_twoPow (i : Nat) : dataBits (BitVec.twoPow 22 i) = BitVec.twoPow 16 i := by
  ext k hk
  have inside : k < 22 := by omega
  simp [dataBits, inside, eq_comm]

theorem bitSyndromes_injective {i j : Nat} (hi : i < 22) (hj : j < 22)
    (h : bitSyndromes.getD i 0 = bitSyndromes.getD j 0) : i = j := by
  have nodup : bitSyndromes.Nodup := by decide
  have bound : bitSyndromes.length = 22 := rfl
  rw [List.getD_eq_getElem _ _ (by omega), List.getD_eq_getElem _ _ (by omega)] at h
  exact (nodup.getElem_inj_iff).1 h

/-- Two different stored bits give different syndromes, so their change together leaves none that is zero. -/
theorem syndrome_two_twoPow_ne_zero {i j : Nat} (hi : i < 22) (hj : j < 22) (hij : i ≠ j) :
    syndrome (BitVec.twoPow 22 i ^^^ BitVec.twoPow 22 j) ≠ 0 := by
  intro h
  rw [syndrome_xor] at h
  have same : syndrome (BitVec.twoPow 22 i) = syndrome (BitVec.twoPow 22 j) := BitVec.xor_eq_zero_iff.1 h
  refine hij (bitSyndromes_injective hi hj ?_)
  rw [← toNat_syndrome_twoPow hi, ← toNat_syndrome_twoPow hj, same]

/-- A changed C5 leaves the syndrome zero, a changed C0 to C4 gives its own position, and a changed data bit is inverted
back. -/
theorem decodeWord_one_changed (d : Word) {i : Nat} (hi : i < 22) :
    decodeWord (encodeWord d ^^^ BitVec.twoPow 22 i) = (.corrected, d) := by
  have hs : (syndrome (encodeWord d ^^^ BitVec.twoPow 22 i)).toNat = bitSyndromes.getD i 0 := by
    rw [syndrome_flipped, toNat_syndrome_twoPow hi]
  have hp : parity (encodeWord d ^^^ BitVec.twoPow 22 i) = true := by
    rw [parity_flipped, parity_twoPow hi]
  have hd : dataBits (encodeWord d ^^^ BitVec.twoPow 22 i) = d ^^^ BitVec.twoPow 16 i := by
    rw [dataBits_flipped, dataBits_twoPow]
  by_cases data : i < 16
  · have at_bit : dataBitAt (syndrome (encodeWord d ^^^ BitVec.twoPow 22 i)).toNat = some i := by
      rw [hs, bitSyndromes, List.getD_append _ _ _ _ data, dataBitAt_dataPositions data]
    rw [decodeWord_of_dataBit at_bit hp, hd, BitVec.xor_assoc, BitVec.xor_self, BitVec.xor_zero]
  · have kept : d ^^^ BitVec.twoPow 16 i = d := by
      simp [BitVec.twoPow, BitVec.shiftLeft_eq_zero (Nat.le_of_not_lt data)]
    by_cases check : i < 21
    · have at_check : (syndrome (encodeWord d ^^^ BitVec.twoPow 22 i)).toNat ∈ [1, 2, 4, 8, 16] := by
        have : ∀ i < 21, 16 ≤ i → bitSyndromes.getD i 0 ∈ [1, 2, 4, 8, 16] := by decide
        rw [hs]
        exact this i check (by omega)
      rw [decodeWord_of_checkBit at_check hp, hd, kept]
    · obtain rfl : i = 21 := by omega
      rw [decodeWord_of_syndrome_zero (BitVec.eq_of_toNat_eq hs), if_pos hp, hd, kept]

/-- Two changed bits leave the parity even and the syndrome not zero. -/
theorem decodeWord_two_changed (d : Word) {i j : Nat} (hi : i < 22) (hj : j < 22) (hij : i ≠ j) :
    decodeWord (encodeWord d ^^^ BitVec.twoPow 22 i ^^^ BitVec.twoPow 22 j) =
      (.uncorrectable, dataBits (encodeWord d ^^^ BitVec.twoPow 22 i ^^^ BitVec.twoPow 22 j)) := by
  rw [BitVec.xor_assoc]
  refine decodeWord_of_even ?_ ?_
  · rw [syndrome_flipped]
    exact syndrome_two_twoPow_ne_zero hi hj hij
  · rw [parity_flipped, parity_xor, parity_twoPow hi, parity_twoPow hj]
    rfl

/-- Settles O11, line by line of the table; the two laws of changed bits follow from its lines, since the syndrome and the
parity of a changed word are those of the change. -/
theorem wordsAreJudgedByTheSyndromeTable : Obligations.WordsAreJudgedByTheSyndromeTable := by
  refine ⟨fun x _ hj => getLsbD_syndrome x hj, ?clean, ?lastCheckBit, fun _ => decodeWord_of_checkBit, ?dataBit,
    fun _ => decodeWord_of_past_positions, fun _ => decodeWord_of_even, fun d _ hi => decodeWord_one_changed d hi,
    fun d _ _ hi hj hij => decodeWord_two_changed d hi hj hij, fun _ => ⟨rfl, rfl⟩⟩
  case clean =>
    intro x hs hp
    simp [decodeWord_of_syndrome_zero hs, hp]
  case lastCheckBit =>
    intro x hs hp
    simp [decodeWord_of_syndrome_zero hs, hp]
  case dataBit =>
    intro x i hi hs hp
    exact decodeWord_of_dataBit (hs ▸ dataBitAt_dataPositions hi) hp

end Sys2Proof.Machine

/-! # The DATA port outside its phases (R50) and the IDENT register (R40) -/

namespace Sys2Proof.Machine

/-! ## The rows as bus cycles (R38) -/

theorem exec_dataRead (s : State) : exec .dataRead s = .next (s.onBus Chip.readData) := rfl

theorem exec_dataWrite (w : Word) (s : State) : exec (.dataWrite w) s = .next (s.onBus fun c => c.writeData w) := rfl

theorem exec_identWrite (w : Word) (s : State) : exec (.identWrite w) s = .next (s.onBus fun c => c.writeIdent w) := rfl

/-! ## DATA outside DATA_OUT and DATA_IN (R50) -/

theorem Chip.dataWord_of_ne_dataOut {c : Chip} (h : c.cmd.st ≠ .dataOut) : c.dataWord = 0 := by
  unfold Chip.dataWord
  cases hst : c.cmd.st with
  | dataOut => exact absurd hst h
  | idle => rfl
  | executing => rfl
  | dataIn => rfl

/-- The misuse flag and the word driven are all that a read outside DATA_OUT leaves. -/
theorem Chip.readData_of_ne_dataOut {c : Chip} (h : c.cmd.st ≠ .dataOut) :
    c.readData = { c with bus := { c.bus with portMisuse := true, dataOut := some 0 } } := by
  rw [Chip.readData, if_neg h, Chip.dataWord_of_ne_dataOut h, Chip.misuse]

theorem Chip.writeData_of_ne_dataIn {c : Chip} (h : c.cmd.st ≠ .dataIn) (w : Word) : c.writeData w = c.misuse :=
  if_neg h

/-- Settles O14: neither access asks for the port, so the step is the misuse alone. -/
theorem dataMisuseSetsTheFlagAlone : Obligations.DataMisuseSetsTheFlagAlone := by
  intro s running settled
  refine ⟨fun noOffer => ?read, fun w noTransfer => ?write⟩
  case read =>
    rw [exec_dataRead, State.next_onBus running (Chip.readData_of_ne_dataOut noOffer) settled]
  case write =>
    rw [exec_dataWrite, State.next_onBus (f := fun c => c.writeData w) running
      (Chip.writeData_of_ne_dataIn noTransfer w) settled, Chip.misuse]

/-! ## IDENT (R40) -/

theorem Chip.readRegister_ident (c : Chip) :
    c.readRegister 0x18 = if c.bus.identRevision then Config.revision else Config.partCode := rfl

/-- A write moves the selector and nothing else. -/
theorem Chip.writeIdent_eq (c : Chip) (w : Word) :
    c.writeIdent w = { c with bus := { c.bus with
      identRevision := if w = 0 then false else if w = 1 then true else c.bus.identRevision } } := by
  unfold Chip.writeIdent
  by_cases partCode : w = 0
  · rw [if_pos partCode, if_pos partCode]
  · by_cases revision : w = 1
    · rw [if_neg partCode, if_neg partCode, if_pos revision, if_pos revision]
    · rw [if_neg partCode, if_neg partCode, if_neg revision, if_neg revision]

/-- Settles O18: a write of IDENT asks for no access, so the step is the move of the selector alone; the selector names the
part code after every reset of the blocks, and a soft reset leaves it. -/
theorem identReadsTheSelectedField : Obligations.IdentReadsTheSelectedField := by
  refine ⟨Chip.readRegister_ident, fun s w running settled => ?write, fun _ _ _ => rfl, fun _ => rfl⟩
  case write =>
    rw [exec_identWrite, State.next_onBus (f := fun c => c.writeIdent w) running
      (Chip.writeIdent_eq s.toChip w) settled]

end Sys2Proof.Machine

/-! # The target of a commit (R146, R147) -/

namespace Sys2Proof.Machine

/-! ## The copy chosen and the highest sequence number, by the flags of the copies -/

theorem Chip.commitTarget_of_a_invalid {c : Chip} (invalidA : c.dir.validA = false) : c.commitTarget = .a := by
  rw [Chip.commitTarget, invalidA, Bool.false_and, if_neg Bool.false_ne_true]

theorem Chip.commitTarget_of_b_invalid {c : Chip} (validA : c.dir.validA = true) (invalidB : c.dir.validB = false) :
    c.commitTarget = .b := by
  rw [Chip.commitTarget, validA, invalidB, Bool.not_false, Bool.true_or, Bool.true_and, if_pos rfl]

theorem Chip.commitTarget_of_both_valid {c : Chip} (validA : c.dir.validA = true) (validB : c.dir.validB = true) :
    c.commitTarget = if c.dir.seqB < c.dir.seqA then .b else .a := by
  simp only [Chip.commitTarget, validA, validB, Bool.not_true, Bool.false_or, Bool.true_and, decide_eq_true_eq]

theorem Chip.highestSeq_of_both_valid {c : Chip} (validA : c.dir.validA = true) (validB : c.dir.validB = true) :
    c.highestSeq = if c.dir.seqA < c.dir.seqB then c.dir.seqB else c.dir.seqA := by
  simp only [Chip.highestSeq, validA, validB, if_true]

/-- Settles O32: the invalid copy by its flag; of two valid copies the order of the sequence numbers, which is asymmetric,
decides the target and the highest number in opposite ways. -/
theorem commitNeverTargetsTheNewestCopy : Obligations.CommitNeverTargetsTheNewestCopy := by
  intro c
  refine ⟨Chip.commitTarget_of_b_invalid, fun invalidA _ => Chip.commitTarget_of_a_invalid invalidA,
    fun validA validB aLower => ⟨?targetA, ?highestB⟩, fun validA validB bLower => ⟨?targetB, ?highestA⟩⟩
  case targetA => rw [Chip.commitTarget_of_both_valid validA validB, if_neg (BitVec.lt_asymm aLower)]
  case highestB => rw [Chip.highestSeq_of_both_valid validA validB, if_pos aLower]
  case targetB => rw [Chip.commitTarget_of_both_valid validA validB, if_pos bLower]
  case highestA => rw [Chip.highestSeq_of_both_valid validA validB, if_neg (BitVec.lt_asymm bLower)]

end Sys2Proof.Machine

/-! # The notice queue and its registers (R177, R178) -/

namespace Sys2Proof.Machine

theorem exec_noticePop (w : Word) (s : State) : exec (.noticePop w) s = .next (s.onBus Chip.popNotice) := rfl

/-! ## Arrival and pop -/

theorem Chip.raise_of_room {c : Chip} (room : c.health.queue.length < 16) (b : NoticeBody) :
    c.raise b = { c with health := { c.health with queue := c.health.queue ++ [⟨b, c.pat.pass⟩] } } :=
  if_pos room

theorem Chip.raise_of_full {c : Chip} (full : 16 ≤ c.health.queue.length) (b : NoticeBody) :
    c.raise b = { c with health := { c.health with lost := true } } :=
  if_neg (Nat.not_lt.mpr full)

theorem Chip.popNotice_of_empty {c : Chip} (empty : c.health.queue = []) : c.popNotice = c := by
  rw [Chip.popNotice, empty]

theorem Chip.popNotice_of_cons {c : Chip} {n : Notice} {rest : List Notice} (head : c.health.queue = n :: rest) :
    c.popNotice = { c with health := { c.health with
      queue := rest, lost := if rest = [] then false else c.health.lost } } := by
  rw [Chip.popNotice, head]
  cases rest with
  | nil => simp
  | cons m rest => simp

theorem Chip.queue_popNotice (c : Chip) : c.popNotice.health.queue = c.health.queue.tail := by
  cases queue : c.health.queue with
  | nil => rw [Chip.popNotice_of_empty queue, queue, List.tail_nil]
  | cons n rest => rw [Chip.popNotice_of_cons queue, List.tail_cons]

theorem Chip.pat_popNotice (c : Chip) : c.popNotice.pat = c.pat := by
  cases queue : c.health.queue with
  | nil => rw [Chip.popNotice_of_empty queue]
  | cons n rest => rw [Chip.popNotice_of_cons queue]

/-- A pop makes room, so the arrival after it joins at the tail, with the pass number as before the pop. -/
theorem Chip.queue_raise_popNotice {c : Chip} {n : Notice} {rest : List Notice} (head : c.health.queue = n :: rest)
    (within : c.health.queue.length ≤ 16) (b : NoticeBody) :
    (c.popNotice.raise b).health.queue = rest ++ [⟨b, c.pat.pass⟩] := by
  have popped : c.popNotice.health.queue = rest := by rw [Chip.queue_popNotice, head, List.tail_cons]
  have room : c.popNotice.health.queue.length < 16 := by
    rw [popped]
    rw [head, List.length_cons] at within
    exact within
  rw [Chip.raise_of_room room, popped, Chip.pat_popNotice]

theorem Chip.queue_popNotice_raise_of_room {c : Chip} {n : Notice} {rest : List Notice} (head : c.health.queue = n :: rest)
    (room : c.health.queue.length < 16) (b : NoticeBody) :
    (c.raise b).popNotice.health.queue = rest ++ [⟨b, c.pat.pass⟩] := by
  rw [Chip.queue_popNotice, Chip.raise_of_room room, head, List.cons_append, List.tail_cons]

/-- An arrival at a full queue is lost although a pop follows: the pop leaves 15 records, and NOTICE_LOST with them. -/
theorem Chip.popNotice_raise_of_full {c : Chip} {n : Notice} {rest : List Notice} (head : c.health.queue = n :: rest)
    (full : c.health.queue.length = 16) (b : NoticeBody) :
    (c.raise b).popNotice.health.queue = rest ∧ (c.raise b).popNotice.health.lost = true := by
  have restLeft : rest ≠ [] := by
    rintro rfl
    simp [head] at full
  have dropped : (c.raise b).health.queue = n :: rest := by rw [Chip.raise_of_full full.ge, head]
  rw [Chip.popNotice_of_cons dropped, Chip.raise_of_full full.ge]
  exact ⟨rfl, if_neg restLeft⟩

/-! ## NOTICE0 to NOTICE3 and NOTICE_CTRL as they read (R57, R178) -/

theorem Chip.readRegister_notice_of_empty {c : Chip} (empty : c.health.queue = []) {o : BitVec 5} (first : 0x10 ≤ o)
    (last : o ≤ 0x13) : c.readRegister o = 0xFFFF := by
  have words : c.headWords = List.replicate 4 absentWord := by
    rw [Chip.headWords, empty]
    rfl
  have offsets : o = 0x10 ∨ o = 0x11 ∨ o = 0x12 ∨ o = 0x13 := by bv_omega
  obtain rfl | rfl | rfl | rfl := offsets
  · exact congrArg (·.getD 0 absentWord) words
  · exact congrArg (·.getD 1 absentWord) words
  · exact congrArg (·.getD 2 absentWord) words
  · exact congrArg (·.getD 3 absentWord) words

theorem Chip.readRegister_notice_of_cons {c : Chip} {n : Notice} {rest : List Notice} (head : c.health.queue = n :: rest) :
    c.readRegister 0x10 = word (n.body.kindCode + 256 * n.body.zoneByte) ∧ c.readRegister 0x11 = n.body.rowWord
      ∧ c.readRegister 0x12 = n.body.valueWord ∧ c.readRegister 0x13 = n.stamp := by
  have words : c.headWords = n.words := by rw [Chip.headWords, head]
  exact ⟨congrArg (·.getD 0 absentWord) words, congrArg (·.getD 1 absentWord) words,
    congrArg (·.getD 2 absentWord) words, congrArg (·.getD 3 absentWord) words⟩

theorem Chip.readRegister_noticeCtrl (c : Chip) :
    c.readRegister 0x14 = word (c.health.queue.length + if c.health.lost then 32768 else 0) := by
  change word (c.health.queue.length + 32768 * bit c.health.lost) = _
  cases c.health.lost with
  | false => rfl
  | true => rfl

/-! ## The value word of REPAIRED (Table 11-11) -/

theorem SpareId.toNat_pack (t : SpareId) : t.pack.toNat = 128 * t.device.val + 16 * t.zone.val + t.index.val := by
  rw [SpareId.pack, BitVec.toNat_ofNat]
  omega

/-- The old-spare flag stands at bit 15, above the nine bits of the packed spare id, so the union is a sum. -/
theorem NoticeBody.valueWord_repaired (row zone : Nat) (t : SpareId) (old : Bool) :
    (NoticeBody.repaired row zone t old).valueWord =
      word (128 * t.device.val + 16 * t.zone.val + t.index.val + if old then 32768 else 0) := by
  rw [← SpareId.toNat_pack]
  cases old with
  | false =>
    change t.pack ||| 0#16 = BitVec.ofNat 16 (t.pack.toNat + 0)
    rw [BitVec.or_zero, Nat.add_zero, BitVec.ofNat_toNat, BitVec.setWidth_eq]
  | true =>
    have below : t.pack.toNat < 2 ^ 15 := by
      rw [SpareId.toNat_pack]
      omega
    have union : 32768 ||| t.pack.toNat = 32768 + t.pack.toNat := (Nat.two_pow_add_eq_or_of_lt below 1).symm
    refine BitVec.eq_of_toNat_eq ?_
    calc (t.pack ||| 0x8000#16).toNat
      _ = t.pack.toNat ||| 32768 := BitVec.toNat_or _ _
      _ = t.pack.toNat + 32768 := by rw [Nat.or_comm, union, Nat.add_comm]
      _ = (word (t.pack.toNat + 32768)).toNat := by
        rw [BitVec.toNat_ofNat]
        omega

/-! ## The statement -/

/-- Settles O19: a pop asks for no access, so the step is the pop alone; pop and arrival by whether the queue has room; the
registers show the head record, whose words go by the eleven kinds. -/
theorem noticesJoinTheTailAndPopTakesTheHead : Obligations.NoticesJoinTheTailAndPopTakesTheHead := by
  refine ⟨⟨fun s w running settled => ⟨?popEmpty, ?popHead⟩, fun c => ⟨?showEmpty, ?showHead, ?control⟩,
    fun c b => ⟨?bothEmpty, ?popFirst, ?arrivalFirst, ?arrivalLost⟩⟩, fun c b => ⟨?joins, ?dropped⟩, ?kinds⟩
  case popEmpty =>
    intro empty
    rw [exec_noticePop, State.next_onBus running (Chip.popNotice_of_empty empty) settled]
  case popHead =>
    intro n rest head
    rw [exec_noticePop, State.next_onBus running (Chip.popNotice_of_cons head) settled]
  case showEmpty => exact fun empty _ first last => Chip.readRegister_notice_of_empty empty first last
  case showHead => exact fun _ _ head => Chip.readRegister_notice_of_cons head
  case control => exact Chip.readRegister_noticeCtrl c
  case bothEmpty =>
    intro empty
    have room : c.health.queue.length < 16 := by simp [empty]
    refine ⟨Chip.popNotice_of_empty empty, ?_⟩
    rw [Chip.queue_popNotice, Chip.raise_of_room room, empty, List.nil_append, List.tail_cons]
  case popFirst => exact fun _ _ head within => Chip.queue_raise_popNotice head within b
  case arrivalFirst => exact fun _ _ head room => Chip.queue_popNotice_raise_of_room head room b
  case arrivalLost => exact fun _ _ head full => Chip.popNotice_raise_of_full head full b
  case joins => exact fun room => Chip.raise_of_room room b
  case dropped => exact fun full => Chip.raise_of_full full b
  case kinds =>
    rintro c ⟨body, stamp⟩ rest head
    obtain ⟨kindAndZone, row, value, pass⟩ := Chip.readRegister_notice_of_cons head
    cases body with
    | repaired r z t old => exact ⟨kindAndZone, row, value.trans (NoticeBody.valueWord_repaired r z t old), pass⟩
    | gradeChange g =>
      cases g with
      | good | caution | critical | failing => exact ⟨kindAndZone, row, value, pass⟩
    | directoryFail k why =>
      cases k with
      | a | b =>
        cases why with
        | timeout | verify | sequence => exact ⟨kindAndZone, row, value, pass⟩
    | patrolStopped why =>
      cases why with
      | halted | singleDone | timeout | format => exact ⟨kindAndZone, row, value, pass⟩
    | spareBad | retired | stuck | uncFound | pendingFull | zoneExhausted | passDone =>
      exact ⟨kindAndZone, row, value, pass⟩

end Sys2Proof.Machine

/-! # What every row of the table is (spec/opcode_table.json) -/

namespace Sys2Proof.Machine

theorem exec_readRows (s : State) : exec .readRows s = .next (s.onBus fun c => c.transferCommand .read) := rfl

theorem exec_writeRows (s : State) : exec .writeRows s = .next (s.onBus fun c => c.transferCommand .write) := rfl

theorem exec_checkRows (s : State) : exec .checkRows s = .next (s.onBus fun c => c.transferCommand .check) := rfl

theorem exec_queryRow (s : State) : exec .queryRow s = .next (s.onBus Chip.queryCommand) := rfl

theorem exec_nominateRow (s : State) : exec .nominateRow s = .next (s.onBus Chip.nominateCommand) := rfl

theorem exec_listPending (s : State) : exec .listPending s = .next (s.onBus fun c => c.listCommand .pending) := rfl

theorem exec_listWatch (s : State) : exec .listWatch s = .next (s.onBus fun c => c.listCommand .watch) := rfl

theorem exec_relocateRow (s : State) : exec .relocateRow s = .next (s.onBus Chip.relocateCommand) := rfl

theorem exec_listMap (s : State) : exec .listMap s = .next (s.onBus fun c => c.listCommand .map) := rfl

theorem exec_listZones (s : State) : exec .listZones s = .next (s.onBus fun c => c.listCommand .zones) := rfl

theorem exec_patrolStart (s : State) : exec .patrolStart s = .next (s.onBus Chip.patrolStartCommand) := rfl

theorem exec_patrolHalt (s : State) : exec .patrolHalt s = .next (s.onBus Chip.patrolHaltCommand) := rfl

theorem exec_patrolReport (s : State) : exec .patrolReport s = .next (s.onBus Chip.patrolReportCommand) := rfl

theorem exec_commitDirectory (s : State) : exec .commitDirectory s = .next (s.onBus Chip.commitCommand) := rfl

theorem exec_formatArray (s : State) : exec .formatArray s = .next (s.onBus Chip.formatCommand) := rfl

theorem exec_setPolicy (s : State) : exec .setPolicy s = .next (s.onBus Chip.setPolicyCommand) := rfl

theorem exec_stop (s : State) : exec .stop s = .next (s.onBus Chip.stopCommand) := rfl

theorem exec_softReset (withStop : Bool) (s : State) :
    exec (.softReset withStop) s = .next (s.onBus Chip.softReset) := rfl

theorem exec_eventsWrite (w : Word) (s : State) :
    exec (.eventsWrite w) s = .next (s.onBus fun c => c.writeEvents w) := rfl

theorem exec_eventEnableWrite (w : Word) (s : State) :
    exec (.eventEnableWrite w) s =
      .next (s.onBus fun c => c.writeEnable w) := rfl

theorem exec_registerWrite (offset : BitVec 5) (w : Word) (s : State) :
    exec (.registerWrite offset w) s =
      .next (s.onBus fun c => c.writeRegister offset w) := rfl

theorem exec_readRowsReadDone (flips : RowPatch) (s : State) :
    exec (.readRowsReadDone flips) s =
      s.complete (fun p => decide (p = .readRowsRead)) flips fun r d c =>
        c.onTransfer fun c t => c.transferRead t r.phys d := rfl

theorem exec_checkRowsReadDone (flips : RowPatch) (s : State) :
    exec (.checkRowsReadDone flips) s =
      s.complete (fun p => decide (p = .checkRowsRead)) flips fun r d c =>
        c.onTransfer fun c t => c.transferRead t r.phys d := rfl

theorem exec_scrubWriteDone (s : State) :
    exec .scrubWriteDone s =
      s.complete (fun p => decide (p = .scrubWrite)) [] fun r _ c =>
        c.onTransfer fun c t => c.scrubbed t (r.data.getD zeroRow) := rfl

theorem exec_ordinaryWriteDone (s : State) :
    exec .ordinaryWriteDone s =
      s.complete (fun p => decide (p = .ordinaryWrite)) [] fun _ _ c => c.onTransfer Chip.written := rfl

theorem exec_writeRepairQualifyDone (flips : RowPatch) (s : State) :
    exec (.writeRepairQualifyDone flips) s =
      s.complete (fun p => decide (p = .repairQualify p.qualifyIndex)) flips fun r d c =>
        c.onWriteRepair fun c t sp => c.writeQualified t sp r.purpose.qualifyIndex d := rfl

theorem exec_writeRepairDataWriteDone (s : State) :
    exec .writeRepairDataWriteDone s =
      s.complete (fun p => decide (p = .repairDataWrite)) [] fun _ _ c => c.onWriteRepair Chip.spareWritten := rfl

theorem exec_writeRepairVerifyDone (flips : RowPatch) (s : State) :
    exec (.writeRepairVerifyDone flips) s =
      s.complete (fun p => decide (p = .repairVerify)) flips fun _ d c =>
        c.onWriteRepair fun c t sp => c.spareVerified t sp d := rfl

theorem exec_inPlaceWriteDone (s : State) :
    exec .inPlaceWriteDone s =
      s.complete (fun p => decide (p = .inPlaceWrite)) [] fun r _ c =>
        c.onTransfer fun c t => c.writtenInPlace t r.phys := rfl

theorem exec_readBackDone (flips : RowPatch) (s : State) :
    exec (.readBackDone flips) s =
      s.complete (fun p => decide (p = .readBack)) flips fun r d c =>
        c.onTransfer fun c t => c.writeReadBack t r.phys d := rfl

theorem exec_rowInitialisationDone (s : State) :
    exec .rowInitialisationDone s =
      s.complete (fun p => decide (p = .rowInit)) [] fun _ _ c => c.rowInitialised := rfl

theorem exec_loadReadDone (flips : RowPatch) (s : State) :
    exec (.loadReadDone flips) s =
      s.complete (fun p => decide (p = .loadRead)) flips fun _ d c => c.loadRead (some d) := rfl

theorem exec_commitWriteDone (s : State) :
    exec .commitWriteDone s =
      s.complete (fun p => decide (p = .commitWrite)) [] fun _ _ c => c.commitWritten := rfl

theorem exec_commitReadBackDone (flips : RowPatch) (s : State) :
    exec (.commitReadBackDone flips) s =
      s.complete (fun p => decide (p = .commitReadBack)) flips fun _ d c => c.commitReadBack d := rfl

theorem exec_invalidatingWriteDone (s : State) :
    exec .invalidatingWriteDone s =
      s.complete (fun p => decide (p = .invalidatingWrite)) [] fun _ _ c => c.invalidated := rfl

theorem exec_sourceReadDone (flips : RowPatch) (s : State) :
    exec (.sourceReadDone flips) s =
      s.complete (fun p => decide (p = .sourceRead)) flips fun r d c =>
        c.onJob fun c j => c.sourceRead j r.phys d := rfl

theorem exec_qualificationAccessDone (flips : RowPatch) (s : State) :
    exec (.qualificationAccessDone flips) s =
      s.complete (fun p => decide (p = .qualification p.qualifyIndex)) flips fun r d c =>
        c.onJobSpare fun c j t => c.qualified j t r.purpose.qualifyIndex d := rfl

theorem exec_copyWriteDone (s : State) :
    exec .copyWriteDone s =
      s.complete (fun p => decide (p = .copyWrite)) [] fun _ _ c => c.onJobSpare Chip.copied := rfl

theorem exec_verifyReadDone (flips : RowPatch) (s : State) :
    exec (.verifyReadDone flips) s =
      s.complete (fun p => decide (p = .verifyRead)) flips fun _ d c =>
        c.onJobSpare fun c j t => c.verified j t d := rfl

theorem exec_zeroWriteDone (s : State) :
    exec .zeroWriteDone s =
      s.complete (fun p => decide (p = .zeroWrite)) [] fun r _ c => c.zeroWritten r.phys := rfl

theorem exec_zeroReadBackDone (flips : RowPatch) (s : State) :
    exec (.zeroReadBackDone flips) s =
      s.complete (fun p => decide (p = .zeroReadBack)) flips fun r d c =>
        c.onJob fun c j => c.zeroReadBack j r.phys d := rfl

theorem exec_visitReadDone (flips : RowPatch) (s : State) :
    exec (.visitReadDone flips) s =
      s.complete (fun p => decide (p = .visitRead)) flips fun r d c => c.visitRead r.phys d := rfl

theorem exec_patrolScrubDone (s : State) :
    exec .patrolScrubDone s =
      s.complete (fun p => decide (p = .patrolScrub)) [] fun _ _ c => c.endVisit .corrected := rfl

theorem exec_powerOn (straps : BitVec 2) (s : State) :
    exec (.powerOn straps) s =
      .next { s with toChip := bringUp s.rstAsserted straps } := rfl

theorem exec_rstnAssert (left : RowPatch) (s : State) :
    exec (.rstnAssert left) s =
      .next { s with toChip := Chip.resetBlocks s.powered true s.devices, array := s.cutArray left } := rfl

theorem exec_powerLoss (left : RowPatch) (s : State) :
    exec (.powerLoss left) s =
      .next { s with toChip := Chip.resetBlocks false s.rstAsserted s.devices, array := s.cutArray left } := rfl

theorem exec_readyTimeout (second : Bool) (left : RowPatch) (s : State) :
    exec (.readyTimeout second left) s =
      .next (s.readyExpires second left) := rfl

theorem exec_paceExpiry (s : State) : exec .paceExpiry s = .next (s.onChip Chip.paceRunsOut) := rfl

theorem exec_commitDelayExpiry (s : State) : exec .commitDelayExpiry s = .next (s.onChip Chip.delayRunsOut) := rfl

theorem exec_repairJobStart (s : State) : exec .repairJobStart s = .next (s.onChip Chip.jobStart) := rfl

theorem exec_allocationServed (s : State) : exec .allocationServed s = .next (s.onChip Chip.allocationServed) := rfl

end Sys2Proof.Machine

/-! # What every row of the table does to the machine -/

namespace Sys2Proof.Machine

/-! ## Acts of the part that keep its board and its laws -/

/-- An act of the part that leaves supply, RSTn and device count alone and keeps the limits and the
laws of the collections. -/
structure KeepsLaws (f : Chip → Chip) : Prop where
  board : ∀ c : Chip, (f c).board = c.board
  within : ∀ (dv : Nat × Bool) (c : Chip), c.Within dv → (f c).Within dv
  good : ∀ c : Chip, c.Good → (f c).Good

theorem Chip.good_popNotice {c : Chip} (h : c.Good) : c.popNotice.Good := by
  unfold Chip.popNotice
  split
  · exact h
  · exact h.same rfl

theorem Chip.good_writeIdent {c : Chip} (h : c.Good) (w : Word) : (c.writeIdent w).Good := by
  rw [Chip.writeIdent_eq]
  exact h.same rfl

theorem keepsLaws_transferCommand (k : TransferKind) : KeepsLaws fun c => c.transferCommand k :=
  ⟨fun c => c.board_transferCommand k, fun _ c => c.within_transferCommand k, fun _ h => Chip.good_transferCommand h k⟩

theorem keepsLaws_listCommand (k : ListKind) : KeepsLaws fun c => c.listCommand k :=
  ⟨fun c => c.board_listCommand k, fun _ c => c.within_listCommand k, fun _ h => Chip.good_listCommand h k⟩

theorem keepsLaws_queryCommand : KeepsLaws Chip.queryCommand :=
  ⟨Chip.board_queryCommand, fun _ => Chip.within_queryCommand, fun _ => Chip.good_queryCommand⟩

theorem keepsLaws_nominateCommand : KeepsLaws Chip.nominateCommand :=
  ⟨Chip.board_nominateCommand, fun _ => Chip.within_nominateCommand, fun _ => Chip.good_nominateCommand⟩

theorem keepsLaws_relocateCommand : KeepsLaws Chip.relocateCommand :=
  ⟨Chip.board_relocateCommand, fun _ => Chip.within_relocateCommand, fun _ => Chip.good_relocateCommand⟩

theorem keepsLaws_patrolStartCommand : KeepsLaws Chip.patrolStartCommand :=
  ⟨Chip.board_patrolStartCommand, fun _ => Chip.within_patrolStartCommand, fun _ => Chip.good_patrolStartCommand⟩

theorem keepsLaws_patrolHaltCommand : KeepsLaws Chip.patrolHaltCommand :=
  ⟨Chip.board_patrolHaltCommand, fun _ => Chip.within_patrolHaltCommand, fun _ => Chip.good_patrolHaltCommand⟩

theorem keepsLaws_patrolReportCommand : KeepsLaws Chip.patrolReportCommand :=
  ⟨Chip.board_patrolReportCommand, fun _ => Chip.within_patrolReportCommand, fun _ => Chip.good_patrolReportCommand⟩

theorem keepsLaws_commitCommand : KeepsLaws Chip.commitCommand :=
  ⟨Chip.board_commitCommand, fun _ => Chip.within_commitCommand, fun _ => Chip.good_commitCommand⟩

theorem keepsLaws_formatCommand : KeepsLaws Chip.formatCommand :=
  ⟨Chip.board_formatCommand, fun _ => Chip.within_formatCommand, fun _ => Chip.good_formatCommand⟩

theorem keepsLaws_setPolicyCommand : KeepsLaws Chip.setPolicyCommand :=
  ⟨Chip.board_setPolicyCommand, fun _ => Chip.within_setPolicyCommand, fun _ => Chip.good_setPolicyCommand⟩

theorem keepsLaws_stopCommand : KeepsLaws Chip.stopCommand :=
  ⟨Chip.board_stopCommand, fun _ => Chip.within_stopCommand, fun _ => Chip.good_stopCommand⟩

theorem keepsLaws_softReset : KeepsLaws Chip.softReset :=
  ⟨Chip.board_softReset, fun _ => Chip.within_softReset, fun _ => Chip.good_softReset⟩

theorem keepsLaws_readData : KeepsLaws Chip.readData :=
  ⟨Chip.board_readData, fun _ => Chip.within_readData, fun _ => Chip.good_readData⟩

theorem keepsLaws_writeData (w : Word) : KeepsLaws fun c => c.writeData w :=
  ⟨fun c => c.board_writeData w, fun _ c => c.within_writeData w, fun _ h => Chip.good_writeData h w⟩

theorem keepsLaws_writeEvents (w : Word) : KeepsLaws fun c => c.writeEvents w :=
  ⟨fun c => c.board_writeEvents w, fun _ c => c.within_writeEvents w, fun _ h => h.same rfl⟩

theorem keepsLaws_writeEnable (w : Word) : KeepsLaws fun c => c.writeEnable w :=
  ⟨fun c => c.board_writeEnable w, fun _ c => c.within_writeEnable w, fun _ h => h.same rfl⟩

theorem keepsLaws_popNotice : KeepsLaws Chip.popNotice :=
  ⟨Chip.board_popNotice, fun _ => Chip.within_popNotice, fun _ => Chip.good_popNotice⟩

theorem keepsLaws_writeIdent (w : Word) : KeepsLaws fun c => c.writeIdent w :=
  ⟨fun c => c.board_writeIdent w, fun _ c => c.within_writeIdent w, fun _ h => Chip.good_writeIdent h w⟩

theorem keepsLaws_writeRegister (o : BitVec 5) (w : Word) : KeepsLaws fun c => c.writeRegister o w :=
  ⟨fun c => c.board_writeRegister o w, fun _ c => c.within_writeRegister o w, fun _ h => Chip.good_writeRegister h o w⟩

theorem keepsLaws_paceRunsOut : KeepsLaws Chip.paceRunsOut :=
  ⟨Chip.board_paceRunsOut, fun _ => Chip.within_paceRunsOut, fun _ => Chip.good_paceRunsOut⟩

theorem keepsLaws_delayRunsOut : KeepsLaws Chip.delayRunsOut :=
  ⟨Chip.board_delayRunsOut, fun _ => Chip.within_delayRunsOut, fun _ => Chip.good_delayRunsOut⟩

theorem keepsLaws_jobStart : KeepsLaws Chip.jobStart :=
  ⟨Chip.board_jobStart, fun _ => Chip.within_jobStart, fun _ => Chip.good_jobStart⟩

theorem keepsLaws_allocationServed : KeepsLaws Chip.allocationServed :=
  ⟨Chip.board_allocationServed, fun _ => Chip.within_allocationServed, fun _ => Chip.good_allocationServed⟩

theorem keepsLaws_timedOut (p : Purpose) : KeepsLaws fun c => c.timedOut p :=
  ⟨fun c => c.board_timedOut p, fun _ c => c.within_timedOut p, fun _ h => Chip.good_timedOut h p⟩

/-! ## Completions -/

theorem keepsLaws_onTransfer {f : Chip → Transfer → Chip} (hb : ∀ (c : Chip) t, (f c t).board = c.board)
    (hw : ∀ (dv : Nat × Bool) (c : Chip) t, c.Within dv → (f c t).Within dv)
    (hg : ∀ (c : Chip) t, c.GoodT t.spare → (f c t).Good) : KeepsLaws fun c => c.onTransfer f :=
  ⟨fun c => c.board_onTransfer f hb, fun dv c => c.within_onTransfer f (hw dv),
    fun c h => Chip.good_onTransfer h f fun t e => hg c t (h.goodT e)⟩

theorem keepsLaws_onWriteRepair {f : Chip → Transfer → SpareId → Chip}
    (hb : ∀ (c : Chip) t sp, (f c t sp).board = c.board)
    (hw : ∀ (dv : Nat × Bool) (c : Chip) t sp, c.Within dv → (f c t sp).Within dv)
    (hg : ∀ (c : Chip) t sp, c.GoodT t.spare → t.spare = some sp → (f c t sp).Good) :
    KeepsLaws fun c => c.onWriteRepair f :=
  ⟨fun c => c.board_onWriteRepair f hb, fun dv c => c.within_onWriteRepair f (hw dv),
    fun c h => Chip.good_onWriteRepair h f fun t sp e es => hg c t sp (h.goodT e) es⟩

theorem keepsLaws_onJob {f : Chip → Job → Chip} (hb : ∀ (c : Chip) j, (f c j).board = c.board)
    (hw : ∀ (dv : Nat × Bool) (c : Chip) j, c.Within dv → (f c j).Within dv)
    (hg : ∀ (c : Chip) (j : Job), c.Good → c.GoodJ j.spare → (f c j).Good) : KeepsLaws fun c => c.onJob f :=
  ⟨fun c => c.board_onJob f hb, fun dv c => c.within_onJob f (hw dv),
    fun c h => Chip.good_onJob h f fun j e => hg c j h (h.goodJ e)⟩

theorem keepsLaws_onJobSpare {f : Chip → Job → SpareId → Chip} (hb : ∀ (c : Chip) j t, (f c j t).board = c.board)
    (hw : ∀ (dv : Nat × Bool) (c : Chip) j t, c.Within dv → (f c j t).Within dv)
    (hg : ∀ (c : Chip) (j : Job) t, c.Good → c.GoodJ j.spare → j.spare = some t → (f c j t).Good) :
    KeepsLaws fun c => c.onJobSpare f :=
  ⟨fun c => c.board_onJobSpare f hb, fun dv c => c.within_onJobSpare f (hw dv),
    fun c h => Chip.good_onJobSpare h f fun j t e es => hg c j t h (h.goodJ e) es⟩

theorem keepsLaws_transferRead (p : PhysRow) (d : Delivered) :
    KeepsLaws fun c => c.onTransfer fun c t => c.transferRead t p d :=
  keepsLaws_onTransfer (fun c t => c.board_transferRead t p d) (fun _ c t => c.within_transferRead t p d)
    fun _ _ h => Chip.good_transferRead h p d

theorem keepsLaws_scrubbed (ws : List Word) : KeepsLaws fun c => c.onTransfer fun c t => c.scrubbed t ws :=
  keepsLaws_onTransfer (fun c t => c.board_scrubbed t ws) (fun _ c t => c.within_scrubbed t ws)
    fun _ _ h => Chip.good_rowRead h .corrected ws

theorem keepsLaws_written : KeepsLaws fun c => c.onTransfer Chip.written :=
  keepsLaws_onTransfer Chip.board_written (fun _ => Chip.within_written) fun _ t h => Chip.good_rowDone h t none 0

theorem keepsLaws_writeQualified (k : Nat) (d : Delivered) :
    KeepsLaws fun c => c.onWriteRepair fun c t sp => c.writeQualified t sp k d :=
  keepsLaws_onWriteRepair (fun c t sp => c.board_writeQualified t sp k d) (fun _ c t sp => c.within_writeQualified t sp k d)
    fun _ _ _ h hs => Chip.good_writeQualified h hs k d

theorem keepsLaws_spareWritten : KeepsLaws fun c => c.onWriteRepair Chip.spareWritten :=
  keepsLaws_onWriteRepair Chip.board_spareWritten (fun _ => Chip.within_spareWritten)
    fun _ _ sp h _ => Chip.good_spareWritten h sp

theorem keepsLaws_spareVerified (d : Delivered) :
    KeepsLaws fun c => c.onWriteRepair fun c t sp => c.spareVerified t sp d :=
  keepsLaws_onWriteRepair (fun c t sp => c.board_spareVerified t sp d) (fun _ c t sp => c.within_spareVerified t sp d)
    fun _ _ _ h hs => Chip.good_spareVerified h hs d

theorem keepsLaws_writtenInPlace (p : PhysRow) : KeepsLaws fun c => c.onTransfer fun c t => c.writtenInPlace t p :=
  keepsLaws_onTransfer (fun c t => c.board_writtenInPlace t p) (fun _ c t => c.within_writtenInPlace t p)
    fun _ _ h => Chip.good_writtenInPlace h p

theorem keepsLaws_writeReadBack (p : PhysRow) (d : Delivered) :
    KeepsLaws fun c => c.onTransfer fun c t => c.writeReadBack t p d :=
  keepsLaws_onTransfer (fun c t => c.board_writeReadBack t p d) (fun _ c t => c.within_writeReadBack t p d)
    fun _ _ h => Chip.good_writeReadBack h p d

theorem keepsLaws_rowInitialised : KeepsLaws Chip.rowInitialised :=
  ⟨Chip.board_rowInitialised, fun _ => Chip.within_rowInitialised, fun _ => Chip.good_rowInitialised⟩

theorem keepsLaws_loadRead (d : Option Delivered) : KeepsLaws fun c => c.loadRead d :=
  ⟨fun c => c.board_loadRead d, fun _ c => c.within_loadRead d, fun _ h => Chip.good_loadRead h d⟩

theorem keepsLaws_commitWritten : KeepsLaws Chip.commitWritten :=
  ⟨Chip.board_commitWritten, fun _ => Chip.within_commitWritten, fun _ => Chip.good_commitWritten⟩

theorem keepsLaws_commitReadBack (d : Delivered) : KeepsLaws fun c => c.commitReadBack d :=
  ⟨fun c => c.board_commitReadBack d, fun _ c => c.within_commitReadBack d, fun _ h => Chip.good_commitReadBack h d⟩

theorem keepsLaws_invalidated : KeepsLaws Chip.invalidated :=
  ⟨Chip.board_invalidated, fun _ => Chip.within_invalidated, fun _ => Chip.good_invalidated⟩

theorem keepsLaws_sourceRead (p : PhysRow) (d : Delivered) : KeepsLaws fun c => c.onJob fun c j => c.sourceRead j p d :=
  keepsLaws_onJob (fun c j => c.board_sourceRead j p d) (fun _ c j => c.within_sourceRead j p d)
    fun _ _ h hj => Chip.good_sourceRead h hj p d

theorem keepsLaws_qualified (k : Nat) (d : Delivered) :
    KeepsLaws fun c => c.onJobSpare fun c j t => c.qualified j t k d :=
  keepsLaws_onJobSpare (fun c j t => c.board_qualified j t k d) (fun _ c j t => c.within_qualified j t k d)
    fun _ _ _ _ hj hs => Chip.good_qualified hj hs k d

theorem keepsLaws_copied : KeepsLaws fun c => c.onJobSpare Chip.copied :=
  keepsLaws_onJobSpare Chip.board_copied (fun _ => Chip.within_copied) fun _ _ t h hj _ => Chip.good_copied h hj t

theorem keepsLaws_verified (d : Delivered) : KeepsLaws fun c => c.onJobSpare fun c j t => c.verified j t d :=
  keepsLaws_onJobSpare (fun c j t => c.board_verified j t d) (fun _ c j t => c.within_verified j t d)
    fun _ _ _ h hj hs => Chip.good_verified h hj hs d

theorem keepsLaws_zeroWritten (p : PhysRow) : KeepsLaws fun c => c.zeroWritten p :=
  ⟨fun c => c.board_zeroWritten p, fun _ c => c.within_zeroWritten p, fun _ h => h.same (Chip.holdView_issue _ _ _ _)⟩

theorem keepsLaws_zeroReadBack (p : PhysRow) (d : Delivered) :
    KeepsLaws fun c => c.onJob fun c j => c.zeroReadBack j p d :=
  keepsLaws_onJob (fun c j => c.board_zeroReadBack j p d) (fun _ c j => c.within_zeroReadBack j p d)
    fun _ _ h hj => Chip.good_zeroReadBack h hj p d

theorem keepsLaws_visitRead (p : PhysRow) (d : Delivered) : KeepsLaws fun c => c.visitRead p d :=
  ⟨fun c => c.board_visitRead p d, fun _ c => c.within_visitRead p d, fun _ h => Chip.good_visitRead h p d⟩

theorem keepsLaws_endVisit (o : ReadOutcome) : KeepsLaws fun c => c.endVisit o :=
  ⟨fun c => c.board_endVisit o, fun _ c => c.within_endVisit o, fun _ h => Chip.good_endVisit h o⟩

/-! ## The form of every row's meaning -/

/-- What a row of the table does, by the row: the four rows of supply and RSTn, and every other row as a bus cycle, an act of
the part alone, a completion with DONE, or a TIMEOUT, with an act that keeps board and laws. -/
inductive Meaning (s : State) : Instr → Host.Outcome State Fault Refusal → Prop
  | powerOn (straps : BitVec 2) : Meaning s (.powerOn straps) (.next { s with toChip := bringUp s.rstAsserted straps })
  | rstnAssert (left : RowPatch) :
      Meaning s (.rstnAssert left)
        (.next { s with toChip := Chip.resetBlocks s.powered true s.devices, array := s.cutArray left })
  | rstnRelease (straps : BitVec 2) (asserted : s.rstAsserted = true) (powered : s.powered = true) :
      Meaning s (.rstnRelease straps) (.next { s with toChip := bringUp false straps })
  | rstnReleaseUnpowered (straps : BitVec 2) : Meaning s (.rstnRelease straps) (.next { s with rstAsserted := false })
  | rstnReleased (straps : BitVec 2) : Meaning s (.rstnRelease straps) (.next s)
  | powerLoss (left : RowPatch) :
      Meaning s (.powerLoss left)
        (.next { s with toChip := Chip.resetBlocks false s.rstAsserted s.devices, array := s.cutArray left })
  | onBus {i : Instr} {f : Chip → Chip} (keeps : KeepsLaws f) : Meaning s i (.next (s.onBus f))
  | onChip {i : Instr} {f : Chip → Chip} (keeps : KeepsLaws f) : Meaning s i (.next (s.onChip f))
  | complete {i : Instr} {covers : Purpose → Bool} {flips : RowPatch} {act : Request → Delivered → Chip → Chip}
      {o : Host.Outcome State Fault Refusal} (keeps : ∀ r d, KeepsLaws (act r d))
      (answer : s.complete covers flips act = o) :
      Meaning s i o
  | readyExpires {i : Instr} (second : Bool) (left : RowPatch) : Meaning s i (.next (s.readyExpires second left))

theorem meaning_rstnRelease (straps : BitVec 2) (s : State) : Meaning s (.rstnRelease straps) (execRstnRelease straps s) := by
  unfold execRstnRelease
  split
  next asserted =>
    split
    next powered => exact .rstnRelease straps asserted powered
    next => exact .rstnReleaseUnpowered straps
  next => exact .rstnReleased straps

/-- Every row has one of these meanings. -/
theorem meaning_exec (i : Instr) (s : State) : Meaning s i (exec i s) := by
  cases i with
  | powerOn straps => exact .powerOn straps
  | rstnAssert left => exact .rstnAssert left
  | rstnRelease straps => exact meaning_rstnRelease straps s
  | readRows => exact .onBus (keepsLaws_transferCommand .read)
  | writeRows => exact .onBus (keepsLaws_transferCommand .write)
  | checkRows => exact .onBus (keepsLaws_transferCommand .check)
  | queryRow => exact .onBus keepsLaws_queryCommand
  | nominateRow => exact .onBus keepsLaws_nominateCommand
  | listPending => exact .onBus (keepsLaws_listCommand .pending)
  | listWatch => exact .onBus (keepsLaws_listCommand .watch)
  | relocateRow => exact .onBus keepsLaws_relocateCommand
  | listMap => exact .onBus (keepsLaws_listCommand .map)
  | listZones => exact .onBus (keepsLaws_listCommand .zones)
  | patrolStart => exact .onBus keepsLaws_patrolStartCommand
  | patrolHalt => exact .onBus keepsLaws_patrolHaltCommand
  | patrolReport => exact .onBus keepsLaws_patrolReportCommand
  | commitDirectory => exact .onBus keepsLaws_commitCommand
  | formatArray => exact .onBus keepsLaws_formatCommand
  | setPolicy => exact .onBus keepsLaws_setPolicyCommand
  | stop => exact .onBus keepsLaws_stopCommand
  | softReset => exact .onBus keepsLaws_softReset
  | dataRead => exact .onBus keepsLaws_readData
  | dataWrite w => exact .onBus (keepsLaws_writeData w)
  | eventsWrite w => exact .onBus (keepsLaws_writeEvents w)
  | eventEnableWrite w => exact .onBus (keepsLaws_writeEnable w)
  | noticePop => exact .onBus keepsLaws_popNotice
  | identWrite w => exact .onBus (keepsLaws_writeIdent w)
  | registerWrite offset w => exact .onBus (keepsLaws_writeRegister offset w)
  | readyTimeout second left => exact .readyExpires second left
  | paceExpiry => exact .onChip keepsLaws_paceRunsOut
  | commitDelayExpiry => exact .onChip keepsLaws_delayRunsOut
  | readRowsReadDone flips =>
    exact .complete (fun r d => keepsLaws_transferRead r.phys d)
      (exec_readRowsReadDone flips s).symm
  | checkRowsReadDone flips =>
    exact .complete (fun r d => keepsLaws_transferRead r.phys d)
      (exec_checkRowsReadDone flips s).symm
  | scrubWriteDone => exact .complete (fun r _ => keepsLaws_scrubbed (r.data.getD zeroRow)) (exec_scrubWriteDone s).symm
  | ordinaryWriteDone => exact .complete (fun _ _ => keepsLaws_written) (exec_ordinaryWriteDone s).symm
  | writeRepairQualifyDone flips =>
    exact .complete (fun r d => keepsLaws_writeQualified r.purpose.qualifyIndex d)
      (exec_writeRepairQualifyDone flips s).symm
  | writeRepairDataWriteDone =>
    exact .complete (fun _ _ => keepsLaws_spareWritten)
      (exec_writeRepairDataWriteDone s).symm
  | writeRepairVerifyDone flips =>
    exact .complete (fun _ d => keepsLaws_spareVerified d)
      (exec_writeRepairVerifyDone flips s).symm
  | inPlaceWriteDone => exact .complete (fun r _ => keepsLaws_writtenInPlace r.phys) (exec_inPlaceWriteDone s).symm
  | readBackDone flips => exact .complete (fun r d => keepsLaws_writeReadBack r.phys d) (exec_readBackDone flips s).symm
  | rowInitialisationDone => exact .complete (fun _ _ => keepsLaws_rowInitialised) (exec_rowInitialisationDone s).symm
  | loadReadDone flips => exact .complete (fun _ d => keepsLaws_loadRead (some d)) (exec_loadReadDone flips s).symm
  | commitWriteDone => exact .complete (fun _ _ => keepsLaws_commitWritten) (exec_commitWriteDone s).symm
  | commitReadBackDone flips =>
    exact .complete (fun _ d => keepsLaws_commitReadBack d)
      (exec_commitReadBackDone flips s).symm
  | invalidatingWriteDone => exact .complete (fun _ _ => keepsLaws_invalidated) (exec_invalidatingWriteDone s).symm
  | sourceReadDone flips =>
    exact .complete (fun r d => keepsLaws_sourceRead r.phys d)
      (exec_sourceReadDone flips s).symm
  | qualificationAccessDone flips =>
    exact .complete (fun r d => keepsLaws_qualified r.purpose.qualifyIndex d)
      (exec_qualificationAccessDone flips s).symm
  | copyWriteDone => exact .complete (fun _ _ => keepsLaws_copied) (exec_copyWriteDone s).symm
  | verifyReadDone flips => exact .complete (fun _ d => keepsLaws_verified d) (exec_verifyReadDone flips s).symm
  | zeroWriteDone => exact .complete (fun r _ => keepsLaws_zeroWritten r.phys) (exec_zeroWriteDone s).symm
  | zeroReadBackDone flips =>
    exact .complete (fun r d => keepsLaws_zeroReadBack r.phys d)
      (exec_zeroReadBackDone flips s).symm
  | visitReadDone flips => exact .complete (fun r d => keepsLaws_visitRead r.phys d) (exec_visitReadDone flips s).symm
  | patrolScrubDone => exact .complete (fun _ _ => keepsLaws_endVisit .corrected) (exec_patrolScrubDone s).symm
  | repairJobStart => exact .onChip keepsLaws_jobStart
  | allocationServed => exact .onChip keepsLaws_allocationServed
  | powerLoss left => exact .powerLoss left

/-! ## The outcome of a completion (R33, log entries 6 and 7) -/

/-- What a completion with DONE answers: another access than the one in progress changes nothing, a row that no device has is
the fault, and otherwise the access ends. -/
theorem State.complete_cases (s : State) (covers : Purpose → Bool) (flips : RowPatch)
    (act : Request → Delivered → Chip → Chip) :
    s.complete covers flips act = .next s
      ∨ (∃ k r, s.seq.current = some (k, r) ∧ r.phys.inArray s.devices = false
          ∧ s.complete covers flips act = .fault .noSuchRow)
      ∨ ∃ k r, s.seq.current = some (k, r) ∧ r.phys.inArray s.devices = true
          ∧ s.complete covers flips act = .next { s with
              toChip := s.toChip.finishAccess k r (act r (s.array.deliver r.phys flips)), array := s.array.afterDone r } := by
  unfold State.complete
  cases current : s.seq.current with
  | none => exact .inl rfl
  | some access =>
    obtain ⟨k, r⟩ := access
    by_cases covered : covers r.purpose = true
    · by_cases present : r.phys.inArray s.devices = true
      · exact .inr (.inr ⟨k, r, rfl, present, by simp only [covered, present, if_true]⟩)
      · exact .inr (.inl ⟨k, r, rfl, Bool.not_eq_true _ ▸ present,
          by simp only [covered, present, if_true, if_false, Bool.false_eq_true]⟩)
    · exact .inl (by simp only [covered, if_false, Bool.false_eq_true])

/-- What a TIMEOUT leaves: nothing changes without an access and its timer, and otherwise the access ends (R31, R32). -/
theorem State.readyExpires_cases (s : State) (second : Bool) (left : RowPatch) :
    s.readyExpires second left = s
      ∨ ∃ k r, s.seq.current = some (k, r) ∧ s.readyExpires second left = { s with
          toChip := s.toChip.finishAccess k r (fun c => c.timedOut r.purpose)
          array := if second then s.array.afterCut s.devices r left else s.array } := by
  unfold State.readyExpires
  cases current : s.seq.current with
  | none => exact .inl rfl
  | some access =>
    obtain ⟨k, r⟩ := access
    by_cases armed : s.seq.readyTimer = true
    · exact .inr ⟨k, r, rfl, if_pos armed⟩
    · exact .inl (if_neg armed)

theorem State.onBus_cases (s : State) (f : Chip → Chip) : s.onBus f = s ∨ s.onBus f = s.onChip f := by
  unfold State.onBus
  split
  · exact .inr rfl
  · exact .inl rfl

/-! ## Steps (log entry 1) -/

/-- A step answers the state itself with an empty queue, and otherwise what the front command does to the rest. -/
theorem step_cases {s t : State} (h : step s = .next t) :
    t = s ∨ ∃ i rest, exec i { s with pending := rest } = .next t := by
  unfold step at h
  split at h
  · cases h
    exact .inl rfl
  · exact .inr ⟨_, _, h⟩

/-- What every command keeps, of states that differ in their queues alone, every step keeps. -/
theorem step_keeps {P : State → Prop} (queue : ∀ (s : State) (q : List Instr), P s → P { s with pending := q })
    (command : ∀ (i : Instr) (s t : State), P s → exec i s = .next t → P t) {s t : State} (hs : P s)
    (h : step s = .next t) : P t := by
  obtain rfl | ⟨i, rest, executed⟩ := step_cases h
  · exact hs
  · exact command i _ t (queue s rest hs) executed

/-- Settles O1: by the definition of a step. -/
theorem stepTakesTheFrontCommand : Obligations.StepTakesTheFrontCommand := by
  refine ⟨fun _ _ _ => rfl, fun s empty => ?_⟩
  unfold step
  rw [empty]

theorem exec_next_or_fault (i : Instr) (s : State) :
    (∃ t, exec i s = .next t ∧ t.pending = s.pending) ∨
      (exec i s = .fault .noSuchRow ∧ ∃ k r, s.seq.current = some (k, r) ∧ r.phys.inArray s.devices = false) := by
  have meaning := meaning_exec i s
  generalize exec i s = o at meaning ⊢
  cases meaning with
  | powerOn | rstnAssert | rstnRelease | rstnReleaseUnpowered | rstnReleased | powerLoss | onChip =>
    exact .inl ⟨_, rfl, rfl⟩
  | onBus keeps =>
    obtain same | acts := s.onBus_cases _
    · exact .inl ⟨_, rfl, by rw [same]⟩
    · exact .inl ⟨_, rfl, by rw [acts]; rfl⟩
  | complete keeps answer =>
    obtain same | ⟨k, r, current, missing, fault⟩ | ⟨k, r, current, present, ends⟩ := s.complete_cases _ _ _
    · exact .inl ⟨_, answer.symm.trans same, rfl⟩
    · exact .inr ⟨answer.symm.trans fault, k, r, current, missing⟩
    · exact .inl ⟨_, answer.symm.trans ends, rfl⟩
  | readyExpires second left =>
    obtain same | ⟨k, r, current, ends⟩ := s.readyExpires_cases second left
    · exact .inl ⟨_, rfl, by rw [same]⟩
    · exact .inl ⟨_, rfl, by rw [ends]⟩

/-- Settles O2: by the forms of the meanings, of which only a completion answers the fault. -/
theorem everyCommandGoesOnUnlessItsRowIsMissing : Obligations.EveryCommandGoesOnUnlessItsRowIsMissing :=
  exec_next_or_fault

/-! ## The array (R29, R30, R32, R36) -/

theorem Memory.afterDone_wf {m : Memory} (r : Request) (h : m.wf = true) : (m.afterDone r).wf = true := by
  unfold Memory.afterDone
  split
  · exact Memory.write_wf _ _ h
  · exact h

theorem Memory.afterCut_wf {m : Memory} (n : Nat) (r : Request) (left : RowPatch) (h : m.wf = true) :
    (m.afterCut n r left).wf = true := by
  unfold Memory.afterCut
  split
  · split
    · exact Memory.tear_wf _ _ h
    · exact h
  · exact h

/-- What a command leaves in the array: the array itself, what the access in progress leaves by its completion with DONE, or
what it leaves cut off. -/
theorem exec_array {i : Instr} {s t : State} (h : exec i s = .next t) :
    t.array = s.array ∨ ∃ k r, s.seq.current = some (k, r)
      ∧ (r.phys.inArray s.devices = true ∧ t.array = s.array.afterDone r
        ∨ ∃ left, t.array = s.array.afterCut s.devices r left) := by
  have cut : ∀ left, s.cutArray left = s.array ∨ ∃ k r, s.seq.current = some (k, r)
      ∧ (r.phys.inArray s.devices = true ∧ s.cutArray left = s.array.afterDone r
        ∨ ∃ left', s.cutArray left = s.array.afterCut s.devices r left') := by
    intro left
    unfold State.cutArray
    cases s.seq.current with
    | none => exact .inl rfl
    | some access => exact .inr ⟨access.1, access.2, rfl, .inr ⟨left, rfl⟩⟩
  have meaning := meaning_exec i s
  rw [h] at meaning
  generalize ho : (Host.Outcome.next t : Host.Outcome State Fault Refusal) = o at meaning
  cases meaning with
  | powerOn | rstnRelease | rstnReleaseUnpowered | rstnReleased | onChip => cases ho; exact .inl rfl
  | rstnAssert left | powerLoss left => cases ho; exact cut left
  | onBus keeps =>
    cases ho
    obtain same | acts := s.onBus_cases _
    · exact .inl (by rw [same])
    · exact .inl (by rw [acts]; rfl)
  | complete keeps answer =>
    obtain same | ⟨k, r, current, missing, fault⟩ | ⟨k, r, current, present, ends⟩ := s.complete_cases _ _ _
    · cases (ho.trans answer.symm).trans same; exact .inl rfl
    · cases (ho.trans answer.symm).trans fault
    · cases (ho.trans answer.symm).trans ends; exact .inr ⟨k, r, current, .inl ⟨present, rfl⟩⟩
  | readyExpires second left =>
    cases ho
    obtain same | ⟨k, r, current, ends⟩ := s.readyExpires_cases second left
    · exact .inl (by rw [same])
    · cases second with
      | false => exact .inl (by rw [ends]; rfl)
      | true => exact .inr ⟨k, r, current, .inr ⟨left, by rw [ends]; rfl⟩⟩

/-- Settles O4: every array a command leaves comes from a canonical one by a write or a cut-off write. -/
theorem arrayStaysCanonical : Obligations.ArrayStaysCanonical := by
  intro s t canonical stepped
  refine step_keeps (P := fun s => s.arrayCanonical = true) (fun _ _ h => h)
    (fun i s t canonical executed => ?_) canonical stepped
  unfold State.arrayCanonical at canonical ⊢
  obtain same | ⟨k, r, current, ⟨present, done⟩ | ⟨left, cut⟩⟩ := exec_array executed
  · rw [same]; exact canonical
  · rw [done]; exact Memory.afterDone_wf r canonical
  · rw [cut]; exact Memory.afterCut_wf _ r left canonical

/-! ## The port (R26) -/

theorem Chip.settled_finishAccess (c : Chip) (k : AccessClass) (r : Request) (act : Chip → Chip) :
    (c.finishAccess k r act).seq.settled = true := by
  unfold Chip.finishAccess
  split
  · exact Chip.settle_settled _
  · exact Chip.settle_settled _

theorem settled_bringUp (rstAsserted : Bool) (straps : BitVec 2) : (bringUp rstAsserted straps).seq.settled = true := by
  unfold bringUp
  split
  · exact Sequencer.settled_reset
  · exact Chip.settle_settled _

theorem exec_settled {i : Instr} {s t : State} (settled : s.seq.settled = true) (h : exec i s = .next t) :
    t.seq.settled = true := by
  have meaning := meaning_exec i s
  rw [h] at meaning
  generalize ho : (Host.Outcome.next t : Host.Outcome State Fault Refusal) = o at meaning
  cases meaning with
  | powerOn | rstnRelease => cases ho; exact settled_bringUp _ _
  | rstnAssert | powerLoss => cases ho; exact Sequencer.settled_reset
  | rstnReleaseUnpowered | rstnReleased => cases ho; exact settled
  | onChip keeps => cases ho; exact Chip.settle_settled _
  | onBus keeps =>
    cases ho
    obtain same | acts := s.onBus_cases _
    · rw [same]; exact settled
    · rw [acts]; exact Chip.settle_settled _
  | complete keeps answer =>
    obtain same | ⟨k, r, current, missing, fault⟩ | ⟨k, r, current, present, ends⟩ := s.complete_cases _ _ _
    · cases (ho.trans answer.symm).trans same; exact settled
    · cases (ho.trans answer.symm).trans fault
    · cases (ho.trans answer.symm).trans ends; exact Chip.settled_finishAccess _ _ _ _
  | readyExpires second left =>
    cases ho
    obtain same | ⟨k, r, current, ends⟩ := s.readyExpires_cases second left
    · rw [same]; exact settled
    · rw [ends]; exact Chip.settled_finishAccess _ _ _ _

/-- Settles O5: every command that goes on ends in a settling or leaves the port as it was or at reset. -/
theorem portStaysSettled : Obligations.PortStaysSettled := fun _ _ =>
  step_keeps (P := fun s => s.seq.settled = true) (fun _ _ h => h) fun _ _ _ => exec_settled

/-! ## The limits and the laws (R9, R10, R16, R73, R86, R87, R101 to R103, R123, R177) -/

theorem bringUp_within (rstAsserted : Bool) (straps : BitVec 2) (laws : Bool) :
    (bringUp rstAsserted straps).Within ((bringUp rstAsserted straps).devices, laws) := by
  have counted : 0 < deviceCount straps := Nat.succ_pos _
  unfold bringUp
  split
  · exact Chip.within_reset true true laws _ counted
  · have started := Chip.within_settle 8 _
      (Chip.within_startLoading _ (Chip.within_reset true false laws (deviceCount straps) counted))
    exact started.2.2.2.2.1.symm ▸ started
theorem exec_good {i : Instr} {s t : State} (lawful : s.toChip.Good) (h : exec i s = .next t) : t.toChip.Good := by
  have meaning := meaning_exec i s
  rw [h] at meaning
  generalize ho : (Host.Outcome.next t : Host.Outcome State Fault Refusal) = o at meaning
  cases meaning with
  | powerOn | rstnRelease => cases ho; exact good_bringUp _ _
  | rstnAssert | powerLoss => cases ho; exact Chip.good_resetBlocks _ _ _
  | rstnReleaseUnpowered => cases ho; exact lawful.same rfl
  | rstnReleased => cases ho; exact lawful
  | onChip keeps => cases ho; exact State.good_onChip lawful (keeps.good _ lawful)
  | onBus keeps => cases ho; exact State.good_onBus lawful (keeps.good _ lawful)
  | complete keeps answer => exact State.good_complete lawful (fun r d => (keeps r d).good) (answer.trans ho.symm)
  | readyExpires second left => cases ho; exact State.good_readyExpires lawful second left

/-- The board after a command other than those of supply and RSTn is the board before it. -/
theorem exec_board {i : Instr} {s t : State} (powerOn : ∀ b, i ≠ .powerOn b) (rstnAssert : ∀ p, i ≠ .rstnAssert p)
    (rstnRelease : ∀ b, i ≠ .rstnRelease b) (powerLoss : ∀ p, i ≠ .powerLoss p) (h : exec i s = .next t) :
    t.board = s.board := by
  have meaning := meaning_exec i s
  rw [h] at meaning
  generalize ho : (Host.Outcome.next t : Host.Outcome State Fault Refusal) = o at meaning
  cases meaning with
  | powerOn b => exact absurd rfl (powerOn b)
  | rstnAssert p => exact absurd rfl (rstnAssert p)
  | rstnRelease b | rstnReleaseUnpowered b | rstnReleased b => exact absurd rfl (rstnRelease b)
  | powerLoss p => exact absurd rfl (powerLoss p)
  | onChip keeps => cases ho; exact (Chip.board_settle _ _).trans (keeps.board _)
  | onBus keeps =>
    cases ho
    obtain same | acts := s.onBus_cases _
    · rw [same]
    · rw [acts]; exact (Chip.board_settle _ _).trans (keeps.board _)
  | complete keeps answer =>
    obtain same | ⟨k, r, current, missing, fault⟩ | ⟨k, r, current, present, ends⟩ := s.complete_cases _ _ _
    · cases (ho.trans answer.symm).trans same; rfl
    · cases (ho.trans answer.symm).trans fault
    · cases (ho.trans answer.symm).trans ends; exact Chip.board_finishAccess _ _ _ _ (keeps _ _).board
  | readyExpires second left =>
    cases ho
    obtain same | ⟨k, r, current, ends⟩ := s.readyExpires_cases second left
    · rw [same]
    · rw [ends]; exact Chip.board_finishAccess _ _ _ _ (keepsLaws_timedOut r.purpose).board

theorem devices_bringUp (rstAsserted : Bool) (straps : BitVec 2) :
    (bringUp rstAsserted straps).devices = deviceCount straps := by
  unfold bringUp
  split
  · rfl
  · exact congrArg Board.devices
      ((Chip.board_settle 8 _).trans (Chip.resetBlocks true false (deviceCount straps)).board_startLoading)

theorem deviceCount_legal (straps : BitVec 2) : 1 ≤ deviceCount straps ∧ deviceCount straps ≤ 4 := by
  have := straps.isLt
  unfold deviceCount
  omega

/-- The device count after a command is the one before it or a strap sample (R1). -/
theorem exec_devices {i : Instr} {s t : State} (h : exec i s = .next t) :
    t.devices = s.devices ∨ ∃ straps, t.devices = deviceCount straps := by
  have meaning := meaning_exec i s
  rw [h] at meaning
  generalize ho : (Host.Outcome.next t : Host.Outcome State Fault Refusal) = o at meaning
  cases meaning with
  | powerOn straps => cases ho; exact .inr ⟨straps, devices_bringUp _ straps⟩
  | rstnRelease straps => cases ho; exact .inr ⟨straps, devices_bringUp _ straps⟩
  | rstnAssert | powerLoss | rstnReleaseUnpowered | rstnReleased => cases ho; exact .inl rfl
  | onChip keeps => cases ho; exact .inl (congrArg Board.devices ((Chip.board_settle _ _).trans (keeps.board _)))
  | onBus keeps =>
    cases ho
    obtain same | acts := s.onBus_cases _
    · rw [same]; exact .inl rfl
    · rw [acts]; exact .inl (congrArg Board.devices ((Chip.board_settle _ _).trans (keeps.board _)))
  | complete keeps answer =>
    obtain same | ⟨k, r, current, missing, fault⟩ | ⟨k, r, current, present, ends⟩ := s.complete_cases _ _ _
    · cases (ho.trans answer.symm).trans same; exact .inl rfl
    · cases (ho.trans answer.symm).trans fault
    · cases (ho.trans answer.symm).trans ends
      exact .inl (congrArg Board.devices (Chip.board_finishAccess _ _ _ _ (keeps _ _).board))
  | readyExpires second left =>
    cases ho
    obtain same | ⟨k, r, current, ends⟩ := s.readyExpires_cases second left
    · rw [same]; exact .inl rfl
    · rw [ends]
      exact .inl (congrArg Board.devices (Chip.board_finishAccess _ _ _ _ (keepsLaws_timedOut r.purpose).board))

theorem Chip.devices_pos_of_within {c : Chip} {laws : Bool} (h : c.Within (c.devices, laws)) : 0 < c.devices := by
  have cursor : c.pat.cursor < 8064 * c.devices := Chip.within_cursor h
  omega

theorem exec_within {i : Instr} {s t : State} {laws : Bool} (within : s.toChip.Within (s.devices, laws))
    (h : exec i s = .next t) : t.toChip.Within (t.devices, laws) := by
  have counted := Chip.devices_pos_of_within within
  have same : ∀ {d : Chip}, d.Within (s.devices, laws) → d.Within (d.devices, laws) := fun {d} hd =>
    (show d.devices = s.devices from hd.2.2.2.2.1).symm ▸ hd
  have meaning := meaning_exec i s
  rw [h] at meaning
  generalize ho : (Host.Outcome.next t : Host.Outcome State Fault Refusal) = o at meaning
  cases meaning with
  | powerOn | rstnRelease => cases ho; exact bringUp_within _ _ laws
  | rstnAssert | powerLoss => cases ho; exact Chip.within_reset _ _ laws _ counted
  | rstnReleaseUnpowered | rstnReleased => cases ho; exact within
  | onChip keeps => cases ho; exact same (Chip.within_settle _ _ (keeps.within _ _ within))
  | onBus keeps => cases ho; exact same (State.within_onBus (keeps.within _) within)
  | complete keeps answer =>
    exact same (State.within_complete (fun r d => (keeps r d).within _) within
      (answer.trans ho.symm))
  | readyExpires second left =>
    cases ho
    obtain unchanged | ⟨k, r, current, ends⟩ := s.readyExpires_cases second left
    · rw [unchanged]; exact within
    · rw [ends]; exact same (Chip.within_finishAccess _ _ _ _ (fun c hc => c.within_timedOut r.purpose hc) within)

/-- The laws of Safety.lean are the limits with the law of the watch table, and the laws the library carries together. -/
theorem Chip.lawful_iff (c : Chip) : c.lawful ↔ c.Within (c.devices, true) ∧ c.Good := by
  unfold Chip.lawful
  rw [← Chip.watchLaw_iff, ← Chip.good_iff]
  exact ⟨fun ⟨a, b, rest⟩ => ⟨⟨a, b⟩, rest⟩, fun ⟨⟨a, b⟩, rest⟩ => ⟨a, b, rest⟩⟩

/-- Settles O6: both groups of laws are kept by every command's act, by every settling and by every reset. -/
theorem collectionsStayWithinTheirLimits : Obligations.CollectionsStayWithinTheirLimits := by
  refine ⟨fun s t within stepped => ?limits, fun s t lawful stepped => ?laws⟩
  case limits =>
    refine step_keeps (P := fun s => s.withinLimits = true) (fun _ _ h => h) (fun i s t h executed => ?_) within stepped
    exact t.toChip.withinLimits_iff.2 (exec_within (s.toChip.withinLimits_iff.1 h) executed)
  case laws =>
    refine step_keeps (P := fun s => s.lawful) (fun _ _ h => h) (fun i s t h executed => ?_) lawful stepped
    obtain ⟨within, good⟩ := s.toChip.lawful_iff.1 h
    exact t.toChip.lawful_iff.2 ⟨exec_within within executed, exec_good good executed⟩

/-- Settles O3: the port carries the first load read, and the blocks at reset keep the limits and the laws. -/
theorem resetMeetsTheInvariants : Obligations.ResetMeetsTheInvariants := by
  refine ⟨rfl, rfl, rfl, (Chip.lawful_iff _).2 ⟨?within, ?good⟩⟩
  case within => exact Chip.within_reset true false true 1 Nat.one_pos
  case good => exact Chip.Good.same (Chip.good_resetBlocks true false 1) rfl

/-! ## The board and the row of the array that changes (R1, R29, R30, R36) -/

/-- Away from the row of a write, what its access leaves reads as before. -/
theorem Memory.read_afterDone {m : Memory} (canonical : m.wf = true) (r : Request) (key : Nat) :
    (m.afterDone r).read key = m.read key ∨ ∃ ws, r.data = some ws ∧ key = r.phys.key := by
  unfold Memory.afterDone
  cases written : r.data with
  | none => exact .inl rfl
  | some ws =>
    by_cases own : key = r.phys.key
    · exact .inr ⟨ws, rfl, own⟩
    · exact .inl ((Memory.read_store canonical).trans (if_neg own))

theorem Memory.read_afterCut {m : Memory} (canonical : m.wf = true) (n : Nat) (r : Request) (left : RowPatch) (key : Nat) :
    (m.afterCut n r left).read key = m.read key
      ∨ ∃ ws, r.data = some ws ∧ r.phys.inArray n = true ∧ key = r.phys.key := by
  unfold Memory.afterCut
  cases written : r.data with
  | none => exact .inl rfl
  | some ws =>
    by_cases present : r.phys.inArray n = true
    · by_cases own : key = r.phys.key
      · exact .inr ⟨ws, rfl, present, own⟩
      · exact .inl ((congrArg (Memory.read · key) (if_pos present)).trans ((Memory.read_store canonical).trans (if_neg own)))
    · exact .inl (congrArg (Memory.read · key) (if_neg present))

/-- Settles O7: the board by the forms of the meanings, and the array by what an access leaves done or cut off. -/
theorem boardAndArrayChangeOnlyByTheirCommands : Obligations.BoardAndArrayChangeOnlyByTheirCommands := by
  refine ⟨⟨fun i s t powerOn rstnAssert rstnRelease powerLoss executed => ?board, fun s t legal stepped => ?count⟩,
    fun i s t key canonical executed => ?array⟩
  case board =>
    have board := exec_board powerOn rstnAssert rstnRelease powerLoss executed
    exact ⟨congrArg Board.powered board, congrArg Board.rstAsserted board, congrArg Board.devices board⟩
  case count =>
    refine step_keeps (P := fun s => s.countLegal = true) (fun _ _ h => h) (fun i s t legal executed => ?_) legal stepped
    unfold State.countLegal at legal ⊢
    obtain same | ⟨straps, sampled⟩ := exec_devices executed
    · rw [same]; exact legal
    · rw [sampled]; exact decide_eq_true (deviceCount_legal straps)
  case array =>
    obtain same | ⟨k, r, current, ⟨present, done⟩ | ⟨left, cut⟩⟩ := exec_array executed
    · exact .inl (by rw [same])
    · rw [done]
      obtain kept | ⟨ws, written, own⟩ := Memory.read_afterDone canonical r key
      · exact .inl kept
      · exact .inr ⟨k, r, ws, current, written, present, own⟩
    · rw [cut]
      obtain kept | ⟨ws, written, present, own⟩ := Memory.read_afterCut canonical s.devices r left key
      · exact .inl kept
      · exact .inr ⟨k, r, ws, current, written, present, own⟩

end Sys2Proof.Machine

/-! # Reset values, supply and the RSTn pin (R1, R36, R58, R156) -/

namespace Sys2Proof.Machine

/-! ## Reset values -/

/-- A present zone of a part whose spares are all FREE. -/
theorem Chip.zone_resetBlocks (powered rstAsserted : Bool) {n g : Nat} (present : g < 8 * n) (within : g < 32) :
    (Chip.resetBlocks powered rstAsserted n).zone g = Zone.fresh := by
  unfold Chip.zone Chip.resetBlocks freshZones
  rw [List.getD_eq_getElem?_getD, List.getElem?_map, List.getElem?_range within]
  exact if_pos present

/-- Settles O8: the registers by evaluation at each offset, the blocks by the reset values themselves. -/
theorem windowAndBlocksAfterReset : Obligations.WindowAndBlocksAfterReset := by
  refine ⟨⟨by decide, by decide⟩, fun powered rstAsserted n => ?_⟩
  have events : (Chip.resetBlocks powered rstAsserted n).eventsWord = 0 := rfl
  have zones : ∀ g, g < 8 * n → g < 32 →
      ((Chip.resetBlocks powered rstAsserted n).zone g).free = 16
        ∧ ((Chip.resetBlocks powered rstAsserted n).zone g).lentOut = 0
        ∧ ((Chip.resetBlocks powered rstAsserted n).zone g).borrowedIn = 0
        ∧ ((Chip.resetBlocks powered rstAsserted n).zone g).retiredRows = 0
        ∧ ((Chip.resetBlocks powered rstAsserted n).zone g).uncEvents = 0
        ∧ ((Chip.resetBlocks powered rstAsserted n).zone g).grade = .good
        ∧ ((Chip.resetBlocks powered rstAsserted n).zone g).exhausted = false := by
    intro g present within
    rw [Chip.zone_resetBlocks powered rstAsserted present within]
    decide
  exact ⟨rfl, rfl, rfl, events, rfl, rfl, rfl, rfl, rfl, rfl, rfl, rfl, rfl, zones, rfl, rfl, rfl, rfl, rfl, rfl, rfl, rfl,
    rfl, rfl, rfl, rfl, rfl, rfl, rfl, rfl, rfl, rfl, rfl, rfl, rfl, rfl, rfl, rfl, rfl, rfl, rfl, rfl⟩

/-! ## Supply and RSTn -/

/-- With RSTn released loading begins: the first load read is granted at once (R26, R156). -/
theorem bringUp_released (straps : BitVec 2) :
    bringUp false straps =
      { Chip.resetBlocks true false (straps.toNat + 1) with
        seq := Sequencer.carrying (request .loadRead ⟨0, 8192⟩ none) } :=
  Chip.settle_issue 7 (c := Chip.resetBlocks true false (straps.toNat + 1)) rfl .loadRead (loadPhys 0) none rfl

/-- An access cut off leaves the array as it was, but for the row of a write (R32, R36). -/
theorem State.read_cutArray {s : State} {k : AccessClass} {r : Request} {ws : List Word} (canonical : s.array.wf = true)
    (current : s.seq.current = some (k, r)) (written : r.data = some ws) (present : r.phys.inArray s.devices = true)
    (left : RowPatch) (key : Nat) :
    (s.cutArray left).read key =
      if key = r.phys.key then patchedRow (s.array.read r.phys.key) left else s.array.read key := by
  have cut : s.cutArray left = s.array.tear r.phys left := by
    simp only [State.cutArray, current, Memory.afterCut, written, present, if_true]
  rw [cut]
  exact Memory.read_store canonical

/-- Settles O9: power-on and release by the bring-up, assertion and loss by the array that a cut-off access leaves. -/
theorem supplyAndResetPinActAtOnce : Obligations.SupplyAndResetPinActAtOnce := by
  refine ⟨fun straps s => ⟨fun released => ?on, fun held => ?onHeld, fun held powered => ?release,
      fun held unpowered => ?pin, fun released => ?nothing⟩,
    fun left s canonical => ⟨s.cutArray left, rfl, rfl, fun idle => ?idle, fun k r current read => ?read,
      fun k r ws current written present => ⟨?own, fun key other => ?others⟩⟩⟩
  case on => rw [exec_powerOn, released, bringUp_released]
  case onHeld => rw [exec_powerOn, held]; rfl
  case release => rw [(show exec (.rstnRelease straps) s = _ from if_pos held), if_pos powered, bringUp_released]
  case pin => exact (if_pos held).trans (if_neg (by rw [unpowered]; exact Bool.false_ne_true))
  case nothing => exact if_neg (by rw [released]; exact Bool.false_ne_true)
  case idle => simp only [State.cutArray, idle]
  case read => simp only [State.cutArray, current, Memory.afterCut, read]
  case own => exact (State.read_cutArray canonical current written present left _).trans (if_pos rfl)
  case others => exact (State.read_cutArray canonical current written present left key).trans (if_neg other)

end Sys2Proof.Machine

/-! # Rows of the array and where they lie (R2 to R8, R22, R29, R30) -/

namespace Sys2Proof.Machine

/-! ## A row written and read back (R23, R24, R29, R30) -/

/-- A read that finds no changed bits finds the 32 stored words. -/
theorem asRead_nil {row : StoredRow} (full : row.length = 32) : asRead row [] = row := by
  refine List.ext_getElem (by simp [asRead, full]) fun i h1 h2 => ?_
  simp [asRead, RowPatch.maskAt, h2]

theorem deliver_storedRow (ws : List Word) :
    deliver (storedRow ws) =
      { words := (List.range 32).map fun i => ws.getD i 0, outcomes := List.replicate 32 .clean } := by
  unfold deliver storedRow
  simp only [List.map_map, Delivered.mk.injEq]
  constructor
  · exact List.map_congr_left fun i _ => by simp [decodeWord_encodeWord]
  · rw [List.eq_replicate_iff]
    refine ⟨by simp, fun o mem => ?_⟩
    obtain ⟨i, -, rfl⟩ := List.mem_map.1 mem
    simp [decodeWord_encodeWord]

theorem range_map_getD {ws : List Word} (full : ws.length = 32) : ((List.range 32).map fun i => ws.getD i 0) = ws := by
  refine List.ext_getElem (by simp [full]) fun i h1 h2 => ?_
  simp [h2]

theorem Memory.deliver_write {m : Memory} (canonical : m.wf = true) (p : PhysRow) (ws : List Word) :
    (m.write p ws).deliver p [] = Machine.deliver (storedRow ws) := by
  unfold Memory.deliver Memory.write
  rw [Memory.read_store canonical, if_pos rfl, asRead_nil (storedRow_length ws)]

/-! ## Row outcomes (R8) -/

theorem rowOutcome_of_uncorrectable {os : List ReadOutcome} (h : .uncorrectable ∈ os) : rowOutcome os = .uncorrectable :=
  if_pos (List.any_eq_true.2 ⟨_, h, decide_eq_true rfl⟩)

theorem any_eq_false_of_not_mem {os : List ReadOutcome} {o : ReadOutcome} (h : o ∉ os) :
    ¬ (os.any fun x => decide (x = o)) = true := by
  rw [List.any_eq_true]
  rintro ⟨x, mem, same⟩
  exact h (of_decide_eq_true same ▸ mem)

theorem rowOutcome_of_corrected {os : List ReadOutcome} (none : .uncorrectable ∉ os) (h : .corrected ∈ os) :
    rowOutcome os = .corrected :=
  (if_neg (any_eq_false_of_not_mem none)).trans (if_pos (List.any_eq_true.2 ⟨_, h, decide_eq_true rfl⟩))

theorem rowOutcome_of_clean {os : List ReadOutcome} (none : .uncorrectable ∉ os) (clean : .corrected ∉ os) :
    rowOutcome os = .clean :=
  (if_neg (any_eq_false_of_not_mem none)).trans (if_neg (any_eq_false_of_not_mem clean))

/-! ## Where rows lie (Table 1-1) -/

theorem PhysRow.inArray_iff (n : Nat) (p : PhysRow) :
    p.inArray n = true ↔ p.device < n ∧ p.row < if p.device = 0 then 8448 else 8192 := by
  simp [PhysRow.inArray]

/-- A row of a present device lies below the 14 row address lines. -/
theorem PhysRow.row_lt_of_inArray {n : Nat} {p : PhysRow} (h : p.inArray n = true) : p.row < 16384 := by
  have bound := ((p.inArray_iff n).1 h).2
  split at bound <;> omega

theorem PhysRow.eq_of_key {n : Nat} {p q : PhysRow} (hp : p.inArray n = true) (hq : q.inArray n = true)
    (h : p.key = q.key) : p = q := by
  have pBound := PhysRow.row_lt_of_inArray hp
  have qBound := PhysRow.row_lt_of_inArray hq
  obtain ⟨pd, pr⟩ := p
  obtain ⟨qd, qr⟩ := q
  simp only [PhysRow.key, PhysRow.mk.injEq] at *
  omega

theorem PhysRow.inArray_of_lt {n : Nat} {p : PhysRow} (device : p.device < n) (row : p.row < 8192) : p.inArray n = true := by
  rw [PhysRow.inArray_iff]
  refine ⟨device, ?_⟩
  split <;> omega

theorem homePhys_inArray {n l : Nat} (h : l < 8064 * n) : (homePhys l).inArray n = true := by
  refine PhysRow.inArray_of_lt ?_ ?_
  · show l / 8064 < n
    omega
  · show l % 8064 / 1008 * 1024 + l % 8064 % 1008 < 8192
    omega

theorem homePhys_injective {l l' : Nat} (h : homePhys l = homePhys l') : l = l' := by
  simp only [homePhys, PhysRow.mk.injEq, Config.rowsPerDevice, Config.homeRowsPerZone, Config.rowsPerZone] at h
  omega

theorem SpareId.phys_injective {t u : SpareId} (h : t.phys = u.phys) : t = u := by
  obtain ⟨td, tz, ti⟩ := t
  obtain ⟨ud, uz, ui⟩ := u
  simp only [SpareId.phys, PhysRow.mk.injEq, Config.homeRowsPerZone, Config.rowsPerZone] at h
  simp only [SpareId.mk.injEq, Fin.ext_iff]
  have := ti.isLt
  have := ui.isLt
  omega

/-- A home row lies among the first 1,008 rows of its zone, a spare row after them. -/
theorem homePhys_ne_spare (l : Nat) (t : SpareId) : homePhys l ≠ t.phys := by
  intro h
  simp only [homePhys, SpareId.phys, PhysRow.mk.injEq, Config.rowsPerDevice, Config.homeRowsPerZone, Config.rowsPerZone] at h
  have := t.index.isLt
  omega

theorem SpareId.phys_inArray {n : Nat} {t : SpareId} (h : t.device.val < n) : t.phys.inArray n = true := by
  refine PhysRow.inArray_of_lt h ?_
  show t.zone.val * 1024 + 1008 + t.index.val < 8192
  have := t.zone.isLt
  have := t.index.isLt
  omega

/-- Settles O12: a stored row decodes to itself, the outcome is the worst of its words, and the geometry is arithmetic. -/
theorem rowsLieApartReadBackAndAreJudged : Obligations.RowsLieApartReadBackAndAreJudged := by
  refine ⟨⟨⟨fun m p ws canonical full => ?readBack, fun _ _ _ => PhysRow.eq_of_key⟩,
    fun os => ⟨rowOutcome_of_uncorrectable, rowOutcome_of_corrected, rowOutcome_of_clean⟩⟩,
    fun n l h => ⟨homePhys_inArray h, rfl, rfl, rfl⟩, fun _ _ => homePhys_injective, fun _ => ⟨rfl, rfl⟩,
    fun _ _ => SpareId.phys_injective, homePhys_ne_spare, fun _ _ => SpareId.phys_inArray⟩
  case readBack =>
    rw [Memory.deliver_write canonical, deliver_storedRow, range_map_getD full]
    exact ⟨rfl, fun o mem => List.eq_of_mem_replicate mem, List.length_replicate,
      fun key other => (Memory.read_store canonical).trans (if_neg other)⟩

end Sys2Proof.Machine

/-! # Refusals and the checks of a command (R43, R44) -/

namespace Sys2Proof.Machine

/-! ## The sixteen COMMAND writes as one operation -/

/-- Every COMMAND write takes its command with checks of its own; all but FORMAT ARRAY check for READY and DEGRADED. -/
theorem exec_commandWrite {i : Instr} (h : i ∈ commandWrites) :
    ∃ inState params range run, (∀ s : State, exec i s = .next (s.onBus fun c => c.takeCommand inState params range run))
      ∧ (i ≠ .formatArray → inState = OperatingState.serves) := by
  simp only [commandWrites, List.mem_cons, List.not_mem_nil, or_false] at h
  rcases h with rfl | rfl | rfl | rfl | rfl | rfl | rfl | rfl | rfl | rfl | rfl | rfl | rfl | rfl | rfl | rfl
  case inr.inr.inr.inr.inr.inr.inr.inr.inr.inr.inr.inr.inr.inr.inl =>
    exact ⟨_, _, _, _, fun _ => rfl, fun other => absurd rfl other⟩
  all_goals exact ⟨_, _, _, _, fun _ => rfl, fun _ => rfl⟩

/-- A busy part refuses a COMMAND write of every word (R43). -/
theorem Chip.writeCommand_of_busy {c : Chip} (busy : c.busy = true) (w : Word) : c.writeCommand w = c.refuseCommand := by
  unfold Chip.writeCommand
  split
  case h_17 => exact if_pos busy
  all_goals exact Chip.takeCommand_of_busy busy _ _ _ _

theorem Chip.writeCommand_of_unknown (c : Chip) {w : Word} (unknown : w ∉ commandCodes) :
    c.writeCommand w = c.unknownCommand := by
  have other : ∀ k : Nat, BitVec.ofNat 16 k ∈ commandCodes → w.toNat = k → False := by
    intro k code same
    refine unknown ?_
    rw [← same, BitVec.ofNat_toNat, BitVec.setWidth_eq] at code
    exact code
  unfold Chip.writeCommand
  split
  case h_17 => rfl
  all_goals
    rename_i same
    exact (other _ (by decide) same).elim

/-- A refusal asks for no access, so the step is the flag alone. -/
theorem State.onBus_refused {s : State} {f : Chip → Chip} (running : s.running = true) (settled : s.seq.settled = true)
    (refused : f s.toChip = s.toChip.refuseCommand) : s.onBus f = { s with bus := { s.bus with cmdRefused := true } } :=
  State.next_onBus running refused settled

/-! ## Commands ended by a check -/

section

variable {params : Params → Bool} {range : Chip → Params → Bool} {run : Chip → Params → Chip}

/-- A parameter value outside its range ends the command (R44 step 3). -/
theorem State.onBus_param {s : State} (accepts : s.accepts = true) (settled : s.seq.settled = true)
    (outside : params s.cmd.params = false) :
    (.next (s.onBus fun c => c.takeCommand OperatingState.serves params range run) : Host.Outcome State Fault Refusal)
      = .next (s.ended .param Results.zero) :=
  congrArg _ (State.onBus_ended (State.running_of_accepts accepts) settled
    (Chip.takeCommand_of_param (State.busy_of_accepts accepts) (State.serves_of_accepts accepts) outside range run))

/-- A row past the last ends the command once its parameter values have passed (R44 step 4). -/
theorem State.onBus_range {s : State} (accepts : s.accepts = true) (settled : s.seq.settled = true)
    (inside : params s.cmd.params = true) (past : range s.toChip s.cmd.params = false) :
    (.next (s.onBus fun c => c.takeCommand OperatingState.serves params range run) : Host.Outcome State Fault Refusal)
      = .next (s.ended .range Results.zero) :=
  congrArg _ (State.onBus_ended (State.running_of_accepts accepts) settled
    (Chip.takeCommand_of_range (State.busy_of_accepts accepts) (State.serves_of_accepts accepts) inside past run))

end

/-! ## The parameter values of each command -/

theorem rowCount_eq_false {p : Params} (h : p.p1.toNat = 0 ∨ 256 < p.p1.toNat) : rowCount p = false :=
  decide_eq_false (by omega)

theorem rowCount_eq_true {p : Params} (h1 : 1 ≤ p.p1.toNat) (h2 : p.p1.toNat ≤ 256) : rowCount p = true :=
  decide_eq_true ⟨h1, h2⟩

theorem recordCount_eq_false {p : Params} (h : p.p1 = 0) : recordCount p = false := decide_eq_false (not_not_intro h)

theorem relocateOption_eq_false {p : Params} (h : p.p1 ≠ 0 ∧ p.p1 ≠ 1) : relocateOption p = false :=
  decide_eq_false fun either => either.elim h.1 h.2

theorem reportPart_eq_false {p : Params} (h : p.p0 ≠ 0 ∧ p.p0 ≠ 1) : reportPart p = false :=
  decide_eq_false fun either => either.elim h.1 h.2

theorem patrolParams_eq_false {p : Params}
    (h : (p.p0 ≠ 1 ∧ p.p0 ≠ 2) ∨ 255 < p.p1.toNat ∨ (p.p2 ≠ 0 ∧ p.p2 ≠ 1)) : patrolParams p = false := by
  unfold patrolParams
  rcases h with ⟨single, continuous⟩ | pace | ⟨start, restart⟩
  · rw [show patrolModeOf p.p0 = none from (if_neg single).trans (if_neg continuous)]
    rfl
  · simp [pace]
  · rw [decide_eq_false (p := p.p2 = 0 ∨ p.p2 = 1) fun either => either.elim start restart, Bool.and_false]

theorem ofParams_inRange_eq_false {p : Params}
    (h : p.p0.toNat < 2 ∨ 15 < p.p0.toNat ∨ p.p1.toNat < 1 ∨ 15 < p.p1.toNat ∨ 16 < p.p2.toNat
      ∨ p.p4.toNat % 32 < 1 ∨ 16 < p.p4.toNat % 32 ∨ 15 < p.p4.toNat / 256 % 32
      ∨ p.p4.toNat % 32 ≤ p.p4.toNat / 256 % 32 ∨ 255 < p.p5.toNat) : (Policy.ofParams p).inRange = false := by
  rw [← Bool.not_eq_true]
  intro inside
  simp only [Policy.inRange, Policy.ofParams, field, Bool.and_eq_true, decide_eq_true_eq, Nat.pow_zero, Nat.div_one,
    Nat.reducePow] at inside
  omega

theorem rowInRange_eq_false {c : Chip} {p : Params} (h : 8064 * c.devices ≤ p.p0.toNat) : rowInRange c p = false :=
  decide_eq_false (Nat.not_lt.2 h)

theorem runInRange_eq_false {c : Chip} {p : Params} (h : 8064 * c.devices ≤ p.p0.toNat + p.p1.toNat - 1) :
    runInRange c p = false :=
  decide_eq_false (Nat.not_lt.2 h)

/-! ## The statement -/

/-- Settles O13: refusal and the state check for the sixteen writes as one operation, the other checks command by command. -/
theorem busyRefusalsAndFailedChecksTurnCommandsAway : Obligations.BusyRefusalsAndFailedChecksTurnCommandsAway := by
  refine ⟨fun s refuses settled => ⟨fun i write => ?refused, fun w => ?refusedWord⟩,
    ⟨fun s i write other running idle state settled => ?state,
      fun s w running idle notLoading notFormatting unknown settled => ?unknown⟩,
    fun s accepts settled => ⟨fun h => ?transfer, fun h => ?list, fun h => ?relocate, fun h => ?patrol, fun h => ?report,
      fun h => ?policy⟩,
    fun s accepts settled => ⟨fun low high past => ?run, fun past => ⟨?query, ?nominate, fun option => ?relocateRow⟩⟩⟩
  case refused =>
    obtain ⟨running, busy⟩ := Bool.and_eq_true_iff.1 refuses
    obtain ⟨inState, params, range, run, takes, -⟩ := exec_commandWrite write
    rw [takes, State.onBus_refused running settled (Chip.takeCommand_of_busy busy inState params range run)]
  case refusedWord =>
    obtain ⟨running, busy⟩ := Bool.and_eq_true_iff.1 refuses
    rw [exec_registerWrite, State.onBus_refused running settled (Chip.writeCommand_of_busy busy w)]
  case state =>
    obtain ⟨inState, params, range, run, takes, serves⟩ := exec_commandWrite write
    have busy : s.toChip.busy = false := by
      rcases state with state | state <;> simp [Chip.busy, idle, state]
    have fails : inState s.dir.opState = false := by
      rw [serves other]
      rcases state with state | state <;> rw [state] <;> rfl
    rw [takes, State.onBus_ended running settled (Chip.takeCommand_of_state busy fails params range run)]
  case unknown =>
    have busy : ¬ s.toChip.busy = true := by simp [Chip.busy, idle, notLoading, notFormatting]
    rw [exec_registerWrite, State.onBus_ended running settled
      ((Chip.writeCommand_of_unknown s.toChip unknown).trans (if_neg busy))]
  case transfer =>
    have outside := rowCount_eq_false h
    exact ⟨State.onBus_param accepts settled outside, State.onBus_param accepts settled outside,
      State.onBus_param accepts settled outside⟩
  case list =>
    have outside := recordCount_eq_false h
    exact ⟨State.onBus_param accepts settled outside, State.onBus_param accepts settled outside,
      State.onBus_param accepts settled outside, State.onBus_param accepts settled outside⟩
  case relocate => exact State.onBus_param accepts settled (relocateOption_eq_false h)
  case patrol => exact State.onBus_param accepts settled (patrolParams_eq_false h)
  case report => exact State.onBus_param accepts settled (reportPart_eq_false h)
  case policy => exact State.onBus_param accepts settled (ofParams_inRange_eq_false h)
  case run =>
    have inside := rowCount_eq_true low high
    have beyond : runInRange s.toChip s.cmd.params = false := runInRange_eq_false past
    exact ⟨State.onBus_range accepts settled inside beyond, State.onBus_range accepts settled inside beyond,
      State.onBus_range accepts settled inside beyond⟩
  case query => exact State.onBus_range accepts settled rfl (rowInRange_eq_false past)
  case nominate => exact State.onBus_range accepts settled rfl (rowInRange_eq_false past)
  case relocateRow => exact State.onBus_range accepts settled (decide_eq_true option) (rowInRange_eq_false past)

end Sys2Proof.Machine

/-! # The data port in its phases (R48, R49) -/

namespace Sys2Proof.Machine

/-! ## Before word 31 -/

theorem Chip.dataWord_of_dataOut {c : Chip} (h : c.cmd.st = .dataOut) : c.dataWord = c.bus.buffer.getD c.bus.pointer 0 := by
  unfold Chip.dataWord
  rw [h]

theorem Chip.readData_before_last {c : Chip} (offers : c.cmd.st = .dataOut) (before : c.bus.pointer < 31) :
    c.readData = { c with bus := { c.bus with
      pointer := c.bus.pointer + 1, dataOut := some (c.bus.buffer.getD c.bus.pointer 0) } } := by
  unfold Chip.readData
  rw [if_pos offers, if_pos before, Chip.dataWord_of_dataOut offers]

theorem Chip.writeData_before_last {c : Chip} (asks : c.cmd.st = .dataIn) (before : c.bus.pointer < 31) (w : Word) :
    c.writeData w = { c with bus := { c.bus with
      buffer := c.bus.buffer.set c.bus.pointer w, pointer := c.bus.pointer + 1 } } :=
  (if_pos asks).trans (if_pos before)

/-- Settles O15: neither access asks for the port, so the step is the word moved alone. -/
theorem dataPortMovesOneWord : Obligations.DataPortMovesOneWord := by
  intro s running settled before
  refine ⟨fun offers => ?read, fun w asks => ?write⟩
  case read => rw [exec_dataRead, State.next_onBus running (Chip.readData_before_last offers before) settled]
  case write =>
    rw [exec_dataWrite, State.next_onBus (f := fun c => c.writeData w) running
      (Chip.writeData_before_last asks before w) settled]

/-! ## Word 31 -/

/-- The part once the host has read the last word of an offer: the command goes on from here. -/
def Chip.offerTaken (c : Chip) : Chip :=
  { c with
    bus := { c.bus with pointer := 0, dataOut := some (c.bus.buffer.getD 31 0) }, cmd := { c.cmd with st := .executing } }

/-- The part once the host has written the last word of a row: the row is classified from here. -/
def Chip.rowTaken (c : Chip) (w : Word) : Chip :=
  { c with
    bus := { c.bus with buffer := c.bus.buffer.set 31 w, pointer := 0 }, cmd := { c.cmd with st := .executing } }

theorem Chip.readData_last {c : Chip} (offers : c.cmd.st = .dataOut) (last : c.bus.pointer = 31) :
    c.readData = Chip.offerEnds { c with bus := { c.bus with dataOut := some (c.bus.buffer.getD 31 0) } } := by
  have past : ¬ c.bus.pointer < 31 := by omega
  have shown : c.dataWord = c.bus.buffer.getD 31 0 := last ▸ Chip.dataWord_of_dataOut offers
  exact ((if_pos offers).trans (if_neg past)).trans (by rw [shown])

theorem Chip.readData_last_transfer {c : Chip} {t : Transfer} {k : RowKind} (offers : c.cmd.st = .dataOut)
    (last : c.bus.pointer = 31) (work : c.cmd.work = .transfer t) (phase : t.phase = .offering k) :
    c.readData = c.offerTaken.rowDone t k.fail k.extra := by
  rw [Chip.readData_last offers last]
  simp only [Chip.offerEnds, work, phase, Chip.offerTaken]

theorem Chip.readData_last_listing {c : Chip} {l : Listing} (offers : c.cmd.st = .dataOut) (last : c.bus.pointer = 31)
    (work : c.cmd.work = .listing l) : c.readData = c.offerTaken.fillRead l := by
  rw [Chip.readData_last offers last]
  simp only [Chip.offerEnds, work, Chip.offerTaken]

theorem Chip.writeData_last {c : Chip} {t : Transfer} (asks : c.cmd.st = .dataIn) (last : c.bus.pointer = 31)
    (work : c.cmd.work = .transfer t) (w : Word) : c.writeData w = (c.rowTaken w).classify t := by
  unfold Chip.writeData
  rw [if_pos asks, if_neg (by omega), last]
  exact Chip.onTransfer_eq (c := c.rowTaken w) work Chip.classify

end Sys2Proof.Machine

/-! # Rows of a transfer: the next row, and a row the host has written (R59, R62, R63, R69 to R77) -/

namespace Sys2Proof.Machine

/-! ## The next row -/

/-- A row that is not the last, with no STOP pending: the next row is begun. -/
theorem Chip.rowDone_next {c : Chip} {t : Transfer} {k : Option ResultCode} {n : Nat} (free : c.cmd.stopRequest = false)
    (more : t.row < t.last) :
    c.rowDone t k n = (c.setResult0 (t.done + 1)).beginRow 256 { t.count k n with row := t.row + 1 } := by
  unfold Chip.rowDone
  simp only [free, Bool.false_eq_true, if_false, Transfer.row_count, Transfer.last_count, Transfer.done_count, more, if_true]

/-- A RETIRED row of READ ROWS is offered as zeros at once (R63). -/
theorem Chip.beginRow_read_retired {n : Nat} {c : Chip} {t : Transfer} (kind : t.kind = .read)
    (retired : c.lookup t.row = .retired) : c.beginRow (n + 1) t = c.offerRow t .retired zeroRow := by
  simp [Chip.beginRow, kind, retired, Lookup.phys]

/-! ## A row the host has written -/

theorem Chip.classify_retired {c : Chip} {t : Transfer} (retired : c.lookup t.row = .retired) :
    c.classify t = c.rowDone t (some .retired) 0 := by
  simp [Chip.classify, retired, Lookup.phys]

theorem Chip.classify_ordinary {c : Chip} {t : Transfer} {p : PhysRow} (phys : (c.lookup t.row).phys = some p)
    (readable : c.pendingUnc t.row = false) : c.classify t = c.hostWrite t .writing .ordinaryWrite p := by
  simp [Chip.classify, phys, readable]

theorem Chip.classify_unreadable {c : Chip} {t : Transfer} {p : PhysRow} (phys : (c.lookup t.row).phys = some p)
    (unreadable : c.pendingUnc t.row = true) : c.classify t = c.beginWriteRepair t := by
  simp [Chip.classify, phys, unreadable]

/-- A host write into an empty slot is issued at once, with its marks made (R19, R53). -/
theorem Chip.hostWrite_empty {c : Chip} (empty : c.seq.foreground = .empty) (t : Transfer) (phase : RowPhase)
    (purpose : Purpose) (p : PhysRow) :
    c.hostWrite t phase purpose p =
      ((c.markClaims t.row).putTransfer { t with phase }).issue purpose p (some c.bus.buffer) :=
  Chip.issueForeground_empty (c := (c.markClaims t.row).putTransfer { t with phase }) empty purpose p _

theorem Chip.beginWriteRepair_waits {c : Chip} (testing : c.someTesting = true) (t : Transfer) :
    c.beginWriteRepair t = c.putTransfer { t with phase := .repairWait } := if_pos testing

theorem Chip.beginWriteRepair_allocates {c : Chip} (free : c.someTesting = false) (t : Transfer) :
    c.beginWriteRepair t = c.allocateForWrite t := if_neg (by rw [free]; exact Bool.false_ne_true)

/-- Write-repair takes a spare and qualifies it with the checkerboard first (R73, R74, R105, R107). -/
theorem Chip.allocateForWrite_takes {c : Chip} {t : Transfer} {sp : SpareId}
    (chosen : c.chooseSpare (homeZone t.row) = some sp) (empty : c.seq.foreground = .empty) :
    c.allocateForWrite t = ((c.takeSpare sp).putTransfer { t with phase := .repairQualify, spare := some sp }).issue
      (.repairQualify 0) sp.phys (some (patternRow 0xAAAA 0x5555)) := by
  unfold Chip.allocateForWrite
  rw [chosen]
  exact Chip.issueForeground_empty (c := (c.takeSpare sp).putTransfer { t with phase := .repairQualify, spare := some sp })
    (by rw [← empty]; exact congrArg Sequencer.foreground (Chip.seq_takeSpare c sp)) _ _ _

/-- The in-place write into an empty slot (R77). -/
theorem Chip.writeInPlace_empty {c : Chip} {t : Transfer} {p : PhysRow} (phys : (c.lookup t.row).phys = some p)
    (empty : c.seq.foreground = .empty) :
    c.writeInPlace t = ((c.markClaims t.row).putTransfer { t with phase := .inPlace }).issue .inPlaceWrite p
      (some c.bus.buffer) := by
  unfold Chip.writeInPlace
  rw [phys]
  exact Chip.hostWrite_empty empty t .inPlace .inPlaceWrite p

/-- Write-repair that finds no spare writes the row in place (R73, R77, R106). -/
theorem Chip.allocateForWrite_exhausted {c : Chip} {t : Transfer} {p : PhysRow}
    (none : c.chooseSpare (homeZone t.row) = none) (phys : (c.lookup t.row).phys = some p)
    (empty : c.seq.foreground = .empty) :
    c.allocateForWrite t =
      (((c.reportExhausted (homeZone t.row)).markClaims t.row).putTransfer { t with phase := .inPlace }).issue
        .inPlaceWrite p (some c.bus.buffer) := by
  have shape := c.reportExhausted_shape (homeZone t.row)
  have inPlace := Chip.writeInPlace_empty (c := c.reportExhausted (homeZone t.row)) (t := t)
    ((congrArg Lookup.phys (Chip.lookup_congr (congrArg Chip.tr shape) t.row)).trans phys)
    ((congrArg (fun d : Chip => d.seq.foreground) shape).trans empty)
  unfold Chip.allocateForWrite
  rw [none]
  exact inPlace.trans (by rw [congrArg Chip.bus shape])

end Sys2Proof.Machine

/-! # Word 31 of a row or a fill (R48, R49, R62 to R64, R69 to R77, R100) -/

namespace Sys2Proof.Machine

/-! ## Reads of an offer -/

theorem exec_dataRead_lastRow {s : State} {t : Transfer} {k : RowKind} (running : s.running = true)
    (offers : s.cmd.st = .dataOut) (last : s.bus.pointer = 31) (work : s.cmd.work = .transfer t)
    (phase : t.phase = .offering k) (free : s.cmd.stopRequest = false) (ended : t.last ≤ t.row)
    (settled : s.seq.settled = true) :
    exec .dataRead s = .next { s with
      bus := s.toChip.offerTaken.bus.commandDone
      cmd := s.cmd.finished (t.count k.fail k.extra).code (t.count k.fail k.extra).results } := by
  have act := Chip.readData_last_transfer offers last work phase
  rw [Chip.rowDone_last (c := s.toChip.offerTaken) free ended] at act
  rw [exec_dataRead, State.next_onBus running act settled]
  rfl

theorem exec_dataRead_nextRow {s : State} {t : Transfer} {k : RowKind} {p : PhysRow} (running : s.running = true)
    (offers : s.cmd.st = .dataOut) (last : s.bus.pointer = 31) (work : s.cmd.work = .transfer t) (kind : t.kind = .read)
    (phase : t.phase = .offering k) (free : s.cmd.stopRequest = false) (more : t.row < t.last)
    (phys : (s.lookup (t.row + 1)).phys = some p) (idle : s.seq = Sequencer.reset) :
    exec .dataRead s = .next { s with
      bus := s.toChip.offerTaken.bus
      cmd := { s.cmd with
        st := .executing, results := { s.cmd.results with r0 := word (t.done + 1) }
        work := .transfer { t.count k.fail k.extra with row := t.row + 1, phase := .reading } }
      seq := Sequencer.carrying (request .readRowsRead p none) } := by
  have act := Chip.readData_last_transfer offers last work phase
  rw [Chip.rowDone_next (c := s.toChip.offerTaken) free more,
    Chip.beginRow_read (c := s.toChip.offerTaken.setResult0 (t.done + 1))
      (t := { t.count k.fail k.extra with row := t.row + 1 }) ((Transfer.kind_count _ _ _).trans kind) phys
      (congrArg Sequencer.foreground idle)] at act
  rw [exec_dataRead, State.next_onBus_issue running act idle rfl]
  rfl

theorem exec_dataRead_retiredRow {s : State} {t : Transfer} {k : RowKind} (running : s.running = true)
    (offers : s.cmd.st = .dataOut) (last : s.bus.pointer = 31) (work : s.cmd.work = .transfer t) (kind : t.kind = .read)
    (phase : t.phase = .offering k) (free : s.cmd.stopRequest = false) (settled : s.seq.settled = true)
    (more : t.row < t.last) (retired : s.lookup (t.row + 1) = .retired) :
    exec .dataRead s = .next { s with
      bus := { s.toChip.offerTaken.bus with buffer := zeroRow }
      cmd := { s.cmd with
        results := { s.cmd.results with r0 := word (t.done + 1) }
        work := .transfer { t.count k.fail k.extra with row := t.row + 1, phase := .offering .retired } } } := by
  have act := Chip.readData_last_transfer offers last work phase
  rw [Chip.rowDone_next (c := s.toChip.offerTaken) free more,
    Chip.beginRow_read_retired (c := s.toChip.offerTaken.setResult0 (t.done + 1))
      (t := { t.count k.fail k.extra with row := t.row + 1 }) ((Transfer.kind_count _ _ _).trans kind) retired] at act
  unfold Chip.offerRow Chip.offer at act
  rw [← offers] at act
  rw [exec_dataRead, State.next_onBus running act settled]
  rfl

/-- The next fill is made of the records that follow those delivered (R51, R100). -/
theorem exec_dataRead_listing {s : State} {l next : Listing} (running : s.running = true) (offers : s.cmd.st = .dataOut)
    (last : s.bus.pointer = 31) (work : s.cmd.work = .listing l) (settled : s.seq.settled = true)
    (advanced : next = { l with
      index := l.index + l.fill, want := l.want - l.fill, delivered := l.delivered + l.fill, fill := 0 }) :
    (s.fillRecords next = [] →
        exec .dataRead s = .next { s with
          bus := s.toChip.offerTaken.bus.commandDone, cmd := s.cmd.finished .ok (s.listResults next) })
      ∧ (s.fillRecords next ≠ [] →
        exec .dataRead s = .next { s with
          bus := { s.toChip.offerTaken.bus with buffer := fillWords (s.fillRecords next) }
          cmd := { s.cmd with work := .listing { next with fill := (s.fillRecords next).length } } }) := by
  have act : s.toChip.readData = s.toChip.offerTaken.nextFill next :=
    (Chip.readData_last_listing offers last work).trans (congrArg _ advanced.symm)
  constructor
  · intro done
    have ends : s.toChip.offerTaken.nextFill next = s.toChip.offerTaken.endCommand .ok (s.listResults next) := if_pos done
    rw [exec_dataRead, State.next_onBus running (act.trans ends) settled]
    rfl
  · intro more
    have offered : s.toChip.offerTaken.nextFill next =
        (s.toChip.offerTaken.setWork (.listing { next with fill := (s.fillRecords next).length })).offer
          (fillWords (s.fillRecords next)) := if_neg more
    unfold Chip.offer at offered
    rw [← offers] at offered
    rw [exec_dataRead, State.next_onBus running (act.trans offered) settled]
    rfl

/-! ## Writes of a transfer -/

theorem exec_dataWrite_ordinary {s : State} {t : Transfer} {p : PhysRow} (w : Word) (running : s.running = true)
    (asks : s.cmd.st = .dataIn) (last : s.bus.pointer = 31) (work : s.cmd.work = .transfer t)
    (phys : (s.lookup t.row).phys = some p) (readable : s.pendingUnc t.row = false) (idle : s.seq = Sequencer.reset) :
    exec (.dataWrite w) s = .next { s with
      bus := (s.toChip.rowTaken w).bus
      cmd := { s.cmd with st := .executing, work := .transfer { t with phase := .writing } }
      tr := { s.tr with repairClaim := markClaim t.row s.tr.repairClaim, patrolClaim := markClaim t.row s.tr.patrolClaim }
      seq := Sequencer.carrying (request .ordinaryWrite p (some (s.bus.buffer.set 31 w))) } := by
  have act := Chip.writeData_last asks last work w
  rw [Chip.classify_ordinary (c := s.toChip.rowTaken w) phys readable,
    Chip.hostWrite_empty (c := s.toChip.rowTaken w) (congrArg Sequencer.foreground idle)] at act
  rw [exec_dataWrite, State.next_onBus_issue (f := fun c => c.writeData w) running act idle rfl]
  rfl

theorem exec_dataWrite_retired {s : State} {t : Transfer} (w : Word) (running : s.running = true) (asks : s.cmd.st = .dataIn)
    (last : s.bus.pointer = 31) (work : s.cmd.work = .transfer t) (kind : t.kind = .write)
    (free : s.cmd.stopRequest = false) (retired : s.lookup t.row = .retired) (settled : s.seq.settled = true) :
    (t.last ≤ t.row → exec (.dataWrite w) s = .next { s with
        bus := (s.toChip.rowTaken w).bus.commandDone
        cmd := s.cmd.finished (t.count (some .retired) 0).code (t.count (some .retired) 0).results })
      ∧ (t.row < t.last → exec (.dataWrite w) s = .next { s with
        bus := (s.toChip.rowTaken w).bus
        cmd := { s.cmd with
          results := { s.cmd.results with r0 := word (t.done + 1) }
          work := .transfer { t.count (some .retired) 0 with row := t.row + 1, phase := .dataIn } } }) := by
  have act := Chip.writeData_last asks last work w
  rw [Chip.classify_retired (c := s.toChip.rowTaken w) retired] at act
  constructor
  · intro ended
    rw [Chip.rowDone_last (c := s.toChip.rowTaken w) free ended] at act
    rw [exec_dataWrite, State.next_onBus (f := fun c => c.writeData w) running act settled]
    rfl
  · intro more
    rw [Chip.rowDone_next (c := s.toChip.rowTaken w) free more,
      Chip.beginRow_write (c := (s.toChip.rowTaken w).setResult0 (t.done + 1))
        (t := { t.count (some .retired) 0 with row := t.row + 1 }) ((Transfer.kind_count _ _ _).trans kind)] at act
    unfold Chip.askRow at act
    rw [← asks] at act
    rw [exec_dataWrite, State.next_onBus (f := fun c => c.writeData w) running act settled]
    rfl

/-- A row pending UNC goes to write-repair. -/
theorem Chip.writeData_last_unreadable {c : Chip} {t : Transfer} {x : PhysRow} (w : Word) (asks : c.cmd.st = .dataIn)
    (last : c.bus.pointer = 31) (work : c.cmd.work = .transfer t) (phys : (c.lookup t.row).phys = some x)
    (unreadable : c.pendingUnc t.row = true) : c.writeData w = (c.rowTaken w).beginWriteRepair t :=
  (Chip.writeData_last asks last work w).trans (Chip.classify_unreadable (c := c.rowTaken w) phys unreadable)

theorem exec_dataWrite_waits {s : State} {t : Transfer} {x : PhysRow} (w : Word) (running : s.running = true)
    (asks : s.cmd.st = .dataIn) (last : s.bus.pointer = 31) (work : s.cmd.work = .transfer t)
    (phys : (s.lookup t.row).phys = some x) (unreadable : s.pendingUnc t.row = true) (settled : s.seq.settled = true)
    (testing : s.someTesting = true) :
    exec (.dataWrite w) s = .next { s with
      bus := (s.toChip.rowTaken w).bus
      cmd := { s.cmd with st := .executing, work := .transfer { t with phase := .repairWait } } } := by
  have act := Chip.writeData_last_unreadable w asks last work phys unreadable
  rw [Chip.beginWriteRepair_waits (c := s.toChip.rowTaken w) testing] at act
  rw [exec_dataWrite, State.next_onBus (f := fun c => c.writeData w) running act settled]
  rfl

theorem exec_dataWrite_takesSpare {s : State} {t : Transfer} {x : PhysRow} {sp : SpareId} (w : Word)
    (running : s.running = true) (asks : s.cmd.st = .dataIn) (last : s.bus.pointer = 31) (work : s.cmd.work = .transfer t)
    (phys : (s.lookup t.row).phys = some x) (unreadable : s.pendingUnc t.row = true) (idle : s.seq = Sequencer.reset)
    (free : s.someTesting = false) (chosen : s.chooseSpare (homeZone t.row) = some sp) :
    exec (.dataWrite w) s = .next { s with
      alloc := (s.takeSpare sp).alloc, health := (s.takeSpare sp).health
      bus := { (s.toChip.rowTaken w).bus with gradeFlag := (s.takeSpare sp).bus.gradeFlag }
      cmd := { s.cmd with st := .executing, work := .transfer { t with phase := .repairQualify, spare := some sp } }
      seq := Sequencer.carrying (request (.repairQualify 0) sp.phys (some (patternRow 0xAAAA 0x5555))) } := by
  have act := Chip.writeData_last_unreadable w asks last work phys unreadable
  rw [Chip.beginWriteRepair_allocates (c := s.toChip.rowTaken w) free,
    Chip.allocateForWrite_takes (c := s.toChip.rowTaken w) chosen (congrArg Sequencer.foreground idle),
    Chip.takeSpare_congr (c := s.toChip) (d := s.toChip.rowTaken w) rfl sp] at act
  rw [exec_dataWrite, State.next_onBus_issue (f := fun c => c.writeData w) running act idle rfl]
  rfl

theorem exec_dataWrite_inPlace {s : State} {t : Transfer} {x : PhysRow} (w : Word) (running : s.running = true)
    (asks : s.cmd.st = .dataIn) (last : s.bus.pointer = 31) (work : s.cmd.work = .transfer t)
    (phys : (s.lookup t.row).phys = some x) (unreadable : s.pendingUnc t.row = true) (idle : s.seq = Sequencer.reset)
    (free : s.someTesting = false) (none : s.chooseSpare (homeZone t.row) = none) :
    exec (.dataWrite w) s = .next { s with
      alloc := (s.reportExhausted (homeZone t.row)).alloc, health := (s.reportExhausted (homeZone t.row)).health
      bus := (s.toChip.rowTaken w).bus
      cmd := { s.cmd with st := .executing, work := .transfer { t with phase := .inPlace } }
      tr := { s.tr with repairClaim := markClaim t.row s.tr.repairClaim, patrolClaim := markClaim t.row s.tr.patrolClaim }
      seq := Sequencer.carrying (request .inPlaceWrite x (some (s.bus.buffer.set 31 w))) } := by
  have act := Chip.writeData_last_unreadable w asks last work phys unreadable
  rw [Chip.beginWriteRepair_allocates (c := s.toChip.rowTaken w) free,
    Chip.allocateForWrite_exhausted (c := s.toChip.rowTaken w) none phys (congrArg Sequencer.foreground idle),
    Chip.reportExhausted_congr (c := s.toChip) (d := s.toChip.rowTaken w) rfl] at act
  rw [exec_dataWrite, State.next_onBus_issue (f := fun c => c.writeData w) running act idle rfl]
  rfl

/-! ## The counts of a transfer command (R59, R62, R64) -/

theorem Transfer.code_results_of_none {t : Transfer} (h : t.firstFail = none) :
    t.code = .ok ∧ t.results = ⟨word t.done, 0xFFFF, word t.fails, word t.extra⟩ := by
  unfold Transfer.code Transfer.results
  rw [h]
  exact ⟨rfl, rfl⟩

theorem Transfer.code_results_of_some {t : Transfer} {r : Nat} {k : ResultCode} (h : t.firstFail = some (r, k)) :
    t.code = k ∧ t.results = ⟨word t.done, word r, word t.fails, word t.extra⟩ := by
  unfold Transfer.code Transfer.results
  rw [h]
  exact ⟨rfl, rfl⟩

/-- The first failing row is kept once there is one. -/
theorem Transfer.firstFail_count (t : Transfer) (k : ResultCode) (n : Nat) :
    (t.firstFail = none → (t.count (some k) n).firstFail = some (t.row, k))
      ∧ ∀ f, t.firstFail = some f → (t.count (some k) n).firstFail = some f := by
  refine ⟨fun first => ?_, fun f earlier => ?_⟩
  · show (if t.firstFail.isNone then some (t.row, k) else t.firstFail) = _
    rw [first]
    rfl
  · show (if t.firstFail.isNone then some (t.row, k) else t.firstFail) = _
    rw [earlier]
    rfl

/-- Settles O16: word 31 hands the row or the fill to the command, and each case is that of the row's own rule. -/
theorem word31EndsTheDataPhase : Obligations.Word31EndsTheDataPhase := by
  refine ⟨fun s t k running offers last work kind phase free => ⟨?lastRow, ?nextRow⟩,
    fun s t w p running asks last work phys readable idle =>
      exec_dataWrite_ordinary w running asks last work phys readable idle,
    fun t n => ⟨rfl, rfl, rfl, rfl, fun k => ⟨rfl, rfl, rfl, t.firstFail_count k n⟩, Transfer.code_results_of_none,
      fun _ _ => Transfer.code_results_of_some⟩,
    fun s l running offers last work settled => ?list,
    fun s t k running offers last work kind phase free settled more retired =>
      exec_dataRead_retiredRow running offers last work kind phase free settled more retired,
    fun s t w running asks last work kind free => ⟨?retired, fun x phys unreadable idle => ⟨?waits, ?takes, ?inPlace⟩⟩⟩
  case lastRow => exact exec_dataRead_lastRow running offers last work phase free
  case nextRow => exact fun p => exec_dataRead_nextRow running offers last work kind phase free
  case list =>
    have fill := exec_dataRead_listing running offers last work settled rfl
    obtain ⟨kind, index, want, delivered, size⟩ := l
    cases kind with
    | map | pending | watch | zones => exact fill
  case retired => exact exec_dataWrite_retired w running asks last work kind free
  case waits => exact exec_dataWrite_waits w running asks last work phys unreadable (idle ▸ Sequencer.settled_reset)
  case takes => exact fun sp => exec_dataWrite_takesSpare w running asks last work phys unreadable idle
  case inPlace => exact exec_dataWrite_inPlace w running asks last work phys unreadable idle

end Sys2Proof.Machine

/-! # Bus cycles, events and plain registers (R38 to R42, R47, R55 to R57, R180) -/

namespace Sys2Proof.Machine

/-! ## Cycles (R38, R39) -/

theorem Chip.running_iff (c : Chip) : c.running = true ↔ c.powered = true ∧ c.rstAsserted = false := by
  simp [Chip.running]

theorem State.onBus_of_not_running {s : State} (h : s.powered = false ∨ s.rstAsserted = true) (f : Chip → Chip) :
    s.onBus f = s := by
  have stopped : ¬ s.running = true := by
    rw [Chip.running_iff]
    rintro ⟨powered, released⟩
    rcases h with h | h
    · rw [h] at powered; exact Bool.false_ne_true powered
    · rw [h] at released; exact Bool.false_ne_true released.symm
  exact if_neg stopped

theorem Chip.driven_of_silent {c : Chip} {y : BusCycle}
    (h : c.powered = false ∨ c.rstAsserted = true ∨ y.write = true ∨ y.overlap = true) : c.driven y = none := by
  unfold Chip.driven Chip.running
  rcases h with h | h | h | h <;> simp [h]

theorem Chip.driven_of_read {c : Chip} {y : BusCycle} (powered : c.powered = true) (released : c.rstAsserted = false)
    (read : y.write = false) (alone : y.overlap = false) : c.driven y = some (c.readRegister y.first) := by
  simp [Chip.driven, Chip.running, powered, released, read, alone]

theorem exec_commandRow (w : Word) (s : State) : exec (commandRow w) s = exec (.registerWrite 0x01 w) s := by
  have named : ∀ k : Nat, w.toNat = k → w = BitVec.ofNat 16 k := by
    rintro _ rfl
    rw [BitVec.ofNat_toNat, BitVec.setWidth_eq]
  unfold commandRow
  split
  case h_17 => rfl
  all_goals
    rename_i code
    rw [named _ code]
    rfl

theorem Chip.writeControl_softReset (c : Chip) {w : Word} (h : w.getLsbD 1 = true) : c.writeControl w = c.softReset :=
  if_pos h

theorem Chip.writeControl_stop (c : Chip) {w : Word} (h1 : ¬ w.getLsbD 1 = true) (h0 : w.getLsbD 0 = true) :
    c.writeControl w = c.stopCommand := (if_neg h1).trans (if_pos h0)

theorem Chip.writeControl_neither (c : Chip) {w : Word} (h1 : ¬ w.getLsbD 1 = true) (h0 : ¬ w.getLsbD 0 = true) :
    c.writeControl w = c := (if_neg h1).trans (if_neg h0)

theorem exec_registerWrite_control (w : Word) (s : State) :
    exec (.registerWrite 0x0D w) s = .next (s.onBus fun c => c.writeControl w) := rfl

/-- A write cycle is its row, and a plain write of the same register and word has the same effect. -/
theorem exec_writeRow (o : BitVec 5) (w : Word) (s : State) : exec (writeRow o w) s = exec (.registerWrite o w) s := by
  have named : ∀ k : Nat, o.toNat = k → o = BitVec.ofNat 5 k := by
    rintro _ rfl
    rw [BitVec.ofNat_toNat, BitVec.setWidth_eq]
  unfold writeRow
  split
  case h_1 at_ => rw [named _ at_]; exact exec_commandRow w s
  case h_3 at_ =>
    rw [named _ at_]
    refine Eq.trans ?_ (exec_registerWrite_control w s).symm
    split
    next reset =>
      rw [exec_softReset]
      exact congrArg (fun f => Host.Outcome.next (s.onBus f)) (funext fun c => (c.writeControl_softReset reset).symm)
    next kept =>
      split
      next stop =>
        rw [exec_stop]
        exact congrArg (fun f => Host.Outcome.next (s.onBus f)) (funext fun c => (c.writeControl_stop kept stop).symm)
      next => rfl
  case h_8 => rfl
  all_goals
    rename_i at_
    rw [named _ at_]
    rfl

/-! ## Flags and INTn (R55, R56) -/

/-- Seven flags in the places of Table 11-1. -/
theorem getLsbD_word_flags (b0 b1 b2 b3 b4 b5 b6 : Bool) {i : Nat} (h : i < 16) :
    (word (bit b0 + 2 * bit b1 + 4 * bit b2 + 8 * bit b3 + 16 * bit b4 + 32 * bit b5 + 64 * bit b6)).getLsbD i =
      [b0, b1, b2, b3, b4, b5, b6].getD i false := by
  revert i b0 b1 b2 b3 b4 b5 b6
  decide

theorem Chip.getLsbD_eventsWord (c : Chip) {i : Nat} (h : i < 16) :
    c.eventsWord.getLsbD i =
      [c.bus.cmdDone, c.bus.cmdRefused, c.bus.portMisuse, c.bus.gradeFlag, c.bus.stateFlag, c.drq, c.noticeFlag].getD i
        false :=
  getLsbD_word_flags _ _ _ _ _ _ _ h

theorem Chip.getLsbD_eventsWord_high (c : Chip) {i : Nat} (h : 7 ≤ i) : c.eventsWord.getLsbD i = false := by
  by_cases within : i < 16
  · rw [Chip.getLsbD_eventsWord c within]
    exact List.getD_eq_default _ _ h
  · exact BitVec.getLsbD_of_ge _ _ (by omega)

theorem Chip.drq_eq (c : Chip) : c.drq = decide (c.cmd.st = .dataOut ∨ c.cmd.st = .dataIn) := by
  unfold Chip.drq
  cases c.cmd.st <;> rfl

theorem Chip.noticeFlag_eq (c : Chip) : c.noticeFlag = decide (c.health.queue ≠ []) := by
  unfold Chip.noticeFlag
  cases c.health.queue <;> rfl

theorem Chip.intAsserted_iff (c : Chip) :
    c.intAsserted = true ↔
      c.powered = true ∧ c.rstAsserted = false
        ∧ ∃ i, i < 7 ∧ c.eventsWord.getLsbD i = true ∧ c.bus.enable.getLsbD i = true := by
  unfold Chip.intAsserted
  rw [Bool.and_eq_true, Chip.running_iff, decide_eq_true_iff, and_assoc]
  refine and_congr_right fun _ => and_congr_right fun _ => ⟨fun some_ => ?_, fun ⟨i, _, flag, enabled⟩ none_ => ?_⟩
  · by_contra none_
    refine some_ (BitVec.eq_of_getLsbD_eq fun i _ => ?_)
    rw [BitVec.getLsbD_and, show (0 : Word).getLsbD i = false from BitVec.getLsbD_zero, Bool.and_eq_false_iff,
      ← Bool.not_eq_true, ← Bool.not_eq_true, ← not_and_or]
    rintro ⟨flag, enabled⟩
    by_cases low : i < 7
    · exact none_ ⟨i, low, flag, enabled⟩
    · rw [Chip.getLsbD_eventsWord_high c (Nat.le_of_not_lt low)] at flag
      exact Bool.false_ne_true flag
  · have both : (c.eventsWord &&& c.bus.enable).getLsbD i = true := by rw [BitVec.getLsbD_and, flag, enabled]; rfl
    rw [none_] at both
    exact Bool.false_ne_true (BitVec.getLsbD_zero.symm.trans both)

/-! ## PARAM0 to PARAM5 (R41) -/

/-- The word of a PARAM register. -/
def Params.get (p : Params) : Nat → Word
  | 0 => p.p0
  | 1 => p.p1
  | 2 => p.p2
  | 3 => p.p3
  | 4 => p.p4
  | 5 => p.p5
  | _ => 0

theorem Params.get_set (p : Params) (w : Word) {i j : Nat} (hi : i < 6) (hj : j < 6) :
    (p.set i w).get j = if j = i then w else p.get j := by
  interval_cases i <;> interval_cases j <;> rfl

theorem Chip.readRegister_param (c : Chip) {i : Nat} (h : i < 6) :
    c.readRegister (BitVec.ofNat 5 (2 + i)) = c.cmd.params.get i := by
  interval_cases i <;> rfl

theorem Chip.writeRegister_param (c : Chip) (w : Word) {i : Nat} (h : i < 6) :
    c.writeRegister (BitVec.ofNat 5 (2 + i)) w = c.writeParam i w := by
  interval_cases i <;> rfl

/-! ## Offsets a write leaves alone (R39, R180) -/

theorem Chip.writeRegister_readOnly (c : Chip) (w : Word) {o : BitVec 5}
    (h : o = 0x00 ∨ (0x08 ≤ o ∧ o ≤ 0x0B) ∨ (0x10 ≤ o ∧ o ≤ 0x13) ∨ (0x15 ≤ o ∧ o ≤ 0x17) ∨ 0x19 ≤ o) :
    c.writeRegister o w = c := by
  have places : o.toNat = 0 ∨ (8 ≤ o.toNat ∧ o.toNat ≤ 11) ∨ (16 ≤ o.toNat ∧ o.toNat ≤ 19)
      ∨ (21 ≤ o.toNat ∧ o.toNat ≤ 23) ∨ 25 ≤ o.toNat := by
    simpa [← BitVec.toNat_inj, BitVec.le_def] using h
  unfold Chip.writeRegister
  split
  case h_14 => rfl
  all_goals
    rename_i at_
    omega

theorem exec_registerWrite_of_same {s : State} {o : BitVec 5} {w : Word} (running : s.running = true)
    (settled : s.seq.settled = true) (same : s.toChip.writeRegister o w = s.toChip) :
    exec (.registerWrite o w) s = .next s := by
  rw [exec_registerWrite, State.next_onBus (f := fun c => c.writeRegister o w) running same settled]

/-! ## Fields of a register (Tables 11-1 to 11-3) -/

/-- A field of a word, by its lowest place and its width. -/
theorem extractLsb'_word (n lo width : Nat) : ((word n).extractLsb' lo width).toNat = n % 65536 / 2 ^ lo % 2 ^ width := by
  rw [BitVec.extractLsb'_toNat, Nat.shiftRight_eq_div_pow]
  rfl

theorem bit_lt (b : Bool) : bit b < 2 := by cases b <;> decide

theorem OperatingState.code_lt (st : OperatingState) : st.code < 8 := by cases st <;> decide

theorem Grade.code_lt (g : Grade) : g.code < 4 := by cases g <;> decide

theorem ResultCode.code_lt (k : ResultCode) : k.code < 16 := by cases k <;> decide

theorem PatrolMode.code_lt (m : PatrolMode) : m.code < 4 := by cases m <;> decide

theorem PatrolState.code_lt (st : PatrolState) : st.code < 4 := by cases st <;> decide

theorem bit_busy (c : Chip) :
    bit c.busy = if c.cmd.st ≠ .idle ∨ c.dir.opState = .loading ∨ c.dir.opState = .formatting then 1 else 0 := by
  simp [Chip.busy, bit, or_assoc]

theorem bit_drq (c : Chip) : bit c.drq = if c.cmd.st = .dataOut ∨ c.cmd.st = .dataIn then 1 else 0 := by
  simp [Chip.drq_eq, bit]

/-- The fields of STATUS. -/
theorem Chip.status_fields (c : Chip) :
    let field := fun lo width => ((c.readRegister 0x00).extractLsb' lo width).toNat
    field 0 1 = bit c.busy ∧ field 1 1 = bit c.drq ∧ field 2 3 = c.dir.opState.code ∧ field 5 1 = 0
      ∧ field 6 2 = c.health.grade.code ∧ field 8 4 = 0 ∧ field 12 4 = c.cmd.lastResult.code := by
  have busy := bit_lt c.busy
  have drq := bit_lt c.drq
  have state := c.dir.opState.code_lt
  have grade := c.health.grade.code_lt
  have result := c.cmd.lastResult.code_lt
  have shows : c.readRegister 0x00 = word (bit c.busy + 2 * bit c.drq + 4 * c.dir.opState.code + 64 * c.health.grade.code
    + 4096 * c.cmd.lastResult.code) := rfl
  simp only [shows, extractLsb'_word]
  omega

/-- The fields of PATROL_STATE and PATROL_CURSOR. -/
theorem Chip.patrolState_fields (c : Chip) :
    let field := fun lo width => ((c.readRegister 0x15).extractLsb' lo width).toNat
    field 0 2 = c.pat.mode.code ∧ field 2 2 = 0 ∧ field 4 2 = c.pat.st.code ∧ field 6 10 = 0
      ∧ (c.pat.cursor < 65536 → ((c.readRegister 0x16).extractLsb' 0 16).toNat = c.pat.cursor) := by
  have mode := c.pat.mode.code_lt
  have state := c.pat.st.code_lt
  have shows : c.readRegister 0x15 = word (c.pat.mode.code + 16 * c.pat.st.code) := rfl
  have cursor : c.readRegister 0x16 = word c.pat.cursor := rfl
  simp only [shows, cursor, extractLsb'_word]
  omega

/-- The fields of DIR_STATE. -/
theorem Chip.dirState_fields (c : Chip) :
    let field := fun lo width => ((c.readRegister 0x17).extractLsb' lo width).toNat
    field 0 1 = bit c.dir.validA ∧ field 1 1 = bit c.dir.validB ∧ field 2 1 = bit c.dir.dirty
      ∧ field 3 1 = bit (decide (c.dir.mode = .committing)) ∧ field 4 4 = 0
      ∧ (c.tr.changes ≤ 16 → field 8 5 = c.tr.changes ∧ field 13 3 = 0) := by
  have validA := bit_lt c.dir.validA
  have validB := bit_lt c.dir.validB
  have dirty := bit_lt c.dir.dirty
  have committing := bit_lt (decide (c.dir.mode = .committing))
  have shows : c.readRegister 0x17 = word (bit c.dir.validA + 2 * bit c.dir.validB + 4 * bit c.dir.dirty
    + 8 * bit (decide (c.dir.mode = .committing)) + 256 * c.tr.changes) := rfl
  simp only [shows, extractLsb'_word]
  omega

theorem Chip.readRegister_unused (c : Chip) {o : BitVec 5} (h : 0x19 ≤ o) : c.readRegister o = 0 := by
  have place : 25 ≤ o.toNat := by simpa [BitVec.le_def] using h
  unfold Chip.readRegister
  split
  case h_24 => rfl
  all_goals
    rename_i at_
    omega

/-! ## The statement -/

/-- Settles O17: the cycles by their rows, the flags by their places, the registers by their fields. -/
theorem windowCyclesEventsAndPlainRegisters : Obligations.WindowCyclesEventsAndPlainRegisters := by
  refine ⟨⟨fun c y => ⟨Chip.driven_of_silent, Chip.driven_of_read⟩, fun y => ?row, fun s w off o => ?writesOff,
      fun s off => ?readsOff, fun s o w => exec_writeRow o w s⟩,
    ⟨⟨fun s w running settled => ?events, fun c => ?flags⟩, fun s w running settled => ?enable, fun _ => rfl,
      Chip.intAsserted_iff, fun _ _ _ => rfl, fun _ => rfl⟩,
    fun s w running settled => ⟨fun i low => ?param, fun o readOnly =>
      exec_registerWrite_of_same running settled (Chip.writeRegister_readOnly _ w readOnly), fun noStop noReset => ?control⟩,
    fun c => ⟨?status, ⟨rfl, rfl, rfl, rfl⟩, ?patrol, ?directory, rfl, rfl, fun o => Chip.readRegister_unused c⟩⟩
  case row =>
    unfold BusCycle.row
    refine ⟨fun overlap => ?_, fun alone read => ?_, fun alone write => ?_⟩
    · rw [if_pos overlap]
    · simp [alone, read]
    · simp [alone, write]
  case writesOff => rw [exec_writeRow, exec_registerWrite, State.onBus_of_not_running off]
  case readsOff => rw [exec_dataRead, State.onBus_of_not_running off]
  case events => rw [exec_eventsWrite, State.next_onBus (f := fun c => c.writeEvents w) running rfl settled]; rfl
  case flags =>
    have shown : ∀ i, i < 16 → _ := fun i h => Chip.getLsbD_eventsWord c (i := i) h
    exact ⟨shown 0 (by decide), shown 1 (by decide), shown 2 (by decide), shown 3 (by decide), shown 4 (by decide),
      (shown 5 (by decide)).trans c.drq_eq, (shown 6 (by decide)).trans c.noticeFlag_eq,
      fun i => Chip.getLsbD_eventsWord_high c, rfl, Chip.dataWord_of_dataOut, Chip.dataWord_of_ne_dataOut⟩
  case enable => rw [exec_eventEnableWrite, State.next_onBus (f := fun c => c.writeEnable w) running rfl settled]; rfl
  case param =>
    have stored : Chip.readRegister { s.toChip with cmd := { s.cmd with params := s.cmd.params.set i w } }
        (BitVec.ofNat 5 (2 + i)) = w := by
      rw [Chip.readRegister_param _ low]
      exact (Params.get_set _ w low low).trans (if_pos rfl)
    refine ⟨?_, stored, fun j within other => ?_⟩
    · rw [exec_registerWrite, State.next_onBus (f := fun c => c.writeRegister _ w) running
        (Chip.writeRegister_param s.toChip w low) settled]
      rfl
    · rw [Chip.readRegister_param _ within, Chip.readRegister_param _ within]
      exact (Params.get_set _ w low within).trans (if_neg other)
  case control =>
    refine exec_registerWrite_of_same running settled ?_
    exact Chip.writeControl_neither s.toChip (Bool.not_eq_true _ ▸ noReset) (Bool.not_eq_true _ ▸ noStop)
  case status =>
    obtain ⟨busy, drq, state, zero5, grade, zero8, result⟩ := c.status_fields
    refine ⟨busy.trans (bit_busy c), drq.trans (bit_drq c), state.trans ?_, zero5, grade.trans ?_, zero8, result.trans ?_⟩
    · cases c.dir.opState <;> rfl
    · cases c.health.grade <;> rfl
    · cases c.cmd.lastResult <;> rfl
  case patrol =>
    obtain ⟨mode, zero2, state, zero6, cursor⟩ := c.patrolState_fields
    refine ⟨mode.trans ?_, zero2, state.trans ?_, zero6, cursor⟩
    · cases c.pat.mode <;> rfl
    · cases c.pat.st <;> rfl
  case directory =>
    obtain ⟨validA, validB, dirty, committing, zero4, changes⟩ := c.dirState_fields
    exact ⟨validA, validB, dirty, committing.trans (by simp [bit]), zero4, changes⟩

end Sys2Proof.Machine


/-! # STOP (R52, R66, R71, R79, R100, R115, R120, R136, R137, R152) -/

namespace Sys2Proof.Machine

/-! ## The spare that is given back -/

/-- The return of a spare does not look at the command engine. -/
theorem Chip.giveBack_setCmd (o : Option SpareId) (c : Chip) (e : CommandEngine) :
    Chip.giveBack o { c with cmd := e } = { Chip.giveBack o c with cmd := e } := by
  have own := Chip.giveBack_congr_bus (c := c) (d := c) rfl rfl o
  have other := Chip.giveBack_congr_bus (c := c) (d := { c with cmd := e }) rfl rfl o
  rw [other]
  conv => rhs; rw [own]

theorem Chip.seq_giveBack (o : Option SpareId) (c : Chip) : (Chip.giveBack o c).seq = c.seq :=
  Chip.seq_of_requesters (Chip.requesters_giveBack o c)

/-- A transfer that a STOP cuts off: nothing of the stop request is left in the command engine. -/
theorem Chip.cutTransfer_stopped (c : Chip) (t : Transfer) :
    Chip.cutTransfer { c with cmd := { c.cmd with stopRequest := true } } t .aborted = { Chip.giveBack t.spare c with
      bus := (Chip.giveBack t.spare c).bus.commandDone, cmd := c.cmd.finished .aborted t.results } := by
  rw [Chip.cutTransfer_eq, Chip.giveBack_setCmd]
  rfl

/-- A STOP that cuts off the transfer at once, its spare given back. -/
theorem exec_stop_cuts {s : State} {c : Chip} {t : Transfer} (running : s.running = true) (works : s.cmd.st ≠ .idle)
    (settled : c.seq.settled = true) (engine : c.cmd = s.cmd)
    (cuts : Chip.stopWork { s.toChip with cmd := { s.cmd with stopRequest := true } } =
      Chip.cutTransfer { c with cmd := { s.cmd with stopRequest := true } } t .aborted) :
    exec .stop s = .next { s with toChip := { Chip.giveBack t.spare c with
      bus := (Chip.giveBack t.spare c).bus.commandDone, cmd := s.cmd.finished .aborted t.results } } := by
  rw [← engine] at cuts ⊢
  exact State.stop_ends running works (by rw [Chip.seq_giveBack]; exact settled)
    (engine ▸ (cuts.trans (Chip.cutTransfer_stopped c t)))

/-! ## Transfers -/

/-- The transfer waits for its own turn, or for the host: a STOP ends it at once (R52, R66, R71, log entry 30). -/
theorem Chip.stopTransfer_waits {c : Chip} {t : Transfer}
    (waits : t.phase = .dataIn ∨ (∃ k, t.phase = .offering k) ∨ t.phase = .repairWait ∨ t.phase = .awaitSlot) :
    c.stopTransfer t = c.cutTransfer t .aborted := by
  unfold Chip.stopTransfer
  rcases waits with h | ⟨k, h⟩ | h | h <;> rw [h]

/-- The phases in which a transfer makes an access. -/
def accessPhases : List RowPhase :=
  [.reading, .scrubbing, .writing, .repairQualify, .repairData, .repairVerify, .inPlace, .readBack]

/-- The transfer makes an access: a STOP ends it while its request waits, and else is recorded (R66, R71, R79). -/
theorem Chip.stopTransfer_accesses {c : Chip} {t : Transfer} (accesses : t.phase ∈ accessPhases) :
    c.stopTransfer t =
      if c.cmd.held.isSome then c.cutTransfer t .aborted
      else if c.seq.foreground.withdrawnByStop then
        Chip.cutTransfer { c with seq := { c.seq with foreground := .empty } } t .aborted
      else c := by
  unfold Chip.stopTransfer
  simp only [accessPhases, List.mem_cons, List.not_mem_nil, or_false] at accesses
  rcases accesses with h | h | h | h | h | h | h | h <;> rw [h]

theorem exec_stop_waits {s : State} {t : Transfer} (running : s.running = true) (works : s.cmd.st ≠ .idle)
    (settled : s.seq.settled = true) (work : s.cmd.work = .transfer t)
    (waits : t.phase = .dataIn ∨ (∃ k, t.phase = .offering k) ∨ t.phase = .repairWait ∨ t.phase = .awaitSlot) :
    exec .stop s = .next { s with toChip := { Chip.giveBack t.spare s.toChip with
      bus := (Chip.giveBack t.spare s.toChip).bus.commandDone, cmd := s.cmd.finished .aborted t.results } } := by
  refine exec_stop_cuts running works settled rfl ?_
  unfold Chip.stopWork
  rw [work]
  exact Chip.stopTransfer_waits waits

/-- A STOP while the transfer makes an access, by what its foreground slot holds. -/
theorem exec_stop_accesses {s : State} {t : Transfer} (running : s.running = true) (works : s.cmd.st ≠ .idle)
    (settled : s.seq.settled = true) (work : s.cmd.work = .transfer t) (accesses : t.phase ∈ accessPhases) :
    let aborted := fun c : Chip => exec .stop s = .next { s with toChip := { Chip.giveBack t.spare c with
      bus := (Chip.giveBack t.spare c).bus.commandDone, cmd := s.cmd.finished .aborted t.results } }
    let recorded := exec .stop s = .next { s with cmd := { s.cmd with stopRequest := true } }
    (s.cmd.held ≠ none → aborted s.toChip)
    ∧ (∀ r, s.cmd.held = none → s.seq.foreground = .inProgress r → recorded)
    ∧ (∀ r, s.cmd.held = none → s.seq.foreground = .waiting r →
      (r.purpose ≠ .readBack → aborted { s.toChip with seq := { s.seq with foreground := .empty } })
      ∧ (r.purpose = .readBack → recorded)) := by
  have stops : Chip.stopWork { s.toChip with cmd := { s.cmd with stopRequest := true } } =
      Chip.stopTransfer { s.toChip with cmd := { s.cmd with stopRequest := true } } t := by
    unfold Chip.stopWork
    rw [work]
  have takes := stops.trans (Chip.stopTransfer_accesses accesses)
  refine ⟨fun held => ?_, fun r free inProgress => ?_, fun r free waiting => ⟨fun other => ?_, fun readBack => ?_⟩⟩
  · refine exec_stop_cuts running works settled rfl (takes.trans ?_)
    exact if_pos (Option.isSome_iff_ne_none.2 held)
  · refine State.stop_recorded running works settled (takes.trans ?_)
    simp [free, inProgress, Slot.withdrawnByStop]
  · refine exec_stop_cuts (c := { s.toChip with seq := { s.seq with foreground := .empty } }) running works
      (Sequencer.settled_dropForeground settled waiting) rfl (takes.trans ?_)
    simp [free, waiting, Slot.withdrawnByStop, other]
  · refine State.stop_recorded running works settled (takes.trans ?_)
    simp [free, waiting, Slot.withdrawnByStop, readBack]

/-! ## RELOCATE ROW -/

/-- A STOP while the job of RELOCATE ROW waits withdraws it (R120). -/
theorem exec_stop_jobWaits {s : State} {l : Nat} {w : Nat × Bool} (running : s.running = true) (works : s.cmd.st ≠ .idle)
    (settled : s.seq.settled = true) (work : s.cmd.work = .relocate l) (waiting : s.rep.waiting = some w) :
    exec .stop s = .next { s with
      rep := { s.rep with waiting := none }, bus := s.bus.commandDone
      cmd := s.cmd.finished .aborted ⟨word (s.lookup l).code, (s.lookup l).targetWord, 0, 0⟩ } := by
  refine State.stop_ends running works (c := { s.toChip with
    rep := { s.rep with waiting := none }, bus := s.bus.commandDone
    cmd := s.cmd.finished .aborted ⟨word (s.lookup l).code, (s.lookup l).targetWord, 0, 0⟩ }) settled ?_
  unfold Chip.stopWork
  rw [work]
  unfold Chip.stopRelocate
  rw [waiting]
  rfl

/-- The job of RELOCATE ROW runs: a STOP is recorded while its access lets it wait, and else abandons the job (R120). -/
theorem exec_stop_jobRuns {s : State} {l : Nat} {j : Job} (running : s.running = true) (works : s.cmd.st ≠ .idle)
    (settled : s.seq.settled = true) (work : s.cmd.work = .relocate l) (started : s.rep.waiting = none)
    (job : s.rep.job = some j) :
    (s.seq.repair.holdsStop = true → exec .stop s = .next { s with cmd := { s.cmd with stopRequest := true } })
    ∧ (s.seq.repair.holdsStop = false → j.command = true →
      let c := Chip.giveBack j.spare { s.toChip with
        seq := { s.seq with repair := .empty }
        trk := { s.trk with pendingList := s.trk.pendingList.map fun e =>
          if e.row = j.row then { e with restarts := 0 } else e } }
      exec .stop s = .next { s with toChip := { c with
        tr := { s.tr with repairClaim := none }, rep := { s.rep with st := .idle, job := none }
        bus := c.bus.commandDone
        cmd := s.cmd.finished .aborted
          ⟨word (s.lookup j.row).code, (s.lookup j.row).targetWord, word j.madeBad, 0⟩ } }) := by
  have takes : Chip.stopWork { s.toChip with cmd := { s.cmd with stopRequest := true } } =
      if s.seq.repair.holdsStop then { s.toChip with cmd := { s.cmd with stopRequest := true } }
      else Chip.abandonJob { s.toChip with
        cmd := { s.cmd with stopRequest := true }, seq := { s.seq with repair := .empty } } j .aborted := by
    unfold Chip.stopWork
    rw [work]
    unfold Chip.stopRelocate
    simp only [started, job]
  refine ⟨fun holds => State.stop_recorded running works settled (takes.trans (if_pos holds)), fun free command => ?_⟩
  have dropped : ({ s.seq with repair := .empty } : Sequencer).settled = true := by
    refine Sequencer.settled_dropRepair settled ?_
    cases slot : s.seq.repair with
    | empty => exact .inl rfl
    | waiting r => exact .inr ⟨r, rfl⟩
    | inProgress r => simp [slot, Slot.holdsStop] at free
  refine State.stop_ends running works ?_ ((takes.trans (if_neg (by rw [free]; exact Bool.false_ne_true))).trans ?_)
  · exact (congrArg Sequencer.settled (Chip.seq_giveBack j.spare _)).trans dropped
  · unfold Chip.abandonJob
    rw [Chip.endJob_stop .aborted command rfl]
    have given := Chip.giveBack_setCmd j.spare { s.toChip with
      seq := { s.seq with repair := .empty }
      trk := { s.trk with pendingList := s.trk.pendingList.map fun e =>
        if e.row = j.row then { e with restarts := 0 } else e } } { s.cmd with stopRequest := true }
    unfold Chip.setRestarts Chip.updatePending
    rw [given]
    rfl

/-! ## The statements -/

/-- Settles O20: by the work the command waits in. -/
theorem stopEndsADataPhaseAtOnce : Obligations.StopEndsADataPhaseAtOnce := by
  intro s running settled
  refine ⟨fun idle => ?idle, fun t works work spare phase => ?transfer, fun l works work => ?listing⟩
  case idle =>
    have act : s.toChip.stopCommand = s.toChip := if_pos idle
    rw [exec_stop, State.next_onBus running act settled]
  case transfer =>
    have waits : t.phase = .dataIn ∨ (∃ k, t.phase = .offering k) ∨ t.phase = .repairWait ∨ t.phase = .awaitSlot :=
      phase.elim .inl fun offers => .inr (.inl offers)
    have stops := exec_stop_waits running works settled work waits
    rw [spare] at stops
    exact stops
  case listing =>
    refine State.stop_ends running works (c := { s.toChip with
      bus := s.bus.commandDone, cmd := s.cmd.finished .aborted (s.listResults l) }) settled ?_
    unfold Chip.stopWork
    rw [work]
    rfl

/-- Settles O21: by the work in EXECUTING, and by what its request slot holds. -/
theorem stopInExecutingIsRecordedOrEndsTheCommand : Obligations.StopInExecutingIsRecordedOrEndsTheCommand := by
  intro s running works settled
  refine ⟨fun t work => ⟨fun phase => ?waits, fun phase => ?accesses⟩,
    fun l work => ⟨fun w waiting => ?jobWaits, fun j started job =>
      ⟨fun r inProgress => ?jobAccesses, fun r waiting readBack => ?jobReadsBack, fun free command => ?jobEnds⟩⟩,
    fun work => ?restart, fun work => ?halt, fun work => ?commit⟩
  case waits =>
    have waits : t.phase = .dataIn ∨ (∃ k, t.phase = .offering k) ∨ t.phase = .repairWait ∨ t.phase = .awaitSlot :=
      .inr (.inr phase)
    exact exec_stop_waits running works settled work waits
  case accesses => exact exec_stop_accesses running works settled work phase
  case jobWaits => exact exec_stop_jobWaits running works settled work waiting
  case jobAccesses =>
    exact (exec_stop_jobRuns running works settled work started job).1 (by rw [inProgress]; rfl)
  case jobReadsBack =>
    exact (exec_stop_jobRuns running works settled work started job).1 (by simp [waiting, Slot.holdsStop, readBack])
  case jobEnds =>
    refine (exec_stop_jobRuns running works settled work started job).2 ?_ command
    rcases free with empty | ⟨r, waiting, other⟩
    · rw [empty]; rfl
    · simp [waiting, Slot.holdsStop, other]
  case restart =>
    refine State.stop_ends running works (c := { s.toChip with
      pat := { s.pat with restartRequest := false }, bus := s.bus.commandDone
      cmd := s.cmd.finished .aborted ⟨word s.pat.cursor, s.pat.pass, 0, 0⟩ }) settled ?_
    unfold Chip.stopWork
    rw [work]
    rfl
  case halt =>
    refine State.stop_ends running works (c := { s.toChip with
      bus := s.bus.commandDone, cmd := s.cmd.finished .aborted ⟨word s.pat.cursor, s.pat.pass, 0, 0⟩ }) settled ?_
    unfold Chip.stopWork
    rw [work]
    rfl
  case commit =>
    refine State.stop_ends running works (c := { s.toChip with
      bus := s.bus.commandDone, cmd := s.cmd.finished .aborted ⟨0, 0, 0, 0⟩ }) settled ?_
    unfold Chip.stopWork
    rcases work with work | ⟨k, n, work⟩ <;> rw [work] <;> rfl

end Sys2Proof.Machine

/-! # The completion of the only access at the port, by its purpose (R24, R29, R30, R33) -/

namespace Sys2Proof.Machine

/-- The completion is delivered to its requester at the freed port, which then settles. -/
theorem State.complete_at {s : State} {r : Request} {covers : Purpose → Bool} {flips : RowPatch}
    {act : Request → Delivered → Chip → Chip} {c : Chip} (port : s.seq = Sequencer.carrying r) (live : r.abandoned = false)
    (covered : covers r.purpose = true) (inArray : r.phys.inArray s.devices = true)
    (acts : act r (s.array.deliver r.phys flips) s.toChip.portFreed = c) :
    s.complete covers flips act = .next { s with toChip := c.settle 8, array := s.array.afterDone r } := by
  rw [State.complete_carrying port live covered inArray, ← acts]
  rfl

section
variable {s : State} {x : PhysRow} {ws : List Word} {d : Option (List Word)} {flips : RowPatch} {t : Transfer} {j : Job}
  {sp : SpareId} {k : Nat}

theorem readRowsReadDone_at (port : s.seq = Sequencer.carrying (request .readRowsRead x none))
    (inArray : x.inArray s.devices = true) (work : s.cmd.work = .transfer t) :
    exec (.readRowsReadDone flips) s =
      .next { s with toChip := (s.toChip.portFreed.transferRead t x (s.array.deliver x flips)).settle 8 } := by
  rw [exec_readRowsReadDone]
  exact State.complete_at port rfl rfl inArray (Chip.onTransfer_eq (c := s.toChip.portFreed) work _)

theorem checkRowsReadDone_at (port : s.seq = Sequencer.carrying (request .checkRowsRead x none))
    (inArray : x.inArray s.devices = true) (work : s.cmd.work = .transfer t) :
    exec (.checkRowsReadDone flips) s =
      .next { s with toChip := (s.toChip.portFreed.transferRead t x (s.array.deliver x flips)).settle 8 } := by
  rw [exec_checkRowsReadDone]
  exact State.complete_at port rfl rfl inArray (Chip.onTransfer_eq (c := s.toChip.portFreed) work _)

theorem scrubWriteDone_at (port : s.seq = Sequencer.carrying (request .scrubWrite x (some ws)))
    (inArray : x.inArray s.devices = true) (work : s.cmd.work = .transfer t) :
    exec .scrubWriteDone s =
      .next { s with toChip := (s.toChip.portFreed.scrubbed t ws).settle 8, array := s.array.write x ws } := by
  rw [exec_scrubWriteDone]
  exact State.complete_at port rfl rfl inArray (Chip.onTransfer_eq (c := s.toChip.portFreed) work _)

theorem ordinaryWriteDone_at (port : s.seq = Sequencer.carrying (request .ordinaryWrite x (some ws)))
    (inArray : x.inArray s.devices = true) (work : s.cmd.work = .transfer t) :
    exec .ordinaryWriteDone s =
      .next { s with toChip := (s.toChip.portFreed.written t).settle 8, array := s.array.write x ws } := by
  rw [exec_ordinaryWriteDone]
  exact State.complete_at port rfl rfl inArray (Chip.onTransfer_eq (c := s.toChip.portFreed) work _)

theorem writeRepairQualifyDone_at (port : s.seq = Sequencer.carrying (request (.repairQualify k) x d))
    (inArray : x.inArray s.devices = true) (work : s.cmd.work = .transfer t) (spare : t.spare = some sp) :
    exec (.writeRepairQualifyDone flips) s = .next { s with
      toChip := (s.toChip.portFreed.writeQualified t sp k (s.array.deliver x flips)).settle 8
      array := s.array.afterDone (request (.repairQualify k) x d) } := by
  rw [exec_writeRepairQualifyDone]
  exact State.complete_at port rfl (decide_eq_true rfl) inArray
    (Chip.onWriteRepair_eq (c := s.toChip.portFreed) work spare _)

theorem writeRepairDataWriteDone_at (port : s.seq = Sequencer.carrying (request .repairDataWrite x (some ws)))
    (inArray : x.inArray s.devices = true) (work : s.cmd.work = .transfer t) (spare : t.spare = some sp) :
    exec .writeRepairDataWriteDone s =
      .next { s with toChip := (s.toChip.portFreed.spareWritten t sp).settle 8, array := s.array.write x ws } := by
  rw [exec_writeRepairDataWriteDone]
  exact State.complete_at port rfl rfl inArray (Chip.onWriteRepair_eq (c := s.toChip.portFreed) work spare _)

theorem writeRepairVerifyDone_at (port : s.seq = Sequencer.carrying (request .repairVerify x none))
    (inArray : x.inArray s.devices = true) (work : s.cmd.work = .transfer t) (spare : t.spare = some sp) :
    exec (.writeRepairVerifyDone flips) s =
      .next { s with toChip := (s.toChip.portFreed.spareVerified t sp (s.array.deliver x flips)).settle 8 } := by
  rw [exec_writeRepairVerifyDone]
  exact State.complete_at port rfl rfl inArray (Chip.onWriteRepair_eq (c := s.toChip.portFreed) work spare _)

theorem inPlaceWriteDone_at (port : s.seq = Sequencer.carrying (request .inPlaceWrite x (some ws)))
    (inArray : x.inArray s.devices = true) (work : s.cmd.work = .transfer t) :
    exec .inPlaceWriteDone s =
      .next { s with toChip := (s.toChip.portFreed.writtenInPlace t x).settle 8, array := s.array.write x ws } := by
  rw [exec_inPlaceWriteDone]
  exact State.complete_at port rfl rfl inArray (Chip.onTransfer_eq (c := s.toChip.portFreed) work _)

theorem readBackDone_at (port : s.seq = Sequencer.carrying (request .readBack x none))
    (inArray : x.inArray s.devices = true) (work : s.cmd.work = .transfer t) :
    exec (.readBackDone flips) s =
      .next { s with toChip := (s.toChip.portFreed.writeReadBack t x (s.array.deliver x flips)).settle 8 } := by
  rw [exec_readBackDone]
  exact State.complete_at port rfl rfl inArray (Chip.onTransfer_eq (c := s.toChip.portFreed) work _)

theorem rowInitialisationDone_at (port : s.seq = Sequencer.carrying (request .rowInit x (some ws)))
    (inArray : x.inArray s.devices = true) :
    exec .rowInitialisationDone s =
      .next { s with toChip := s.toChip.portFreed.rowInitialised.settle 8, array := s.array.write x ws } := by
  rw [exec_rowInitialisationDone]
  exact State.complete_at port rfl rfl inArray rfl

theorem loadReadDone_at (port : s.seq = Sequencer.carrying (request .loadRead x none))
    (inArray : x.inArray s.devices = true) :
    exec (.loadReadDone flips) s =
      .next { s with toChip := (s.toChip.portFreed.loadRead (some (s.array.deliver x flips))).settle 8 } := by
  rw [exec_loadReadDone]
  exact State.complete_at port rfl rfl inArray rfl

theorem commitWriteDone_at (port : s.seq = Sequencer.carrying (request .commitWrite x (some ws)))
    (inArray : x.inArray s.devices = true) :
    exec .commitWriteDone s =
      .next { s with toChip := s.toChip.portFreed.commitWritten.settle 8, array := s.array.write x ws } := by
  rw [exec_commitWriteDone]
  exact State.complete_at port rfl rfl inArray rfl

theorem commitReadBackDone_at (port : s.seq = Sequencer.carrying (request .commitReadBack x none))
    (inArray : x.inArray s.devices = true) :
    exec (.commitReadBackDone flips) s =
      .next { s with toChip := (s.toChip.portFreed.commitReadBack (s.array.deliver x flips)).settle 8 } := by
  rw [exec_commitReadBackDone]
  exact State.complete_at port rfl rfl inArray rfl

theorem invalidatingWriteDone_at (port : s.seq = Sequencer.carrying (request .invalidatingWrite x (some ws)))
    (inArray : x.inArray s.devices = true) :
    exec .invalidatingWriteDone s =
      .next { s with toChip := s.toChip.portFreed.invalidated.settle 8, array := s.array.write x ws } := by
  rw [exec_invalidatingWriteDone]
  exact State.complete_at port rfl rfl inArray rfl

theorem sourceReadDone_at (port : s.seq = Sequencer.carrying (request .sourceRead x none))
    (inArray : x.inArray s.devices = true) (job : s.rep.job = some j) :
    exec (.sourceReadDone flips) s =
      .next { s with toChip := (s.toChip.portFreed.sourceRead j x (s.array.deliver x flips)).settle 8 } := by
  rw [exec_sourceReadDone]
  exact State.complete_at port rfl rfl inArray (Chip.onJob_eq (c := s.toChip.portFreed) job _)

theorem qualificationAccessDone_at (port : s.seq = Sequencer.carrying (request (.qualification k) x d))
    (inArray : x.inArray s.devices = true) (job : s.rep.job = some j) (spare : j.spare = some sp) :
    exec (.qualificationAccessDone flips) s = .next { s with
      toChip := (s.toChip.portFreed.qualified j sp k (s.array.deliver x flips)).settle 8
      array := s.array.afterDone (request (.qualification k) x d) } := by
  rw [exec_qualificationAccessDone]
  exact State.complete_at port rfl (decide_eq_true rfl) inArray (Chip.onJobSpare_eq (c := s.toChip.portFreed) job spare _)

theorem copyWriteDone_at (port : s.seq = Sequencer.carrying (request .copyWrite x (some ws)))
    (inArray : x.inArray s.devices = true) (job : s.rep.job = some j) (spare : j.spare = some sp) :
    exec .copyWriteDone s =
      .next { s with toChip := (s.toChip.portFreed.copied j sp).settle 8, array := s.array.write x ws } := by
  rw [exec_copyWriteDone]
  exact State.complete_at port rfl rfl inArray (Chip.onJobSpare_eq (c := s.toChip.portFreed) job spare _)

theorem verifyReadDone_at (port : s.seq = Sequencer.carrying (request .verifyRead x none))
    (inArray : x.inArray s.devices = true) (job : s.rep.job = some j) (spare : j.spare = some sp) :
    exec (.verifyReadDone flips) s =
      .next { s with toChip := (s.toChip.portFreed.verified j sp (s.array.deliver x flips)).settle 8 } := by
  rw [exec_verifyReadDone]
  exact State.complete_at port rfl rfl inArray (Chip.onJobSpare_eq (c := s.toChip.portFreed) job spare _)

theorem zeroWriteDone_at (port : s.seq = Sequencer.carrying (request .zeroWrite x (some ws)))
    (inArray : x.inArray s.devices = true) :
    exec .zeroWriteDone s =
      .next { s with toChip := (s.toChip.portFreed.zeroWritten x).settle 8, array := s.array.write x ws } := by
  rw [exec_zeroWriteDone]
  exact State.complete_at port rfl rfl inArray rfl

theorem zeroReadBackDone_at (port : s.seq = Sequencer.carrying (request .zeroReadBack x none))
    (inArray : x.inArray s.devices = true) (job : s.rep.job = some j) :
    exec (.zeroReadBackDone flips) s =
      .next { s with toChip := (s.toChip.portFreed.zeroReadBack j x (s.array.deliver x flips)).settle 8 } := by
  rw [exec_zeroReadBackDone]
  exact State.complete_at port rfl rfl inArray (Chip.onJob_eq (c := s.toChip.portFreed) job _)

theorem visitReadDone_at (port : s.seq = Sequencer.carrying (request .visitRead x none))
    (inArray : x.inArray s.devices = true) :
    exec (.visitReadDone flips) s =
      .next { s with toChip := (s.toChip.portFreed.visitRead x (s.array.deliver x flips)).settle 8 } := by
  rw [exec_visitReadDone]
  exact State.complete_at port rfl rfl inArray rfl

theorem patrolScrubDone_at (port : s.seq = Sequencer.carrying (request .patrolScrub x (some ws)))
    (inArray : x.inArray s.devices = true) :
    exec .patrolScrubDone s =
      .next { s with toChip := (s.toChip.portFreed.endVisit .corrected).settle 8, array := s.array.write x ws } := by
  rw [exec_patrolScrubDone]
  exact State.complete_at port rfl rfl inArray rfl

theorem readyTimeout_at {r : Request} {second : Bool} {left : RowPatch} (port : s.seq = Sequencer.carrying r)
    (live : r.abandoned = false) :
    exec (.readyTimeout second left) s = .next { s with
      toChip := (s.toChip.portFreed.timedOut r.purpose).settle 8
      array := if second then s.array.afterCut s.devices r left else s.array } :=
  congrArg _ (State.readyExpires_carrying port live second left)

end

end Sys2Proof.Machine

/-! # A completion with a STOP pending: the transfer commands (R66, R68, R71, R79) -/

namespace Sys2Proof.Machine

/-! ## What the completion of each access does -/

/-- When a scrub is due (R65). -/
theorem Chip.scrubs_iff {c : Chip} {l : Nat} {p : PhysRow} {o : ReadOutcome} :
    c.scrubs l p o = true ↔ o = .corrected ∧ c.health.policy.scrubOnRead = true ∧ (c.lookup l).phys = some p
      ∧ claimHolds c.tr.repairClaim l = false := by
  simp [Chip.scrubs, and_assoc]

/-- A report changes nothing a scrub depends on. -/
theorem Chip.scrubs_report (c : Chip) (r : Report) (l : Nat) (p : PhysRow) (o : ReadOutcome) :
    (c.report r).scrubs l p o = c.scrubs l p o := by
  simp [Chip.scrubs]

/-- The report a transfer's read makes (R61). -/
def Chip.reportRow (c : Chip) (t : Transfer) (p : PhysRow) (d : Delivered) : Chip :=
  c.report { row := t.row, phys := p, outcome := d.outcome, path := t.kind.path, readBack := false }

/-- A read with no scrub due: the row is read (R63, R68). -/
theorem Chip.transferRead_of_not_due {c : Chip} {t : Transfer} {p : PhysRow} {d : Delivered}
    (notDue : c.scrubs t.row p d.outcome = false) :
    c.transferRead t p d = (c.reportRow t p d).rowRead t d.outcome d.words := by
  have kept : (c.reportRow t p d).scrubs t.row p d.outcome = false := (Chip.scrubs_report ..).trans notDue
  exact if_neg (Bool.eq_false_iff.1 kept)

/-- A read with its scrub due, no STOP pending: the scrub is issued (R65). -/
theorem Chip.transferRead_scrubs {c : Chip} {t : Transfer} {p : PhysRow} {d : Delivered}
    (due : c.scrubs t.row p d.outcome = true) (free : c.cmd.stopRequest = false) :
    c.transferRead t p d =
      ((c.reportRow t p d).putTransfer { t with phase := .scrubbing }).issue .scrubWrite p (some d.words) := by
  have kept : (c.reportRow t p d).scrubs t.row p d.outcome = true := (Chip.scrubs_report ..).trans due
  have engine : (c.reportRow t p d).cmd = c.cmd := Chip.cmd_report ..
  exact (if_pos kept).trans (if_neg (Bool.eq_false_iff.1 ((congrArg CommandEngine.stopRequest engine).trans free)))

/-- A read with its scrub due and a STOP pending: the scrub is not made, and the command ends (R66, R68). -/
theorem Chip.transferRead_cut {c : Chip} {t : Transfer} {p : PhysRow} {d : Delivered}
    (due : c.scrubs t.row p d.outcome = true) (stop : c.cmd.stopRequest = true) :
    c.transferRead t p d = (c.reportRow t p d).cutTransfer t .aborted := by
  have kept : (c.reportRow t p d).scrubs t.row p d.outcome = true := (Chip.scrubs_report ..).trans due
  have engine : (c.reportRow t p d).cmd = c.cmd := Chip.cmd_report ..
  exact (if_pos kept).trans (if_pos ((congrArg CommandEngine.stopRequest engine).trans stop))

theorem Chip.rowRead_check {c : Chip} {t : Transfer} (kind : t.kind = .check) (o : ReadOutcome) (ws : List Word) :
    c.rowRead t o ws = c.rowDone t (RowKind.seen o).fail (RowKind.seen o).extra := by
  unfold Chip.rowRead
  rw [kind]

theorem Chip.rowRead_offers {c : Chip} {t : Transfer} (kind : t.kind = .read) (free : c.cmd.stopRequest = false)
    (o : ReadOutcome) (ws : List Word) : c.rowRead t o ws = c.offerRow t (.seen o) ws := by
  unfold Chip.rowRead
  rw [kind]
  exact if_neg (Bool.eq_false_iff.1 free)

theorem Chip.rowRead_cut {c : Chip} {t : Transfer} (kind : t.kind = .read) (stop : c.cmd.stopRequest = true)
    (o : ReadOutcome) (ws : List Word) : c.rowRead t o ws = c.cutTransfer t .aborted := by
  unfold Chip.rowRead
  rw [kind]
  exact if_pos stop

/-- A qualification access that does not fail: the next access, or the data write (R74). -/
theorem Chip.writeQualified_passes {c : Chip} {t : Transfer} {sp : SpareId} {k : Nat} {d : Delivered}
    (passes : k % 2 = 0 ∨ d.passes (qualificationPattern k) = true) :
    c.writeQualified t sp k d =
      if c.cmd.stopRequest then c.cutTransfer t .aborted
      else if k < 3 then c.qualifyForWrite t sp (k + 1)
      else c.writeToSpare t sp := if_pos passes

theorem Chip.writeQualified_fails {c : Chip} {t : Transfer} {sp : SpareId} {k : Nat} {d : Delivered}
    (read : k % 2 = 1) (fails : d.passes (qualificationPattern k) = false) :
    c.writeQualified t sp k d = c.failWriteSpare t sp := if_neg (by simp [read, fails])

/-- The verify read passes and the row is not RETIRED: the map update (R75, R76). -/
theorem Chip.spareVerified_relocates {c : Chip} {t : Transfer} {sp : SpareId} {d : Delivered}
    (passes : d.passes c.bus.buffer = true) (present : c.lookup t.row ≠ .retired) :
    c.spareVerified t sp d = (c.relocateTo t.row sp .write).rowDone { t with spare := none } none 1 :=
  (if_pos passes).trans (if_neg (by simp [Chip.isRetired, present]))

theorem Chip.spareVerified_retired {c : Chip} {t : Transfer} {sp : SpareId} {d : Delivered}
    (passes : d.passes c.bus.buffer = true) (retired : c.lookup t.row = .retired) :
    c.spareVerified t sp d = c.writeFoundRetired t :=
  (if_pos passes).trans (if_pos (by simp [Chip.isRetired, retired]))

theorem Chip.spareVerified_fails {c : Chip} {t : Transfer} {sp : SpareId} {d : Delivered}
    (fails : d.passes c.bus.buffer = false) : c.spareVerified t sp d = c.failWriteSpare t sp :=
  if_neg (Bool.eq_false_iff.1 fails)

/-- The report a read-back makes (R78, R119). -/
def Chip.reportReadBack (c : Chip) (l : Nat) (p : PhysRow) (o : ReadOutcome) : Chip :=
  c.report { row := l, phys := p, outcome := o, path := .write, readBack := true }

/-- A read-back that can be read: the row is done (R77). -/
theorem Chip.writeReadBack_readable {c : Chip} {t : Transfer} {p : PhysRow} {d : Delivered}
    (readable : d.outcome ≠ .uncorrectable) :
    c.writeReadBack t p d = (c.reportReadBack t.row p d.outcome).rowDone t none 0 := by
  unfold Chip.writeReadBack
  cases outcome : d.outcome with
  | clean => rfl
  | corrected => rfl
  | uncorrectable => exact absurd outcome readable

/-- A read-back that cannot be read: the row is retired, or stuck where the table is full (R78). -/
theorem Chip.writeReadBack_unreadable {c : Chip} {t : Transfer} {p : PhysRow} {d : Delivered}
    (unreadable : d.outcome = .uncorrectable) :
    c.writeReadBack t p d =
      let r := (c.reportReadBack t.row p .uncorrectable).retireOrStick t.row .write
      r.1.rowDone t (some (if r.2 = .tableFull then .noSpare else .retired)) 0 := by
  unfold Chip.writeReadBack
  rw [unreadable]
  change (match (c.reportReadBack t.row p .uncorrectable).retireOrStick t.row .write with
    | (c2, .retired) => c2.rowDone t (some .retired) 0
    | (c2, .alreadyRetired) => c2.rowDone t (some .retired) 0
    | (c2, .tableFull) => c2.rowDone t (some .noSpare) 0) = _
  generalize (c.reportReadBack t.row p .uncorrectable).retireOrStick t.row .write = answer
  obtain ⟨after, kind⟩ := answer
  cases kind <;> rfl

/-! ## The command ends -/

/-- Nothing is asked for when a command has ended. -/
theorem Chip.settle_ended {c : Chip} {b : BusInterface} {e : CommandEngine} (idle : c.seq = Sequencer.reset) :
    Chip.settle 8 { c with bus := b, cmd := e } = { c with bus := b, cmd := e } :=
  Chip.settle_of_settled 8 (by show c.seq.settled = true; rw [idle]; rfl)

theorem Chip.cutTransfer_spareless {c : Chip} {t : Transfer} (spare : t.spare = none) (code : ResultCode) :
    c.cutTransfer t code = { c with bus := c.bus.commandDone, cmd := c.cmd.finished code t.results } := by
  rw [Chip.cutTransfer_eq, spare]
  rfl

theorem Chip.cutTransfer_spare {c : Chip} {t : Transfer} {sp : SpareId} (spare : t.spare = some sp) (code : ResultCode) :
    c.cutTransfer t code = { c.releaseSpare sp with
      bus := (c.releaseSpare sp).bus.commandDone, cmd := c.cmd.finished code t.results } := by
  rw [Chip.cutTransfer_eq, spare]
  rfl

/-- A test of write-repair's spare that fails with a STOP pending: the spare is BAD and the command ends (R79). -/
theorem Chip.failWriteSpare_stopped {c : Chip} {t : Transfer} {sp : SpareId} (stop : c.cmd.stopRequest = true) :
    c.failWriteSpare t sp = { c.spoilSpare sp with
      bus := (c.spoilSpare sp).bus.commandDone, cmd := c.cmd.finished .aborted t.results } := by
  have engine := Chip.cmd_of_requesters (Chip.requesters_spoilSpare c sp)
  unfold Chip.failWriteSpare
  rw [if_pos stop, ← engine]
  rfl

/-! ## The first half of the statement -/

/-- A read or a write of a transfer that holds no spare completes with a STOP pending. -/
theorem stopPending_row {s : State} {t : Transfer} {x : PhysRow} {flips : RowPatch} (work : s.cmd.work = .transfer t)
    (stop : s.cmd.stopRequest = true) (inArray : x.inArray s.devices = true) (spare : t.spare = none) :
    let d := s.array.deliver x flips
    let ends := fun (c : Chip) (u : Transfer) (arr : Memory) =>
      ({ s with array := arr, toChip := { c with bus := c.bus.commandDone, cmd := s.cmd.finished .aborted u.results } }
        : State)
    let reported := fun path =>
      s.portFreed.report { row := t.row, phys := x, outcome := d.outcome, path, readBack := false }
    let scrubDue := d.outcome = .corrected ∧ s.health.policy.scrubOnRead = true ∧ (s.lookup t.row).phys = some x
      ∧ claimHolds s.tr.repairClaim t.row = false
    (s.seq = Sequencer.carrying (request .readRowsRead x none) → t.kind = .read →
        exec (.readRowsReadDone flips) s = .next (ends (reported .read) t s.array))
      ∧ (s.seq = Sequencer.carrying (request .checkRowsRead x none) → t.kind = .check →
        (scrubDue → exec (.checkRowsReadDone flips) s = .next (ends (reported .check) t s.array))
        ∧ (¬ scrubDue → exec (.checkRowsReadDone flips) s = .next (ends (reported .check)
            (t.count (RowKind.seen d.outcome).fail (RowKind.seen d.outcome).extra) s.array)))
      ∧ (∀ ws, s.seq = Sequencer.carrying (request .scrubWrite x (some ws)) →
        (t.kind = .read → exec .scrubWriteDone s = .next (ends s.portFreed t (s.array.write x ws)))
        ∧ (t.kind = .check → exec .scrubWriteDone s = .next (ends s.portFreed (t.count none 1) (s.array.write x ws))))
      ∧ (∀ ws, s.seq = Sequencer.carrying (request .ordinaryWrite x (some ws)) →
        exec .ordinaryWriteDone s = .next (ends s.portFreed (t.count none 0) (s.array.write x ws))) := by
  intro d ends reported scrubDue
  have engine : (s.toChip.portFreed.reportRow t x d).cmd = s.cmd := Chip.cmd_report ..
  have idle : (s.toChip.portFreed.reportRow t x d).seq = Sequencer.reset := Chip.seq_report ..
  have cuts : (s.toChip.portFreed.reportRow t x d).cutTransfer t .aborted = { s.toChip.portFreed.reportRow t x d with
      bus := (s.toChip.portFreed.reportRow t x d).bus.commandDone, cmd := s.cmd.finished .aborted t.results } := by
    rw [Chip.cutTransfer_spareless spare, engine]
  refine ⟨fun port kind => ?read, fun port kind => ⟨fun due => ?checkDue, fun notDue => ?check⟩,
    fun ws port => ⟨fun kind => ?scrubRead, fun kind => ?scrubCheck⟩, fun ws port => ?write⟩
  case read =>
    have act : s.toChip.portFreed.transferRead t x d = (s.toChip.portFreed.reportRow t x d).cutTransfer t .aborted := by
      cases due : s.toChip.portFreed.scrubs t.row x d.outcome with
      | true => exact Chip.transferRead_cut due stop
      | false => rw [Chip.transferRead_of_not_due due, Chip.rowRead_cut kind (by rw [engine]; exact stop)]
    rw [readRowsReadDone_at port inArray work, act, cuts, Chip.settle_ended idle]
    unfold Chip.reportRow
    rw [kind]
    rfl
  case checkDue =>
    rw [checkRowsReadDone_at port inArray work,
      Chip.transferRead_cut (c := s.toChip.portFreed) (Chip.scrubs_iff.2 due) stop, cuts, Chip.settle_ended idle]
    unfold Chip.reportRow
    rw [kind]
    rfl
  case check =>
    have notScrubs : s.toChip.portFreed.scrubs t.row x d.outcome = false :=
      Bool.eq_false_iff.2 fun due => notDue (Chip.scrubs_iff.1 due)
    rw [checkRowsReadDone_at port inArray work, Chip.transferRead_of_not_due notScrubs, Chip.rowRead_check kind,
      Chip.rowDone_stop (by rw [engine]; exact stop), engine, Chip.settle_ended idle]
    unfold Chip.reportRow
    rw [kind]
    rfl
  case scrubRead =>
    have act : s.toChip.portFreed.scrubbed t ws = s.toChip.portFreed.cutTransfer t .aborted :=
      Chip.rowRead_cut (c := s.toChip.portFreed) kind stop _ _
    rw [scrubWriteDone_at port inArray work, act, Chip.cutTransfer_spareless spare, Chip.settle_ended rfl]
    rfl
  case scrubCheck =>
    have act : s.toChip.portFreed.scrubbed t ws = s.toChip.portFreed.rowDone t none 1 := Chip.rowRead_check kind _ _
    rw [scrubWriteDone_at port inArray work, act, Chip.rowDone_stop (c := s.toChip.portFreed) stop, Chip.settle_ended rfl]
    rfl
  case write =>
    rw [ordinaryWriteDone_at port inArray work, Chip.written, Chip.rowDone_stop (c := s.toChip.portFreed) stop,
      Chip.settle_ended rfl]
    rfl

/-- The read-back of the no-spare path completes with a STOP pending: it is handled in full (R79). -/
theorem stopPending_readBack {s : State} {t : Transfer} {x : PhysRow} {flips : RowPatch} (work : s.cmd.work = .transfer t)
    (stop : s.cmd.stopRequest = true) (inArray : x.inArray s.devices = true)
    (port : s.seq = Sequencer.carrying (request .readBack x none)) :
    let d := s.array.deliver x flips
    let c := s.portFreed.report { row := t.row, phys := x, outcome := d.outcome, path := .write, readBack := true }
    (d.outcome ≠ .uncorrectable → exec (.readBackDone flips) s = .next { s with toChip := { c with
        bus := c.bus.commandDone, cmd := s.cmd.finished .aborted (t.count none 0).results } })
    ∧ (d.outcome = .uncorrectable →
      let r := c.retireOrStick t.row .write
      let u := t.count (some (if r.2 = .tableFull then .noSpare else .retired)) 0
      exec (.readBackDone flips) s = .next { s with
        toChip := Chip.settle 8 { r.1 with bus := r.1.bus.commandDone, cmd := s.cmd.finished .aborted u.results } }) := by
  intro d c
  have engine : c.cmd = s.cmd := Chip.cmd_report ..
  constructor
  · intro readable
    rw [readBackDone_at port inArray work, Chip.writeReadBack_readable readable,
      Chip.rowDone_stop (c := s.toChip.portFreed.reportReadBack t.row x d.outcome) ((congrArg _ engine).trans stop),
      Chip.settle_ended (Chip.seq_report ..)]
    rw [← engine]
    rfl
  · intro unreadable r u
    have transfers : c.cmd.work ≠ .commitWait := by rw [engine, work]; exact Work.noConfusion
    have kept : r.1.cmd = s.cmd := (Chip.retireOrStick_keeps_work t.row .write transfers).1.trans engine
    have act : s.toChip.portFreed.writeReadBack t x d =
        { r.1 with bus := r.1.bus.commandDone, cmd := s.cmd.finished .aborted u.results } := by
      have sees := Chip.writeReadBack_unreadable (c := s.toChip.portFreed) (t := t) (p := x) unreadable
      rw [← unreadable] at sees
      refine sees.trans ((Chip.rowDone_stop (c := r.1) (by rw [kept]; exact stop)).trans ?_)
      rw [kept]
      rfl
    rw [readBackDone_at port inArray work, act]

/-- An access of write-repair that holds a spare completes with a STOP pending (R79). -/
theorem stopPending_writeRepair {s : State} {t : Transfer} {x : PhysRow} {flips : RowPatch} {sp : SpareId}
    (work : s.cmd.work = .transfer t) (stop : s.cmd.stopRequest = true) (inArray : x.inArray s.devices = true)
    (spare : t.spare = some sp) :
    let d := s.array.deliver x flips
    let ends := fun (c : Chip) (u : Transfer) (arr : Memory) =>
      ({ s with array := arr, toChip := { c with bus := c.bus.commandDone, cmd := s.cmd.finished .aborted u.results } }
        : State)
    (∀ k d', s.seq = Sequencer.carrying (request (.repairQualify k) x d') →
        let failed := k % 2 = 1 ∧ d.passes (qualificationPattern k) = false
        let arr := s.array.afterDone (request (.repairQualify k) x d')
        (¬ failed → exec (.writeRepairQualifyDone flips) s = .next (ends (s.portFreed.releaseSpare sp) t arr))
        ∧ (failed → exec (.writeRepairQualifyDone flips) s = .next (ends (s.portFreed.spoilSpare sp) t arr)))
      ∧ (∀ ws, s.seq = Sequencer.carrying (request .repairDataWrite x (some ws)) →
        exec .writeRepairDataWriteDone s = .next (ends (s.portFreed.releaseSpare sp) t (s.array.write x ws)))
      ∧ (s.seq = Sequencer.carrying (request .repairVerify x none) →
        (d.passes s.bus.buffer = true → s.lookup t.row ≠ .retired → s.tr.changes < 15 →
          exec (.writeRepairVerifyDone flips) s =
            .next (ends (s.portFreed.relocateTo t.row sp .write) (t.count none 1) s.array))
        ∧ (d.passes s.bus.buffer = true → s.lookup t.row = .retired →
          exec (.writeRepairVerifyDone flips) s =
            .next (ends (s.portFreed.releaseSpare sp) (t.count (some .retired) 0) s.array))
        ∧ (d.passes s.bus.buffer = false →
          exec (.writeRepairVerifyDone flips) s = .next (ends (s.portFreed.spoilSpare sp) t s.array))) := by
  intro d ends
  have released : (s.toChip.portFreed.releaseSpare sp).seq = Sequencer.reset :=
    Chip.seq_of_requesters (Chip.requesters_releaseSpare s.toChip.portFreed sp)
  have spoiled : (s.toChip.portFreed.spoilSpare sp).seq = Sequencer.reset :=
    Chip.seq_of_requesters (Chip.requesters_spoilSpare s.toChip.portFreed sp)
  have stops : s.toChip.portFreed.cmd.stopRequest = true := stop
  refine ⟨fun k d' port => ⟨fun passes => ?passes, fun ⟨read, fails⟩ => ?fails⟩, fun ws port => ?writes,
    fun port => ⟨fun passes present few => ?relocates, fun passes retired => ?retired, fun fails => ?unverified⟩⟩
  case passes =>
    have goesOn : k % 2 = 0 ∨ d.passes (qualificationPattern k) = true := by
      rcases Nat.mod_two_eq_zero_or_one k with write | read
      · exact .inl write
      · exact .inr (by simpa [read] using passes)
    rw [writeRepairQualifyDone_at port inArray work spare, Chip.writeQualified_passes goesOn, if_pos stops,
      Chip.cutTransfer_spare spare, Chip.settle_ended released]
    rfl
  case fails =>
    rw [writeRepairQualifyDone_at port inArray work spare, Chip.writeQualified_fails read fails,
      Chip.failWriteSpare_stopped stops, Chip.settle_ended spoiled]
    rfl
  case writes =>
    have act : s.toChip.portFreed.spareWritten t sp = s.toChip.portFreed.cutTransfer t .aborted := if_pos stops
    rw [writeRepairDataWriteDone_at port inArray work spare, act, Chip.cutTransfer_spare spare,
      Chip.settle_ended released]
    rfl
  case relocates =>
    obtain ⟨idle, engine, _⟩ := Chip.relocateTo_requesters (c := s.toChip.portFreed) t.row sp .write few
    rw [writeRepairVerifyDone_at port inArray work spare,
      Chip.spareVerified_relocates (c := s.toChip.portFreed) passes present,
      Chip.rowDone_stop (by rw [engine]; exact stops), Chip.settle_ended idle, engine]
    rfl
  case retired =>
    have engine := Chip.cmd_of_requesters (Chip.requesters_releaseSpare s.toChip.portFreed sp)
    have act : s.toChip.portFreed.writeFoundRetired t =
        (s.toChip.portFreed.releaseSpare sp).rowDone t (some .retired) 0 := by
      unfold Chip.writeFoundRetired Chip.freeTransferSpare
      rw [spare]
    rw [writeRepairVerifyDone_at port inArray work spare,
      Chip.spareVerified_retired (c := s.toChip.portFreed) passes retired, act,
      Chip.rowDone_stop (by rw [engine]; exact stops), Chip.settle_ended released, engine]
    rfl
  case unverified =>
    rw [writeRepairVerifyDone_at port inArray work spare, Chip.spareVerified_fails (c := s.toChip.portFreed) fails,
      Chip.failWriteSpare_stopped stops, Chip.settle_ended spoiled]
    rfl

end Sys2Proof.Machine

/-! # A repair job's accesses, and their completion with a STOP pending (R107, R110 to R115, R118 to R120) -/

namespace Sys2Proof.Machine

/-! ## What the completion of each access does -/

theorem Chip.freeJobSpare_eq (c : Chip) (j : Job) : c.freeJobSpare j = Chip.giveBack j.spare c := by
  unfold Chip.freeJobSpare Chip.giveBack
  cases j.spare <;> rfl

@[simp] theorem Chip.requesters_setRestarts (c : Chip) (l n : Nat) : (c.setRestarts l n).requesters = c.requesters :=
  Chip.requesters_updatePending ..

/-- The report a job's source read makes (R110). -/
def Chip.reportSource (c : Chip) (j : Job) (p : PhysRow) (o : ReadOutcome) : Chip :=
  c.report { row := j.row, phys := p, outcome := o, path := j.origin, readBack := false }

theorem Chip.sourceRead_unreadable {c : Chip} {j : Job} {p : PhysRow} {d : Delivered}
    (unreadable : d.outcome = .uncorrectable) :
    c.sourceRead j p d = (c.reportSource j p .uncorrectable).abandonJob j .uncorrectable := by
  unfold Chip.sourceRead
  rw [unreadable]
  rfl

/-- A source read that can be read: the job goes on with the words (R110). -/
theorem Chip.sourceRead_readable {c : Chip} {j : Job} {p : PhysRow} {d : Delivered}
    (readable : d.outcome ≠ .uncorrectable) :
    c.sourceRead j p d =
      Chip.repairRun 8 ((c.reportSource j p d.outcome).withData { j with data := some d.words }) := by
  unfold Chip.sourceRead
  cases outcome : d.outcome with
  | clean => rfl
  | corrected => rfl
  | uncorrectable => exact absurd outcome readable

theorem Chip.withData_spare {c : Chip} {j : Job} {sp : SpareId} (spare : j.spare = some sp) :
    c.withData j = (c.copyJob j sp, none) := by
  unfold Chip.withData
  rw [spare]

theorem Chip.withData_spareless {c : Chip} {j : Job} (spare : j.spare = none) :
    c.withData j = (c, some (.allocate, j)) := by
  unfold Chip.withData
  rw [spare]

theorem Chip.issueJob_stopped {c : Chip} {j : Job} (stops : c.jobStops j = true) (st : RepairState) (p : Purpose)
    (x : PhysRow) (d : Option (List Word)) : c.issueJob st j p x d = c.abandonJob j .aborted := if_pos stops

theorem Chip.issueJob_goesOn {c : Chip} {j : Job} (free : c.jobStops j = false) (st : RepairState) (p : Purpose)
    (x : PhysRow) (d : Option (List Word)) : c.issueJob st j p x d = (c.putJob st j).issue p x d :=
  if_neg (Bool.eq_false_iff.1 free)

theorem Chip.enterAllocate_stopped {c : Chip} {j : Job} (stops : c.jobStops j = true) :
    c.enterAllocate j = (c.abandonJob j .aborted, none) := if_pos stops

/-- A qualification access that does not fail: the next access, or the copy (R107, R112). -/
theorem Chip.qualified_passes {c : Chip} {j : Job} {sp : SpareId} {k : Nat} {d : Delivered}
    (passes : k % 2 = 0 ∨ d.passes (qualificationPattern k) = true) :
    c.qualified j sp k d =
      if k < 3 then c.issueJob .qualify j (.qualification (k + 1)) sp.phys (qualificationData (k + 1))
      else c.copyJob j sp := if_pos passes

theorem Chip.qualified_fails {c : Chip} {j : Job} {sp : SpareId} {k : Nat} {d : Delivered} (read : k % 2 = 1)
    (fails : d.passes (qualificationPattern k) = false) : c.qualified j sp k d = c.failSpare j sp :=
  if_neg (by simp [read, fails])

theorem Chip.copied_verifies {c : Chip} {j : Job} {sp : SpareId} (ours : claimMarked c.tr.repairClaim = false) :
    c.copied j sp = c.issueJob .verify j .verifyRead sp.phys none := if_neg (Bool.eq_false_iff.1 ours)

theorem Chip.copied_overtaken {c : Chip} {j : Job} {sp : SpareId} (marked : claimMarked c.tr.repairClaim = true) :
    c.copied j sp = c.repairGo .overtaken j := if_pos marked

/-- A verify that passes, the claim not marked: the map update, unless the row is RETIRED (R112, R113, log entry 31). -/
theorem Chip.verified_relocates {c : Chip} {j : Job} {sp : SpareId} {d : Delivered}
    (passes : d.passes (j.data.getD zeroRow) = true) (ours : claimMarked c.tr.repairClaim = false)
    (present : c.lookup j.row ≠ .retired) :
    c.verified j sp d =
      (c.relocateTo j.row sp j.origin).endJob { j with spare := none } (if j.discard then .dataLost else .ok) :=
  (if_pos passes).trans ((if_neg (Bool.eq_false_iff.1 ours)).trans (if_neg (by simp [Chip.isRetired, present])))

theorem Chip.verified_retired {c : Chip} {j : Job} {sp : SpareId} {d : Delivered}
    (passes : d.passes (j.data.getD zeroRow) = true) (ours : claimMarked c.tr.repairClaim = false)
    (retired : c.lookup j.row = .retired) : c.verified j sp d = c.endJob j .retired :=
  (if_pos passes).trans ((if_neg (Bool.eq_false_iff.1 ours)).trans (if_pos (by simp [Chip.isRetired, retired])))

theorem Chip.verified_overtaken {c : Chip} {j : Job} {sp : SpareId} {d : Delivered}
    (passes : d.passes (j.data.getD zeroRow) = true) (marked : claimMarked c.tr.repairClaim = true) :
    c.verified j sp d = c.repairGo .overtaken j := (if_pos passes).trans (if_pos marked)

theorem Chip.verified_fails {c : Chip} {j : Job} {sp : SpareId} {d : Delivered}
    (fails : d.passes (j.data.getD zeroRow) = false) : c.verified j sp d = c.failSpare j sp :=
  if_neg (Bool.eq_false_iff.1 fails)

/-- A zero read-back that can be read: the data is lost, and the row readable again (R119). -/
theorem Chip.zeroReadBack_readable {c : Chip} {j : Job} {p : PhysRow} {d : Delivered}
    (ours : claimMarked c.tr.repairClaim = false) (readable : d.outcome ≠ .uncorrectable) :
    c.zeroReadBack j p d = (c.reportReadBack j.row p d.outcome).endJob j .dataLost := by
  unfold Chip.zeroReadBack
  rw [if_neg (Bool.eq_false_iff.1 ours)]
  cases outcome : d.outcome with
  | clean => rfl
  | corrected => rfl
  | uncorrectable => exact absurd outcome readable

/-- A zero read-back that cannot be read: the row is retired, or stuck where the table is full (R119). -/
theorem Chip.zeroReadBack_unreadable {c : Chip} {j : Job} {p : PhysRow} {d : Delivered}
    (ours : claimMarked c.tr.repairClaim = false) (unreadable : d.outcome = .uncorrectable) :
    c.zeroReadBack j p d =
      let r := (c.reportReadBack j.row p .uncorrectable).retireOrStick j.row .host
      r.1.endJob j (if r.2 = .tableFull then .noSpare else .retired) := by
  unfold Chip.zeroReadBack
  rw [if_neg (Bool.eq_false_iff.1 ours), unreadable]
  change (match (c.reportReadBack j.row p .uncorrectable).retireOrStick j.row .host with
    | (c2, .retired) => c2.endJob j .retired
    | (c2, .alreadyRetired) => c2.endJob j .retired
    | (c2, .tableFull) => c2.endJob j .noSpare) = _
  generalize (c.reportReadBack j.row p .uncorrectable).retireOrStick j.row .host = answer
  obtain ⟨after, kind⟩ := answer
  cases kind <;> rfl

/-! ## A job that ends with a STOP pending -/

/-- The part after the job of RELOCATE ROW has ended with ABORTED (R118, R120). -/
def Chip.jobAborted (c : Chip) (row madeBad : Nat) : Chip :=
  { c with
    tr := { c.tr with repairClaim := none }, rep := { c.rep with st := .idle, job := none }
    bus := c.bus.commandDone
    cmd := c.cmd.finished .aborted ⟨word (c.lookup row).code, (c.lookup row).targetWord, word madeBad, 0⟩ }

theorem Chip.endJob_stopped {c : Chip} {j : Job} (code : ResultCode) (command : j.command = true)
    (stop : c.cmd.stopRequest = true) : c.endJob j code = (Chip.giveBack j.spare c).jobAborted j.row j.madeBad := by
  unfold Chip.endJob
  rw [Chip.freeJobSpare_eq, if_pos command, if_pos stop]
  rfl

theorem Chip.abandonJob_stopped {c : Chip} {j : Job} (code : ResultCode) (command : j.command = true)
    (stop : c.cmd.stopRequest = true) :
    c.abandonJob j code = (Chip.giveBack j.spare (c.setRestarts j.row 0)).jobAborted j.row j.madeBad :=
  Chip.endJob_stopped code command stop

/-- With its words at hand, a job with a STOP pending is abandoned before its next access (R120). -/
theorem Chip.withData_stopped {c : Chip} {j : Job} (stops : c.jobStops j = true) :
    Chip.repairRun 8 (c.withData j) = c.abandonJob j .aborted := by
  cases spare : j.spare with
  | some sp => rw [Chip.withData_spare spare, Chip.repairRun_none, Chip.copyJob, Chip.issueJob_stopped stops]
  | none =>
    rw [Chip.withData_spareless spare, Chip.repairRun_some, Chip.repairMove, Chip.enterAllocate_stopped stops,
      Chip.repairRun_none]

/-- A test of the job's spare that fails with a STOP pending: the spare is BAD and the job abandoned (R107, R120). -/
theorem Chip.failSpare_stopped {c : Chip} {j : Job} {sp : SpareId} (command : j.command = true)
    (stop : c.cmd.stopRequest = true) :
    c.failSpare j sp = ((c.spoilSpare sp).setRestarts j.row 0).jobAborted j.row (j.madeBad + 1) := by
  have kept : (c.spoilSpare sp).cmd.stopRequest = true := by
    rw [Chip.cmd_of_requesters (Chip.requesters_spoilSpare c sp)]
    exact stop
  have stops : (c.spoilSpare sp).jobStops { j with spare := none, madeBad := j.madeBad + 1 } = true := by
    simp [Chip.jobStops, command, kept]
  unfold Chip.failSpare Chip.repairGo
  rw [Chip.repairRun_some, Chip.repairMove, Chip.enterAllocate_stopped stops, Chip.repairRun_none]
  exact Chip.abandonJob_stopped (c := c.spoilSpare sp) (j := { j with spare := none, madeBad := j.madeBad + 1 }) _
    command kept

/-! ## The second half of the statement -/

/-- The part when a job whose spare is `o` has been abandoned: restarts 0, the spare FREE again (R115). -/
def Chip.givenUp (c : Chip) (row : Nat) (o : Option SpareId) : Chip := Chip.giveBack o (c.setRestarts row 0)

theorem Chip.requesters_givenUp (c : Chip) (row : Nat) (o : Option SpareId) :
    (c.givenUp row o).requesters = c.requesters := by
  unfold Chip.givenUp
  rw [Chip.requesters_giveBack, Chip.requesters_setRestarts]

section
variable {s : State} {j : Job} {x : PhysRow} {flips : RowPatch}

/-- The state when the job of RELOCATE ROW has ended with ABORTED and left this part and this array. -/
def State.jobStopped (s : State) (j : Job) (c : Chip) (madeBad : Nat) (arr : Memory) : State :=
  { s with
    array := arr
    toChip := { c with
      tr := { c.tr with repairClaim := none }, rep := { s.rep with st := .idle, job := none }
      bus := c.bus.commandDone
      cmd := s.cmd.finished .aborted ⟨word (c.lookup j.row).code, (c.lookup j.row).targetWord, word madeBad, 0⟩ } }

theorem State.next_jobAborted {c : Chip} (idle : c.seq = Sequencer.reset) (engine : c.cmd = s.cmd) (repair : c.rep = s.rep)
    (madeBad : Nat) (arr : Memory) :
    { s with toChip := (c.jobAborted j.row madeBad).settle 8, array := arr } = s.jobStopped j c madeBad arr := by
  rw [Chip.settle_of_settled 8 (by show c.seq.settled = true; rw [idle]; rfl)]
  unfold State.jobStopped
  rw [← engine, ← repair]
  rfl

theorem State.next_jobAborted_of_requesters {c : Chip} (same : c.requesters = s.toChip.portFreed.requesters)
    (madeBad : Nat) (arr : Memory) :
    { s with toChip := (c.jobAborted j.row madeBad).settle 8, array := arr } = s.jobStopped j c madeBad arr :=
  State.next_jobAborted (Chip.seq_of_requesters same :) (Chip.cmd_of_requesters same :) (Chip.rep_of_requesters same :) _ _

/-- The source read completes with a STOP pending: it is reported, and the job abandoned (R120). -/
theorem stopPending_sourceRead (job : s.rep.job = some j) (command : j.command = true) (stop : s.cmd.stopRequest = true)
    (inArray : x.inArray s.devices = true) (port : s.seq = Sequencer.carrying (request .sourceRead x none)) :
    let c := s.toChip.portFreed.reportSource j x (s.array.deliver x flips).outcome
    exec (.sourceReadDone flips) s = .next (s.jobStopped j (c.givenUp j.row j.spare) j.madeBad s.array) := by
  intro c
  have same : c.requesters = s.toChip.portFreed.requesters := Chip.requesters_report ..
  have kept : c.cmd.stopRequest = true := (congrArg _ (Chip.cmd_of_requesters same)).trans stop
  have act : s.toChip.portFreed.sourceRead j x (s.array.deliver x flips) =
      (c.givenUp j.row j.spare).jobAborted j.row j.madeBad := by
    by_cases readable : (s.array.deliver x flips).outcome = .uncorrectable
    · rw [Chip.sourceRead_unreadable readable, ← readable]
      exact Chip.abandonJob_stopped (c := c) .uncorrectable command kept
    · rw [Chip.sourceRead_readable readable, Chip.withData_stopped (by simp [Chip.jobStops, command]; exact kept)]
      exact Chip.abandonJob_stopped (c := c) (j := { j with data := some (s.array.deliver x flips).words }) .aborted
        command kept
  rw [sourceReadDone_at port inArray job, act]
  exact congrArg _ (State.next_jobAborted_of_requesters ((Chip.requesters_givenUp ..).trans same) _ _)

/-- An access of a job that holds a spare completes with a STOP pending (R120). -/
theorem stopPending_spareJob {sp : SpareId} (job : s.rep.job = some j) (command : j.command = true)
    (stop : s.cmd.stopRequest = true) (inArray : x.inArray s.devices = true) (spare : j.spare = some sp) :
    let d := s.array.deliver x flips
    (∀ k d', s.seq = Sequencer.carrying (request (.qualification k) x d') →
        let failed := k % 2 = 1 ∧ d.passes (qualificationPattern k) = false
        let arr := s.array.afterDone (request (.qualification k) x d')
        (¬ failed → exec (.qualificationAccessDone flips) s =
            .next (s.jobStopped j (s.toChip.portFreed.givenUp j.row j.spare) j.madeBad arr))
        ∧ (failed → exec (.qualificationAccessDone flips) s =
            .next (s.jobStopped j ((s.toChip.portFreed.spoilSpare sp).givenUp j.row none) (j.madeBad + 1) arr)))
    ∧ (∀ ws, s.seq = Sequencer.carrying (request .copyWrite x (some ws)) → claimMarked s.tr.repairClaim = false →
        exec .copyWriteDone s =
          .next (s.jobStopped j (s.toChip.portFreed.givenUp j.row j.spare) j.madeBad (s.array.write x ws)))
    ∧ (s.seq = Sequencer.carrying (request .verifyRead x none) →
        (d.passes (j.data.getD zeroRow) = true → claimMarked s.tr.repairClaim = false → s.lookup j.row ≠ .retired →
          s.tr.changes < 15 → exec (.verifyReadDone flips) s =
            .next (s.jobStopped j (s.toChip.portFreed.relocateTo j.row sp j.origin) j.madeBad s.array))
        ∧ (d.passes (j.data.getD zeroRow) = true → claimMarked s.tr.repairClaim = false → s.lookup j.row = .retired →
          exec (.verifyReadDone flips) s =
            .next (s.jobStopped j (s.toChip.portFreed.releaseSpare sp) j.madeBad s.array))
        ∧ (d.passes (j.data.getD zeroRow) = false → exec (.verifyReadDone flips) s =
            .next (s.jobStopped j ((s.toChip.portFreed.spoilSpare sp).givenUp j.row none) (j.madeBad + 1) s.array))) := by
  intro d
  have kept : s.toChip.portFreed.cmd.stopRequest = true := stop
  have stops : s.toChip.portFreed.jobStops j = true := by simp [Chip.jobStops, command, kept]
  have gives : ∀ code, s.toChip.portFreed.abandonJob j code =
      (s.toChip.portFreed.givenUp j.row j.spare).jobAborted j.row j.madeBad := fun code =>
    Chip.abandonJob_stopped (c := s.toChip.portFreed) code command stop
  have givenUp := fun arr => State.next_jobAborted_of_requesters (s := s) (j := j)
    (Chip.requesters_givenUp s.toChip.portFreed j.row j.spare) j.madeBad arr
  have spoiled := fun arr => State.next_jobAborted_of_requesters (s := s) (j := j)
    ((Chip.requesters_givenUp (s.toChip.portFreed.spoilSpare sp) j.row none).trans (Chip.requesters_spoilSpare ..))
    (j.madeBad + 1) arr
  refine ⟨fun k d' port => ⟨fun passes => ?passes, fun ⟨read, fails⟩ => ?fails⟩, fun ws port ours => ?copies,
    fun port => ⟨fun passes ours present few => ?relocates, fun passes ours retired => ?retired, fun fails => ?unverified⟩⟩
  case passes =>
    have goesOn : k % 2 = 0 ∨ d.passes (qualificationPattern k) = true := by
      rcases Nat.mod_two_eq_zero_or_one k with write | read
      · exact .inl write
      · exact .inr (by simpa [read] using passes)
    have act : s.toChip.portFreed.qualified j sp k d = s.toChip.portFreed.abandonJob j .aborted := by
      rw [Chip.qualified_passes goesOn]
      by_cases more : k < 3
      · rw [if_pos more, Chip.issueJob_stopped stops]
      · rw [if_neg more, Chip.copyJob, Chip.issueJob_stopped stops]
    rw [qualificationAccessDone_at port inArray job spare, act, gives]
    exact congrArg _ (givenUp _)
  case fails =>
    rw [qualificationAccessDone_at port inArray job spare, Chip.qualified_fails read fails,
      Chip.failSpare_stopped command kept]
    exact congrArg _ (spoiled _)
  case copies =>
    rw [copyWriteDone_at port inArray job spare, Chip.copied_verifies (c := s.toChip.portFreed) ours,
      Chip.issueJob_stopped stops, gives]
    exact congrArg _ (givenUp _)
  case relocates =>
    obtain ⟨idle, engine, repair⟩ := Chip.relocateTo_requesters (c := s.toChip.portFreed) j.row sp j.origin few
    rw [verifyReadDone_at port inArray job spare, Chip.verified_relocates (c := s.toChip.portFreed) passes ours present,
      Chip.endJob_stopped (j := { j with spare := none }) _ command (by rw [engine]; exact kept)]
    exact congrArg _ (State.next_jobAborted idle engine repair _ _)
  case retired =>
    rw [verifyReadDone_at port inArray job spare, Chip.verified_retired (c := s.toChip.portFreed) passes ours retired,
      Chip.endJob_stopped _ command kept, spare]
    exact congrArg _ (State.next_jobAborted_of_requesters (Chip.requesters_releaseSpare ..) _ _)
  case unverified =>
    rw [verifyReadDone_at port inArray job spare, Chip.verified_fails fails, Chip.failSpare_stopped command kept]
    exact congrArg _ (spoiled _)

/-- The accesses of the DISCARD no-spare path complete with a STOP pending: they run to their end (R119, R120). -/
theorem stopPending_discard (job : s.rep.job = some j) (command : j.command = true) (stop : s.cmd.stopRequest = true)
    (inArray : x.inArray s.devices = true) (spare : j.spare = none) :
    (∀ ws, s.seq = Sequencer.carrying (request .zeroWrite x (some ws)) →
        exec .zeroWriteDone s = .next { s with
          array := s.array.write x ws, seq := Sequencer.carrying (request .zeroReadBack x none) })
    ∧ (s.seq = Sequencer.carrying (request .zeroReadBack x none) → claimMarked s.tr.repairClaim = false →
      let d := s.array.deliver x flips
      let c := s.toChip.portFreed.reportReadBack j.row x d.outcome
      (d.outcome ≠ .uncorrectable → exec (.zeroReadBackDone flips) s = .next (s.jobStopped j c j.madeBad s.array))
      ∧ (d.outcome = .uncorrectable → s.cmd.work ≠ .commitWait →
        let r := (c.retireOrStick j.row .host).1
        exec (.zeroReadBackDone flips) s = .next { s with
          toChip := Chip.settle 8 (s.jobStopped j r j.madeBad s.array).toChip })) := by
  refine ⟨fun ws port => ?writes, fun port ours => ?readsBack⟩
  case writes =>
    rw [zeroWriteDone_at port inArray, Chip.zeroWritten, Chip.settle_issue 7 rfl _ _ _ rfl]
    rfl
  case readsBack =>
    intro d c
    have same : c.requesters = s.toChip.portFreed.requesters := Chip.requesters_report ..
    have engine : c.cmd = s.cmd := (Chip.cmd_of_requesters same :)
    have repair : c.rep = s.rep := (Chip.rep_of_requesters same :)
    constructor
    · intro readable
      rw [zeroReadBackDone_at port inArray job, Chip.zeroReadBack_readable (c := s.toChip.portFreed) ours readable,
        Chip.endJob_stopped _ command ((congrArg _ engine).trans stop), spare]
      exact congrArg _ (State.next_jobAborted_of_requesters same _ _)
    · intro unreadable waitsNot r
      obtain ⟨keptEngine, keptRepair⟩ := Chip.retireOrStick_keeps_work (c := c) j.row .host (by rw [engine]; exact waitsNot)
      have stops : r.cmd.stopRequest = true := by rw [keptEngine, engine]; exact stop
      have act := Chip.zeroReadBack_unreadable (c := s.toChip.portFreed) (j := j) (p := x) ours unreadable
      rw [← unreadable] at act
      rw [zeroReadBackDone_at port inArray job, act]
      unfold State.jobStopped
      rw [← engine, ← repair, ← keptEngine, ← keptRepair]
      exact congrArg (fun c : Chip => Host.Outcome.next { s with toChip := c.settle 8 })
        ((Chip.endJob_stopped _ command stops).trans (by rw [spare]))

end

/-- Settles O22: the accesses of a transfer, with and without a spare, and those of the job of RELOCATE ROW. -/
theorem stopPendingEndsAtTheCompletion : Obligations.StopPendingEndsAtTheCompletion := by
  refine ⟨fun s t x flips work stop inArray => ⟨fun spare => ?row, fun sp spare => ?writeRepair⟩,
    fun s j x flips job command stop inArray => ⟨fun port => ?source, fun sp spare => ?spareJob, fun spare => ?discard⟩⟩
  case row =>
    obtain ⟨read, check, scrub, write⟩ := stopPending_row (flips := flips) work stop inArray spare
    exact ⟨read, check, scrub, write, fun port => stopPending_readBack work stop inArray port⟩
  case writeRepair =>
    obtain ⟨qualify, data, verify⟩ := stopPending_writeRepair (flips := flips) work stop inArray spare
    refine ⟨fun k d' port => ?_, data, verify⟩
    cases d' with
    | none => exact qualify k none port
    | some ws => exact qualify k (some ws) port
  case source =>
    have ends := stopPending_sourceRead (flips := flips) job command stop inArray port
    cases spare : j.spare <;> (rw [spare] at ends; exact ends)
  case spareJob =>
    obtain ⟨qualify, copy, verify⟩ := stopPending_spareJob (flips := flips) job command stop inArray spare
    rw [spare] at qualify copy ⊢
    refine ⟨fun k d' port => ?_, copy, verify⟩
    cases d' with
    | none => exact qualify k none port
    | some ws => exact qualify k (some ws) port
  case discard => exact stopPending_discard job command stop inArray spare

end Sys2Proof.Machine

/-! # SOFT RESET, block by block (R34, R35, R53, R54, R79, R96, R116, R133, R167) -/

namespace Sys2Proof.Machine

/-! ## The part when the reset reaches the patrol engine -/

/-- The bus interface and the command engine are cleared (R53, R54). -/
def State.softCleared (s : State) : Chip := { s.toChip with bus := s.bus.softReset, cmd := s.cmd.softReset }

/-- The spares that write-repair and the job hold are given back (R79, R116). -/
def State.softGiven (s : State) : Chip :=
  Chip.giveBack (s.rep.job.bind Job.spare) (Chip.giveBack s.cmd.work.spare s.softCleared)

/-- The command engine, the repair engine and the error tracker have taken the reset (R53, R96, R116). -/
def State.softDone (s : State) : Chip :=
  { s.softGiven with
    tr := { s.tr with repairClaim := none }
    trk := { s.trk with pendingList := s.trk.pendingList.map fun e => { e with restarts := 0 } }
    rep := { st := .idle, job := none, waiting := none }
    seq := { s.seq with foreground := s.seq.foreground.abandon, repair := s.seq.repair.abandon } }

theorem Work.spare_eq (w : Work) : w.spare = match w with | .transfer t => t.spare | _ => Option.none := by
  cases w <;> rfl

/-- Two spares that are given back change the allocator, the grades and the bus alone. -/
theorem Chip.giveBack_giveBack (o p : Option SpareId) (c : Chip) :
    let d := Chip.giveBack o (Chip.giveBack p c)
    d = { c with alloc := d.alloc, health := d.health, bus := d.bus } := by
  have first := Chip.giveBack_congr_bus (c := c) (d := c) rfl rfl p
  have second := Chip.giveBack_congr_bus (c := Chip.giveBack p c) (d := Chip.giveBack p c) rfl rfl o
  generalize Chip.giveBack p c = one at first second ⊢
  generalize Chip.giveBack o one = two at second ⊢
  refine second.trans ?_
  conv => lhs; rw [first]

theorem State.softGiven_shape (s : State) : s.softGiven = { s.softCleared with
    alloc := s.softGiven.alloc, health := s.softGiven.health, bus := s.softGiven.bus } :=
  Chip.giveBack_giveBack _ _ _

/-- What a reset does up to the patrol engine, where the format changes its own part of the directory and the bus alone. -/
theorem State.softReset_upTo (s : State) (D : DirectoryUnit) (m : BusInterface → BusInterface)
    (grade : ∀ b g, { m b with gradeFlag := g } = m { b with gradeFlag := g })
    (keeps : ∀ b, (m b).gradeFlag = b.gradeFlag)
    (format : ∀ c : Chip, c.dir = s.dir → c.cmd = s.cmd.softReset → c.seq.foreground = s.seq.foreground.abandon →
      c.softResetFormat = { c with dir := D, bus := m c.bus }) :
    s.toChip.softReset = Chip.softResetPatrol { s.softDone with dir := D, bus := m s.softGiven.bus } := by
  rw [State.softReset_eq s s.softCleared _ s.softGiven _ (Work.spare_eq _) rfl rfl rfl D m grade keeps format]
  unfold State.softDone
  conv => rhs; rw [s.softGiven_shape]
  rfl

/-- With no format in flight (R53, R116). -/
theorem State.softReset_noFormat (s : State) (noFormat : s.dir.format = none) :
    s.toChip.softReset = s.softDone.softResetPatrol := by
  have act := s.softReset_upTo s.dir id (fun _ _ => rfl) (fun _ => rfl) fun c dir _ _ => by
    unfold Chip.softResetFormat
    rw [dir, noFormat]
    exact dir ▸ rfl
  have dir : s.softDone.dir = s.dir := (congrArg Chip.dir s.softGiven_shape :)
  rw [← dir] at act
  exact act

/-! ## The patrol engine (R133) -/

theorem Chip.softResetPatrol_stopped {c : Chip} (stopped : c.pat.st = .stopped) : c.softResetPatrol = c := by
  unfold Chip.softResetPatrol
  rw [stopped]

/-- A HALTING patrol stops with reason HALTED. -/
theorem Chip.softResetPatrol_halting {c : Chip} (halting : c.pat.st = .halting) :
    c.softResetPatrol = { c with
      tr := { c.tr with patrolClaim := none }, seq := { c.seq with patrol := c.seq.patrol.abandon }
      pat := { c.pat with mode := .off, st := .stopped, restartRequest := false, paceTimer := none }
      health := (c.raise (.patrolStopped .halted)).health } := by
  unfold Chip.softResetPatrol
  rw [halting]
  exact Chip.raise_congr (c := c) (d := { c with
    tr := { c.tr with patrolClaim := none }, seq := { c.seq with patrol := c.seq.patrol.abandon }
    pat := { c.pat with mode := .off, st := .stopped, restartRequest := false, paceTimer := none } }) rfl rfl _

/-- A patrol that paces goes on at once where its slot is free. -/
theorem Chip.softResetPatrol_pacing {c : Chip} (pacing : c.pat.st = .pacing) :
    c.softResetPatrol = c.paceNow.patrolOn := by
  unfold Chip.softResetPatrol
  rw [pacing]

theorem Chip.softResetPatrol_visiting {c : Chip} (visiting : c.pat.st = .visiting) :
    c.softResetPatrol = c.abandonVisit.paceNow.patrolOn := by
  unfold Chip.softResetPatrol
  rw [visiting]

/-- The access of the patrol is in progress: its slot is not free, and the patrol waits for it. -/
theorem Chip.patrolOn_busy {c : Chip} {r : Request} (busy : c.seq.patrol = .inProgress r) : c.patrolOn = c :=
  Chip.patrolOn_of_not (by simp [Chip.patrolReady, busy])

/-- The patrol's slot is free: the cursor row is visited at once. -/
theorem Chip.softResetPatrol_visits {c : Chip} {x : PhysRow} (noAccess : ∀ r, c.seq.patrol ≠ .inProgress r)
    (goesOn : c.pat.st = .visiting ∨ c.pat.st = .pacing ∧ c.seq.patrol = .empty)
    (phys : (c.lookup c.pat.cursor).phys = some x) (noClaim : c.tr.repairClaim = none) :
    c.softResetPatrol = Chip.issue { c with
      tr := { c.tr with patrolClaim := some { row := c.pat.cursor, overtaken := false } }
      seq := { c.seq with patrol := .empty }
      pat := { c.pat with
        st := .visiting, restartRequest := false, paceTimer := if c.pat.pace = 0 then none else some c.pat.pace
        intervalOut := decide (c.pat.pace = 0) } } .visitRead x none := by
  have holdsNot : claimHolds c.tr.repairClaim c.pat.cursor = false := by rw [noClaim]; rfl
  rcases goesOn with visiting | ⟨pacing, empty⟩
  · have free : c.seq.patrol.abandon = .empty := by
      cases slot : c.seq.patrol with
      | empty => rfl
      | waiting r => rfl
      | inProgress r => exact absurd slot (noAccess r)
    rw [Chip.softResetPatrol_visiting visiting,
      Chip.patrolOn_visit (c := c.abandonVisit.paceNow) rfl rfl free phys holdsNot]
    unfold Chip.beginVisit Chip.paceNow Chip.abandonVisit
    rw [free]
    rfl
  · have kept : ({ c.seq with patrol := .empty } : Sequencer) = c.seq := by rw [← empty]
    rw [Chip.softResetPatrol_pacing pacing, Chip.patrolOn_visit (c := c.paceNow) rfl rfl empty phys holdsNot, kept]
    rfl

/-! ## A format in flight (R167) -/

/-- The format ends at its next boundary. -/
theorem Chip.softResetFormat_waits {c : Chip} {f : FormatJob} (format : c.dir.format = some f)
    (waits : (∃ k, f.phase = .invalidating k) ∨ (∃ k, f.phase = .rowInit k) ∧ ∃ r, c.seq.foreground = .inProgress r) :
    c.softResetFormat = { c with dir := { c.dir with format := some { f with ending := true } } } := by
  unfold Chip.softResetFormat
  rcases waits with ⟨k, phase⟩ | ⟨⟨k, phase⟩, r, busy⟩
  · simp only [format, phase]
    rfl
  · simp only [format, phase, busy]
    rfl

/-- The format ends at once. -/
theorem Chip.softResetFormat_ends {c : Chip} {f : FormatJob} (format : c.dir.format = some f)
    (ends : (∃ k, f.phase = .rowInit k) ∧ (∀ r, c.seq.foreground ≠ .inProgress r) ∨ (∃ k, f.phase = .committing k)
      ∨ f.phase = .waitCommit) : c.softResetFormat = c.endFormatEarly .aborted := by
  unfold Chip.softResetFormat
  rcases ends with ⟨⟨k, phase⟩, free⟩ | ⟨k, phase⟩ | phase
  · simp only [format, phase]
    cases slot : c.seq.foreground with
    | empty => rfl
    | waiting r => rfl
    | inProgress r => exact absurd slot (free r)
  · simp only [format, phase]
  · simp only [format, phase]

/-- An early end of a format whose tables are empty already, for no command (R167). -/
theorem Chip.endFormatEarly_emptied {c : Chip} {f : FormatJob} (format : c.dir.format = some f)
    (formatting : c.dir.opState = .formatting) (emptied : f.phase.emptied = true) (code : ResultCode) :
    c.endFormatEarly code = { c with
      dir := { c.dir with
        format := none, opState := .unformatted, validA := false, seqA := 0, validB := false, seqB := 0
        commit := c.dir.commit.map fun j => { j with detached := true } }
      bus := { c.bus with stateFlag := true, cmdDone := c.bus.cmdDone || decide (c.cmd.work = .format) }
      cmd := if c.cmd.work = .format then c.cmd.finished code ⟨c.cmd.results.r0, 0, 0, 0⟩ else c.cmd } := by
  unfold Chip.endFormatEarly
  rw [format]
  refine (congrArg (fun d : Chip => d.detachCommit.endFormat .unformatted code 0) (if_pos emptied)).trans ?_
  exact (Chip.endFormat_eq .unformatted code 0 formatting OperatingState.noConfusion)

/-- An early end of a format whose tables are still to be emptied (R164, R167). -/
theorem Chip.endFormatEarly_full {c : Chip} {f : FormatJob} (format : c.dir.format = some f)
    (formatting : c.dir.opState = .formatting) (full : f.phase.emptied = false) (code : ResultCode) :
    c.endFormatEarly code = { c.emptyTables with
      dir := { c.emptyTables.dir with
        format := none, opState := .unformatted, validA := false, seqA := 0, validB := false, seqB := 0
        commit := c.dir.commit.map fun j => { j with detached := true } }
      bus := { c.emptyTables.bus with stateFlag := true, cmdDone := c.bus.cmdDone || decide (c.cmd.work = .format) }
      cmd := if c.cmd.work = .format then c.cmd.finished code ⟨c.cmd.results.r0, 0, 0, 0⟩ else c.cmd } := by
  unfold Chip.endFormatEarly
  rw [format]
  refine (congrArg (fun d : Chip => d.detachCommit.endFormat .unformatted code 0)
    (if_neg (Bool.eq_false_iff.1 full))).trans ?_
  rw [Chip.emptyTables_eq, Chip.emptyTables_eq]
  exact Chip.endFormat_eq .unformatted code 0 formatting OperatingState.noConfusion

/-! ## The statement -/

/-- The reset at a part with no format in flight, by the state of the patrol (R133). -/
theorem exec_softReset_noFormat {b : Bool} {s : State} (running : s.running = true) (settled : s.seq.settled = true)
    (noFormat : s.dir.format = none) :
    let out := fun c : Chip => exec (.softReset b) s = .next { s with toChip := c }
    let reset := s.softDone
    let dropped : Chip := { reset with
      tr := { s.tr with repairClaim := none, patrolClaim := none }
      seq := { reset.seq with patrol := s.seq.patrol.abandon } }
    let pacing : PatrolEngine :=
      { s.pat with st := .pacing, restartRequest := false, paceTimer := none, intervalOut := true }
    (s.pat.st = .stopped → out reset)
      ∧ (s.pat.st = .halting → out { dropped with
          pat := { s.pat with mode := .off, st := .stopped, restartRequest := false, paceTimer := none }
          health := (s.softGiven.raise (.patrolStopped .halted)).health })
      ∧ (∀ r, s.seq.patrol = .inProgress r → s.pat.st = .visiting → out { dropped with pat := pacing })
      ∧ (∀ r, s.seq.patrol = .inProgress r → s.pat.st = .pacing → out { reset with pat := pacing })
      ∧ (∀ x, (∀ r, s.seq.patrol ≠ .inProgress r) → (s.pat.st = .visiting ∨ s.pat.st = .pacing ∧ s.seq.patrol = .empty) →
          (s.lookup s.pat.cursor).phys = some x →
          let visiting : Chip := { reset with
            tr := { s.tr with repairClaim := none, patrolClaim := some { row := s.pat.cursor, overtaken := false } }
            pat := { s.pat with
              st := .visiting, restartRequest := false, paceTimer := if s.pat.pace = 0 then none else some s.pat.pace
              intervalOut := decide (s.pat.pace = 0) } }
          (s.seq = Sequencer.reset → out { visiting with seq := Sequencer.carrying (request .visitRead x none) })
          ∧ (s.seq.current ≠ none →
              out { visiting with seq := { reset.seq with patrol := .waiting (request .visitRead x none) } })) := by
  intro out reset dropped pacing
  obtain ⟨settledReset, settledDropped, settledVisit⟩ := Sequencer.settled_abandon s.seq settled
  have act := s.softReset_noFormat noFormat
  have engine : reset.pat = s.pat := (congrArg Chip.pat s.softGiven_shape :)
  have next : ∀ c : Chip, s.softDone.softResetPatrol = c → c.seq.settled = true → out c := fun c acts rests => by
    show exec _ _ = _
    rw [exec_softReset, State.next_onBus running (act.trans acts) rests]
  refine ⟨fun st => ?stopped, fun st => ?halting, fun r busy st => ?abandons, fun r busy st => ?waits,
    fun x noAccess goesOn phys => ?visits⟩
  case stopped => exact next _ (Chip.softResetPatrol_stopped (by rw [← engine] at st; exact st)) settledReset
  case halting =>
    refine next _ ((Chip.softResetPatrol_halting (by rw [← engine] at st; exact st)).trans ?_) settledDropped
    rw [← engine, Chip.raise_congr (c := s.softGiven) (d := s.softDone) rfl rfl]
    rfl
  case abandons =>
    have slot : s.softDone.abandonVisit.paceNow.seq.patrol = .inProgress { r with abandoned := true } :=
      congrArg Slot.abandon busy
    refine next _ ((Chip.softResetPatrol_visiting (by rw [← engine] at st; exact st)).trans
      ((Chip.patrolOn_busy slot).trans ?_)) settledDropped
    show _ = ({ dropped with pat := { s.pat with
      st := .pacing, restartRequest := false, paceTimer := none, intervalOut := true } } : Chip)
    rw [← engine]
    rfl
  case waits =>
    have slot : s.softDone.paceNow.seq.patrol = .inProgress r := busy
    refine next _ ((Chip.softResetPatrol_pacing (by rw [← engine] at st; exact st)).trans
      ((Chip.patrolOn_busy slot).trans ?_)) settledReset
    show _ = ({ reset with pat := { s.pat with
      st := .pacing, restartRequest := false, paceTimer := none, intervalOut := true } } : Chip)
    rw [← engine]
    rfl
  case visits =>
    intro visiting
    have found : (s.softDone.lookup s.softDone.pat.cursor).phys = some x := by
      rw [show s.softDone.pat = s.pat from engine]
      exact phys
    have acts := Chip.softResetPatrol_visits (c := s.softDone) noAccess
      (by rw [show s.softDone.pat = s.pat from engine]; exact goesOn) found rfl
    rw [show s.softDone.pat = s.pat from engine] at acts
    constructor
    · intro idle
      have free : ({ s.softDone.seq with patrol := .empty } : Sequencer) = Sequencer.reset := by
        unfold State.softDone
        simp only [idle]
        rfl
      show exec _ _ = _
      rw [exec_softReset, State.next_onBus_issue running (act.trans acts) free rfl]
      rfl
    · intro busy
      exact next _ acts (settledVisit _ busy noAccess)

/-- The reset at a part whose format is in flight, its tables being empty or staying so (R167). -/
theorem exec_softReset_format {b : Bool} {s : State} {f : FormatJob} (running : s.running = true)
    (settled : s.seq.settled = true) (format : s.dir.format = some f) (formatting : s.dir.opState = .formatting)
    (stopped : s.pat.st = .stopped) :
    let out := fun c : Chip => exec (.softReset b) s = .next { s with toChip := c }
    ((∃ k, f.phase = .invalidating k) ∨ (∃ k, f.phase = .rowInit k) ∧ (∃ r, s.seq.foreground = .inProgress r) →
      out { s.softDone with dir := { s.dir with format := some { f with ending := true } } })
    ∧ ((∃ k, f.phase = .rowInit k) ∧ (∀ r, s.seq.foreground ≠ .inProgress r) ∨ (∃ k, f.phase = .committing k) →
      out { s.softDone with
        bus := { s.softGiven.bus with stateFlag := true }
        dir := { s.dir with
          format := none, opState := .unformatted, validA := false, seqA := 0, validB := false, seqB := 0
          commit := s.dir.commit.map fun j => { j with detached := true } } }) := by
  intro out
  obtain ⟨settledReset, -, -⟩ := Sequencer.settled_abandon s.seq settled
  have engine : s.softDone.pat.st = .stopped := (congrArg (fun c : Chip => c.pat.st) s.softGiven_shape :).trans stopped
  constructor
  · intro waits
    have act := s.softReset_upTo { s.dir with format := some { f with ending := true } } id (fun _ _ => rfl) (fun _ => rfl)
      fun c dir _ foreground => by
        rw [Chip.softResetFormat_waits (c := c) (by rw [dir]; exact format), dir]
        · rfl
        · refine waits.imp_right fun ⟨phase, r, busy⟩ => ⟨phase, { r with abandoned := true }, ?_⟩
          rw [foreground, busy]
          rfl
    show exec _ _ = _
    rw [exec_softReset, State.next_onBus running (act.trans (Chip.softResetPatrol_stopped engine)) settledReset]
    rfl
  · intro ends
    have act := s.softReset_upTo { s.dir with
        format := none, opState := .unformatted, validA := false, seqA := 0, validB := false, seqB := 0
        commit := s.dir.commit.map fun j => { j with detached := true } }
      (fun b => { b with stateFlag := true }) (fun _ _ => rfl) (fun _ => rfl)
      fun c dir cmd foreground => by
        have emptied : f.phase.emptied = true := by
          rcases ends with ⟨⟨k, phase⟩, _⟩ | ⟨k, phase⟩ <;> rw [phase] <;> rfl
        rw [Chip.softResetFormat_ends (c := c) (f := f) (by rw [dir]; exact format),
          Chip.endFormatEarly_emptied (c := c) (f := f) (by rw [dir]; exact format) (by rw [dir]; exact formatting) emptied,
          dir]
        · simp [cmd, CommandEngine.softReset]
        · rcases ends with ⟨phase, free⟩ | phase
          · refine .inl ⟨phase, fun r busy => ?_⟩
            rw [foreground] at busy
            cases slot : s.seq.foreground with
            | empty => rw [slot] at busy; cases busy
            | waiting q => rw [slot] at busy; cases busy
            | inProgress q => exact free q slot
          · exact .inr (.inl phase)
    show exec _ _ = _
    rw [exec_softReset, State.next_onBus running (act.trans (Chip.softResetPatrol_stopped engine)) settledReset]

/-- The part when the command engine has taken the reset and held no spare (R53). -/
def State.softEngine (s : State) : Chip :=
  { s.softCleared with seq := { s.seq with foreground := s.seq.foreground.abandon } }

theorem Slot.abandon_abandon (q : Slot) : q.abandon.abandon = q.abandon := by cases q <;> rfl

/-- The reset at a part whose format waits for a commit: the tables are emptied as well (R164, R167). -/
theorem exec_softReset_waitCommit {b : Bool} {s : State} {f : FormatJob} (running : s.running = true)
    (settled : s.seq.settled = true) (format : s.dir.format = some f) (formatting : s.dir.opState = .formatting)
    (phase : f.phase = .waitCommit) (free : s.cmd.work.spare = none) :
    exec (.softReset b) s = .next { s with toChip := { s.softCleared with
      tr := { remap := [], changes := 0, repairClaim := none, patrolClaim := none }
      rep := { st := .idle, job := none, waiting := none }
      seq := { s.seq with
        foreground := s.seq.foreground.abandon, repair := s.seq.repair.abandon, patrol := s.seq.patrol.abandon }
      alloc := { zones := freshZones s.devices }
      trk := { watch := List.replicate 64 none, pendingList := [] }
      pat := { PatrolEngine.reset with pace := s.pat.pace }
      bus := { s.softCleared.bus with stateFlag := true, gradeFlag := decide (s.health.grade ≠ .good) }
      dir := { s.dir with
        dirty := false, commitRequest := false, commitTimer := none
        format := none, opState := .unformatted, validA := false, seqA := 0, validB := false, seqB := 0
        commit := s.dir.commit.map fun j => { j with detached := true } }
      health := {
        policy := Policy.default, lost := false, grade := .good
        queue := ⟨.patrolStopped .format, 0⟩ :: if s.health.grade = .good then [] else [⟨.gradeChange .good, 0⟩] } } } := by
  obtain ⟨-, settledDropped, -⟩ := Sequencer.settled_abandon s.seq settled
  obtain ⟨-, engine⟩ := State.softResetEngine_eq s s.softCleared s.softCleared none
    (free.symm.trans (Work.spare_eq _)) rfl rfl
  refine congrArg _ (State.next_onBus running (f := Chip.softReset) ?_ settledDropped)
  unfold Chip.softReset
  have ends := (Chip.softResetFormat_ends (c := s.softEngine) (f := f) format (.inr (.inr phase))).trans
    (Chip.endFormatEarly_full (c := s.softEngine) (f := f) format formatting (by rw [phase]; rfl) _)
  rw [Chip.emptyTables_eq] at ends
  refine (congrArg (fun c : Chip => c.softResetFormat.softResetRepair.softResetPatrol) engine).trans ?_
  refine (congrArg (fun c : Chip => c.softResetRepair.softResetPatrol) ends).trans ?_
  rw [Chip.softResetRepair_eq, Chip.softResetPatrol_stopped rfl]
  by_cases good : s.health.grade = .good <;>
    simp [good, Chip.giveBack, State.softEngine, State.softCleared, CommandEngine.softReset, BusInterface.softReset,
      Slot.abandon_abandon]

/-- Settles O23: by the format in flight, and without one by the state of the patrol. -/
theorem softResetActsBlockByBlock : Obligations.SoftResetActsBlockByBlock := by
  intro b s running settled out drop giveBack
  have drops : drop = Slot.abandon := funext fun q => by cases q <;> rfl
  have gives : giveBack = Chip.giveBack := funext fun o => by cases o <;> rfl
  clear_value drop giveBack
  subst drops gives
  intro cleared held
  have spare : held = s.cmd.work.spare := (Work.spare_eq _).symm
  clear_value held
  subst spare
  intro given reset dropped pacing
  refine ⟨fun noFormat => exec_softReset_noFormat running settled noFormat, fun f format formatting stopped => ?_⟩
  obtain ⟨waits, ends⟩ := exec_softReset_format (b := b) running settled format formatting stopped
  refine ⟨fun phase => waits ?_, ends,
    fun phase free => exec_softReset_waitCommit running settled format formatting phase free⟩
  rcases phase with phase | phase | phase
  · exact .inl ⟨_, phase⟩
  · exact .inl ⟨_, phase⟩
  · exact .inr phase

end Sys2Proof.Machine

/-! # Commands that end at once or offer their first fill (R51, R80, R99, R100, R121, R122, R138, R171, R174, R181) -/

namespace Sys2Proof.Machine

/-! ## QUERY ROW and PATROL REPORT -/

/-- A command that passes its checks and ends at once. -/
theorem State.next_pass_ended {s : State} {params : Params → Bool} {range : Chip → Params → Bool}
    {run : Chip → Params → Chip} {code : ResultCode} {res : Results} (accepts : s.accepts = true)
    (settled : s.seq.settled = true) (inside : params s.cmd.params = true) (within : range s.toChip s.cmd.params = true)
    (runs : run s.toChip.acceptCommand s.cmd.params = s.toChip.acceptCommand.endCommand code res) :
    (.next (s.onBus fun c => c.takeCommand OperatingState.serves params range run) : Host.Outcome State Fault Refusal)
      = .next (s.ended code res) :=
  congrArg _ (State.onBus_pass_ended accepts settled inside within runs)

theorem rowInRange_eq_true {c : Chip} {p : Params} (within : p.p0.toNat < 8064 * c.devices) : rowInRange c p = true :=
  decide_eq_true within

theorem Lookup.code_word (x : Lookup) :
    word x.code = match x with | .home _ => 0 | .spared _ => 1 | .retired => 2 := by
  cases x <;> rfl

theorem Lookup.targetWord_eq (x : Lookup) :
    x.targetWord = match x with | .spared t => t.pack | .home _ => 0xFFFF | .retired => 0xFFFF := by
  cases x <;> rfl

/-- Settles O24: the results are the functions of the model on the accepted part, which shows what the part showed. -/
theorem queryRowAndPatrolReportShowTheState : Obligations.QueryRowAndPatrolReportShowTheState := by
  refine ⟨fun s accepts settled => ⟨fun past => ?past, fun within => ?query⟩, fun s accepts settled =>
    ⟨fun not0 not1 => ?param, fun part => ?current, fun part noPass => ?unfinished, fun r part pass => ?last⟩⟩
  case past => exact State.onBus_range accepts settled rfl (rowInRange_eq_false past)
  case query =>
    refine State.next_pass_ended accepts settled rfl (rowInRange_eq_true within) (congrArg _ ?_)
    show Results.mk _ _ _ _ = _
    rw [Lookup.code_word, Lookup.targetWord_eq]
    rfl
  case param => exact State.onBus_param accepts settled (decide_eq_false (not_or.2 ⟨not0, not1⟩))
  case current =>
    refine State.next_pass_ended accepts settled (decide_eq_true (.inl part)) rfl (congrArg _ ?_)
    rw [if_pos part]
    rfl
  case unfinished =>
    refine State.next_pass_ended accepts settled (decide_eq_true (.inr part)) rfl (congrArg _ ?_)
    rw [if_neg (by rw [part]; decide)]
    show (match s.pat.lastPass with | none => _ | some r => _) = _
    rw [noPass]
    rfl
  case last =>
    refine State.next_pass_ended accepts settled (decide_eq_true (.inr part)) rfl (congrArg _ ?_)
    rw [if_neg (by rw [part]; decide)]
    show (match s.pat.lastPass with | none => _ | some r => _) = _
    rw [pass]
    rfl

/-! ## NOMINATE ROW -/

/-- A row has no pending entry exactly if it has no index in the list. -/
theorem Chip.findIdx_pending_none {c : Chip} {l : Nat} (notPending : c.pendingOf l = none) :
    (c.trk.pendingList.findIdx? fun e => decide (e.row = l)) = none := by
  rw [List.findIdx?_eq_none_iff]
  intro e member
  simpa using List.find?_eq_none.1 notPending e member

theorem Chip.pendingOf_of_findIdx {c : Chip} {l i : Nat}
    (index : (c.trk.pendingList.findIdx? fun e => decide (e.row = l)) = some i) : (c.pendingOf l).isSome = true := by
  rw [Option.isSome_iff_ne_none]
  intro notPending
  rw [Chip.findIdx_pending_none notPending] at index
  cases index

/-- A row added at the tail has the index the list's length was (R99). -/
theorem Chip.pendingIndexWord_addPending {c : Chip} {l : Nat} (notPending : c.pendingOf l = none) (k : Cause) (o : Origin) :
    (c.addPending l k o).pendingIndexWord l = word c.trk.pendingList.length := by
  unfold Chip.pendingIndexWord
  rw [Chip.addPending_eq]
  simp [List.findIdx?_append, Chip.findIdx_pending_none notPending]

/-- Settles O25: by the four tests of R99 in order. -/
theorem nominateRowAddsTheRow : Obligations.NominateRowAddsTheRow := by
  intro s accepts settled l count
  refine ⟨fun past => State.onBus_range accepts settled rfl (rowInRange_eq_false past), fun within =>
    ⟨fun retired => ?retired, fun i present index => ?already, fun present notPending full => ?full,
      fun present notPending room => ?added⟩⟩
  all_goals have inside : rowInRange s.toChip s.cmd.params = true := rowInRange_eq_true within
  case retired =>
    refine State.next_pass_ended accepts settled rfl inside ?_
    exact if_pos (decide_eq_true retired)
  all_goals have here : ¬ s.toChip.acceptCommand.isRetired l = true := fun h => present (of_decide_eq_true h)
  case already =>
    refine State.next_pass_ended accepts settled rfl inside ?_
    have found : (s.toChip.acceptCommand.pendingOf l).isSome = true := Chip.pendingOf_of_findIdx (c := s.toChip) index
    have shown : s.toChip.acceptCommand.pendingIndexWord l = word i := by
      show (match s.trk.pendingList.findIdx? _ with | some i => word i | none => absentWord) = _
      rw [index]
    refine ((if_neg here).trans (if_pos found)).trans ?_
    rw [shown]
    rfl
  all_goals have free : ¬ (s.toChip.acceptCommand.pendingOf l).isSome = true :=
    Bool.eq_false_iff.1 (congrArg Option.isSome notPending)
  case full =>
    refine State.next_pass_ended accepts settled rfl inside ?_
    exact (if_neg here).trans ((if_neg free).trans (if_pos (decide_eq_true full)))
  case added =>
    have open_ : ¬ s.toChip.acceptCommand.pendingFull = true := fun h => Nat.not_le.2 room (of_decide_eq_true h)
    have dirty : s.toChip.acceptCommand.setDirty.dir = s.toChip.setDirty.dir :=
      (congrArg Chip.dir (Chip.setDirty_congr (c := s.toChip) (d := s.toChip.acceptCommand) rfl rfl) :)
    have act : s.toChip.acceptCommand.nominate l = (s.toChip.acceptCommand.addPending l .host .host).endCommand .ok
        ⟨word (count + 1), word count, 0, 0⟩ := by
      refine ((if_neg here).trans ((if_neg free).trans (if_neg open_))).trans ?_
      show Chip.endCommand _ .ok ⟨word _, Chip.pendingIndexWord _ l, 0, 0⟩ = _
      rw [Chip.pendingIndexWord_addPending (c := s.toChip.acceptCommand) notPending, Chip.addPending_eq]
      simp [count, Chip.acceptCommand]
    rw [Chip.addPending_eq, dirty] at act
    exact congrArg _ (State.onBus_pass (params := anyParams) (range := rowInRange)
      (run := fun c p => c.nominate p.p0.toNat) accepts rfl inside act settled)

/-! ## The list commands -/

theorem ListKind.capacity_eq (kind : ListKind) : kind.capacity = if kind = .zones then 4 else 8 := by
  cases kind <;> rfl

/-- A list command, by the records its first fill holds. -/
theorem State.onBus_list {s : State} {kind : ListKind} (accepts : s.accepts = true) (settled : s.seq.settled = true)
    (wants : s.cmd.params.p1 ≠ 0) :
    let l : Listing :=
      { kind, index := s.cmd.params.p0.toNat, want := s.cmd.params.p1.toNat, delivered := 0, fill := 0 }
    (s.fillRecords l = [] → (s.onBus fun c => c.listCommand kind) = s.ended .ok (s.listResults l))
    ∧ (s.fillRecords l ≠ [] → (s.onBus fun c => c.listCommand kind) = { s with
        cmd := { s.cmd.accepted (.listing { l with fill := (s.fillRecords l).length }) with st := .dataOut }
        bus := { s.bus with buffer := fillWords (s.fillRecords l), pointer := 0 } }) := by
  intro l
  have inside : recordCount s.cmd.params = true := decide_eq_true wants
  constructor
  · intro empty
    exact State.onBus_pass_ended (range := anyRange) accepts settled inside rfl (if_pos empty)
  · intro filled
    exact State.onBus_pass (range := anyRange) accepts inside rfl (if_neg filled) settled

theorem RemapEntry.record_eq (e : RemapEntry) : e.record =
    match e.place with
      | .spared t =>
        [word e.row, word (128 * t.device.val + 16 * t.zone.val + t.index.val), word (1 + 16 * e.origin.code), e.stamp]
      | .retired => [word e.row, 0xFFFF, word (2 + 16 * e.origin.code), e.stamp] := by
  unfold RemapEntry.record SpareId.pack absentWord
  cases e.place with
  | spared t => simp only [Nat.mul_comm]
  | retired => rfl

/-- Settles O26: the first fill by its records, and the records of each collection. -/
theorem listCommandsOfferTheirFirstFill : Obligations.ListCommandsOfferTheirFirstFill := by
  refine ⟨fun s c kind command accepts settled wants => ?_, fun c => ⟨?map, rfl, rfl, rfl⟩⟩
  case map => exact List.map_congr_left fun e _ => e.record_eq
  intro start want fill
  have row : exec c s = .next (s.onBus fun d => d.listCommand kind) := by
    simp only [List.mem_cons, Prod.mk.injEq, List.not_mem_nil, or_false] at command
    rcases command with ⟨rfl, rfl⟩ | ⟨rfl, rfl⟩ | ⟨rfl, rfl⟩ | ⟨rfl, rfl⟩ <;> rfl
  have fills : s.fillRecords { kind, index := start, want, delivered := 0, fill := 0 } = fill := by
    unfold Chip.fillRecords
    rw [ListKind.capacity_eq]
  obtain ⟨ends, offers⟩ := State.onBus_list (kind := kind) accepts settled wants
  rw [fills] at ends offers
  refine ⟨fun empty => ?_, fun filled => row.trans (congrArg _ (offers filled))⟩
  rw [row, ends empty]
  cases kind <;> rfl

/-! ## SET POLICY -/

/-- The part with the new settings, dirty set, the delay restarted where it changed, and the lending marks cleared where
lending changed (R144, R171). -/
def Chip.withPolicy (c : Chip) (p : Policy) : Chip :=
  let lending := decide (c.health.policy.lendReserve ≠ p.lendReserve ∨ c.health.policy.borrow ≠ p.borrow)
  { c with
    health := { c.health with policy := p }
    dir := { c.dir with
      dirty := true
      commitTimer :=
        if c.dir.dirty ∧ c.health.policy.commitDelay = p.commitDelay then c.dir.commitTimer else startDelay p.commitDelay }
    trk := { c.trk with
      pendingList := if lending then c.trk.pendingList.map (fun e => { e with starved := false }) else c.trk.pendingList }
    alloc := { zones := if lending then c.alloc.zones.map (fun z => { z with exhausted := false }) else c.alloc.zones } }

/-- Dirty and the delay after a SET POLICY (R143, R144). -/
theorem Chip.setDirty_policy (c : Chip) (p : Policy) :
    (let d := Chip.setDirty { c with health := { c.health with policy := p } }
     if c.health.policy.commitDelay = p.commitDelay then d else d.restartDelay) =
      { c with
        health := { c.health with policy := p }
        dir := { c.dir with
          dirty := true
          commitTimer := if c.dir.dirty ∧ c.health.policy.commitDelay = p.commitDelay then c.dir.commitTimer
            else startDelay p.commitDelay } } := by
  have whole : c.dir.dirty = true → c.dir = { c.dir with dirty := true } := fun dirty => by rw [← dirty]
  cases dirty : c.dir.dirty with
  | true =>
    have kept : Chip.setDirty { c with health := { c.health with policy := p } } =
        { c with health := { c.health with policy := p } } := if_pos dirty
    by_cases same : c.health.policy.commitDelay = p.commitDelay
    · simp only [kept, same, and_self, if_true]
      rw [← whole dirty]
    · simp only [kept, same, and_false, if_false, Chip.restartDelay]
      rw [← dirty]
  | false =>
    have set : Chip.setDirty { c with health := { c.health with policy := p } } =
        { c with
          health := { c.health with policy := p }
          dir := { c.dir with dirty := true, commitTimer := startDelay p.commitDelay } } :=
      if_neg (by rw [show c.dir.dirty = false from dirty]; exact Bool.false_ne_true)
    by_cases same : c.health.policy.commitDelay = p.commitDelay
    · simp [set, same]
    · simp [set, same, Chip.restartDelay]

theorem Policy.lendingDiffers_eq (a b : Policy) :
    a.lendingDiffers b = decide (a.lendReserve ≠ b.lendReserve ∨ a.borrow ≠ b.borrow) := by
  simp [Policy.lendingDiffers]

theorem Policy.limitsDiffer_iff (a b : Policy) :
    a.limitsDiffer b = true ↔ b.cautionLimit ≠ a.cautionLimit ∨ b.criticalLimit ≠ a.criticalLimit := by
  rw [Policy.limitsDiffer, Bool.or_eq_true, decide_eq_true_eq, decide_eq_true_eq, ne_comm,
    ne_comm (a := a.criticalLimit)]

/-- What a SET POLICY within its ranges leaves (R171). -/
theorem Chip.applyPolicy_eq (c : Chip) (p : Policy) :
    c.applyPolicy p =
      let lending := decide (c.health.policy.lendReserve ≠ p.lendReserve ∨ c.health.policy.borrow ≠ p.borrow)
      let d := if c.health.policy.limitsDiffer p then (c.withPolicy p).regradeAll else c.withPolicy p
      d.endCommand .ok ⟨word (if lending then c.starvedCount else 0), word d.health.grade.code, 0, 0⟩ := by
  unfold Chip.applyPolicy
  have dirty := c.setDirty_policy p
  simp only at dirty ⊢
  rw [dirty, Policy.lendingDiffers_eq]
  unfold Chip.withPolicy Chip.clearStarved
  by_cases lending : c.health.policy.lendReserve ≠ p.lendReserve ∨ c.health.policy.borrow ≠ p.borrow
  · simp only [lending, decide_true, if_true]
  · simp only [lending, decide_false, Bool.false_eq_true, if_false]

/-- Settles O27: by whether one of the two limits changes. -/
theorem setPolicyTakesEffectAtOnce : Obligations.SetPolicyTakesEffectAtOnce := by
  intro s accepts settledPort inRange old new lending cleared settled
  have acts : (s.toChip.acceptCommand.applyPolicy new) = _ := Chip.applyPolicy_eq ..
  have next : ∀ c : Chip, s.toChip.acceptCommand.applyPolicy new = c → c.seq.settled = true →
      exec .setPolicy s = .next { s with toChip := c } := fun c act rests =>
    congrArg _ (State.onBus_pass (range := anyRange) accepts inRange rfl act rests)
  constructor
  · intro caution critical
    have same : s.toChip.acceptCommand.health.policy.limitsDiffer new = false :=
      Bool.eq_false_iff.2 fun h => ((Policy.limitsDiffer_iff old new).1 h).elim (· caution) (· critical)
    simp only [same, Bool.false_eq_true, if_false] at acts
    exact next _ acts settledPort
  · intro limits
    have differ : s.toChip.acceptCommand.health.policy.limitsDiffer new = true :=
      (Policy.limitsDiffer_iff old new).2 limits
    simp only [differ, if_true] at acts
    intro c
    refine (next _ acts ?_).trans ?_
    · exact (congrArg Sequencer.settled (Chip.seq_of_requesters (Chip.requesters_regradeDevice _))).trans settledPort
    · let graded : Chip := { settled.toChip with
        alloc := { zones := settled.alloc.zones.zipIdx.map fun zg =>
          if zg.2 < 8 * s.devices then { zg.1 with grade := zoneGrade new zg.1.free } else zg.1 } }
      have own : c = { graded with
          health := c.health, bus := { graded.bus with gradeFlag := c.bus.gradeFlag } } :=
        Chip.regradeDevice_congr (c := graded) (d := graded) rfl
      have other : (s.toChip.acceptCommand.withPolicy new).regradeAll =
          { s.toChip.acceptCommand.withPolicy new with
            alloc := graded.alloc, health := c.health
            bus := { graded.bus with gradeFlag := c.bus.gradeFlag } } :=
        Chip.regradeDevice_congr (c := graded)
          (d := { s.toChip.acceptCommand.withPolicy new with alloc := graded.alloc }) rfl
      rw [other]
      clear_value c
      rw [own]
      rfl

end Sys2Proof.Machine

/-! # Grades (R101, R103, R172 to R174) -/

namespace Sys2Proof.Machine

/-! ## The worst of some grades -/

/-- The worst grade among some zones, from a grade on: at least that of each, and the grade of one of them. -/
theorem worst_spec (zones : List Zone) (start : Grade) :
    let worst := zones.foldl (fun g z => g.worse z.grade) start
    start.code ≤ worst.code ∧ (∀ z ∈ zones, z.grade.code ≤ worst.code)
      ∧ (worst = start ∨ ∃ z ∈ zones, z.grade = worst) := by
  induction zones generalizing start with
  | nil => exact ⟨Nat.le_refl _, nofun, .inl rfl⟩
  | cons z rest ih =>
    obtain ⟨above, all, source⟩ := ih (start.worse z.grade)
    have both : start.code ≤ (start.worse z.grade).code ∧ z.grade.code ≤ (start.worse z.grade).code
        ∧ (start.worse z.grade = start ∨ start.worse z.grade = z.grade) := by
      unfold Grade.worse
      by_cases less : start.code < z.grade.code
      · rw [if_pos less]
        exact ⟨Nat.le_of_lt less, Nat.le_refl _, .inr rfl⟩
      · rw [if_neg less]
        exact ⟨Nat.le_refl _, Nat.not_lt.1 less, .inl rfl⟩
    obtain ⟨fromStart, fromZone, chosen⟩ := both
    refine ⟨Nat.le_trans fromStart above, fun y member => ?_, ?_⟩
    · rcases List.mem_cons.1 member with rfl | inRest
      · exact Nat.le_trans fromZone above
      · exact all y inRest
    · rcases source with same | ⟨y, inRest, grade⟩
      · rcases chosen with start_ | zone
        · exact .inl (same.trans start_)
        · exact .inr ⟨z, List.mem_cons_self, (same.trans zone).symm⟩
      · exact .inr ⟨y, List.mem_cons_of_mem z inRest, grade⟩

/-- A RETIRED or a STUCK entry exists (R173). -/
theorem Chip.fails_iff (c : Chip) : (0 < c.retiredCount ∨ 0 < c.stuckCount) ↔
    (∃ e ∈ c.tr.remap, e.place = .retired) ∨ ∃ e ∈ c.trk.pendingList, e.stuck = true := by
  unfold Chip.retiredCount Chip.stuckCount
  simp only [List.countP_pos_iff, decide_eq_true_eq]

/-- The device grade (R173). -/
theorem Chip.computedGrade_spec (c : Chip) (present : ∀ z ∈ c.alloc.zones.take (8 * c.devices), z.grade ≠ .failing) :
    (c.computedGrade = .failing ↔ (∃ e ∈ c.tr.remap, e.place = .retired) ∨ ∃ e ∈ c.trk.pendingList, e.stuck = true)
      ∧ (c.computedGrade ≠ .failing →
          (∀ z ∈ c.alloc.zones.take (8 * c.devices), z.grade.code ≤ c.computedGrade.code)
          ∧ (c.computedGrade = .good ∨ ∃ z ∈ c.alloc.zones.take (8 * c.devices), z.grade = c.computedGrade)) := by
  rw [← Chip.fails_iff]
  unfold Chip.computedGrade
  by_cases fails : 0 < c.retiredCount ∨ 0 < c.stuckCount
  · rw [if_pos fails]
    exact ⟨iff_of_true rfl fails, fun h => absurd rfl h⟩
  · obtain ⟨-, all, source⟩ := worst_spec (c.alloc.zones.take (8 * c.devices)) .good
    rw [if_neg fails]
    refine ⟨iff_of_false (fun failing => ?_) fails, fun _ => ⟨all, source⟩⟩
    rcases source with good | ⟨z, member, grade⟩
    · exact Grade.noConfusion (good.symm.trans failing)
    · exact present z member (grade.trans failing)

/-! ## The grades after a change of spares -/

/-- The grade of a spare's zone after the spare is put in a state: new where the free count changed (R101, R103). -/
theorem Chip.grade_setSpare {c : Chip} {t : SpareId} (st : SpareState) (exists_ : t.globalZone < c.alloc.zones.length) :
    let d := c.setSpare t st
    ((d.zone t.globalZone).free ≠ (c.zone t.globalZone).free →
        (d.zone t.globalZone).grade = zoneGrade c.health.policy (d.zone t.globalZone).free)
      ∧ ((d.zone t.globalZone).free = (c.zone t.globalZone).free →
        (d.zone t.globalZone).grade = (c.zone t.globalZone).grade) := by
  intro d
  have zone : d.zone t.globalZone = _ := Chip.zone_setSpare st exists_
  by_cases same : ({ c.zone t.globalZone with spares := (c.zone t.globalZone).spares.set t.index.val st } : Zone).free
      = (c.zone t.globalZone).free
  · rw [if_pos same] at zone
    rw [zone]
    exact ⟨fun other => absurd same other, fun _ => rfl⟩
  · rw [if_neg same] at zone
    rw [zone]
    exact ⟨fun _ => rfl, fun other => absurd other same⟩

theorem Chip.graded_regradeAll (c : Chip) : c.regradeAll.graded := Chip.graded_regradeDevice _

theorem Chip.graded_emptyTables (c : Chip) : c.emptyTables.graded := Chip.graded_regradeDevice _

theorem Chip.graded_setStuck {c : Chip} {l : Nat} (pending : (c.pendingOf l).isSome = true) : (c.setStuck l).graded := by
  unfold Chip.setStuck
  obtain ⟨e, found⟩ := Option.isSome_iff_exists.1 pending
  rw [found]
  exact Chip.graded_regradeDevice _

theorem Chip.graded_reportCleanReadBack {c : Chip} {l : Nat} (pending : (c.pendingOf l).isSome = true) :
    (c.reportCleanReadBack l).graded := by
  unfold Chip.reportCleanReadBack
  obtain ⟨e, found⟩ := Option.isSome_iff_exists.1 pending
  rw [found]
  exact Chip.graded_regradeDevice _

/-- Every present zone has the grade of its free count after a regrade of them all (R171). -/
theorem Chip.zones_regradeAll {c : Chip} {g : Nat} {z : Zone} (present : g < 8 * c.devices)
    (zone : c.alloc.zones[g]? = some z) :
    c.regradeAll.alloc.zones[g]? = some { z with grade := zoneGrade c.health.policy z.free } := by
  unfold Chip.regradeAll
  rw [Chip.alloc_regradeDevice]
  simp [zone, present]

/-- Settles O28: by the law of health, zone by zone and for the device. -/
theorem gradesFollowTheSpares : Obligations.GradesFollowTheSpares := by
  refine ⟨fun p free ordered => ?limits, Chip.computedGrade_spec,
    fun c => ⟨fun same => if_pos same, fun other => if_neg other⟩, fun c t st => ?spare, fun c =>
      ⟨fun t => ⟨rfl, rfl⟩, fun d member => ?all, fun t l o d member => ?changed, fun l pending d member => ?pending,
        fun g z present zone => Chip.zones_regradeAll present zone⟩⟩
  case limits =>
    unfold zoneGrade
    refine ⟨fun above => if_pos above, fun above below => ?_, fun below => ?_⟩
    · rw [if_neg (Nat.not_lt.2 below), if_pos above]
    · rw [if_neg (by omega), if_neg (Nat.not_lt.2 below)]
  case spare =>
    exact ⟨fun g other => Chip.zone_setSpare_ne c st other,
      fun exists_ => ⟨Chip.spares_setSpare st exists_, Chip.grade_setSpare st exists_⟩⟩
  case all =>
    simp only [List.mem_cons, List.not_mem_nil, or_false] at member
    rcases member with rfl | rfl
    · exact c.graded_regradeAll
    · exact c.graded_emptyTables
  case changed =>
    simp only [List.mem_cons, List.not_mem_nil, or_false] at member
    rcases member with rfl | rfl | rfl | rfl
    · exact Chip.graded_regradeDevice _
    · exact Chip.graded_regradeDevice _
    · exact c.graded_relocateTo l t o
    · exact c.graded_retireRow l o
  case pending =>
    simp only [List.mem_cons, List.not_mem_nil, or_false] at member
    rcases member with rfl | rfl | rfl
    · exact Chip.graded_setStuck pending
    · exact Chip.graded_regradeDevice _
    · exact Chip.graded_reportCleanReadBack pending

end Sys2Proof.Machine

/-! # Commands that start work: transfers, RELOCATE ROW and the patrol (R60 to R69, R117, R126, R127, R135 to R137) -/

namespace Sys2Proof.Machine

/-! ## READ ROWS, CHECK ROWS and WRITE ROWS -/

theorem runInRange_eq_true {c : Chip} {p : Params} (some_ : 1 ≤ p.p1.toNat)
    (within : p.p0.toNat + p.p1.toNat ≤ 8064 * c.devices) : runInRange c p = true :=
  decide_eq_true (show p.p0.toNat + p.p1.toNat - 1 < 8064 * c.devices by omega)

/-- A RETIRED row of CHECK ROWS is done at its lookup: the command ends with the last row (R62, R64, R68). -/
theorem Chip.beginRow_check_retired_last {n : Nat} {c : Chip} {t : Transfer} (kind : t.kind = .check)
    (retired : c.lookup t.row = .retired) (last : t.last ≤ t.row) :
    c.beginRow (n + 1) t = (c.setResult0 (t.done + 1)).endTransfer (t.count (some .retired) 0)
      (t.count (some .retired) 0).code := by
  simp [Chip.beginRow, kind, retired, Lookup.phys, Nat.not_lt.2 last]

/-- A RETIRED row of CHECK ROWS before the last: the next row is begun (R62, R64, R68). -/
theorem Chip.beginRow_check_retired_next {n : Nat} {c : Chip} {t : Transfer} (kind : t.kind = .check)
    (retired : c.lookup t.row = .retired) (more : t.row < t.last) :
    c.beginRow (n + 1) t = (c.setResult0 (t.done + 1)).beginRow n { t.count (some .retired) 0 with row := t.row + 1 } := by
  simp [Chip.beginRow, kind, retired, Lookup.phys, more]

/-- The first row of a transfer is read. -/
theorem State.onBus_transfer_reads {s : State} {x : PhysRow} {kind : TransferKind} {p : Purpose}
    (accepts : s.accepts = true) (idle : s.seq = Sequencer.reset) (count : rowCount s.cmd.params = true)
    (range : runInRange s.toChip s.cmd.params = true)
    (begins : s.toChip.acceptCommand.beginRow 256 (Transfer.first kind s.cmd.params) =
      (s.toChip.acceptCommand.putTransfer { Transfer.first kind s.cmd.params with phase := .reading }).issue p x none)
    (granted : s.toChip.conditionFails p = false) :
    (s.onBus fun c => c.transferCommand kind) = { s with
      cmd := s.cmd.accepted (.transfer { Transfer.first kind s.cmd.params with phase := .reading })
      seq := Sequencer.carrying (request p x none) } :=
  State.onBus_pass_issue (run := fun c p => c.beginRow 256 (Transfer.first kind p))
    (c := s.toChip.acceptCommand.putTransfer { Transfer.first kind s.cmd.params with phase := .reading })
    accepts count range begins idle granted

/-- The first row of a transfer makes no access. -/
theorem State.onBus_transfer_begins {s : State} {c : Chip} {kind : TransferKind} (accepts : s.accepts = true)
    (count : rowCount s.cmd.params = true) (range : runInRange s.toChip s.cmd.params = true)
    (begins : s.toChip.acceptCommand.beginRow 256 (Transfer.first kind s.cmd.params) = c)
    (settled : c.seq.settled = true) : (s.onBus fun c => c.transferCommand kind) = { s with toChip := c } :=
  State.onBus_pass accepts count range begins settled

/-- The first half of O29: the first row by its lookup. -/
theorem transferCommandsBegin (s : State) (accepts : s.accepts = true) (idle : s.seq = Sequencer.reset) :
    let p := s.cmd.params
    let first := fun kind phase => Work.transfer
      { kind, row := p.p0.toNat, last := p.p0.toNat + p.p1.toNat - 1, done := 0, firstFail := none, fails := 0
        extra := 0, phase, spare := none }
    1 ≤ p.p1.toNat → p.p1.toNat ≤ 256 → p.p0.toNat + p.p1.toNat ≤ 8064 * s.devices →
      (∀ x, (s.lookup p.p0.toNat).phys = some x →
        exec .readRows s = .next { s with
          cmd := s.cmd.accepted (first .read .reading), seq := Sequencer.carrying (request .readRowsRead x none) }
        ∧ exec .checkRows s = .next { s with
          cmd := s.cmd.accepted (first .check .reading), seq := Sequencer.carrying (request .checkRowsRead x none) })
      ∧ (s.lookup p.p0.toNat = .retired →
        exec .readRows s = .next { s with
          cmd := { s.cmd.accepted (first .read (.offering .retired)) with st := .dataOut }
          bus := { s.bus with buffer := zeroRow, pointer := 0 } })
      ∧ (s.lookup p.p0.toNat = .retired →
        (p.p1 = 1 → exec .checkRows s = .next (s.ended .retired ⟨1, p.p0, 1, 0⟩))
        ∧ (∀ x, 1 < p.p1.toNat → (s.lookup (p.p0.toNat + 1)).phys = some x →
          exec .checkRows s = .next { s with
            cmd := { s.cmd.accepted (.transfer
                { kind := .check, row := p.p0.toNat + 1, last := p.p0.toNat + p.p1.toNat - 1, done := 1
                  firstFail := some (p.p0.toNat, .retired), fails := 1, extra := 0, phase := .reading, spare := none })
              with results := ⟨1, 0, 0, 0⟩ }
            seq := Sequencer.carrying (request .checkRowsRead x none) }))
      ∧ exec .writeRows s = .next { s with
          cmd := { s.cmd.accepted (first .write .dataIn) with st := .dataIn }, bus := { s.bus with pointer := 0 } } := by
  intro p first some_ few within
  have empty : s.toChip.acceptCommand.seq.foreground = .empty := congrArg Sequencer.foreground idle
  have settled : s.seq.settled = true := by rw [idle]; rfl
  have count : rowCount s.cmd.params = true := rowCount_eq_true some_ few
  have range : runInRange s.toChip s.cmd.params = true := runInRange_eq_true some_ within
  refine ⟨fun x phys => ⟨?read, ?check⟩, fun retired => ?readRetired,
    fun retired => ⟨fun one => ?onlyRow, fun x more phys => ?nextRow⟩, ?write⟩
  case read =>
    exact congrArg _ (State.onBus_transfer_reads accepts idle count range (Chip.beginRow_read rfl phys empty) rfl)
  case check =>
    exact congrArg _ (State.onBus_transfer_reads accepts idle count range (Chip.beginRow_check rfl phys empty) rfl)
  case readRetired =>
    exact congrArg _ (State.onBus_transfer_begins accepts count range (Chip.beginRow_read_retired rfl retired) settled)
  case onlyRow =>
    have last : (Transfer.first .check p).last ≤ (Transfer.first .check p).row := by
      show p.p0.toNat + p.p1.toNat - 1 ≤ p.p0.toNat
      rw [one]
      exact Nat.le_refl _
    have act := State.onBus_transfer_begins accepts count range
      (Chip.beginRow_check_retired_last (n := 255) (c := s.toChip.acceptCommand) rfl retired last) settled
    refine (congrArg Host.Outcome.next act).trans ?_
    have row : word p.p0.toNat = p.p0 := by simp [word]
    show Host.Outcome.next (s.ended .retired ⟨1, word p.p0.toNat, 1, 0⟩) = _
    rw [row]
  case nextRow =>
    have next : (Transfer.first .check p).row < (Transfer.first .check p).last := by
      show p.p0.toNat < p.p0.toNat + p.p1.toNat - 1
      omega
    have begins := (Chip.beginRow_check_retired_next (n := 255) (c := s.toChip.acceptCommand)
      (t := Transfer.first .check p) rfl retired next).trans
      (Chip.beginRow_check (n := 254) (c := s.toChip.acceptCommand.setResult0 1)
        (t := { (Transfer.first .check p).count (some .retired) 0 with row := p.p0.toNat + 1 }) rfl phys empty)
    exact congrArg _ (State.onBus_pass_issue (run := fun c p => c.beginRow 256 (Transfer.first .check p)) accepts count
      range begins idle rfl)
  case write =>
    exact congrArg _ (State.onBus_transfer_begins accepts count range (Chip.beginRow_write (n := 255) rfl) settled)

/-! ## RELOCATE ROW -/

theorem relocateOption_eq_true {p : Params} (h : p.p1 = 0 ∨ p.p1 = 1) : relocateOption p = true := decide_eq_true h

/-- Settles O29: the first row of a transfer, and the look of RELOCATE ROW at its row. -/
theorem transferAndRelocateCommandsBegin : Obligations.TransferAndRelocateCommandsBegin := by
  refine ⟨transferCommandsBegin, fun s accepts settled within options => ?_⟩
  intro l discard
  have option : relocateOption s.cmd.params = true := relocateOption_eq_true options
  have inside : rowInRange s.toChip s.cmd.params = true := rowInRange_eq_true within
  have present : s.lookup l ≠ .retired → ¬ s.toChip.acceptCommand.isRetired l = true :=
    fun h retired => h (of_decide_eq_true retired)
  refine ⟨fun retired => ?retired, fun here discards readable => ?param, fun here allowed => ?waits⟩
  case retired => exact State.next_pass_ended accepts settled option inside (if_pos (decide_eq_true retired))
  case param =>
    refine State.next_pass_ended accepts settled option inside ((if_neg (present here)).trans (if_pos ?_))
    show (discard && !s.toChip.pendingUnc l) = true
    rw [discards, readable]
    rfl
  case waits =>
    refine congrArg _ (State.onBus_pass (params := relocateOption) (range := rowInRange)
      (run := fun c p => c.relocateLook p.p0.toNat (decide (p.p1 = 1))) accepts option inside
      ((if_neg (present here)).trans (if_neg ?_)) settled)
    show ¬ (discard && !s.toChip.pendingUnc l) = true
    rcases allowed with no | unreadable
    · simp [no]
    · simp [unreadable]

/-! ## PATROL START -/

/-- The mode a parameter names (R135). -/
theorem patrolModeOf_eq {w : Word} {mode : PatrolMode} (h : w = 1 ∧ mode = .single ∨ w = 2 ∧ mode = .continuous) :
    patrolModeOf w = some mode := by
  rcases h with ⟨rfl, rfl⟩ | ⟨rfl, rfl⟩ <;> rfl

theorem patrolParams_eq_true {p : Params} {mode : PatrolMode} (named : patrolModeOf p.p0 = some mode)
    (pace : p.p1.toNat ≤ 255) (option : p.p2 = 0 ∨ p.p2 = 1) : patrolParams p = true := by
  simp only [patrolParams, named, pace, option, Option.isSome_some, decide_true, Bool.and_self]

/-- PATROL START that passes its checks, by what the patrol does with it. -/
theorem exec_patrolStart_pass {s : State} {mode : PatrolMode} {c : Chip} (accepts : s.accepts = true)
    (named : patrolModeOf s.cmd.params.p0 = some mode) (pace : s.cmd.params.p1.toNat ≤ 255)
    (option : s.cmd.params.p2 = 0 ∨ s.cmd.params.p2 = 1)
    (acts : s.toChip.acceptCommand.startPatrol mode s.cmd.params.p1.toNat (decide (s.cmd.params.p2 = 1)) = c)
    (settled : c.seq.settled = true) : exec .patrolStart s = .next { s with toChip := c } := by
  refine congrArg _ (State.onBus_pass (range := anyRange) accepts (patrolParams_eq_true named pace option) rfl ?_ settled)
  rw [named]
  exact acts

/-- PATROL START whose visit is granted at once. -/
theorem exec_patrolStart_visits {s : State} {mode : PatrolMode} {c : Chip} {x : PhysRow} (accepts : s.accepts = true)
    (named : patrolModeOf s.cmd.params.p0 = some mode) (pace : s.cmd.params.p1.toNat ≤ 255)
    (option : s.cmd.params.p2 = 0 ∨ s.cmd.params.p2 = 1)
    (acts : s.toChip.acceptCommand.startPatrol mode s.cmd.params.p1.toNat (decide (s.cmd.params.p2 = 1)) =
      c.issue .visitRead x none) (idle : c.seq = Sequencer.reset) :
    exec .patrolStart s = .next { s with
      toChip := { c with seq := Sequencer.carrying (request .visitRead x none) } } := by
  refine congrArg _ (State.onBus_pass_issue (range := anyRange) accepts (patrolParams_eq_true named pace option) rfl ?_ idle
    rfl)
  rw [named]
  exact acts

/-- The engine with a new mode and pace, its pass begun or gone on with, ready for its cursor row (R135). -/
def PatrolEngine.started (p : PatrolEngine) (mode : PatrolMode) (pace : Nat) (restart : Bool) : PatrolEngine :=
  { p with
    mode := mode, pace := pace, st := .pacing, cursor := if restart then 0 else p.cursor
    tallies := if restart then ⟨0, 0, 0, 0⟩ else p.tallies, whole := restart || p.whole, restartRequest := false
    paceTimer := none, intervalOut := true }

theorem Chip.startPatrol_stopped {c : Chip} (stopped : c.pat.st = .stopped) (mode : PatrolMode) (pace : Nat)
    (restart : Bool) :
    c.startPatrol mode pace restart =
      (Chip.endCommand { c with pat := c.pat.started mode pace restart } .ok
        ⟨word (if restart then 0 else c.pat.cursor), c.pat.pass, 0, 0⟩).patrolOn := by
  unfold Chip.startPatrol
  rw [stopped]
  cases restart <;> rfl

/-- PATROL START of a patrol that paces: RESTART begins the pass again, CONTINUE leaves it (R136). -/
theorem Chip.startPatrol_pacing {c : Chip} (pacing : c.pat.st = .pacing) (mode : PatrolMode) (pace : Nat) :
    c.startPatrol mode pace true =
      (Chip.endCommand { c with pat := c.pat.started mode pace true } .ok ⟨0, c.pat.pass, 0, 0⟩).patrolOn
    ∧ c.startPatrol mode pace false =
      (Chip.endCommand { c with pat := { c.pat with mode := mode, pace := pace } } .ok
        ⟨word c.pat.cursor, c.pat.pass, 0, 0⟩).patrolOn := by
  unfold Chip.startPatrol
  rw [pacing]
  exact ⟨rfl, rfl⟩

/-- PATROL START of a patrol that visits a row (R136). -/
theorem Chip.startPatrol_visiting {c : Chip} (visiting : c.pat.st = .visiting ∨ c.pat.st = .halting) (mode : PatrolMode)
    (pace : Nat) :
    c.startPatrol mode pace true = Chip.setWork { c with
      pat := { c.pat with mode := mode, pace := pace, st := .visiting, restartRequest := true } } .patrolRestart
    ∧ c.startPatrol mode pace false =
      Chip.endCommand { c with pat := { c.pat with mode := mode, pace := pace, st := .visiting } } .ok
        ⟨word c.pat.cursor, c.pat.pass, 0, 0⟩ := by
  unfold Chip.startPatrol
  rcases visiting with st | st <;> rw [st] <;> exact ⟨rfl, rfl⟩

/-! ## PATROL HALT -/

/-- PATROL HALT that passes its checks: it has none but the state. -/
theorem exec_patrolHalt_pass {s : State} {c : Chip} (accepts : s.accepts = true)
    (acts : s.toChip.acceptCommand.haltPatrol = c) (settled : c.seq.settled = true) :
    exec .patrolHalt s = .next { s with toChip := c } :=
  congrArg _ (State.onBus_pass (params := anyParams) (range := anyRange) accepts rfl rfl acts settled)

/-- The second part of O30: PATROL HALT by the patrol's state. -/
theorem patrolHaltActsByState (s : State) (accepts : s.accepts = true) (settled : s.seq.settled = true) :
    (s.pat.st = .stopped → exec .patrolHalt s = .next (s.ended .ok ⟨word s.pat.cursor, s.pat.pass, 0, 0⟩))
      ∧ (s.pat.st = .pacing →
          exec .patrolHalt s = .next (State.ended
            { s with
              pat := { s.pat with mode := .off, st := .stopped, paceTimer := none }
              health := (s.raise (.patrolStopped .halted)).health }
            .ok ⟨word s.pat.cursor, s.pat.pass, 0, 0⟩))
      ∧ (s.pat.st = .visiting ∨ s.pat.st = .halting →
          exec .patrolHalt s =
            .next { s with cmd := s.cmd.accepted .patrolHalt, pat := { s.pat with st := .halting } }) := by
  refine ⟨fun st => ?stopped, fun st => ?pacing, fun st => ?visiting⟩
  case stopped =>
    refine exec_patrolHalt_pass accepts (c := s.toChip.acceptCommand.endCommand .ok
      ⟨word s.pat.cursor, s.pat.pass, 0, 0⟩) ?_ settled
    show (match s.pat.st with | .stopped => _ | .pacing => _ | .visiting => _ | .halting => _) = _
    rw [st]
    rfl
  case pacing =>
    have stops : s.toChip.acceptCommand.stopPatrol .halted = { s.toChip.acceptCommand with
        pat := { s.pat with mode := .off, st := .stopped, paceTimer := none }
        health := (s.toChip.raise (.patrolStopped .halted)).health } :=
      Chip.raise_congr (c := s.toChip) (d := { s.toChip.acceptCommand with
        pat := { s.pat with mode := .off, st := .stopped, paceTimer := none } }) rfl rfl _
    have act : s.toChip.acceptCommand.haltPatrol = (s.toChip.acceptCommand.stopPatrol .halted).endCommand .ok
        (s.toChip.acceptCommand.stopPatrol .halted).patrolResults := by
      unfold Chip.haltPatrol
      rw [show s.toChip.acceptCommand.pat.st = .pacing from st]
    rw [stops] at act
    exact exec_patrolHalt_pass accepts act settled
  case visiting =>
    have act : s.toChip.acceptCommand.haltPatrol =
        Chip.setWork { s.toChip.acceptCommand with pat := { s.pat with st := .halting } } .patrolHalt := by
      unfold Chip.haltPatrol
      rcases st with st | st <;> rw [show s.toChip.acceptCommand.pat.st = _ from st] <;> rfl
    exact exec_patrolHalt_pass accepts act settled

/-- Settles O30: PATROL START of a stopped patrol and of one that runs, and PATROL HALT. -/
theorem patrolStartAndHaltActByState : Obligations.PatrolStartAndHaltActByState := by
  refine ⟨fun s mode x accepts idle st => ?stopped, patrolHaltActsByState, fun s mode accepts => ?runs⟩
  case stopped =>
    intro p restart cursor named pace option phys free
    have act := (Chip.startPatrol_stopped (c := s.toChip.acceptCommand) st mode p.p1.toNat restart).trans
      (Chip.patrolOn_visit (c := Chip.endCommand { s.toChip.acceptCommand with
        pat := s.pat.started mode p.p1.toNat restart } .ok ⟨word cursor, s.pat.pass, 0, 0⟩) rfl rfl
        (congrArg Sequencer.patrol idle) phys free)
    exact exec_patrolStart_visits accepts (patrolModeOf_eq named) pace option act idle
  case runs =>
    intro p named pace given ends
    have names := patrolModeOf_eq named
    refine ⟨fun continue_ settled => ⟨fun st waits => ?goesOn, fun st => ?keepsVisiting⟩, fun restart =>
      ⟨fun st busy settled => ?begunAgain, fun x st idle phys free => ?visits, fun st settled => ?recorded⟩⟩
    case goesOn =>
      have stays : Chip.patrolReady (Chip.endCommand { s.toChip.acceptCommand with pat := given } .ok
          ⟨word s.pat.cursor, s.pat.pass, 0, 0⟩) = false := by
        show (decide (s.pat.st = .pacing) && s.pat.intervalOut && decide (s.seq.patrol = .empty)) = false
        rcases waits with interval | busy
        · simp [interval]
        · simp [busy]
      refine exec_patrolStart_pass accepts names pace (.inl continue_) ?_ settled
      rw [show decide (s.cmd.params.p2 = 1) = false from decide_eq_false (by rw [continue_]; decide)]
      exact (Chip.startPatrol_pacing (c := s.toChip.acceptCommand) st mode p.p1.toNat).2.trans (Chip.patrolOn_of_not stays)
    case keepsVisiting =>
      refine exec_patrolStart_pass accepts names pace (.inl continue_) ?_ settled
      rw [show decide (s.cmd.params.p2 = 1) = false from decide_eq_false (by rw [continue_]; decide)]
      exact (Chip.startPatrol_visiting (c := s.toChip.acceptCommand) st mode p.p1.toNat).2
    case begunAgain =>
      have stays : Chip.patrolReady (Chip.endCommand { s.toChip.acceptCommand with
          pat := s.pat.started mode p.p1.toNat true } .ok ⟨0, s.pat.pass, 0, 0⟩) = false := by
        show (true && true && decide (s.seq.patrol = .empty)) = false
        simp [busy]
      refine exec_patrolStart_pass accepts names pace (.inr restart) ?_ settled
      rw [show decide (s.cmd.params.p2 = 1) = true from decide_eq_true restart]
      exact (Chip.startPatrol_pacing (c := s.toChip.acceptCommand) st mode p.p1.toNat).1.trans (Chip.patrolOn_of_not stays)
    case visits =>
      refine exec_patrolStart_visits accepts names pace (.inr restart) (c := { Chip.endCommand { s.toChip.acceptCommand with
        pat := s.pat.started mode p.p1.toNat true } .ok ⟨0, s.pat.pass, 0, 0⟩ with
          tr := { s.tr with patrolClaim := some { row := 0, overtaken := false } }
          pat := { s.pat.started mode p.p1.toNat true with
            st := .visiting, paceTimer := if p.p1.toNat = 0 then none else some p.p1.toNat
            intervalOut := decide (p.p1.toNat = 0) } }) ?_ idle
      rw [show decide (s.cmd.params.p2 = 1) = true from decide_eq_true restart]
      exact (Chip.startPatrol_pacing (c := s.toChip.acceptCommand) st mode p.p1.toNat).1.trans
        (Chip.patrolOn_visit rfl rfl (congrArg Sequencer.patrol idle) phys free)
    case recorded =>
      refine exec_patrolStart_pass accepts names pace (.inr restart) ?_ settled
      rw [show decide (s.cmd.params.p2 = 1) = true from decide_eq_true restart]
      exact (Chip.startPatrol_visiting (c := s.toChip.acceptCommand) st mode p.p1.toNat).1

end Sys2Proof.Machine

/-! # Dirty, commit triggers and the start of a commit (R143 to R148, R152) -/

namespace Sys2Proof.Machine

/-! ## A commit that starts -/

/-- The part in which a commit has begun, before its first write is granted (R146, R147). -/
def Chip.committing (c : Chip) (target : Copy) (seq : BitVec 32) (image : List (List Word)) : Chip :=
  { c with
    tr := { c.tr with changes := 0 }
    dir := { c.dir with
      mode := .committing, dirty := false, commitTimer := none, image := image
      commit := some { target, seq, index := 0, reading := false, detached := false, ofFormat := false }
      validA := c.dir.validA && decide (target = .b), seqA := if target = .a then 0 else c.dir.seqA
      validB := c.dir.validB && decide (target = .a), seqB := if target = .b then 0 else c.dir.seqB } }

/-- What the image shows (R139). -/
def Chip.imageView (c : Chip) : (Nat × HealthUnit × PatrolEngine) × (Translator × ErrorTracker × SpareAllocator) :=
  ((c.devices, c.health, c.pat), (c.tr, c.trk, c.alloc))

theorem Chip.imageOf_congr {c d : Chip} (same : d.imageView = c.imageView) (seq : BitVec 32) :
    d.imageOf seq = c.imageOf seq := by
  obtain ⟨⟨devices, health, pat⟩, tr, trk, alloc⟩ : (_ ∧ _ ∧ _) ∧ _ ∧ _ ∧ _ := by
    simpa only [Chip.imageView, Prod.mk.injEq] using same
  unfold Chip.imageOf Chip.imageBody Chip.headerRow Chip.remapSlot Chip.pendingSlot Chip.zoneSlot Chip.sparedCount
    Chip.retiredCount Chip.zone
  rw [devices, health, pat, tr, trk, alloc]

/-- A commit of the directory unit's own begins below the sequence limit, bound to the COMMIT DIRECTORY that waits for it
(R146, R152). -/
theorem Chip.startCommit_begins {c : Chip} (room : c.highestSeq ≠ Config.lastSequence) {image : List (List Word)}
    (shows : c.imageOf (c.highestSeq + 1) = image) :
    let target := c.commitTarget
    let seq := c.highestSeq + 1
    c.startCommit =
      Chip.issue { c.committing target seq image with
        cmd := if c.cmd.work = .commitWait then { c.cmd with work := .commitRun target seq } else c.cmd }
        .commitWrite (target.phys 0) (some (image.getD 0 [])) := by
  intro target seq
  have begins : c.startCommit = (c.bindCommit target seq).beginCommit target seq false := if_neg room
  have same : (c.bindCommit target seq).imageOf seq = image := by
    refine (Chip.imageOf_congr ?_ seq).trans shows
    unfold Chip.bindCommit
    split <;> rfl
  rw [begins, Chip.beginCommit_eq, same]
  by_cases waits : c.cmd.work = .commitWait
  · rw [show c.bindCommit target seq = c.setWork (.commitRun target seq) from if_pos waits, if_pos waits]
    rfl
  · rw [show c.bindCommit target seq = c from if_neg waits, if_neg waits]
    rfl

/-- Such a commit while no COMMIT DIRECTORY waits. -/
theorem Chip.startCommit_begins_unbound {c : Chip} (room : c.highestSeq ≠ Config.lastSequence)
    {image : List (List Word)} (shows : c.imageOf (c.highestSeq + 1) = image) (free : c.cmd.work ≠ .commitWait) :
    let target := c.commitTarget
    let seq := c.highestSeq + 1
    c.startCommit =
      (c.committing target seq image).issue .commitWrite (target.phys 0) (some (image.getD 0 [])) := by
  intro target seq
  refine (Chip.startCommit_begins room shows).trans ?_
  rw [if_neg free]
  rfl

/-- The delay timer runs out: a trigger with the timer stopped (R144, R145). -/
theorem Chip.delayRunsOut_eq {c : Chip} {n : Nat} (timer : c.dir.commitTimer = some n) :
    c.delayRunsOut = Chip.trigger { c with dir := { c.dir with commitTimer := none } } := by
  unfold Chip.delayRunsOut
  rw [timer]

/-! ## The two triggers at a port -/

/-- COMMIT DIRECTORY that passes its checks triggers a commit and waits for it (R152). -/
theorem State.onBus_commit {s : State} {c : Chip} (accepts : s.accepts = true)
    (acts : (s.toChip.acceptCommand.setWork .commitWait).trigger = c) (settled : c.seq.settled = true) :
    exec .commitDirectory s = .next { s with toChip := c } :=
  congrArg _ (State.onBus_pass (params := anyParams) (range := anyRange) accepts rfl rfl acts settled)

/-- Settles O31: by the mode of the directory unit, the sequence limit and the operating state. -/
theorem dirtyAndCommitTriggersStartACommit : Obligations.DirtyAndCommitTriggersStartACommit := by
  refine ⟨⟨fun s idle inService mode room => ⟨fun accepts => ?command, fun n timer other => ?delay⟩, fun c =>
      ⟨fun dirty => if_pos dirty, fun clean starts => ?starts, fun clean never => ?never⟩⟩,
    fun s settled inService mode limit => ⟨fun accepts => ?refusedCommand, fun n timer other => ?refusedDelay⟩,
    fun s settled inService mode => ⟨fun accepts => ?waits, fun n timer => ?recorded⟩,
    fun s n settled outOfService timer => ?alone⟩
  case command =>
    have act := (Chip.trigger_idle (c := s.toChip.acceptCommand.setWork .commitWait) inService mode).trans
      (Chip.startCommit_begins (c := s.toChip.acceptCommand.setWork .commitWait) room
        (Chip.imageOf_congr (c := s.toChip) rfl _))
    exact congrArg _ (State.onBus_pass_issue (params := anyParams) (range := anyRange)
      (run := fun c _ => (c.setWork .commitWait).trigger) accepts rfl rfl act idle rfl)
  case delay =>
    have act := (Chip.delayRunsOut_eq timer).trans
      ((Chip.trigger_idle (c := { s.toChip with dir := { s.dir with commitTimer := none } }) inService mode).trans
        (Chip.startCommit_begins_unbound (c := { s.toChip with dir := { s.dir with commitTimer := none } }) room
          (Chip.imageOf_congr (c := s.toChip) rfl _) other))
    rw [exec_commitDelayExpiry, State.next_onChip_issue act idle rfl]
    rfl
  case starts =>
    refine (if_neg (Bool.eq_false_iff.1 clean)).trans ?_
    rw [startDelay, if_neg starts]
  case never =>
    refine (if_neg (Bool.eq_false_iff.1 clean)).trans ?_
    rw [startDelay, if_pos never]
  case refusedCommand =>
    have act := (Chip.trigger_idle (c := s.toChip.acceptCommand.setWork .commitWait) inService mode).trans
      (Chip.startCommit_refused_command (c := s.toChip.acceptCommand.setWork .commitWait) limit rfl)
    have raised : ((s.toChip.acceptCommand.setWork .commitWait).raise (.directoryFail s.commitTarget .sequence)).health =
        (s.toChip.raise (.directoryFail s.commitTarget .sequence)).health :=
      (congrArg Chip.health (Chip.raise_congr (c := s.toChip) (d := s.toChip.acceptCommand.setWork .commitWait) rfl rfl _) :)
    refine (State.onBus_commit accepts act settled).trans ?_
    exact congrArg (fun h : HealthUnit => Host.Outcome.next (State.ended
      { s with dir := { s.dir with commitTimer := none }, health := h } .directoryFail
      ⟨word s.commitTarget.code, 0xFFFF, 0xFFFF, 3⟩)) raised
  case refusedDelay =>
    have act := (Chip.delayRunsOut_eq timer).trans
      ((Chip.trigger_idle (c := { s.toChip with dir := { s.dir with commitTimer := none } }) inService mode).trans
        (Chip.startCommit_refused (c := { s.toChip with dir := { s.dir with commitTimer := none } }) limit other))
    have raised : (Chip.raise { s.toChip with dir := { s.dir with commitTimer := none } }
        (.directoryFail s.commitTarget .sequence)).health =
        (s.toChip.raise (.directoryFail s.commitTarget .sequence)).health :=
      (congrArg Chip.health (Chip.raise_congr (c := s.toChip)
        (d := { s.toChip with dir := { s.dir with commitTimer := none } }) rfl rfl _) :)
    rw [exec_commitDelayExpiry, State.next_onChip act settled]
    exact congrArg (fun h : HealthUnit => Host.Outcome.next
      { s with dir := { s.dir with commitTimer := none }, health := h }) raised
  case waits =>
    exact State.onBus_commit accepts
      (Chip.trigger_committing (c := s.toChip.acceptCommand.setWork .commitWait) inService mode) settled
  case recorded =>
    have act := (Chip.delayRunsOut_eq timer).trans
      (Chip.trigger_committing (c := { s.toChip with dir := { s.dir with commitTimer := none } }) inService mode)
    rw [exec_commitDelayExpiry, State.next_onChip act settled]
  case alone =>
    have act := (Chip.delayRunsOut_eq timer).trans
      (Chip.trigger_out (c := { s.toChip with dir := { s.dir with commitTimer := none } }) outOfService)
    rw [exec_commitDelayExpiry, State.next_onChip act settled]

end Sys2Proof.Machine

/-! # The pace timer and the ready timer (R31, R32, R90, R126, R127, R131, R132, R136, R137) -/

namespace Sys2Proof.Machine

/-! ## The cursor row -/

theorem Chip.health_raise_congr {c d : Chip} (health : d.health = c.health) (pass : d.pat.pass = c.pat.pass)
    (b : NoticeBody) : (d.raise b).health = (c.raise b).health :=
  (congrArg Chip.health (Chip.raise_congr health pass b) :)

theorem Chip.stopPatrol_eq (c : Chip) (why : StopReason) :
    c.stopPatrol why = { c with
      pat := { c.pat with mode := .off, st := .stopped, paceTimer := none }
      health := (c.raise (.patrolStopped why)).health } :=
  Chip.raise_congr (c := c) (d := c.setPat { c.pat with mode := .off, st := .stopped, paceTimer := none }) rfl rfl _

/-- The part when its interval has run out (R126). -/
def Chip.intervalEnded (c : Chip) : Chip := { c with pat := { c.pat with paceTimer := none, intervalOut := true } }

/-- The pace timer of a patrol whose timer runs (R126). -/
theorem Chip.paceRunsOut_eq {c : Chip} {n : Nat} (timer : c.pat.paceTimer = some n) :
    c.paceRunsOut = c.intervalEnded.patrolOn := by
  unfold Chip.paceRunsOut
  rw [timer]
  rfl

/-- A skipped row before the last is counted and the cursor moves on (R127). -/
theorem Chip.skipRow_next {c : Chip} (more : c.pat.cursor + 1 < 8064 * c.devices) :
    c.skipRow = { c with pat := { c.pat with
      cursor := c.pat.cursor + 1, tallies := { c.pat.tallies with skipped := min 255 (c.pat.tallies.skipped + 1) } } } :=
  if_pos more

/-- A skipped last row is counted and the pass ends (R127, R131). -/
theorem Chip.skipRow_last {c : Chip} (last : 8064 * c.devices ≤ c.pat.cursor + 1) :
    c.skipRow = Chip.endPass { c with pat := { c.pat with
      tallies := { c.pat.tallies with skipped := min 255 (c.pat.tallies.skipped + 1) } } } :=
  if_neg (Nat.not_lt.2 last)

/-- The end of a SINGLE pass stops the patrol (R131). -/
theorem Chip.endPass_single {c : Chip} (single : c.pat.mode = .single) :
    let e : Chip := { c with
      trk := { c.trk with watch := c.trk.watch.map fun (w : Option WatchEntry) => w.filter (fun e =>
          decide ((c.pat.pass + 1 - e.last).toNat < c.health.policy.forgetSpan)) }
      pat := { c.pat with
          mode := .off, st := .stopped, paceTimer := none, cursor := 0
          lastPass := some { tallies := c.pat.tallies, complete := c.pat.whole }, pass := c.pat.pass + 1
          tallies := ⟨0, 0, 0, 0⟩, whole := true } }
    c.endPass = { e with health := ((e.raise (.passDone c.pat.pass)).raise (.patrolStopped .singleDone)).health } := by
  intro e
  let paced : Chip := { e with pat := { e.pat with mode := c.pat.mode, st := c.pat.st, paceTimer := c.pat.paceTimer } }
  let told : Chip := { paced with health := (paced.raise (.passDone c.pat.pass)).health }
  have stops : c.endPass = told.stopPatrol .singleDone := (Chip.endPass_eq c).trans (if_pos single)
  have pass : (e.raise (.passDone c.pat.pass)).pat.pass = c.pat.pass + 1 :=
    (congrArg PatrolEngine.pass (Chip.pat_of_requesters (Chip.requesters_raise e _)) :)
  have raised : told.health = (e.raise (.passDone c.pat.pass)).health :=
    Chip.health_raise_congr (c := e) (d := paced) rfl rfl _
  exact stops.trans ((Chip.stopPatrol_eq _ _).trans (congrArg (fun h : HealthUnit => ({ e with health := h } : Chip))
    (Chip.health_raise_congr (d := told) raised pass.symm _)))

/-- A stopped patrol handles no row. -/
theorem Chip.handleCursor_stopped {c : Chip} (n : Nat) (stopped : c.pat.st = .stopped) : c.handleCursor n = c := by
  cases n with
  | zero => rfl
  | succ n => exact if_neg (by simp [Chip.patrolReady, stopped])

/-- Settles O34: by the patrol's state and what the lookup and the repair claim say of the cursor row. -/
theorem paceExpiryBeginsTheVisit : Obligations.PaceExpiryBeginsTheVisit := by
  refine ⟨fun s n timer => ⟨fun x pacing idle phys free => ?visits, fun busy settled => ?recorded⟩,
    fun s n timer pacing idle skipped => ?_⟩
  case visits =>
    rw [exec_paceExpiry]
    exact State.next_onChip_issue ((Chip.paceRunsOut_eq timer).trans
      (Chip.patrolOn_visit (c := s.toChip.intervalEnded) pacing rfl
        (congrArg Sequencer.patrol idle) phys free)) idle rfl
  case recorded =>
    have waits : s.toChip.intervalEnded.patrolReady = false := by
      rcases busy with st | st <;> simp [Chip.patrolReady, Chip.intervalEnded, st]
    rw [exec_paceExpiry]
    exact State.next_onChip ((Chip.paceRunsOut_eq timer).trans (Chip.patrolOn_of_not waits)) settled
  intro tallies
  have skips := (Chip.paceRunsOut_eq timer).trans
    (Chip.patrolOn_skip (c := s.toChip.intervalEnded) pacing rfl
      (congrArg Sequencer.patrol idle) skipped)
  refine ⟨fun x more phys free => ?next, fun last single => ?passEnds⟩
  case next =>
    rw [Chip.skipRow_next (c := s.toChip.intervalEnded) more] at skips
    rw [exec_paceExpiry]
    exact State.next_onChip_issue (skips.trans (Chip.handleCursor_visit _ pacing rfl (congrArg Sequencer.patrol idle)
      phys free)) idle rfl
  case passEnds =>
    intro ended
    have settled : s.seq.settled = true := by rw [idle]; rfl
    have ends := (Chip.skipRow_last (c := s.toChip.intervalEnded) last).trans (Chip.endPass_single single)
    rw [exec_paceExpiry, State.next_onChip (skips.trans ((congrArg _ ends).trans (Chip.handleCursor_stopped _ rfl))) settled]
    rfl

/-! ## The ready timer -/

section

variable {s : State} {r : Request} {second : Bool} {left : RowPatch} {c : Chip}

/-- A timeout whose requester asks for nothing more. -/
theorem readyTimeout_settles (port : s.seq = Sequencer.carrying r) (live : r.abandoned = false)
    (acts : s.toChip.portFreed.timedOut r.purpose = c) (settled : c.seq.settled = true) :
    exec (.readyTimeout second left) s =
      .next { s with toChip := c, array := if second then s.array.afterCut s.devices r left else s.array } := by
  rw [readyTimeout_at port live, acts, Chip.settle_of_settled 8 settled]

/-- A timeout after which one access is granted. -/
theorem readyTimeout_issues {p : Purpose} {y : PhysRow} {e : Option (List Word)} (port : s.seq = Sequencer.carrying r)
    (live : r.abandoned = false) (acts : s.toChip.portFreed.timedOut r.purpose = c.issue p y e)
    (idle : c.seq = Sequencer.reset) (granted : c.conditionFails p = false) :
    exec (.readyTimeout second left) s = .next { s with
      toChip := { c with seq := Sequencer.carrying (request p y e) }
      array := if second then s.array.afterCut s.devices r left else s.array } := by
  rw [readyTimeout_at port live, acts, Chip.settle_issue 7 idle _ _ _ granted]

end

/-- A transfer command that holds no spare ends at the timeout with the rows done before it. -/
theorem Chip.timedOut_transfer {c : Chip} {t : Transfer} {p : Purpose} (work : c.cmd.work = .transfer t)
    (ours : p ∈ [.readRowsRead, .checkRowsRead, .scrubWrite, .ordinaryWrite, .inPlaceWrite, .readBack]
      ∨ (∃ k, p = .repairQualify k) ∨ p = .repairDataWrite ∨ p = .repairVerify) :
    c.timedOut p = c.cutTransfer t .arrayTimeout := by
  have cut := Chip.onTransfer_eq work fun c t => c.cutTransfer t .arrayTimeout
  rcases ours with listed | ⟨k, rfl⟩ | rfl | rfl
  · simp only [List.mem_cons, List.not_mem_nil, or_false] at listed
    rcases listed with rfl | rfl | rfl | rfl | rfl | rfl <;> exact cut
  all_goals exact cut

/-- The patrol, stopped at the timeout, ends a waiting PATROL HALT (R132, R137). -/
theorem Chip.patrolTimeout_stops {c : Chip} (noRestart : c.pat.restartRequest = false) :
    c.patrolTimeout = { c with
      tr := { c.tr with patrolClaim := none }
      pat := { c.pat with mode := .off, st := .stopped, paceTimer := none }
      health := (c.raise (.patrolStopped .timeout)).health
      bus := if c.cmd.work = .patrolHalt then c.bus.commandDone else c.bus
      cmd := if c.cmd.work = .patrolHalt then c.cmd.finished .ok ⟨word c.pat.cursor, c.pat.pass, 0, 0⟩ else c.cmd } := by
  unfold Chip.patrolTimeout
  rw [if_neg (Bool.eq_false_iff.1 noRestart), Chip.stopPatrol_eq,
    Chip.raise_congr (c := c) (d := c.clearPatrolClaim) rfl rfl]
  unfold Chip.endPatrolHalt
  by_cases waits : c.cmd.work = .patrolHalt
  · simp only [if_pos waits]
    exact if_pos waits
  · simp only [if_neg waits]
    exact if_neg waits

/-- The pass is begun again at the timeout, with the end of a PATROL START that waits (R132, R136). -/
theorem Chip.patrolTimeout_restarts {c : Chip} (restart : c.pat.restartRequest = true) :
    c.patrolTimeout = Chip.patrolOn { c with
      tr := { c.tr with patrolClaim := none }
      pat := { c.pat with
        st := .pacing, cursor := 0, tallies := ⟨0, 0, 0, 0⟩, whole := true, restartRequest := false
        paceTimer := none, intervalOut := true }
      health := (c.raise (.patrolStopped .timeout)).health
      bus := if c.cmd.work = .patrolRestart then c.bus.commandDone else c.bus
      cmd := if c.cmd.work = .patrolRestart then c.cmd.finished .ok ⟨0, c.pat.pass, 0, 0⟩ else c.cmd } := by
  unfold Chip.patrolTimeout
  rw [if_pos restart, Chip.stopPatrol_eq, Chip.raise_congr (c := c) (d := c.clearPatrolClaim) rfl rfl]
  unfold Chip.endPatrolRestart
  by_cases waits : c.cmd.work = .patrolRestart
  · simp only [if_pos waits]
    exact congrArg Chip.patrolOn (if_pos waits)
  · simp only [if_neg waits]
    exact congrArg Chip.patrolOn (if_neg waits)

/-- Settles O35: a transfer command ends, with its spare given back, and the patrol stops or begins its pass again. -/
theorem readyTimeoutEndsTheAccess : Obligations.ReadyTimeoutEndsTheAccess := by
  refine ⟨fun s second left x d => ?_, fun s second left x d p visit port => ?_⟩
  case refine_1 =>
    intro r array
    refine ⟨fun p t ours port work spare => ?spareless, fun p t sp ours port work spare => ?spared⟩
    case spareless =>
      exact readyTimeout_settles port rfl
        ((Chip.timedOut_transfer (c := s.toChip.portFreed) work (.inl ours)).trans (Chip.cutTransfer_spareless spare _)) rfl
    case spared =>
      have idle : (s.toChip.portFreed.releaseSpare sp).seq = Sequencer.reset :=
        Chip.seq_giveBack (some sp) s.toChip.portFreed
      exact readyTimeout_settles port rfl
        ((Chip.timedOut_transfer (c := s.toChip.portFreed) work (.inr ours)).trans (Chip.cutTransfer_spare spare _))
        (congrArg Sequencer.settled idle)
  case refine_2 =>
    intro array stopped
    have times : s.toChip.portFreed.timedOut p = s.toChip.portFreed.patrolTimeout := by
      simp only [List.mem_cons, List.not_mem_nil, or_false] at visit
      rcases visit with rfl | rfl <;> rfl
    have raised : (s.toChip.portFreed.raise (.patrolStopped .timeout)).health =
        (s.toChip.raise (.patrolStopped .timeout)).health :=
      Chip.health_raise_congr (c := s.toChip) (d := s.toChip.portFreed) rfl rfl _
    refine ⟨fun noRestart => ?stops, fun y restart phys free => ?restarts⟩
    case stops =>
      have act := times.trans (Chip.patrolTimeout_stops (c := s.toChip.portFreed) noRestart)
      rw [raised] at act
      exact readyTimeout_settles port rfl act rfl
    case restarts =>
      have act := times.trans (Chip.patrolTimeout_restarts (c := s.toChip.portFreed) restart)
      rw [raised] at act
      exact readyTimeout_issues port rfl (act.trans (Chip.patrolOn_visit rfl rfl rfl phys free)) rfl rfl

end Sys2Proof.Machine

/-! # Allocation of a spare (R101, R103, R105, R106) -/

namespace Sys2Proof.Machine

/-! ## The spare chosen -/

theorem globalZone_spareOf {g : Nat} (i : Nat) (h : g < 32) : (spareOf g i).globalZone = g := by
  simp only [SpareId.globalZone, spareOf, Fin.ofNat]
  omega

theorem index_spareOf {i : Nat} (g : Nat) (h : i < 16) : (spareOf g i).index.val = i := Nat.mod_eq_of_lt h

/-- The FREE spare of lowest index is the one with no FREE spare before it. -/
theorem Zone.firstFree_eq_some {z : Zone} {i : Nat} (free : z.spares[i]? = some .free)
    (lowest : ∀ j, j < i → z.spares[j]? ≠ some .free) : z.firstFree = some i := by
  obtain ⟨inside, is⟩ := List.getElem?_eq_some_iff.1 free
  refine List.findIdx?_eq_some_iff_getElem.2 ⟨inside, decide_eq_true is, fun j before => ?_⟩
  have other := lowest j before
  rw [List.getElem?_eq_getElem (before.trans inside)] at other
  exact fun isFree => other (congrArg some (of_decide_eq_true isFree))

theorem Zone.firstFree_eq_none {z : Zone} (full : .free ∉ z.spares) : z.firstFree = none :=
  List.findIdx?_eq_none_iff.2 fun _ member => decide_eq_false fun free => full (free ▸ member)

theorem Chip.chooseSpare_home {c : Chip} {home i : Nat} (first : (c.zone home).firstFree = some i) :
    c.chooseSpare home = some (spareOf home i) := by
  unfold Chip.chooseSpare
  rw [first]

theorem Chip.chooseSpare_alone {c : Chip} {home : Nat} (full : (c.zone home).firstFree = none)
    (alone : c.health.policy.borrow = false) : c.chooseSpare home = none := by
  unfold Chip.chooseSpare
  rw [full]
  exact if_neg (Bool.eq_false_iff.1 alone)

/-- With BORROW on, the home zone being full, the lender gives its first FREE spare (R105). -/
theorem Chip.chooseSpare_borrows {c : Chip} {home : Nat} (full : (c.zone home).firstFree = none)
    (borrows : c.health.policy.borrow = true) :
    c.chooseSpare home = (bestLender c.health.policy.lendReserve (c.lenders home)).bind fun p =>
      (c.zone p.1).firstFree.map (spareOf p.1) := by
  unfold Chip.chooseSpare
  rw [full]
  refine (if_pos borrows).trans ?_
  cases bestLender c.health.policy.lendReserve (c.lenders home) <;> rfl

/-! ## The spare taken -/

theorem Chip.zone_takeSpare (c : Chip) (t : SpareId) (g : Nat) : (c.takeSpare t).zone g = (c.setSpare t .testing).zone g :=
  Chip.zone_congr (Chip.alloc_regradeDevice _) g

/-- Settles O38: the home zone first, then the best lender; what taking a spare does to its zone. -/
theorem allocationChoosesAndTakesASpare : Obligations.AllocationChoosesAndTakesASpare := by
  refine ⟨fun c home => ⟨fun i inside exists_ free lowest => ?own, fun full alone => ?alone⟩,
    fun c home full borrows => ?borrowed, fun c t exists_ free => ?taken, fun c home => ⟨fun marked => if_pos marked,
      fun clear => if_neg (Bool.eq_false_iff.1 clear)⟩⟩
  case own =>
    exact ⟨_, Chip.chooseSpare_home (Zone.firstFree_eq_some free lowest), globalZone_spareOf i exists_,
      index_spareOf home inside⟩
  case alone => exact Chip.chooseSpare_alone (Zone.firstFree_eq_none full) alone
  case borrowed =>
    intro lends
    have choice := Chip.chooseSpare_borrows (Zone.firstFree_eq_none full) borrows
    refine ⟨fun g exists_ few best most => ?lender, fun nobody => ?noLender⟩
    case lender =>
      obtain ⟨device, other, above⟩ := best
      obtain ⟨i, first, free, lowest⟩ := Zone.firstFree_of_free (Nat.zero_lt_of_lt above)
      have inside : i < 16 := (List.getElem?_eq_some_iff.1 free).1.trans_le few
      have index := index_spareOf g inside
      have lender : bestLender c.health.policy.lendReserve (c.lenders home) = some (g, (c.zone g).free) := by
        refine bestLender_of_best _ _ g _ (Chip.lenders_ascending c home)
          ((Chip.mem_lenders c home g _).2 ⟨device, other, rfl⟩) above fun g' f' member above' => ?_
        obtain ⟨device', other', rfl⟩ := (Chip.mem_lenders c home g' f').1 member
        exact most g' ⟨device', other', above'⟩
      refine ⟨spareOf g i, ?_, globalZone_spareOf i exists_, ?_, ?_⟩
      · rw [choice, lender]
        exact congrArg (Option.map (spareOf g)) first
      · rw [index]
        exact free
      · rw [index]
        exact lowest
    case noLender =>
      have lender : bestLender c.health.policy.lendReserve (c.lenders home) = none := by
        refine bestLender_of_none _ _ fun g f member above => ?_
        obtain ⟨device, other, rfl⟩ := (Chip.mem_lenders c home g f).1 member
        exact nobody g ⟨device, other, above⟩
      rw [choice, lender]
      rfl
  case taken =>
    intro d z
    have zone : z = (c.setSpare t .testing).zone t.globalZone := Chip.zone_takeSpare c t _
    have spares : z.spares = (c.zone t.globalZone).spares.set t.index.val .testing := by
      rw [zone, Chip.spares_setSpare .testing exists_]
    have freeCount : z.free + 1 = (c.zone t.globalZone).free := by
      show z.spares.countP _ + 1 = _
      rw [spares]
      exact countP_set_spare (x := .free) free
    have testingCount : z.countOf .testing = (c.zone t.globalZone).countOf .testing + 1 := by
      show z.spares.countP _ = _
      rw [spares]
      exact countP_set_spare (x := .testing) free
    refine ⟨spares, freeCount, testingCount, ?_, Chip.graded_regradeDevice _, ?_, fun g other => ?_⟩
    · rw [zone] at freeCount ⊢
      exact (Chip.grade_setSpare .testing exists_).1 (by omega)
    · exact (congrArg Chip.dir (Chip.takeSpare_congr (c := c) (d := c) rfl t) :)
    · exact (Chip.zone_takeSpare c t g).trans (Chip.zone_setSpare_ne c _ other)

end Sys2Proof.Machine

/-! # Reports (R81 to R90, R93, R94) -/

namespace Sys2Proof.Machine

/-! ## The outcome rules -/

section

variable {c : Chip} {l : Nat} {x : PhysRow} {path : Origin}

theorem Chip.report_of_stale {r : Report} (stale : (c.lookup r.row).phys ≠ some r.phys) : c.report r = c := if_neg stale

theorem Chip.report_uncorrectable (here : (c.lookup l).phys = some x) (back : Bool) :
    c.report { row := l, phys := x, outcome := .uncorrectable, path, readBack := back } = c.reportUnc l path := if_pos here

theorem Chip.report_corrected (here : (c.lookup l).phys = some x) (back : Bool) :
    c.report { row := l, phys := x, outcome := .corrected, path, readBack := back } = c.reportCorrected l path :=
  if_pos here

theorem Chip.report_clean (here : (c.lookup l).phys = some x) :
    c.report { row := l, phys := x, outcome := .clean, path, readBack := false } = c.reportClean l := if_pos here

theorem Chip.report_cleanReadBack (here : (c.lookup l).phys = some x) :
    c.report { row := l, phys := x, outcome := .clean, path, readBack := true } = c.reportCleanReadBack l := if_pos here

end

theorem Chip.pendingUnc_of_some {c : Chip} {l : Nat} {e : PendingEntry} (pending : c.pendingOf l = some e) :
    c.pendingUnc l = decide (e.cause = .unc) := by
  unfold Chip.pendingUnc
  rw [pending]
  rfl

/-! ## UNCORRECTABLE -/

/-- The watch table without the entry of a row. -/
def unwatch (l : Nat) (watch : List (Option WatchEntry)) : List (Option WatchEntry) :=
  watch.map fun o => if slotHolds l o then none else o

theorem unwatch_unwatch (l : Nat) (watch : List (Option WatchEntry)) : unwatch l (unwatch l watch) = unwatch l watch := by
  unfold unwatch
  rw [List.map_map]
  refine List.map_congr_left fun o _ => ?_
  by_cases holds : slotHolds l o = true
  · simp only [Function.comp_apply, if_pos holds]
    exact ite_self none
  · simp only [Function.comp_apply, if_neg holds]

/-- The zones with one more uncorrectable event in the row's home zone. -/
def Chip.countedZones (c : Chip) (l : Nat) : List Zone :=
  c.alloc.zones.modify (homeZone l) fun z => { z with uncEvents := min 65535 (z.uncEvents + 1) }

section

variable {c : Chip} {l : Nat} (path : Origin)

theorem Chip.reportUnc_again {e : PendingEntry} (pending : c.pendingOf l = some e) (unc : e.cause = .unc) :
    c.reportUnc l path = c.countUnc l := by
  unfold Chip.reportUnc
  simp only [pending, unc]

theorem Chip.reportUnc_pending {e : PendingEntry} (pending : c.pendingOf l = some e) (readable : e.cause ≠ .unc) :
    c.reportUnc l path = { c with
      trk := { c.trk with pendingList := c.trk.pendingList.map fun (e : PendingEntry) =>
        if e.row = l then { e with cause := .unc, starved := false } else e }
      dir := c.setDirty.dir, alloc := { zones := c.countedZones l } } := by
  have marks : c.reportUnc l path =
      ((c.countUnc l).updatePending l fun e => { e with cause := .unc, starved := false }).setDirty := by
    unfold Chip.reportUnc
    cases cause : e.cause <;> simp_all
  exact marks.trans (Chip.setDirty_congr (c := c) rfl rfl)

theorem Chip.reportUnc_new (new : c.pendingOf l = none) :
    c.reportUnc l path = ((c.countUnc l).removeWatch l).offerUnc l path := by
  unfold Chip.reportUnc
  rw [new]

/-- The entry a UNC row gets. -/
def Chip.uncEntry (c : Chip) (l : Nat) (path : Origin) : PendingEntry :=
  { row := l, cause := .unc, source := path, added := c.pat.pass, starved := false, stuck := false, restarts := 0 }

/-- The part once a UNC event is counted and the row's watch entry is gone, with this pending list and directory unit. -/
def Chip.uncCounted (c : Chip) (l : Nat) (list : List PendingEntry) (dir : DirectoryUnit) : Chip :=
  { c with
    trk := { watch := unwatch l c.trk.watch, pendingList := list }, alloc := { zones := c.countedZones l }, dir := dir }

theorem Chip.raise_uncCounted (list : List PendingEntry) (dir : DirectoryUnit) (b : NoticeBody) :
    (c.uncCounted l list dir).raise b = { c.uncCounted l list dir with health := (c.raise b).health } :=
  Chip.raise_congr (c := c) (d := c.uncCounted l list dir) rfl rfl b

/-- The row joins the list, with its notice. -/
theorem Chip.addUnc_uncCounted (list : List PendingEntry) (dir : DirectoryUnit) :
    ((c.uncCounted l list dir).addPending l .unc path).raise (.uncFound l) =
      { c.uncCounted l (list ++ [c.uncEntry l path]) (c.uncCounted l list dir).setDirty.dir with
        health := (c.raise (.uncFound l)).health } := by
  have adds : (c.uncCounted l list dir).addPending l .unc path =
      c.uncCounted l (list ++ [c.uncEntry l path]) (c.uncCounted l list dir).setDirty.dir :=
    (Chip.addPending_eq _ l .unc path).trans (congrArg (fun w : List (Option WatchEntry) => ({ c with
      trk := { watch := w, pendingList := list ++ [c.uncEntry l path] }, alloc := { zones := c.countedZones l }
      dir := (c.uncCounted l list dir).setDirty.dir } : Chip)) (unwatch_unwatch l c.trk.watch))
  rw [adds, Chip.raise_uncCounted]

/-- A UNC row that is not pending joins a list with room (R82, R93). -/
theorem Chip.reportUnc_joins (new : c.pendingOf l = none) (room : c.trk.pendingList.length < 32) :
    c.reportUnc l path = { c.uncCounted l (c.trk.pendingList ++ [c.uncEntry l path]) c.setDirty.dir with
      health := (c.raise (.uncFound l)).health } := by
  have offers : c.reportUnc l path =
      ((c.uncCounted l c.trk.pendingList c.dir).addPending l .unc path).raise (.uncFound l) :=
    (Chip.reportUnc_new path new).trans (if_neg fun full => absurd (of_decide_eq_true full) (Nat.not_le.2 room))
  rw [offers, Chip.addUnc_uncCounted,
    Chip.setDirty_congr (c := c) (d := c.uncCounted l c.trk.pendingList c.dir) rfl rfl]

theorem find?_row_isSome {l : List PendingEntry} {e : PendingEntry} (member : e ∈ l) :
    ∃ x, l.find? (fun x => decide (x.row = e.row)) = some x :=
  Option.isSome_iff_exists.1 (List.find?_isSome.2 ⟨e, member, decide_eq_true rfl⟩)

/-- An entry of the list is removed, and dirty is set (R96, R97). -/
theorem Chip.removePending_eq {e : PendingEntry} (pending : c.pendingOf l = some e) :
    c.removePending l = { c with
      trk := { c.trk with pendingList := c.trk.pendingList.filter fun e => decide (e.row ≠ l) }
      dir := c.setDirty.dir } := by
  unfold Chip.removePending
  rw [pending]
  exact Chip.setDirty_congr (c := c) rfl rfl

/-- Dirty is set once (R143). -/
theorem Chip.dir_setDirty_again {d : Chip} (dir : d.dir = c.setDirty.dir) : d.setDirty.dir = c.setDirty.dir := by
  have dirty : c.setDirty.dir.dirty = true := by
    unfold Chip.setDirty
    split
    · assumption
    · rfl
  exact (congrArg Chip.dir (if_pos (dir ▸ dirty))).trans dir

/-- Into a full list it goes at the cost of the first entry that may be displaced (R94). -/
theorem Chip.reportUnc_evicts {v : PendingEntry} (new : c.pendingOf l = none) (full : 32 ≤ c.trk.pendingList.length)
    (victim : c.evictionVictim = some v) :
    c.reportUnc l path =
      { c.uncCounted l ((c.trk.pendingList.filter fun e => decide (e.row ≠ v.row)) ++ [c.uncEntry l path])
          c.setDirty.dir with
        health := (c.raise (.uncFound l)).health } := by
  let shorter := c.trk.pendingList.filter fun e => decide (e.row ≠ v.row)
  obtain ⟨e, pending⟩ := find?_row_isSome (List.mem_of_find?_eq_some victim)
  have removes : (c.uncCounted l c.trk.pendingList c.dir).removePending v.row = c.uncCounted l shorter c.setDirty.dir := by
    rw [Chip.removePending_eq (c := c.uncCounted l c.trk.pendingList c.dir) pending,
      Chip.setDirty_congr (c := c) (d := c.uncCounted l c.trk.pendingList c.dir) rfl rfl]
    rfl
  have offers : c.reportUnc l path =
      ((c.uncCounted l shorter c.setDirty.dir).addPending l .unc path).raise (.uncFound l) := by
    refine (Chip.reportUnc_new path new).trans ((if_pos (decide_eq_true full)).trans ?_)
    rw [show ((c.countUnc l).removeWatch l).evictionVictim = some v from victim, ← removes]
    rfl
  rw [offers, Chip.addUnc_uncCounted, Chip.dir_setDirty_again (c := c) (d := c.uncCounted l shorter c.setDirty.dir) rfl]

/-- With no such entry it is left out of the list (R94). -/
theorem Chip.reportUnc_leftOut (new : c.pendingOf l = none) (full : 32 ≤ c.trk.pendingList.length)
    (noVictim : c.evictionVictim = none) :
    c.reportUnc l path =
      { c.uncCounted l c.trk.pendingList c.dir with health := (c.raise (.pendingFull l)).health } := by
  have offers : c.reportUnc l path = (c.uncCounted l c.trk.pendingList c.dir).raise (.pendingFull l) := by
    refine (Chip.reportUnc_new path new).trans ((if_pos (decide_eq_true full)).trans ?_)
    rw [show ((c.countUnc l).removeWatch l).evictionVictim = none from noVictim]
    rfl
  rw [offers, Chip.raise_uncCounted]

end

/-! ## CORRECTED and CLEAN -/

section

variable {c : Chip} {l : Nat} (path : Origin)

/-- A row pending UNC has been read: it is pending REPEAT, and no longer STUCK (R83, R84). -/
theorem Chip.readableAgain_eq (c : Chip) (l : Nat) :
    c.readableAgain l = Chip.regradeDevice { c with
      trk := { c.trk with pendingList := c.trk.pendingList.map fun (e : PendingEntry) =>
        if e.row = l then { e with cause := .repeat, stuck := false } else e }
      dir := c.setDirty.dir } :=
  congrArg Chip.regradeDevice (Chip.setDirty_congr (c := c) rfl rfl)

theorem Chip.reportCorrected_unc {e : PendingEntry} (pending : c.pendingOf l = some e) (unc : e.cause = .unc) :
    c.reportCorrected l path = c.readableAgain l := by
  unfold Chip.reportCorrected
  simp only [pending, unc]

theorem Chip.reportCorrected_readable {e : PendingEntry} (pending : c.pendingOf l = some e) (readable : e.cause ≠ .unc) :
    c.reportCorrected l path = c := by
  unfold Chip.reportCorrected
  cases cause : e.cause <;> simp_all

/-- The first correction of a row takes the slot of R87 and R89. -/
theorem Chip.reportCorrected_first {i : Nat} (new : c.pendingOf l = none) (unwatched : c.watchOf l = none)
    (slot : c.watchSlot = some i) :
    c.reportCorrected l path =
      { c with trk := { c.trk with watch := c.trk.watch.set i (some { row := l, count := 1, last := c.pat.pass }) } } := by
  unfold Chip.reportCorrected
  rw [new, unwatched]
  show c.watchInsert l = _
  unfold Chip.watchInsert
  rw [slot]
  rfl

/-- A further correction is counted (R88). -/
theorem Chip.reportCorrected_counts {i : Nat} {e : WatchEntry} (new : c.pendingOf l = none)
    (watched : c.watchOf l = some e) (slot : c.trk.watch.findIdx? (slotHolds l) = some i) :
    c.reportCorrected l path = c.watchCount l i e path := by
  unfold Chip.reportCorrected
  rw [new, watched, slot]

end

/-! ## The weakest entry -/

theorem WatchEntry.weaker_iff {pass : Word} {a b : WatchEntry} : a.weaker pass b = true ↔
    a.count < b.count ∨ a.count = b.count ∧ (b.age pass < a.age pass ∨ a.age pass = b.age pass ∧ a.row < b.row) := by
  simp only [WatchEntry.weaker, Bool.or_eq_true, Bool.and_eq_true, decide_eq_true_eq]

theorem WatchEntry.weaker_asymm {pass : Word} {a b : WatchEntry} (h : a.weaker pass b = true) : b.weaker pass a = false := by
  refine Bool.eq_false_iff.2 fun h' => ?_
  rw [WatchEntry.weaker_iff] at h h'
  omega

/-- The slot of a full watch table is that of its weakest entry (R89). -/
theorem Chip.watchSlot_full {c : Chip} {i : Nat} {v : WatchEntry} (full : c.trk.watch.findIdx? Option.isNone = none)
    (entry : c.trk.watch[i]? = some (some v))
    (lowest : ∀ j w, j ≠ i → c.trk.watch[j]? = some (some w) → v.weaker c.pat.pass w = true) : c.watchSlot = some i := by
  have victim : weakest c.pat.pass c.trk.watch.zipIdx = some (v, i) := by
    refine weakest_of_lowest _ _ v i ?_ (List.mk_mem_zipIdx_iff_getElem?.2 entry) fun w j other member => ?_
    · rw [List.zipIdx_map_snd]
      exact List.nodup_range'
    · have weaker := lowest j w other (List.mk_mem_zipIdx_iff_getElem?.1 member)
      exact ⟨weaker, WatchEntry.weaker_asymm weaker⟩
  unfold Chip.watchSlot
  rw [full, victim]
  rfl

/-! ## The two statements -/

/-- Settles O39: outcome by outcome, for a row not pending and for one that is. -/
theorem reportsFollowTheOutcomeRules : Obligations.ReportsFollowTheOutcomeRules := by
  intro c l x path back report
  refine ⟨fun o stale => Chip.report_of_stale stale, fun here => ⟨fun first readable => ?clean,
    fun i new unwatched slot => ?first, fun e pending readable => ?corrected, fun e pending unc => ?again,
    fun new room => ?found⟩⟩
  case clean =>
    subst first
    exact (Chip.report_clean here).trans (if_neg (Bool.eq_false_iff.1 readable))
  case first =>
    refine (Chip.report_corrected here back).trans (Chip.reportCorrected_first path new unwatched ?_)
    unfold Chip.watchSlot
    rw [slot]
  case corrected => exact (Chip.report_corrected here back).trans (Chip.reportCorrected_readable path pending readable)
  case again => exact (Chip.report_uncorrectable here back).trans (Chip.reportUnc_again path pending unc)
  case found =>
    have joins : report .uncorrectable = _ :=
      (Chip.report_uncorrectable here back).trans (Chip.reportUnc_joins path new room)
    rw [joins]
    exact ⟨rfl, rfl, rfl, rfl, rfl, rfl⟩

/-- Settles O40: the pending row, the row that is not pending, by outcome, and the ageing of the watch table. -/
theorem reportsChangeCausesCountAndEvict : Obligations.ReportsChangeCausesCountAndEvict := by
  refine ⟨fun c l x path back here => ?_, Chip.ageWatch_eq⟩
  intro report change counted unwatched new
  have unc : report .uncorrectable = c.reportUnc l path := Chip.report_uncorrectable here back
  have corrected : report .corrected = c.reportCorrected l path := Chip.report_corrected here back
  refine ⟨fun e pending => ⟨fun readable => ?worse, fun unreadable => ⟨?readable, fun first => ?readableClean⟩,
    fun readBack => ?removed⟩, fun notPending => ⟨fun readBack => ?nothing, fun i e watched slot => ?counted,
      fun i v unwatched full entry lowest => ?displaced, fun full => ⟨fun v victim => ?evicts, fun noVictim => ?leftOut⟩⟩⟩
  case worse => exact unc.trans (Chip.reportUnc_pending path pending readable)
  case readable =>
    exact corrected.trans ((Chip.reportCorrected_unc path pending unreadable).trans (Chip.readableAgain_eq c l))
  case readableClean =>
    subst first
    exact (Chip.report_clean here).trans ((if_pos (by rw [Chip.pendingUnc_of_some pending, unreadable]; rfl)).trans
      (Chip.readableAgain_eq c l))
  case removed =>
    subst readBack
    refine (Chip.report_cleanReadBack here).trans ?_
    unfold Chip.reportCleanReadBack
    rw [pending]
    exact congrArg Chip.regradeDevice (Chip.removePending_eq pending)
  case nothing =>
    subst readBack
    refine (Chip.report_cleanReadBack here).trans ?_
    unfold Chip.reportCleanReadBack
    rw [notPending]
  case displaced =>
    refine corrected.trans (Chip.reportCorrected_first path notPending unwatched (Chip.watchSlot_full full entry ?_))
    exact fun j w other member => WatchEntry.weaker_iff.2 (lowest j w other member)
  case evicts => exact unc.trans (Chip.reportUnc_evicts path notPending full victim)
  case leftOut =>
    refine unc.trans (Chip.reportUnc_leftOut path notPending full (List.find?_eq_none.2 fun e member => ?_))
    rcases noVictim e member with h | h <;> simp [h]
  case counted =>
    intro count kept
    have counts : report .corrected = c.watchCount l i e path :=
      corrected.trans (Chip.reportCorrected_counts path notPending watched slot)
    refine ⟨fun few => counts.trans (if_pos (.inl few)), fun many full => counts.trans (if_pos (.inr (decide_eq_true full))),
      fun many room => ?_⟩
    refine counts.trans ((if_neg ?_).trans (Chip.addPending_eq c l .repeat path))
    rintro (few | full)
    · exact Nat.not_lt.2 many few
    · exact Nat.not_le.2 room (of_decide_eq_true full)

end Sys2Proof.Machine

/-! # The moves of a repair job (R102, R105, R110, R111, R114, R119), and how a job starts (R109, R117) -/

namespace Sys2Proof.Machine

/-! ## Moves that end, or that issue an access -/

section

variable {c : Chip} {j : Job} {m : RepairMove}

/-- A move after which nothing is left to do. -/
theorem Chip.repairRun_last {d : Chip} (n : Nat) (moves : c.repairMove m j = (d, none)) :
    Chip.repairRun (n + 1) (c, some (m, j)) = d :=
  (Chip.repairRun_some n c m j).trans (by rw [moves, Chip.repairRun_none])

/-- A move that another follows. -/
theorem Chip.repairRun_next {d : Chip} {m' : RepairMove} {j' : Job} (n : Nat)
    (moves : c.repairMove m j = (d, some (m', j'))) :
    Chip.repairRun (n + 1) (c, some (m, j)) = Chip.repairRun n (d, some (m', j')) :=
  (Chip.repairRun_some n c m j).trans (by rw [moves])

theorem Chip.enterSource_retired (retired : c.lookup j.row = .retired) : c.enterSource j = (c.endJob j .retired, none) := by
  unfold Chip.enterSource
  rw [retired]
  rfl

theorem Chip.enterSource_gone {x : PhysRow} (phys : (c.lookup j.row).phys = some x) (gone : c.pendingOf j.row = none) :
    c.enterSource j = (c.endJob j .ok, none) := by
  unfold Chip.enterSource
  rw [phys, gone]

/-- The source is read, unless DISCARD finds the row pending UNC. -/
theorem Chip.enterSource_reads {x : PhysRow} {e : PendingEntry} (phys : (c.lookup j.row).phys = some x)
    (pending : c.pendingOf j.row = some e) (reads : j.discard = false ∨ e.cause ≠ .unc) (free : c.jobStops j = false) :
    c.enterSource j = ((c.putJob .sourceRead { j with discard := false }).issue .sourceRead x none, none) := by
  have notZeros : ¬ (j.discard && decide (e.cause = .unc)) = true := by
    rcases reads with keeps | readable
    · simp [keeps]
    · simp [readable]
  unfold Chip.enterSource
  rw [phys, pending]
  exact (if_neg notZeros).trans (congrArg (fun d : Chip => (d, Option.none))
    (Chip.issueJob_goesOn (j := { j with discard := false }) free .sourceRead .sourceRead x none))

/-- DISCARD of a row pending UNC has its data at hand: zeros. -/
theorem Chip.enterSource_zeros {x : PhysRow} {e : PendingEntry} (phys : (c.lookup j.row).phys = some x)
    (pending : c.pendingOf j.row = some e) (discards : j.discard = true) (unc : e.cause = .unc) :
    c.enterSource j = c.withData { j with data := some zeroRow } := by
  unfold Chip.enterSource
  rw [phys, pending]
  exact if_pos (by simp [discards, unc])

theorem Chip.enterAllocate_waits (free : c.jobStops j = false) (held : c.writeRepairActive || c.someTesting) :
    c.enterAllocate j = (c.putJob .allocate j, none) := (if_neg (Bool.eq_false_iff.1 free)).trans (if_pos held)

theorem Chip.enterAllocate_serves (free : c.jobStops j = false) (open_ : c.writeRepairActive = false)
    (untested : c.someTesting = false) : c.enterAllocate j = (c.putJob .allocate j, some (.serve, j)) :=
  (if_neg (Bool.eq_false_iff.1 free)).trans (if_neg (by simp [open_, untested]))

theorem Chip.takeSpare_putJob (c : Chip) (st : RepairState) (j : Job) (sp : SpareId) :
    (c.putJob st j).takeSpare sp = (c.takeSpare sp).putJob st j := Chip.regradeDevice_putJob (c.setSpare sp .testing) st j

/-- A spare is taken, and qualified with the checkerboard first (R105, R107, R111). -/
theorem Chip.serveJob_takes {sp : SpareId} (chosen : c.chooseSpare (homeZone j.row) = some sp)
    (free : c.jobStops j = false) :
    c.serveJob j = (((c.takeSpare sp).putJob .qualify { j with spare := some sp }).issue (.qualification 0) sp.phys
      (some (patternRow 0xAAAA 0x5555)), none) := by
  have engine := Chip.cmd_of_requesters (Chip.requesters_takeSpare c sp)
  unfold Chip.serveJob
  rw [chosen]
  exact congrArg (fun d : Chip => (d, Option.none)) (Chip.issueJob_goesOn (c := c.takeSpare sp)
    (j := { j with spare := some sp }) (by unfold Chip.jobStops at free ⊢; rw [engine]; exact free) _ _ _ _)

/-- ALLOCATE entered with nothing that holds it back and a spare to be had (R102, R105, R107, R111). -/
theorem Chip.allocate_serves {sp : SpareId} (n : Nat) (free : c.jobStops j = false) (open_ : c.writeRepairActive = false)
    (untested : c.someTesting = false) (chosen : c.chooseSpare (homeZone j.row) = some sp) :
    Chip.repairRun (n + 2) (c, some (.allocate, j)) =
      ((c.takeSpare sp).putJob .qualify { j with spare := some sp }).issue (.qualification 0) sp.phys
        (some (patternRow 0xAAAA 0x5555)) := by
  have takes := Chip.serveJob_takes (c := c.putJob .allocate j) chosen free
  rw [Chip.takeSpare_putJob] at takes
  exact (Chip.repairRun_next (m := .allocate) (n + 1) (Chip.enterAllocate_serves free open_ untested)).trans
    (Chip.repairRun_last (m := .serve) n takes)

theorem Chip.serveJob_exhausted (none_ : c.chooseSpare (homeZone j.row) = none) :
    c.serveJob j = (c.reportExhausted (homeZone j.row)).jobUnserved j := by
  unfold Chip.serveJob
  rw [none_]

theorem Chip.jobUnserved_retired (retired : c.lookup j.row = .retired) :
    c.jobUnserved j = (c.endJob j .retired, none) := if_pos (decide_eq_true retired)

theorem Chip.jobUnserved_gone (here : c.lookup j.row ≠ .retired) (gone : c.pendingOf j.row = none) :
    c.jobUnserved j = (c.endJob j .ok, none) := by
  refine (if_neg fun retired => here (of_decide_eq_true retired)).trans ?_
  rw [gone]

theorem Chip.jobUnserved_discards {e : PendingEntry} (here : c.lookup j.row ≠ .retired)
    (pending : c.pendingOf j.row = some e) (discards : j.discard = true) :
    c.jobUnserved j = (c, some (.noSpare, j)) := by
  refine (if_neg fun retired => here (of_decide_eq_true retired)).trans ?_
  rw [pending]
  exact if_pos discards

theorem Chip.jobUnserved_starves {e : PendingEntry} (here : c.lookup j.row ≠ .retired)
    (pending : c.pendingOf j.row = some e) (keeps : j.discard = false) (readable : e.cause ≠ .unc) :
    c.jobUnserved j = (((c.setStarved j.row).setRestarts j.row 0).endJob j .noSpare, none) := by
  refine (if_neg fun retired => here (of_decide_eq_true retired)).trans ?_
  rw [pending]
  refine (if_neg (Bool.eq_false_iff.1 keeps)).trans ?_
  cases cause : e.cause with
  | unc => exact absurd cause readable
  | _ => rfl

theorem Chip.jobUnserved_unc {e : PendingEntry} (here : c.lookup j.row ≠ .retired)
    (pending : c.pendingOf j.row = some e) (keeps : j.discard = false) (unc : e.cause = .unc) :
    c.jobUnserved j = ((c.setRestarts j.row 0).endJob j .noSpare, none) := by
  refine (if_neg fun retired => here (of_decide_eq_true retired)).trans ?_
  rw [pending]
  refine (if_neg (Bool.eq_false_iff.1 keeps)).trans ?_
  rw [unc]

theorem Chip.enterNoSpare_writes {x : PhysRow} {e : PendingEntry} (ours : claimMarked c.tr.repairClaim = false)
    (phys : (c.lookup j.row).phys = some x) (pending : c.pendingOf j.row = some e) (unc : e.cause = .unc) :
    c.enterNoSpare j =
      (((c.markPatrolClaim j.row).putJob .allocate j).issue .zeroWrite x (some zeroRow), none) := by
  refine (if_neg (Bool.eq_false_iff.1 ours)).trans ?_
  rw [phys, pending]
  exact if_pos unc

theorem Chip.enterNoSpare_readable {x : PhysRow} {e : PendingEntry} (ours : claimMarked c.tr.repairClaim = false)
    (phys : (c.lookup j.row).phys = some x) (pending : c.pendingOf j.row = some e) (readable : e.cause ≠ .unc) :
    c.enterNoSpare j = (c, some (.source, j)) := by
  refine (if_neg (Bool.eq_false_iff.1 ours)).trans ?_
  rw [phys, pending]
  exact if_neg readable

end

/-! ## Starts -/

section

variable {c : Chip} {j : Job} {x : PhysRow} {e : PendingEntry}

/-- The part when a job has started (R18, R109). -/
def Chip.jobStarted (c : Chip) (j : Job) : Chip :=
  { c with
    tr := { c.tr with repairClaim := some { row := j.row, overtaken := false } }
    rep := { st := .sourceRead, job := some j, waiting := none } }

/-- A job whose source is read (R110). -/
theorem Chip.startJob_reads (phys : (c.lookup j.row).phys = some x) (pending : c.pendingOf j.row = some e)
    (reads : j.discard = false ∨ e.cause ≠ .unc) (free : c.jobStops j = false) :
    c.startJob j = (c.jobStarted { j with discard := false }).issue .sourceRead x none :=
  Chip.repairRun_last (c := c.jobStarted j) (m := .source) 7
    (Chip.enterSource_reads (c := c.jobStarted j) phys pending reads free)

/-- A DISCARD job of a row pending UNC that gets its spare at once (R110, R111). -/
theorem Chip.startJob_zeros {sp : SpareId} (phys : (c.lookup j.row).phys = some x) (pending : c.pendingOf j.row = some e)
    (discards : j.discard = true) (unc : e.cause = .unc) (spare : j.spare = none) (free : c.jobStops j = false)
    (open_ : c.writeRepairActive = false) (untested : c.someTesting = false)
    (chosen : c.chooseSpare (homeZone j.row) = some sp) :
    c.startJob j = (((c.jobStarted j).takeSpare sp).putJob .qualify { j with data := some zeroRow, spare := some sp }).issue
      (.qualification 0) sp.phys (some (patternRow 0xAAAA 0x5555)) := by
  have zeros := (Chip.enterSource_zeros (c := c.jobStarted j) phys pending discards unc).trans
    (Chip.withData_spareless (j := { j with data := some zeroRow }) spare)
  exact (Chip.repairRun_next (c := c.jobStarted j) (m := .source) 7 zeros).trans
    (Chip.allocate_serves (c := c.jobStarted j) (j := { j with data := some zeroRow }) 5 free open_ untested chosen)

/-- A waiting COMMAND job whose row is still to be handled takes the place of an auto job (R109, R117). -/
theorem Chip.jobStart_command {l : Nat} {discard : Bool} (ready : c.repairReady = true)
    (waiting : c.rep.waiting = some (l, discard)) : c.jobStart = c.startCommandJob l discard := by
  unfold Chip.jobStart
  rw [if_pos ready, waiting]

/-- With none waiting auto repair takes its entry (R109). -/
theorem Chip.jobStart_auto (ready : c.repairReady = true) (waiting : c.rep.waiting = none) (entry : c.autoEntry = some e) :
    c.jobStart = c.startJob (autoJob e) := by
  unfold Chip.jobStart
  rw [if_pos ready, waiting, entry]

theorem Chip.startCommandJob_retired {l : Nat} (discard : Bool) (retired : c.lookup l = .retired) :
    c.startCommandJob l discard = c.dropWaiting.endCommand .retired (c.relocateResults l 0) :=
  if_pos (decide_eq_true retired)

theorem Chip.startCommandJob_full {l : Nat} (discard : Bool) (here : c.lookup l ≠ .retired) (new : c.pendingOf l = none)
    (full : 32 ≤ c.trk.pendingList.length) :
    c.startCommandJob l discard = c.dropWaiting.endCommand .listFull (c.relocateResults l 0) := by
  refine (if_neg fun retired => here (of_decide_eq_true retired)).trans ((if_neg ?_).trans (if_pos (decide_eq_true full)))
  rw [new]
  exact Bool.false_ne_true

theorem Chip.startCommandJob_joins {l : Nat} (discard : Bool) (here : c.lookup l ≠ .retired) (new : c.pendingOf l = none)
    (room : c.trk.pendingList.length < 32) :
    c.startCommandJob l discard = (c.addPending l .host .host).startJob (commandJob l discard) := by
  refine (if_neg fun retired => here (of_decide_eq_true retired)).trans ((if_neg ?_).trans (if_neg fun full => ?_))
  · rw [new]
    exact Bool.false_ne_true
  · exact Nat.not_le.2 room (of_decide_eq_true full)

theorem Chip.startCommandJob_pending {l : Nat} (discard : Bool) (here : c.lookup l ≠ .retired)
    (pending : c.pendingOf l = some e) : c.startCommandJob l discard = c.startJob (commandJob l discard) := by
  refine (if_neg fun retired => here (of_decide_eq_true retired)).trans (if_pos ?_)
  rw [pending]
  rfl

theorem Lookup.ne_retired {r : Lookup} (phys : r.phys = some x) : r ≠ .retired := by
  rintro rfl
  exact Option.some_ne_none x phys.symm

/-- The entry a row gets joins at the tail. -/
theorem Chip.pendingOf_addPending {l : Nat} (new : c.pendingOf l = none) (cause : Cause) (source : Origin) :
    ∃ e, (c.addPending l cause source).pendingOf l = some e ∧ e.cause = cause := by
  refine ⟨{ row := l, cause, source, added := c.pat.pass, starved := false, stuck := false, restarts := 0 }, ?_, rfl⟩
  rw [Chip.addPending_eq]
  refine List.find?_append.trans ?_
  rw [show c.trk.pendingList.find? (fun e => decide (e.row = l)) = none from new]
  simp

end

/-- Settles O36: the auto job, and the COMMAND job by what its row is. -/
theorem repairJobStartReadsTheSource : Obligations.RepairJobStartReadsTheSource := by
  refine ⟨fun s e x inService st idle waiting on entry phys => ?auto,
    fun s l discard inService st idle waiting free => ?command⟩
  case auto =>
    have ready : s.toChip.repairReady = true := by simp [Chip.repairReady, inService, st, idle, Sequencer.reset]
    obtain ⟨e', pending⟩ := find?_row_isSome (List.mem_of_find?_eq_some entry)
    have act := (Chip.jobStart_auto ready waiting ((if_pos on).trans entry)).trans
      (Chip.startJob_reads (c := s.toChip) (j := autoJob e) phys pending (.inl rfl) rfl)
    rw [exec_repairJobStart]
    exact State.next_onChip_issue act idle rfl
  case command =>
    intro ended claimed job
    have ready : s.toChip.repairReady = true := by simp [Chip.repairReady, inService, st, idle, Sequencer.reset]
    have starts := Chip.jobStart_command ready waiting
    have settled : s.seq.settled = true := by rw [idle]; rfl
    have goesOn : ∀ c : Chip, c.cmd = s.cmd → c.jobStops (commandJob l discard) = false := fun c same =>
      (congrArg (fun e : CommandEngine => true && e.stopRequest) same).trans free
    rw [exec_repairJobStart]
    refine ⟨fun retired => ?retired, fun here new full => ?full, fun x phys => ⟨fun new room => ?joins,
      fun e pending reads => ?reads, fun e sp pending discards unc open_ untested chosen => ?zeros⟩⟩
    case retired => exact State.next_onChip (starts.trans (Chip.startCommandJob_retired discard retired)) settled
    case full => exact State.next_onChip (starts.trans (Chip.startCommandJob_full discard here new full)) settled
    case joins =>
      obtain ⟨e, pending, cause⟩ := Chip.pendingOf_addPending (c := s.toChip) new .host .host
      have readable : e.cause ≠ .unc := cause ▸ Cause.noConfusion
      have joins := starts.trans (Chip.startCommandJob_joins discard (Lookup.ne_retired phys) new room)
      rw [Chip.addPending_eq] at joins pending
      exact State.next_onChip_issue
        (joins.trans (Chip.startJob_reads (x := x) phys pending (.inr readable) (goesOn _ rfl))) idle rfl
    case reads =>
      have act := starts.trans ((Chip.startCommandJob_pending discard (Lookup.ne_retired phys) pending).trans
        (Chip.startJob_reads phys pending reads (goesOn _ rfl)))
      exact State.next_onChip_issue act idle rfl
    case zeros =>
      intro c
      have act := starts.trans ((Chip.startCommandJob_pending discard (Lookup.ne_retired phys) pending).trans
        (Chip.startJob_zeros phys pending discards unc rfl (goesOn _ rfl) open_ untested chosen))
      rw [Chip.takeSpare_congr_bus (c := s.toChip) (d := s.toChip.jobStarted (commandJob l discard)) rfl rfl] at act
      subst discards
      exact State.next_onChip_issue act idle rfl

end Sys2Proof.Machine

/-! # An allocation request served later (R73, R102, R105 to R107, R111, R118, R119) -/

namespace Sys2Proof.Machine

/-- Write-repair that waited classifies its row again (R73). -/
theorem Chip.allocationServed_waiting {c : Chip} {t : Transfer} (work : c.cmd.work = .transfer t)
    (phase : t.phase = .repairWait) (free : c.someTesting = false) : c.allocationServed = c.classify t := by
  unfold Chip.allocationServed
  rw [work]
  exact (if_pos phase).trans (if_neg (Bool.eq_false_iff.1 free))

/-- With no transfer in progress the request is the repair engine's. -/
theorem Chip.allocationServed_job {c : Chip} {j : Job} (work : ∀ t, c.cmd.work ≠ .transfer t) (job : c.rep.job = some j)
    (st : c.rep.st = .allocate) (empty : c.seq.repair = .empty) (free : c.someTesting = false) :
    c.allocationServed = c.repairGo .serve j := by
  have serves : c.serveWaitingJob = c.repairGo .serve j := by
    unfold Chip.serveWaitingJob
    rw [job]
    exact if_pos ⟨st, empty, Bool.eq_false_iff.1 free⟩
  unfold Chip.allocationServed
  cases held : c.cmd.work with
  | transfer t => exact absurd held (work t)
  | none => exact serves
  | listing _ => exact serves
  | relocate _ => exact serves
  | patrolRestart => exact serves
  | patrolHalt => exact serves
  | commitWait => exact serves
  | commitRun _ _ => exact serves
  | format => exact serves

/-- The part when an allocation for this zone has failed (R106). -/
def Chip.unserved (c : Chip) (home : Nat) : Chip :=
  { c with alloc := (c.reportExhausted home).alloc, health := (c.reportExhausted home).health }

theorem Chip.policy_reportExhausted (c : Chip) (home : Nat) : (c.reportExhausted home).health.policy = c.health.policy := by
  unfold Chip.reportExhausted
  split
  · rfl
  · exact Chip.policy_of_requesters (Chip.requesters_raise _ _)

/-- A job whose allocation fails goes on from there. -/
theorem Chip.serveJob_unserved {c : Chip} {j : Job} (none_ : c.chooseSpare (homeZone j.row) = none) :
    c.serveJob j = (c.unserved (homeZone j.row)).jobUnserved j :=
  (Chip.serveJob_exhausted none_).trans (congrArg (fun d : Chip => d.jobUnserved j) (c.reportExhausted_shape _))

/-- The row's entry becomes STARVED with no restarts (R95, R97, R111). -/
theorem Chip.setStarved_setRestarts_eq (c : Chip) (l : Nat) :
    (c.setStarved l).setRestarts l 0 = { c with
      trk := { c.trk with pendingList := c.trk.pendingList.map fun (e : PendingEntry) =>
        if e.row = l then { e with starved := true, restarts := 0 } else e }
      dir := c.setDirty.dir } := by
  unfold Chip.setStarved
  rw [Chip.setDirty_congr (c := c) (d := c.updatePending l fun e => { e with starved := true }) rfl rfl]
  refine congrArg (fun list : List PendingEntry =>
    ({ c with trk := { c.trk with pendingList := list }, dir := c.setDirty.dir } : Chip)) ?_
  refine List.map_map.trans (List.map_congr_left fun e _ => ?_)
  by_cases own : e.row = l
  · simp only [Function.comp_apply, if_pos own]
  · simp only [Function.comp_apply, if_neg own]

section

variable {s : State}

/-- The step of an allocation served for write-repair. -/
theorem allocationServed_writeRepair {t : Transfer} {x : PhysRow} (work : s.cmd.work = .transfer t)
    (phase : t.phase = .repairWait) (free : s.someTesting = false) (phys : (s.lookup t.row).phys = some x)
    (unreadable : s.pendingUnc t.row = true) : s.toChip.allocationServed = s.toChip.allocateForWrite t :=
  (Chip.allocationServed_waiting work phase free).trans ((Chip.classify_unreadable phys unreadable).trans
    (Chip.beginWriteRepair_allocates free t))

/-- The half of O37 for write-repair that finds a spare. -/
theorem allocationServed_takes {t : Transfer} {x : PhysRow} {sp : SpareId} (work : s.cmd.work = .transfer t)
    (phase : t.phase = .repairWait) (free : s.someTesting = false) (idle : s.seq = Sequencer.reset)
    (phys : (s.lookup t.row).phys = some x) (unreadable : s.pendingUnc t.row = true)
    (chosen : s.chooseSpare (homeZone t.row) = some sp) :
    exec .allocationServed s = .next { s with
      alloc := (s.takeSpare sp).alloc, health := (s.takeSpare sp).health, bus := (s.takeSpare sp).bus
      cmd := { s.cmd with work := .transfer { t with phase := .repairQualify, spare := some sp } }
      seq := Sequencer.carrying (request (.repairQualify 0) sp.phys (some (patternRow 0xAAAA 0x5555))) } := by
  have act := (allocationServed_writeRepair work phase free phys unreadable).trans
    (Chip.allocateForWrite_takes chosen (congrArg Sequencer.foreground idle))
  rw [Chip.takeSpare_congr_bus (c := s.toChip) (d := s.toChip) rfl rfl] at act
  rw [exec_allocationServed]
  exact State.next_onChip_issue act idle rfl

/-- The half of O37 for write-repair that finds none. -/
theorem allocationServed_inPlace {t : Transfer} {x : PhysRow} (work : s.cmd.work = .transfer t)
    (phase : t.phase = .repairWait) (free : s.someTesting = false) (idle : s.seq = Sequencer.reset)
    (phys : (s.lookup t.row).phys = some x) (unreadable : s.pendingUnc t.row = true)
    (none_ : s.chooseSpare (homeZone t.row) = none) :
    exec .allocationServed s = .next { s with
      alloc := (s.reportExhausted (homeZone t.row)).alloc, health := (s.reportExhausted (homeZone t.row)).health
      cmd := { s.cmd with work := .transfer { t with phase := .inPlace } }
      tr := { s.tr with repairClaim := markClaim t.row s.tr.repairClaim, patrolClaim := markClaim t.row s.tr.patrolClaim }
      seq := Sequencer.carrying (request .inPlaceWrite x (some s.bus.buffer)) } := by
  have act := (allocationServed_writeRepair work phase free phys unreadable).trans
    (Chip.allocateForWrite_exhausted none_ phys (congrArg Sequencer.foreground idle))
  rw [Chip.reportExhausted_shape s.toChip] at act
  rw [exec_allocationServed]
  exact State.next_onChip_issue act idle rfl

end

/-- Settles O37: write-repair first, then the job by what a spare's want leaves it. -/
theorem allocationServedTakesASpareOrTheNoSparePath : Obligations.AllocationServedTakesASpareOrTheNoSparePath := by
  refine ⟨fun s t x sp work phase free idle phys unreadable chosen =>
      allocationServed_takes work phase free idle phys unreadable chosen,
    fun s t x work phase free idle phys unreadable none_ =>
      allocationServed_inPlace work phase free idle phys unreadable none_,
    fun s j job st idle free noTransfer spare goesOn => ?_⟩
  have serves : s.toChip.allocationServed = _ :=
    Chip.allocationServed_job noTransfer job st (congrArg Sequencer.repair idle) free
  have settled : s.seq.settled = true := by rw [idle]; rfl
  rw [exec_allocationServed]
  have stops : s.toChip.jobStops j = false := by simp [Chip.jobStops, goesOn]
  refine ⟨fun sp chosen => ?takes, fun none_ => ?unserved⟩
  case takes =>
    have act := serves.trans (Chip.repairRun_last (m := .serve) 7 (Chip.serveJob_takes chosen stops))
    rw [Chip.takeSpare_congr_bus (c := s.toChip) (d := s.toChip) rfl rfl] at act
    exact State.next_onChip_issue act idle rfl
  case unserved =>
    intro c ends
    let failed := s.toChip.unserved (homeZone j.row)
    have fails : s.toChip.repairMove .serve j = failed.jobUnserved j := Chip.serveJob_unserved none_
    have ended : ∀ {code : ResultCode}, s.toChip.repairMove .serve j = (failed.endJob j code, none) →
        (.next (s.onChip Chip.allocationServed) : Host.Outcome State Fault Refusal) = .next (ends code) := fun moves =>
      State.next_onChip (serves.trans ((Chip.repairRun_last 7 moves).trans (Chip.endJob_spareless _ spare goesOn))) settled
    refine ⟨fun retired => ended (fails.trans (Chip.jobUnserved_retired (c := failed) retired)),
      fun here gone => ended (fails.trans (Chip.jobUnserved_gone (c := failed) here gone)),
      fun e x pending phys => ?pending⟩
    have here := Lookup.ne_retired phys
    have discarded : j.discard = true → Chip.repairRun 8 (s.toChip, some (.serve, j)) =
        Chip.repairRun 7 (failed, some (.noSpare, j)) := fun discards =>
      Chip.repairRun_next 7 (fails.trans (Chip.jobUnserved_discards (c := failed) here pending discards))
    refine ⟨fun keeps readable => ?starves, fun keeps unc => ?unc, fun discards ours unc => ?zeros,
      fun discards ours readable => ?readable⟩
    case starves =>
      have moves := fails.trans (Chip.jobUnserved_starves (c := failed) here pending keeps readable)
      have policy : failed.health.policy = s.health.policy :=
        Chip.policy_reportExhausted s.toChip (homeZone j.row)
      have dirty : failed.setDirty.dir = s.setDirty.dir :=
        (congrArg Chip.dir (Chip.setDirty_congr (c := s.toChip) (d := failed) rfl policy) :)
      rw [Chip.setStarved_setRestarts_eq, dirty] at moves
      exact State.next_onChip (serves.trans ((Chip.repairRun_last 7 moves).trans
        (Chip.endJob_spareless _ spare (by exact goesOn)))) settled
    case unc =>
      have moves := fails.trans (Chip.jobUnserved_unc (c := failed) here pending keeps unc)
      exact State.next_onChip (serves.trans ((Chip.repairRun_last 7 moves).trans (Chip.endJob_spareless _ spare goesOn)))
        settled
    case zeros =>
      have act := serves.trans ((discarded discards).trans
        (Chip.repairRun_last (m := .noSpare) 6 (Chip.enterNoSpare_writes (c := failed) ours phys pending unc)))
      have rep : ({ s.rep with st := .allocate, job := some j } : RepairEngine) = s.rep := by rw [← st, ← job]
      rw [State.next_onChip_issue act idle ours]
      exact congrArg (fun r : RepairEngine => Host.Outcome.next { s with
        alloc := c.alloc, health := c.health, tr := { s.tr with patrolClaim := markClaim j.row s.tr.patrolClaim }
        rep := r, seq := Sequencer.carrying (request .zeroWrite x (some zeroRow)) }) rep
    case readable =>
      have act := serves.trans ((discarded discards).trans ((Chip.repairRun_next (m := .noSpare) 6
        (Chip.enterNoSpare_readable (c := failed) ours phys pending readable)).trans
        (Chip.repairRun_last (m := .source) 5 (Chip.enterSource_reads (c := failed) phys pending (.inr readable) stops))))
      exact State.next_onChip_issue act idle rfl

end Sys2Proof.Machine

/-! # Reads, scrubs and ordinary writes of a transfer go on (R30, R61 to R65, R68 to R70) -/

namespace Sys2Proof.Machine

/-! ## A row of CHECK ROWS is done -/

section

variable {c : Chip} {e : CommandEngine} {t : Transfer} {k : Option ResultCode} {n : Nat} {arr : Memory}

/-- The part when the command engine has ended with a transfer's registers. -/
def Chip.transferEnded (c : Chip) (e : CommandEngine) (u : Transfer) : Chip :=
  { c with cmd := e.finished u.code u.results, bus := c.bus.commandDone }

/-- The part when the row after a transfer's last done one is being read by CHECK ROWS. -/
def Chip.nextChecked (c : Chip) (e : CommandEngine) (u : Transfer) (y : PhysRow) : Chip :=
  { c with
    cmd := { e with
      results := { e.results with r0 := word u.done }, work := .transfer { u with row := u.row + 1, phase := .reading } }
    seq := Sequencer.carrying (request .checkRowsRead y none) }

theorem Chip.settle_transferEnded (idle : c.seq = Sequencer.reset) (u : Transfer) :
    Chip.settle 8 (c.transferEnded e u) = c.transferEnded e u := Chip.settle_ended idle

/-- An act that asks for one access at an idle port has it granted. -/
theorem Chip.settle_of_issue {a : Chip} {p : Purpose} {x : PhysRow} {d : Option (List Word)} (acts : a = c.issue p x d)
    (idle : c.seq = Sequencer.reset) (granted : c.conditionFails p = false) :
    a.settle 8 = { c with seq := Sequencer.carrying (request p x d) } := by
  rw [acts, Chip.settle_issue 7 idle _ _ _ granted]

theorem Chip.rowDone_ends (engine : c.cmd = e) (free : c.cmd.stopRequest = false) (idle : c.seq = Sequencer.reset)
    (last : t.last ≤ t.row) : (c.rowDone t k n).settle 8 = c.transferEnded e (t.count k n) := by
  subst engine
  rw [Chip.rowDone_last free last]
  exact Chip.settle_transferEnded idle _

/-- The next row, if it has a physical row, is read at once. -/
theorem Chip.rowDone_checks {y : PhysRow} (engine : c.cmd = e) (free : c.cmd.stopRequest = false)
    (idle : c.seq = Sequencer.reset) (kind : t.kind = .check) (more : t.row < t.last)
    (phys : (c.lookup (t.row + 1)).phys = some y) :
    (c.rowDone t k n).settle 8 = c.nextChecked e (t.count k n) y := by
  subst engine
  have begins := Chip.beginRow_check (n := 255) (c := c.setResult0 (t.done + 1))
    (t := { t.count k n with row := t.row + 1 }) ((Transfer.kind_count t k n).trans kind) phys
    (congrArg Sequencer.foreground idle)
  rw [Chip.settle_of_issue ((Chip.rowDone_next free more).trans begins) idle rfl]
  unfold Chip.nextChecked
  rw [Transfer.row_count, Transfer.done_count]
  rfl

/-- A RETIRED next row is counted without an access, and ends the command where it is the last. -/
theorem Chip.rowDone_retired_ends (engine : c.cmd = e) (free : c.cmd.stopRequest = false) (idle : c.seq = Sequencer.reset)
    (kind : t.kind = .check) (more : t.row < t.last) (retired : c.lookup (t.row + 1) = .retired)
    (last : t.last ≤ t.row + 1) :
    (c.rowDone t k n).settle 8 =
      c.transferEnded e (Transfer.count { t.count k n with row := t.row + 1 } (some .retired) 0) := by
  subst engine
  have ends := Chip.beginRow_check_retired_last (n := 255) (c := c.setResult0 (t.done + 1))
    (t := { t.count k n with row := t.row + 1 }) ((Transfer.kind_count t k n).trans kind) retired
    ((Transfer.last_count t k n).trans_le last)
  rw [Chip.rowDone_next free more, ends]
  exact Chip.settle_transferEnded idle _

/-- A RETIRED next row before the last is counted, and the row after it is read. -/
theorem Chip.rowDone_retired_checks {y : PhysRow} (engine : c.cmd = e) (free : c.cmd.stopRequest = false)
    (idle : c.seq = Sequencer.reset) (kind : t.kind = .check) (retired : c.lookup (t.row + 1) = .retired)
    (more : t.row + 1 < t.last) (phys : (c.lookup (t.row + 2)).phys = some y) :
    (c.rowDone t k n).settle 8 =
      c.nextChecked e (Transfer.count { t.count k n with row := t.row + 1 } (some .retired) 0) y := by
  subst engine
  have counts := Chip.beginRow_check_retired_next (n := 255) (c := c.setResult0 (t.done + 1))
    (t := { t.count k n with row := t.row + 1 }) ((Transfer.kind_count t k n).trans kind) retired
    (more.trans_eq (Transfer.last_count t k n).symm)
  have begins := Chip.beginRow_check (n := 254) (c := (c.setResult0 (t.done + 1)).setResult0 ((t.count k n).done + 1))
    (t := { Transfer.count { t.count k n with row := t.row + 1 } (some .retired) 0 with row := t.row + 1 + 1 })
    ((Transfer.kind_count t k n).trans kind) phys (congrArg Sequencer.foreground idle)
  rw [Chip.settle_of_issue ((Chip.rowDone_next free (Nat.lt_of_succ_lt more)).trans (counts.trans begins)) idle rfl]
  rfl

end

/-- How CHECK ROWS goes on from a row that is done, as a statement of the step (R62, R64, R68). -/
theorem checkRows_goesOn {s : State} {c : Chip} {t : Transfer} {k : Option ResultCode} {n : Nat} {i : Instr} {arr : Memory}
    (acts : exec i s = .next { s with toChip := (c.rowDone t k n).settle 8, array := arr }) (engine : c.cmd = s.cmd)
    (map : c.tr = s.tr) (idle : c.seq = Sequencer.reset) (free : s.cmd.stopRequest = false) (kind : t.kind = .check) :
    let u := t.count k n
    (t.last ≤ t.row → exec i s = .next { s with array := arr, toChip := c.transferEnded s.cmd u })
      ∧ (∀ y, t.row < t.last → (s.lookup (t.row + 1)).phys = some y →
        exec i s = .next { s with array := arr, toChip := c.nextChecked s.cmd u y })
      ∧ (t.row < t.last → s.lookup (t.row + 1) = .retired →
        let v := Transfer.count { u with row := t.row + 1 } (some .retired) 0
        (t.last ≤ t.row + 1 → exec i s = .next { s with array := arr, toChip := c.transferEnded s.cmd v })
        ∧ ∀ y, t.row + 1 < t.last → (s.lookup (t.row + 2)).phys = some y →
          exec i s = .next { s with array := arr, toChip := c.nextChecked s.cmd v y }) := by
  intro u
  have free' : c.cmd.stopRequest = false := (congrArg CommandEngine.stopRequest engine).trans free
  have looks : ∀ l, c.lookup l = s.lookup l := fun l => Chip.lookup_congr map l
  refine ⟨fun last => ?_, fun y more phys => ?_, fun more retired => ⟨fun last => ?_, fun y after phys => ?_⟩⟩
  · rw [acts, Chip.rowDone_ends engine free' idle last]
  · rw [acts, Chip.rowDone_checks engine free' idle kind more ((congrArg Lookup.phys (looks _)).trans phys)]
  · rw [acts, Chip.rowDone_retired_ends engine free' idle kind more ((looks _).trans retired) last]
  · rw [acts, Chip.rowDone_retired_checks engine free' idle kind ((looks _).trans retired) after
      ((congrArg Lookup.phys (looks _)).trans phys)]

theorem Chip.reportRow_of_kind {c : Chip} {t : Transfer} {kind : TransferKind} {x : PhysRow} {d : Delivered}
    (h : t.kind = kind) : c.reportRow t x d =
      c.report { row := t.row, phys := x, outcome := d.outcome, path := kind.path, readBack := false } := by
  subst h
  rfl

section

variable {s : State} {c : Chip} {t : Transfer} {x : PhysRow} {d : Delivered} {i : Instr}

/-- A read whose scrub is due: it is issued (R65). -/
theorem rowRead_scrubs (acts : exec i s = .next { s with toChip := (s.toChip.portFreed.transferRead t x d).settle 8 })
    (due : s.toChip.portFreed.scrubs t.row x d.outcome = true) (free : s.cmd.stopRequest = false)
    (report : s.toChip.portFreed.reportRow t x d = c) :
    exec i s = .next { s with toChip := { c with
      cmd := { s.cmd with work := .transfer { t with phase := .scrubbing } }
      seq := Sequencer.carrying (request .scrubWrite x (some d.words)) } } := by
  have engine : c.cmd = s.cmd := (congrArg Chip.cmd report).symm.trans (Chip.cmd_report ..)
  have idle : c.seq = Sequencer.reset := (congrArg Chip.seq report).symm.trans (Chip.seq_report ..)
  have act := Chip.transferRead_scrubs (c := s.toChip.portFreed) due free
  rw [report] at act
  rw [acts, Chip.settle_of_issue act idle rfl, ← engine]
  rfl

/-- A read of READ ROWS with no scrub due is offered (R63). -/
theorem rowRead_offers (acts : exec i s = .next { s with toChip := (s.toChip.portFreed.transferRead t x d).settle 8 })
    (notDue : s.toChip.portFreed.scrubs t.row x d.outcome = false) (free : s.cmd.stopRequest = false)
    (kind : t.kind = .read) (report : s.toChip.portFreed.reportRow t x d = c) :
    exec i s = .next { s with toChip := { c with
      cmd := { s.cmd with st := .dataOut, work := .transfer { t with phase := .offering (.seen d.outcome) } }
      bus := { c.bus with buffer := d.words, pointer := 0 } } } := by
  have engine : c.cmd = s.cmd := (congrArg Chip.cmd report).symm.trans (Chip.cmd_report ..)
  have idle : c.seq = Sequencer.reset := (congrArg Chip.seq report).symm.trans (Chip.seq_report ..)
  have act := Chip.transferRead_of_not_due (c := s.toChip.portFreed) notDue
  rw [report, Chip.rowRead_offers kind ((congrArg CommandEngine.stopRequest engine).trans free)] at act
  have settled : (c.offerRow t (.seen d.outcome) d.words).seq.settled = true := congrArg Sequencer.settled idle
  rw [acts, act, Chip.settle_of_settled 8 settled, ← engine]
  rfl

/-- A read of CHECK ROWS with no scrub due: the row is done (R68). -/
theorem rowRead_checks (notDue : s.toChip.portFreed.scrubs t.row x d.outcome = false) (kind : t.kind = .check)
    (report : s.toChip.portFreed.reportRow t x d = c) :
    s.toChip.portFreed.transferRead t x d = c.rowDone t (RowKind.seen d.outcome).fail (RowKind.seen d.outcome).extra := by
  rw [Chip.transferRead_of_not_due notDue, report, Chip.rowRead_check kind]

end

/-! ## The statement -/

/-- Settles O43: the read of either command with its scrub due and not due, the scrub, and the ordinary write. -/
theorem rowReadsScrubsAndWritesGoOn : Obligations.RowReadsScrubsAndWritesGoOn := by
  intro s t x work free inArray ends reads goesOn
  refine ⟨fun flips => ?reads, fun ws => ⟨fun port => ⟨fun kind => ?scrubRead, fun kind => ?scrubCheck⟩, fun port kind =>
    ⟨fun more => ?nextWrite, fun last => ?lastWrite⟩⟩⟩
  case reads =>
    intro d reported scrubDue scrubs
    have notScrubs : ¬ scrubDue → s.toChip.portFreed.scrubs t.row x d.outcome = false := fun notDue =>
      Bool.eq_false_iff.2 fun due => notDue (Chip.scrubs_iff.1 due)
    have asRead : t.kind = .read → s.toChip.portFreed.reportRow t x d = reported .read := Chip.reportRow_of_kind
    have asCheck : t.kind = .check → s.toChip.portFreed.reportRow t x d = reported .check := Chip.reportRow_of_kind
    have kept : ∀ path, (reported path).cmd = s.cmd ∧ (reported path).tr = s.tr ∧ (reported path).seq = Sequencer.reset :=
      fun path => ⟨Chip.cmd_report .., Chip.tr_report .., Chip.seq_report ..⟩
    clear_value reported
    refine ⟨fun port kind => ⟨fun notDue => ?offers, fun due => ?readScrubs⟩, fun port kind =>
      ⟨fun notDue => ?checks, fun due => ?checkScrubs⟩⟩
    case offers =>
      exact rowRead_offers (c := reported .read) (d := d) (readRowsReadDone_at port inArray work) (notScrubs notDue) free
        kind (asRead kind)
    case readScrubs =>
      exact rowRead_scrubs (c := reported .read) (d := d) (readRowsReadDone_at port inArray work) (Chip.scrubs_iff.2 due)
        free (asRead kind)
    case checks =>
      have act := rowRead_checks (notScrubs notDue) kind (asCheck kind)
      obtain ⟨engine, map, idle⟩ := kept .check
      exact checkRows_goesOn ((checkRowsReadDone_at port inArray work).trans (by rw [act])) engine map idle free kind
    case checkScrubs =>
      exact rowRead_scrubs (c := reported .check) (d := d) (checkRowsReadDone_at port inArray work) (Chip.scrubs_iff.2 due)
        free (asCheck kind)
  case scrubRead =>
    have act : s.toChip.portFreed.scrubbed t ws = s.toChip.portFreed.offerRow t (.seen .corrected) ws :=
      Chip.rowRead_offers (c := s.toChip.portFreed) kind free _ _
    rw [scrubWriteDone_at port inArray work, act, Chip.settle_of_settled 8 rfl]
    rfl
  case scrubCheck =>
    have act : s.toChip.portFreed.scrubbed t ws = s.toChip.portFreed.rowDone t none 1 := Chip.rowRead_check kind _ _
    exact checkRows_goesOn (c := s.toChip.portFreed) ((scrubWriteDone_at port inArray work).trans (by rw [act])) rfl rfl rfl
      free kind
  case nextWrite =>
    rw [ordinaryWriteDone_at port inArray work, Chip.written, Chip.rowDone_next (c := s.toChip.portFreed) free more,
      Chip.beginRow_write (n := 255) (t := { t.count none 0 with row := t.row + 1 }) kind, Chip.settle_of_settled 8 rfl]
    rfl
  case lastWrite =>
    rw [ordinaryWriteDone_at port inArray work, Chip.written, Chip.rowDone_last (c := s.toChip.portFreed) free last,
      Chip.settle_ended rfl]
    rfl

end Sys2Proof.Machine

/-! # Write-repair and the no-spare paths go on (R74, R75, R77, R78, R85, R107, R118, R119) -/

namespace Sys2Proof.Machine

/-! ## Qualification and the data write -/

section

variable {s : State} {t : Transfer} {x : PhysRow} {sp : SpareId} {k : Nat} {d : Option (List Word)} {flips : RowPatch}

/-- The next qualification access into an empty slot (R74). -/
theorem Chip.qualifyForWrite_empty {c : Chip} (empty : c.seq.foreground = .empty) (spare : t.spare = some sp) (k : Nat) :
    c.qualifyForWrite t sp k =
      (c.putTransfer { t with phase := .repairQualify }).issue (.repairQualify k) sp.phys (qualificationData k) := by
  refine (Chip.issueForeground_empty (c := c.putTransfer { t with phase := .repairQualify, spare := some sp }) empty _ _
    _).trans ?_
  rw [← spare]

/-- A qualification access before the fourth that does not fail is followed by the next (R74, R107). -/
theorem writeRepair_qualifies (port : s.seq = Sequencer.carrying (request (.repairQualify k) x d))
    (work : s.cmd.work = .transfer t) (spare : t.spare = some sp) (free : s.cmd.stopRequest = false)
    (inArray : x.inArray s.devices = true) (before : k < 3)
    (passes : k % 2 = 0 ∨ (s.array.deliver x flips).passes (qualificationPattern k) = true) :
    exec (.writeRepairQualifyDone flips) s = .next { s with
      array := s.array.afterDone (request (.repairQualify k) x d)
      cmd := { s.cmd with work := .transfer { t with phase := .repairQualify } }
      seq := Sequencer.carrying (request (.repairQualify (k + 1)) sp.phys (qualificationData (k + 1))) } := by
  have act := (Chip.writeQualified_passes (c := s.toChip.portFreed) (t := t) (sp := sp) passes).trans
    ((if_neg (Bool.eq_false_iff.1 free)).trans ((if_pos before).trans
      (Chip.qualifyForWrite_empty (c := s.toChip.portFreed) rfl spare (k + 1))))
  rw [writeRepairQualifyDone_at port inArray work spare, Chip.settle_of_issue act rfl rfl]
  rfl

end

/-- Settles O44: access by access. -/
theorem writeRepairQualifiesAndWrites : Obligations.WriteRepairQualifiesAndWrites := by
  intro s t x sp flips work spare free inArray
  refine ⟨fun ws => ⟨fun port => ?first, fun port => ?third, fun port => ?data⟩, fun port passes => ?second,
    fun port passes here => ?fourth⟩
  case first => exact writeRepair_qualifies port work spare free inArray (by decide) (.inl rfl)
  case third => exact writeRepair_qualifies port work spare free inArray (by decide) (.inl rfl)
  case second => exact writeRepair_qualifies port work spare free inArray (by decide) (.inr passes)
  case data =>
    have act : s.toChip.portFreed.spareWritten t sp =
        (s.toChip.portFreed.putTransfer { t with phase := .repairVerify }).issue .repairVerify sp.phys none :=
      if_neg (Bool.eq_false_iff.1 free)
    rw [writeRepairDataWriteDone_at port inArray work spare, Chip.settle_of_issue act rfl rfl]
    rfl
  case fourth =>
    have present : ¬ s.toChip.portFreed.isRetired t.row = true := fun retired => here (of_decide_eq_true retired)
    have act := (Chip.writeQualified_passes (c := s.toChip.portFreed) (t := t) (sp := sp) (.inr passes)).trans
      ((if_neg (Bool.eq_false_iff.1 free)).trans ((if_neg (Nat.lt_irrefl 3)).trans ((if_neg present).trans
        (Chip.hostWrite_empty (c := s.toChip.portFreed) rfl t .repairData .repairDataWrite sp.phys))))
    rw [writeRepairQualifyDone_at port inArray work spare, Chip.settle_of_issue act rfl rfl]
    rfl

/-! ## Read-backs -/

/-- The first part of O48: the in-place write and its read-back. -/
theorem inPlaceWriteIsReadBack {s : State} {t : Transfer} {x : PhysRow} {flips : RowPatch}
    (work : s.cmd.work = .transfer t) (inArray : x.inArray s.devices = true) :
    (∀ ws, s.seq = Sequencer.carrying (request .inPlaceWrite x (some ws)) →
        exec .inPlaceWriteDone s = .next { s with
          array := s.array.write x ws
          cmd := { s.cmd with work := .transfer { t with phase := .readBack } }
          seq := Sequencer.carrying (request .readBack x none) })
      ∧ (s.seq = Sequencer.carrying (request .readBack x none) → s.cmd.stopRequest = false → t.last ≤ t.row →
        let d := s.array.deliver x flips
        d.outcome ≠ .uncorrectable →
          let c := s.portFreed.report { row := t.row, phys := x, outcome := d.outcome, path := .write, readBack := true }
          let u := t.count none 0
          exec (.readBackDone flips) s = .next { s with toChip := { c with
            cmd := s.cmd.finished u.code u.results, bus := c.bus.commandDone } }) := by
  refine ⟨fun ws port => ?_, fun port free last => ?_⟩
  · have act : s.toChip.portFreed.writtenInPlace t x =
        (s.toChip.portFreed.putTransfer { t with phase := .readBack }).issue .readBack x none := rfl
    rw [inPlaceWriteDone_at port inArray work, Chip.settle_of_issue act rfl rfl]
    rfl
  · intro d readable c u
    have engine : c.cmd = s.cmd := Chip.cmd_report ..
    rw [readBackDone_at port inArray work, Chip.writeReadBack_readable readable]
    exact congrArg (fun a : Chip => Host.Outcome.next { s with toChip := a })
      (Chip.rowDone_ends (c := c) engine ((congrArg CommandEngine.stopRequest engine).trans free) (Chip.seq_report ..) last)

/-- The part after the job of RELOCATE ROW has ended with a result (R118). -/
def Chip.jobEnded (c : Chip) (row madeBad : Nat) (code : ResultCode) : Chip :=
  { c with
    tr := { c.tr with repairClaim := none }, rep := { c.rep with st := .idle, job := none }
    bus := c.bus.commandDone
    cmd := c.cmd.finished code ⟨word (c.lookup row).code, (c.lookup row).targetWord, word madeBad, 0⟩ }

theorem Chip.endJob_command {c : Chip} {j : Job} (code : ResultCode) (spare : j.spare = none) (command : j.command = true)
    (free : c.cmd.stopRequest = false) : c.endJob j code = c.jobEnded j.row j.madeBad code := by
  rw [Chip.endJob_spareless code spare free, if_pos command, if_pos command]
  rfl

/-- The second part of O48: the zero write and its read-back. -/
theorem zeroWriteIsReadBack {s : State} {j : Job} {x : PhysRow} {ws : List Word} {flips : RowPatch}
    (job : s.rep.job = some j) (spare : j.spare = none) (command : j.command = true) (free : s.cmd.stopRequest = false)
    (inArray : x.inArray s.devices = true) :
    (s.seq = Sequencer.carrying (request .zeroWrite x (some ws)) →
        exec .zeroWriteDone s = .next { s with
          array := s.array.write x ws, seq := Sequencer.carrying (request .zeroReadBack x none) })
      ∧ (s.seq = Sequencer.carrying (request .zeroReadBack x none) → claimMarked s.tr.repairClaim = false →
        let d := s.array.deliver x flips
        d.outcome ≠ .uncorrectable →
          let c := s.portFreed.report { row := j.row, phys := x, outcome := d.outcome, path := .write, readBack := true }
          exec (.zeroReadBackDone flips) s = .next { s with toChip := { c with
            tr := { c.tr with repairClaim := none }, rep := { s.rep with st := .idle, job := none }
            bus := c.bus.commandDone
            cmd := s.cmd.finished .dataLost
              ⟨word (c.lookup j.row).code, (c.lookup j.row).targetWord, word j.madeBad, 0⟩ } }) := by
  refine ⟨fun port => ?_, fun port ours => ?_⟩
  · rw [zeroWriteDone_at port inArray, Chip.zeroWritten, Chip.settle_issue 7 rfl _ _ _ rfl]
    rfl
  · intro d readable c
    have engine : c.cmd = s.cmd := Chip.cmd_report ..
    have repair : c.rep = s.rep := Chip.rep_report ..
    have idle : c.seq = Sequencer.reset := Chip.seq_report ..
    have act := (Chip.zeroReadBack_readable (c := s.toChip.portFreed) (j := j) (p := x) ours readable).trans
      (Chip.endJob_command (c := c) .dataLost spare command ((congrArg CommandEngine.stopRequest engine).trans free))
    have settled : (c.jobEnded j.row j.madeBad .dataLost).seq.settled = true := congrArg Sequencer.settled idle
    rw [zeroReadBackDone_at port inArray job, act, Chip.settle_of_settled 8 settled, ← engine, ← repair]
    rfl

/-- Settles O48: the two writes with their read-backs, and the two read-backs that cannot be read. -/
theorem readBacksEndTheNoSparePaths : Obligations.ReadBacksEndTheNoSparePaths := by
  refine ⟨fun s t x flips work inArray => inPlaceWriteIsReadBack work inArray,
    fun s j x ws flips job spare command free inArray => zeroWriteIsReadBack job spare command free inArray,
    fun s t x flips work inArray port free last unreadable => ?row,
    fun s j x flips job spare command work free inArray port ours unreadable => ?job⟩
  case row =>
    intro c r u
    have engine : c.cmd = s.cmd := Chip.cmd_report ..
    have transfers : c.cmd.work ≠ .commitWait := by rw [engine, work]; exact Work.noConfusion
    have kept : r.1.cmd = s.cmd := (Chip.retireOrStick_keeps_work t.row .write transfers).1.trans engine
    have act : s.toChip.portFreed.writeReadBack t x (s.array.deliver x flips) = r.1.transferEnded s.cmd u := by
      refine (Chip.writeReadBack_unreadable (c := s.toChip.portFreed) (t := t) (p := x) unreadable).trans
        ((Chip.rowDone_last (c := r.1) (by rw [kept]; exact free) last).trans ?_)
      rw [kept]
      rfl
    rw [readBackDone_at port inArray work, act]
    rfl
  case job =>
    intro c r
    have engine : c.cmd = s.cmd := Chip.cmd_report ..
    have repair : c.rep = s.rep := Chip.rep_report ..
    obtain ⟨keptEngine, keptRepair⟩ := Chip.retireOrStick_keeps_work (c := c) j.row .host (by rw [engine]; exact work)
    have free' : r.1.cmd.stopRequest = false := by rw [keptEngine, engine]; exact free
    have act := (Chip.zeroReadBack_unreadable (c := s.toChip.portFreed) (j := j) (p := x) ours unreadable).trans
      (Chip.endJob_command (c := r.1) (if r.2 = .tableFull then .noSpare else .retired) spare command free')
    rw [zeroReadBackDone_at port inArray job, act, ← engine, ← repair, ← keptEngine, ← keptRepair]
    rfl

end Sys2Proof.Machine

/-! # Map changes (R13 to R16, R75, R76, R78, R101, R103, R113) -/

namespace Sys2Proof.Machine

/-! ## Where the row is found -/

/-- The answer of a lookup that finds an entry with this place (R12). -/
def Placement.answer : Placement → Lookup
  | .spared t => .spared t
  | .retired => .retired

theorem Chip.lookup_of_entry {c : Chip} {l : Nat} {e : RemapEntry} (entry : c.entryOf l = some e) :
    c.lookup l = e.place.answer := by
  unfold Chip.lookup
  rw [entry]
  cases place : e.place <;> simp [place, Placement.answer]

theorem Chip.exists_entry_of_spared {c : Chip} {l : Nat} {sp : SpareId} (spared : c.lookup l = .spared sp) :
    ∃ e ∈ c.tr.remap, e.row = l := by
  cases entry : c.entryOf l with
  | none =>
    unfold Chip.lookup at spared
    rw [entry] at spared
    exact Lookup.noConfusion spared
  | some e =>
    have own := List.find?_some (p := fun e : RemapEntry => decide (e.row = l)) entry
    exact ⟨e, List.mem_of_find?_eq_some entry, of_decide_eq_true own⟩

theorem Chip.relocateTo_eq {c : Chip} {l : Nat} {sp : SpareId} {o : Origin} {oldBad : Bool}
    (spared : c.isSpared l = oldBad) :
    c.relocateTo l sp o = (c.mapUpdate l sp o).raise (.repaired l (homeZone l) sp oldBad) := by
  subst spared
  rfl

/-- A row that is not RETIRED, with room for its entry, is retired (R15). -/
theorem Chip.retireOrStick_retires {c : Chip} {l : Nat} (o : Origin) (here : c.lookup l ≠ .retired)
    (room : c.retiredCount < 128) : c.retireOrStick l o = ((c.retireRow l o).raise (.retired l), .retired) :=
  (if_neg fun retired => here (of_decide_eq_true retired)).trans (if_neg (Nat.not_le.2 room))

/-- With 128 RETIRED entries its pending entry is STUCK (R15, R78). -/
theorem Chip.retireOrStick_sticks {c : Chip} {l : Nat} (o : Origin) (here : c.lookup l ≠ .retired)
    (full : 128 ≤ c.retiredCount) : c.retireOrStick l o = ((c.setStuck l).raise (.stuck l), .tableFull) :=
  (if_neg fun retired => here (of_decide_eq_true retired)).trans (if_pos full)

/-! ## The zones of a change -/

section

variable {c : Chip} {g : Nat}

theorem Chip.zones_setSpare (c : Chip) (t : SpareId) (st : SpareState) :
    (c.setSpare t st).alloc.zones.length = c.alloc.zones.length := Chip.zones_modifyZone ..

theorem Chip.zones_countBorrow (c : Chip) (l : Nat) (t : SpareId) (f : Nat → Nat) :
    (c.countBorrow l t f).alloc.zones.length = c.alloc.zones.length := by
  unfold Chip.countBorrow
  split
  · rfl
  · exact (Chip.zones_modifyZone ..).trans (Chip.zones_modifyZone ..)

/-- A spare enters or leaves a row's service: its state, and the counts of lent and borrowed spares (R13, R14, R103). -/
theorem Chip.zone_service (l : Nat) (t : SpareId) (st : SpareState) (f : Nat → Nat) (h : g < c.alloc.zones.length) :
    let z := ((c.setSpare t st).countBorrow l t f).zone g
    z.spares = (if g = t.globalZone then (c.zone g).spares.set t.index.val st else (c.zone g).spares)
      ∧ z.lentOut = (if g = t.globalZone ∧ g ≠ homeZone l then f (c.zone g).lentOut else (c.zone g).lentOut)
      ∧ z.borrowedIn =
        (if g = homeZone l ∧ t.globalZone ≠ homeZone l then f (c.zone g).borrowedIn else (c.zone g).borrowedIn)
      ∧ z.retiredRows = (c.zone g).retiredRows := by
  intro z
  obtain ⟨spares, lent, borrowed, retired⟩ := Chip.counts_setSpare t st h
  have zone : z = _ := Chip.zone_countBorrow l t f ((Chip.zones_setSpare c t st).symm ▸ h)
  rw [zone, lent, borrowed]
  exact ⟨spares, rfl, rfl, retired⟩

theorem ite_add_one (p : Prop) [Decidable p] (n : Nat) : (if p then n + 1 else n) = n + if p then 1 else 0 := by
  split <;> rfl

theorem ite_sub_one (p : Prop) [Decidable p] (n : Nat) : (if p then n - 1 else n) = n - if p then 1 else 0 := by
  split <;> rfl

/-- The zones after a relocation, by those once an old target has gone (R13, R14, R103). -/
theorem Chip.zone_takenInto {b : Chip} (l : Nat) (sp : SpareId) (h : g < b.alloc.zones.length) {d : Chip}
    (alloc : d.alloc = ((b.setSpare sp .inUse).countBorrow l sp (· + 1)).alloc) :
    (d.zone g).spares = (if g = sp.globalZone then (b.zone g).spares.set sp.index.val .inUse else (b.zone g).spares)
      ∧ (d.zone g).lentOut = (b.zone g).lentOut + (if g = sp.globalZone ∧ g ≠ homeZone l then 1 else 0)
      ∧ (d.zone g).borrowedIn = (b.zone g).borrowedIn + (if g = homeZone l ∧ sp.globalZone ≠ homeZone l then 1 else 0)
      ∧ (d.zone g).retiredRows = (b.zone g).retiredRows := by
  obtain ⟨spares, lent, borrowed, retired⟩ := Chip.zone_service l sp .inUse (· + 1) h
  rw [Chip.zone_congr alloc g]
  exact ⟨spares, lent.trans (ite_add_one _ _), borrowed.trans (ite_add_one _ _), retired⟩

/-- The zones once an old target is BAD and no longer lent or borrowed (R14, R15). -/
theorem Chip.zone_dropTarget (l : Nat) (old : SpareId) (h : g < c.alloc.zones.length) :
    let z := (c.dropTarget l old).zone g
    z.spares = (if g = old.globalZone then (c.zone g).spares.set old.index.val .bad else (c.zone g).spares)
      ∧ z.lentOut = (c.zone g).lentOut - (if g = old.globalZone ∧ g ≠ homeZone l then 1 else 0)
      ∧ z.borrowedIn = (c.zone g).borrowedIn - (if g = homeZone l ∧ old.globalZone ≠ homeZone l then 1 else 0)
      ∧ z.retiredRows = (c.zone g).retiredRows := by
  obtain ⟨spares, lent, borrowed, retired⟩ := Chip.zone_service l old .bad (· - 1) h
  exact ⟨spares, lent.trans (ite_sub_one _ _), borrowed.trans (ite_sub_one _ _), retired⟩

theorem Chip.zones_dropTarget (c : Chip) (l : Nat) (old : SpareId) :
    (c.dropTarget l old).alloc.zones.length = c.alloc.zones.length :=
  (Chip.zones_countBorrow ..).trans (Chip.zones_setSpare ..)

end

/-! ## The relocation of a row at home -/

/-- Settles O45: the verify read that passes, and what a relocation from the home row leaves. -/
theorem relocationMovesTheRow : Obligations.RelocationMovesTheRow := by
  refine ⟨fun s t x sp flips work spare free inArray here few last port passes => ?verified, fun c l sp o h home => ?moved⟩
  case verified =>
    intro c u
    obtain ⟨idle, engine, _⟩ := Chip.relocateTo_requesters (c := s.toChip.portFreed) t.row sp .write few
    rw [writeRepairVerifyDone_at port inArray work spare,
      Chip.spareVerified_relocates (c := s.toChip.portFreed) passes here,
      Chip.rowDone_ends (t := { t with spare := none }) engine ((congrArg CommandEngine.stopRequest engine).trans free) idle
        last]
    rfl
  case moved =>
    intro d home'
    obtain ⟨X, b, change, map, list, _, _, _, alloc⟩ := Chip.relocateTo_shape c l sp o
    have same : d = (Chip.mapChange c X l).raise b := change
    obtain ⟨zones, entry, others, _, pending, patrol, repair, changes⟩ :=
      Chip.change_of_map c X l _ o b map (congrArg ErrorTracker.pendingList list)
    rw [← same] at zones entry others pending patrol repair changes
    rw [home] at alloc
    refine ⟨Chip.lookup_of_entry entry, entry, others, pending, patrol, repair, changes, Chip.relocateTo_eq ?_,
      fun g exists_ => Chip.zone_takenInto l sp exists_ (zones.trans alloc)⟩
    unfold Chip.isSpared
    rw [home]

/-! ## Retirement -/

/-- The pending entry of a row becomes STUCK (R78, R95). -/
theorem Chip.setStuck_eq {c : Chip} {l : Nat} {e : PendingEntry} (pending : c.pendingOf l = some e) :
    c.setStuck l = { c with
      trk := { c.trk with pendingList := c.trk.pendingList.map fun (e : PendingEntry) =>
        if e.row = l then { e with stuck := true } else e }
      dir := c.setDirty.dir, health := (c.setStuck l).health, bus := (c.setStuck l).bus } := by
  let stuck : Chip := { c with
    trk := { c.trk with pendingList := c.trk.pendingList.map fun (e : PendingEntry) =>
      if e.row = l then { e with stuck := true } else e }
    dir := c.setDirty.dir }
  have regrades : c.setStuck l = stuck.regradeDevice := by
    unfold Chip.setStuck
    rw [pending]
    exact congrArg Chip.regradeDevice (Chip.setDirty_congr (c := c) rfl rfl)
  have shape : stuck.regradeDevice = { stuck with
      health := stuck.regradeDevice.health, bus := stuck.regradeDevice.bus } := by
    unfold Chip.regradeDevice Chip.raise
    split
    · rfl
    · split <;> rfl
  rw [regrades]
  exact shape

theorem Chip.setStuck_of_none {c : Chip} {l : Nat} (new : c.pendingOf l = none) : c.setStuck l = c := by
  unfold Chip.setStuck
  rw [new]

/-- A change of a row's entry that is not there. -/
theorem Chip.map_pending_of_none {c : Chip} {l : Nat} (new : c.pendingOf l = none) (f : PendingEntry → PendingEntry) :
    (c.trk.pendingList.map fun e => if e.row = l then f e else e) = c.trk.pendingList := by
  refine (List.map_congr_left fun e member => ?_).trans (List.map_id _)
  exact if_neg fun own => List.find?_eq_none.1 new e member (decide_eq_true own)

/-- What a stuck row leaves of the part (R15, R78, R95). -/
theorem Chip.raise_setStuck {c d : Chip} {l : Nat} (same : d = (c.setStuck l).raise (.stuck l)) :
    d.tr = c.tr ∧ d.alloc = c.alloc ∧ d.trk.watch = c.trk.watch
      ∧ d.trk.pendingList = c.trk.pendingList.map (fun e => if e.row = l then { e with stuck := true } else e)
      ∧ (c.pendingOf l ≠ none → d.dir = c.setDirty.dir) ∧ (c.pendingOf l = none → d.dir = c.dir) := by
  obtain ⟨alloc, trk, tr, dir, _⟩ := Chip.raise_keeps (c.setStuck l) (.stuck l)
  rw [← same] at alloc trk tr dir
  rw [alloc, trk, tr, dir]
  cases pending : c.pendingOf l with
  | none =>
    rw [Chip.setStuck_of_none pending]
    exact ⟨rfl, rfl, rfl, (Chip.map_pending_of_none pending _).symm, fun some_ => absurd rfl some_, fun _ => rfl⟩
  | some e =>
    rw [Chip.setStuck_eq pending]
    exact ⟨rfl, rfl, rfl, rfl, fun _ => rfl, fun none_ => absurd none_ (Option.some_ne_none e)⟩

/-- Settles O46: with room in the map, with none, and for a row RETIRED already. -/
theorem retirementMarksTheRow : Obligations.RetirementMarksTheRow := by
  intro c l o d
  refine ⟨fun h home room => ?retires, fun here full => ?sticks, fun retired => if_pos (decide_eq_true retired)⟩
  case retires =>
    have here : c.lookup l ≠ .retired := by rw [home]; exact Lookup.noConfusion
    obtain ⟨answer, X, b, change, map, list, watch, _, _, _, alloc⟩ := Chip.retireOrStick_shape c l o here room
    have same : d = (Chip.mapChange c X l).raise b := change
    obtain ⟨zones, entry, others, _, pending, patrol, repair, changes⟩ := Chip.change_of_map c X l _ o b map list
    have watched := (Chip.watch_of_map c X l b).trans watch
    rw [← same] at zones entry others pending patrol repair changes watched
    rw [home] at alloc
    refine ⟨answer, Chip.lookup_of_entry entry, entry, others, pending, patrol, watched, repair, changes,
      congrArg Prod.fst (Chip.retireOrStick_retires o here room), fun g exists_ => ?_⟩
    rw [Chip.zone_congr (zones.trans alloc) g, Chip.zone_modifyZone_eq _ _ exists_]
    split <;> rfl
  case sticks =>
    have sticks := Chip.retireOrStick_sticks o here full
    have same : d = (c.setStuck l).raise (.stuck l) := congrArg Prod.fst sticks
    obtain ⟨tr, alloc, watch, list, dirty, clean⟩ := Chip.raise_setStuck same
    exact ⟨congrArg Prod.snd sticks, tr, alloc, same, watch, list, dirty, clean⟩

/-! ## A row served by a spare -/

/-- Dirty and its timer are all of the directory unit that setting dirty changes (R143, R144). -/
theorem Chip.dir_setDirty (c : Chip) :
    ∃ timer, c.setDirty.dir = { c.dir with dirty := true, commitTimer := timer } := by
  unfold Chip.setDirty
  split
  case isTrue dirty => exact ⟨c.dir.commitTimer, by rw [← dirty]⟩
  case isFalse => exact ⟨_, rfl⟩

/-- What the count of changes and the trigger see of a map change: the count, the port and the directory unit before it. -/
def Chip.ChangesMap (c d : Chip) (l : Nat) : Prop :=
  ∃ X b, d = (Chip.mapChange c X l).raise b ∧ X.tr.changes = min 16 (c.tr.changes + 1) ∧ X.seq = c.seq ∧ X.dir = c.dir

theorem Chip.relocateTo_changesMap (c : Chip) (l : Nat) (sp : SpareId) (o : Origin) :
    Chip.ChangesMap c (c.relocateTo l sp o) l := by
  obtain ⟨X, b, change, map, _, port, dir, _⟩ := Chip.relocateTo_shape c l sp o
  exact ⟨X, b, change, congrArg Translator.changes map, port, dir⟩

theorem Chip.retireOrStick_changesMap {c : Chip} {l : Nat} (o : Origin) (here : c.lookup l ≠ .retired)
    (room : c.retiredCount < 128) : Chip.ChangesMap c (c.retireOrStick l o).1 l := by
  obtain ⟨_, X, b, change, map, _, _, port, dir, _⟩ := Chip.retireOrStick_shape c l o here room
  exact ⟨X, b, change, congrArg Translator.changes map, port, dir⟩

/-- The part a map change leaves before its trigger. -/
theorem Chip.ChangesMap.before_trigger {c d : Chip} {l : Nat} (change : Chip.ChangesMap c d l) :
    ∃ (y : Chip) (b : NoticeBody) (timer : Option Nat), d = (if c.tr.changes + 1 = 16 then y.trigger else y).raise b
      ∧ y.tr.changes = min 16 (c.tr.changes + 1) ∧ y.seq = c.seq
      ∧ y.dir = { c.dir with dirty := true, commitTimer := timer } := by
  obtain ⟨X, b, same, changes, port, dir⟩ := change
  obtain ⟨_, map, port', _, _, _, dir', _⟩ := Chip.change_tail X l
  obtain ⟨timer, dirty⟩ := Chip.dir_setDirty X
  exact ⟨_, b, timer, same, (congrArg Translator.changes map).trans changes, port'.trans port,
    (dir'.trans dirty).trans (by rw [dir])⟩

/-- The sixteenth change triggers a commit, and a count of 16 stays (R16, R145). -/
theorem Chip.ChangesMap.triggers {c d : Chip} {l : Nat} (change : Chip.ChangesMap c d l) (inService : c.inService = true) :
    (c.tr.changes = 15 → c.dir.mode = .committing →
        d.tr.changes = 16 ∧ d.dir.mode = .committing ∧ d.dir.commitRequest = true)
      ∧ (c.tr.changes = 15 → c.dir.mode = .idle → c.highestSeq ≠ 0xFFFFFFFF → c.seq.directory = .empty →
        d.tr.changes = 0 ∧ d.dir.mode = .committing ∧ d.dir.dirty = false
        ∧ d.dir.commit = some {
            target := c.commitTarget, seq := c.highestSeq + 1, index := 0, reading := false, detached := false
            ofFormat := false }
        ∧ ∃ ws, d.seq.directory = .waiting (request .commitWrite (c.commitTarget.phys 0) (some ws)))
      ∧ (c.tr.changes = 16 →
        d.tr.changes = 16 ∧ d.dir.mode = c.dir.mode ∧ d.dir.commitRequest = c.dir.commitRequest ∧ d.seq = c.seq) := by
  obtain ⟨y, b, timer, same, changes, port, dir⟩ := change.before_trigger
  have service : y.inService = true := by unfold Chip.inService at inService ⊢; rw [dir]; exact inService
  have kept := Chip.raise_keeps (if c.tr.changes + 1 = 16 then y.trigger else y) b
  obtain ⟨_, _, trOf, dirOf, seqOf⟩ := kept
  rw [← same] at trOf dirOf seqOf
  rw [trOf, dirOf, seqOf]
  refine ⟨fun last mode => ?committing, fun last mode room _ => ?idle, fun full => ?full⟩
  case committing =>
    rw [if_pos (by rw [last]), Chip.trigger_committing service (by rw [dir]; exact mode)]
    exact ⟨changes.trans (by rw [last]; rfl), by rw [dir]; exact mode, rfl⟩
  case idle =>
    have highest : y.highestSeq = c.highestSeq := by unfold Chip.highestSeq; rw [dir]
    have target : y.commitTarget = c.commitTarget := by unfold Chip.commitTarget; rw [dir]
    rw [if_pos (by rw [last]), Chip.trigger_idle service (by rw [dir]; exact mode),
      Chip.startCommit_begins (by rw [highest]; exact room) rfl, target, highest]
    exact ⟨rfl, rfl, rfl, rfl, _, rfl⟩
  case full =>
    rw [if_neg (by omega)]
    exact ⟨changes.trans (by rw [full]; rfl), by rw [dir], by rw [dir], port⟩

/-- Settles O47: a relocation and a retirement from a spare, and the trigger of either. -/
theorem sparedRowsLeaveTheirSpare : Obligations.SparedRowsLeaveTheirSpare := by
  refine ⟨fun c l old o spared ordered => ?leaves, fun c d l o inService change => ?triggers⟩
  case triggers =>
    rcases change with ⟨sp, rfl⟩ | ⟨here, room, rfl⟩
    · exact (Chip.relocateTo_changesMap c l sp o).triggers inService
    · exact (Chip.retireOrStick_changesMap o here room).triggers inService
  case leaves =>
    intro home lost back spoiled moved
    have here : c.lookup l ≠ .retired := by rw [spared]; exact Lookup.noConfusion
    have inside : ∀ g, g < c.alloc.zones.length → g < (c.dropTarget l old).alloc.zones.length := fun g exists_ =>
      (Chip.zones_dropTarget c l old).symm ▸ exists_
    refine ⟨fun sp => ?relocates, fun room => ?retires⟩
    case relocates =>
      intro d
      obtain ⟨X, b, change, map, list, _, _, _, alloc⟩ := Chip.relocateTo_shape c l sp o
      have same : d = (Chip.mapChange c X l).raise b := change
      obtain ⟨zones, entry, others, rows, pending, patrol, repair, changes⟩ :=
        Chip.change_of_map c X l _ o b map (congrArg ErrorTracker.pendingList list)
      rw [← same] at zones entry others rows pending patrol repair changes
      rw [spared] at alloc
      refine ⟨⟨Chip.lookup_of_entry entry, entry, others, rows ordered (Chip.exists_entry_of_spared spared), pending, patrol,
        repair, changes⟩, Chip.relocateTo_eq ?_, fun g exists_ => ?_⟩
      · unfold Chip.isSpared
        rw [spared]
      · obtain ⟨spares, lent, borrowed, retired⟩ := Chip.zone_takenInto l sp (inside g exists_) (zones.trans alloc)
        obtain ⟨oldSpares, oldLent, oldBorrowed, oldRetired⟩ := Chip.zone_dropTarget l old exists_
        rw [oldSpares] at spares
        rw [oldLent] at lent
        rw [oldBorrowed] at borrowed
        exact ⟨spares, lent, borrowed, retired.trans oldRetired⟩
    case retires =>
      intro d
      obtain ⟨answer, X, b, change, map, list, watch, _, _, _, alloc⟩ := Chip.retireOrStick_shape c l o here room
      have same : d = (Chip.mapChange c X l).raise b := change
      obtain ⟨zones, entry, others, rows, pending, patrol, repair, changes⟩ := Chip.change_of_map c X l _ o b map list
      have watched := (Chip.watch_of_map c X l b).trans watch
      rw [← same] at zones entry others rows pending patrol repair changes watched
      rw [spared] at alloc
      refine ⟨answer, ⟨Chip.lookup_of_entry entry, entry, others, rows ordered (Chip.exists_entry_of_spared spared), pending,
        patrol, repair, changes⟩, watched, fun g exists_ => ?_⟩
      obtain ⟨oldSpares, oldLent, oldBorrowed, oldRetired⟩ := Chip.zone_dropTarget l old exists_
      rw [Chip.zone_congr (zones.trans alloc) g, Chip.zone_modifyZone_eq _ _ (inside g exists_)]
      split
      · exact ⟨oldSpares, oldLent, oldBorrowed, congrArg (· + 1) oldRetired⟩
      · exact ⟨oldSpares, oldLent, oldBorrowed, oldRetired⟩

end Sys2Proof.Machine

/-! # A repair job's accesses go on (R101, R103, R107, R110 to R115, R118) -/

namespace Sys2Proof.Machine

/-! ## How a job goes on and ends with no STOP pending -/

section

variable {c : Chip} {j : Job}

theorem Chip.jobStops_eq_false (goesOn : j.command = true → c.cmd.stopRequest = false) : c.jobStops j = false := by
  unfold Chip.jobStops
  cases command : j.command with
  | false => rfl
  | true => exact goesOn command

/-- A job put in a state of the engine it is in flight in already. -/
theorem Chip.putJob_same (job : c.rep.job = some j) (st : RepairState) :
    c.putJob st j = { c with rep := { c.rep with st := st } } := by
  unfold Chip.putJob
  rw [← job]

theorem Chip.writeRepairActive_congr {d : Chip} (engine : d.cmd = c.cmd) : d.writeRepairActive = c.writeRepairActive := by
  unfold Chip.writeRepairActive
  rw [engine]

/-- The part after a job has ended with a result, the command being RELOCATE ROW's or not (R118). -/
def Chip.jobClosed (c : Chip) (j : Job) (code : ResultCode) : Chip :=
  { c with
    tr := { c.tr with repairClaim := none }, rep := { c.rep with st := .idle, job := none }
    bus := if j.command then c.bus.commandDone else c.bus
    cmd := if j.command then
        c.cmd.finished code ⟨word (c.lookup j.row).code, (c.lookup j.row).targetWord, word j.madeBad, 0⟩
      else c.cmd }

theorem Chip.jobClosed_eq {e : CommandEngine} {r : RepairEngine} {place : Lookup} (engine : c.cmd = e) (repair : c.rep = r)
    (found : c.lookup j.row = place) (code : ResultCode) :
    c.jobClosed j code = { c with
      tr := { c.tr with repairClaim := none }, rep := { r with st := .idle, job := none }
      bus := if j.command then c.bus.commandDone else c.bus
      cmd := if j.command then e.finished code ⟨word place.code, place.targetWord, word j.madeBad, 0⟩ else e } := by
  subst engine repair found
  rfl

theorem Chip.endJob_closes (goesOn : j.command = true → c.cmd.stopRequest = false) (code : ResultCode) :
    c.endJob j code = (Chip.giveBack j.spare c).jobClosed j code := by
  rw [← Chip.freeJobSpare_eq]
  unfold Chip.endJob
  cases command : j.command with
  | false =>
    unfold Chip.jobClosed
    rw [command]
    rfl
  | true =>
    unfold Chip.jobClosed
    rw [command, goesOn command]
    rfl

/-- Nothing is asked for when a job has ended. -/
theorem Chip.settle_endJob (goesOn : j.command = true → c.cmd.stopRequest = false) (code : ResultCode)
    (idle : c.seq = Sequencer.reset) : (c.endJob j code).settle 8 = (Chip.giveBack j.spare c).jobClosed j code := by
  rw [Chip.endJob_closes goesOn]
  refine Chip.settle_of_settled 8 ?_
  show (Chip.giveBack j.spare c).seq.settled = true
  rw [Chip.seq_giveBack, idle]
  rfl

end

theorem Chip.lookup_relocateTo (c : Chip) (l : Nat) (sp : SpareId) (o : Origin) :
    (c.relocateTo l sp o).lookup l = .spared sp := by
  obtain ⟨X, b, change, map, list, _⟩ := Chip.relocateTo_shape c l sp o
  obtain ⟨_, entry, _⟩ := Chip.change_of_map c X l _ o b map (congrArg ErrorTracker.pendingList list)
  rw [change]
  exact Chip.lookup_of_entry entry

/-! ## Source reads, qualification, copy and verify -/

section

variable {s : State} {j : Job} {x : PhysRow} {sp : SpareId} {flips : RowPatch}

/-- The first part of O56: a source read that can be read. -/
theorem sourceRead_goesOn (job : s.rep.job = some j) (goesOn : j.command = true → s.cmd.stopRequest = false)
    (port : s.seq = Sequencer.carrying (request .sourceRead x none)) (inArray : x.inArray s.devices = true) :
    let d := s.array.deliver x flips
    let c := s.portFreed.report { row := j.row, phys := x, outcome := d.outcome, path := j.origin, readBack := false }
    d.outcome ≠ .uncorrectable →
      (j.spare = none → s.writeRepairActive = false → s.someTesting = false → c.chooseSpare (homeZone j.row) = some sp →
        let c' := c.takeSpare sp
        exec (.sourceReadDone flips) s = .next { s with toChip := { c' with
          rep := { s.rep with st := .qualify, job := some { j with data := some d.words, spare := some sp } }
          seq := Sequencer.carrying (request (.qualification 0) sp.phys (some (patternRow 0xAAAA 0x5555))) } })
      ∧ (j.spare = some sp →
        exec (.sourceReadDone flips) s = .next { s with toChip := { c with
          rep := { s.rep with st := .copyWrite, job := some { j with data := some d.words } }
          seq := Sequencer.carrying (request .copyWrite sp.phys (some d.words)) } })
      ∧ (j.spare = none → s.writeRepairActive = true ∨ s.someTesting = true →
        exec (.sourceReadDone flips) s = .next { s with toChip := { c with
          rep := { s.rep with st := .allocate, job := some { j with data := some d.words } } } }) := by
  intro d c readable
  have engine : c.cmd = s.cmd := Chip.cmd_report ..
  have repair : c.rep = s.rep := Chip.rep_report ..
  have idle : c.seq = Sequencer.reset := Chip.seq_report ..
  have zones : c.alloc = s.alloc := Chip.alloc_report (c := s.toChip.portFreed) readable
  have stops : c.jobStops { j with data := some d.words } = false :=
    Chip.jobStops_eq_false fun command => (congrArg CommandEngine.stopRequest engine).trans (goesOn command)
  have active : c.writeRepairActive = s.writeRepairActive := Chip.writeRepairActive_congr engine
  have testing : c.someTesting = s.someTesting := congrArg (fun a : SpareAllocator =>
    a.zones.any fun z => decide (SpareState.testing ∈ z.spares)) zones
  have reads : s.toChip.portFreed.sourceRead j x d = Chip.repairRun 8 (c.withData { j with data := some d.words }) :=
    Chip.sourceRead_readable readable
  have done := sourceReadDone_at (flips := flips) port inArray job
  clear_value c
  refine ⟨fun spare open_ untested chosen => ?takes, fun spare => ?copies, fun spare held => ?waits⟩
  case takes =>
    intro c'
    rw [Chip.withData_spareless (j := { j with data := some d.words }) spare] at reads
    have act := reads.trans (Chip.allocate_serves 6 stops (active.trans open_) (testing.trans untested) chosen)
    have idle' : (c.takeSpare sp).seq = Sequencer.reset := (Chip.seq_takeSpare c sp).trans idle
    have repair' : (c.takeSpare sp).rep = s.rep := (Chip.rep_takeSpare c sp).trans repair
    rw [done, Chip.settle_of_issue act idle' rfl, ← repair']
    rfl
  case copies =>
    rw [Chip.withData_spare (j := { j with data := some d.words }) spare, Chip.repairRun_none, Chip.copyJob,
      Chip.issueJob_goesOn stops] at reads
    rw [done, Chip.settle_of_issue reads idle rfl, ← repair]
    rfl
  case waits =>
    rw [Chip.withData_spareless (j := { j with data := some d.words }) spare] at reads
    have holds : c.writeRepairActive || c.someTesting := by
      rw [active, testing]
      rcases held with h | h <;> simp [h]
    have act := reads.trans (Chip.repairRun_last (m := .allocate) 7 (Chip.enterAllocate_waits stops holds))
    have settled : (c.putJob .allocate { j with data := some d.words }).seq.settled = true :=
      congrArg Sequencer.settled idle
    rw [done, act, Chip.settle_of_settled 8 settled, ← repair]
    rfl

/-- A qualification access before the fourth that does not fail is followed by the next (R107, R112). -/
theorem job_qualifies {k : Nat} {d : Option (List Word)} (job : s.rep.job = some j)
    (goesOn : j.command = true → s.cmd.stopRequest = false) (spare : j.spare = some sp)
    (inArray : x.inArray s.devices = true) (port : s.seq = Sequencer.carrying (request (.qualification k) x d))
    (before : k < 3)
    (passes : k % 2 = 0 ∨ (s.array.deliver x flips).passes (qualificationPattern k) = true) :
    exec (.qualificationAccessDone flips) s = .next { s with
      array := s.array.afterDone (request (.qualification k) x d), rep := { s.rep with st := .qualify }
      seq := Sequencer.carrying (request (.qualification (k + 1)) sp.phys (qualificationData (k + 1))) } := by
  have act := (Chip.qualified_passes (c := s.toChip.portFreed) (j := j) (sp := sp) passes).trans ((if_pos before).trans
    (Chip.issueJob_goesOn (c := s.toChip.portFreed) (Chip.jobStops_eq_false goesOn) .qualify _ _ _))
  rw [Chip.putJob_same (c := s.toChip.portFreed) job] at act
  rw [qualificationAccessDone_at port inArray job spare, Chip.settle_of_issue act rfl rfl]
  rfl

/-- The second part of O56: the four qualification accesses and the copy after them. -/
theorem job_qualifiesThenCopies (job : s.rep.job = some j) (goesOn : j.command = true → s.cmd.stopRequest = false)
    (spare : j.spare = some sp) (inArray : x.inArray s.devices = true) :
    (∀ ws, (s.seq = Sequencer.carrying (request (.qualification 0) x (some ws)) →
          exec (.qualificationAccessDone flips) s = .next { s with
            array := s.array.write x ws, rep := { s.rep with st := .qualify }
            seq := Sequencer.carrying (request (.qualification 1) sp.phys none) })
        ∧ (s.seq = Sequencer.carrying (request (.qualification 2) x (some ws)) →
          exec (.qualificationAccessDone flips) s = .next { s with
            array := s.array.write x ws, rep := { s.rep with st := .qualify }
            seq := Sequencer.carrying (request (.qualification 3) sp.phys none) }))
      ∧ (s.seq = Sequencer.carrying (request (.qualification 1) x none) →
          (s.array.deliver x flips).passes (patternRow 0xAAAA 0x5555) = true →
          exec (.qualificationAccessDone flips) s = .next { s with
            rep := { s.rep with st := .qualify }
            seq := Sequencer.carrying (request (.qualification 2) sp.phys (some (patternRow 0x5555 0xAAAA))) })
      ∧ (s.seq = Sequencer.carrying (request (.qualification 3) x none) →
          (s.array.deliver x flips).passes (patternRow 0x5555 0xAAAA) = true →
          exec (.qualificationAccessDone flips) s = .next { s with
            rep := { s.rep with st := .copyWrite }
            seq := Sequencer.carrying (request .copyWrite sp.phys j.data) }) := by
  refine ⟨fun ws => ⟨fun port => ?first, fun port => ?third⟩, fun port passes => ?second, fun port passes => ?fourth⟩
  case first => exact job_qualifies job goesOn spare inArray port (by decide) (.inl rfl)
  case third => exact job_qualifies job goesOn spare inArray port (by decide) (.inl rfl)
  case second => exact job_qualifies job goesOn spare inArray port (by decide) (.inr passes)
  case fourth =>
    have act := (Chip.qualified_passes (c := s.toChip.portFreed) (j := j) (sp := sp) (.inr passes)).trans
      ((if_neg (Nat.lt_irrefl 3)).trans
        (Chip.issueJob_goesOn (c := s.toChip.portFreed) (Chip.jobStops_eq_false goesOn) .copyWrite _ _ _))
    rw [Chip.putJob_same (c := s.toChip.portFreed) job] at act
    rw [qualificationAccessDone_at port inArray job spare, Chip.settle_of_issue act rfl rfl]
    rfl

end

/-- Settles O56: the source read, the qualification, the copy and the verify. -/
theorem repairJobsReadQualifyCopyVerifyAndRelocate : Obligations.RepairJobsReadQualifyCopyVerifyAndRelocate := by
  refine ⟨fun s j x sp flips job goesOn port inArray => sourceRead_goesOn job goesOn port inArray,
    fun s j x sp flips job goesOn spare inArray => job_qualifiesThenCopies job goesOn spare inArray,
    fun s j x sp ws flips job goesOn spare inArray ours => ⟨fun port => ?copied, fun port data passes =>
      ⟨fun here few => ?relocates, fun retired => ?retired⟩⟩⟩
  case copied =>
    have act := (Chip.copied_verifies (c := s.toChip.portFreed) (j := j) (sp := sp) ours).trans
      (Chip.issueJob_goesOn (c := s.toChip.portFreed) (Chip.jobStops_eq_false goesOn) .verify _ _ _)
    rw [Chip.putJob_same (c := s.toChip.portFreed) job] at act
    rw [copyWriteDone_at port inArray job spare, Chip.settle_of_issue act rfl rfl]
    rfl
  case relocates =>
    intro c
    obtain ⟨idle, engine, repair⟩ := Chip.relocateTo_requesters (c := s.toChip.portFreed) j.row sp j.origin few
    have passes' : (s.array.deliver x flips).passes (j.data.getD zeroRow) = true := by rw [data]; exact passes
    have goesOn' : j.command = true → c.cmd.stopRequest = false := fun command =>
      (congrArg CommandEngine.stopRequest engine).trans (goesOn command)
    have found : c.lookup j.row = .spared sp := Chip.lookup_relocateTo ..
    rw [verifyReadDone_at port inArray job spare, Chip.verified_relocates (c := s.toChip.portFreed) passes' ours here,
      Chip.settle_endJob (j := { j with spare := none }) goesOn' _ idle]
    exact congrArg (fun d : Chip => Host.Outcome.next { s with toChip := d })
      (Chip.jobClosed_eq (c := c) (j := { j with spare := none }) engine repair found _)
  case retired =>
    intro c
    have passes' : (s.array.deliver x flips).passes (j.data.getD zeroRow) = true := by rw [data]; exact passes
    rw [verifyReadDone_at port inArray job spare, Chip.verified_retired (c := s.toChip.portFreed) passes' ours retired,
      Chip.settle_endJob (c := s.toChip.portFreed) goesOn _ rfl, spare]
    have same : c.requesters = s.toChip.portFreed.requesters := Chip.requesters_releaseSpare ..
    have found : c.lookup j.row = .retired := (Chip.lookup_congr (Chip.tr_of_requesters same) j.row).trans retired
    exact congrArg (fun d : Chip => Host.Outcome.next { s with toChip := d })
      (Chip.jobClosed_eq (c := c) (Chip.cmd_of_requesters same) (Chip.rep_of_requesters same) found .retired)

end Sys2Proof.Machine

/-! # Failed tests, overtaken and abandoned jobs (R101, R103, R107, R110, R112, R114, R115) -/

namespace Sys2Proof.Machine

/-! ## A spare that fails a test -/

theorem Chip.spoilSpare_eq (c : Chip) (t : SpareId) : c.spoilSpare t = { c with
    alloc := (c.setSpare t .bad).alloc, dir := c.setDirty.dir
    health := (c.raise (.spareBad t.globalZone t.index.val)).health } := by
  unfold Chip.spoilSpare
  rw [Chip.setDirty_congr (c := c) (d := c.setSpare t .bad) rfl rfl]
  exact Chip.raise_congr (c := c) (d := { c with alloc := (c.setSpare t .bad).alloc, dir := c.setDirty.dir }) rfl rfl _

/-- The first part of O57: what spoiling a spare changes. -/
theorem spoilSpare_changes (c : Chip) (t : SpareId) (exists_ : t.globalZone < c.alloc.zones.length) :
    let d := c.spoilSpare t
    (d.zone t.globalZone).spares = (c.zone t.globalZone).spares.set t.index.val .bad
      ∧ (∀ g, g ≠ t.globalZone → d.zone g = c.zone g) ∧ d.dir = c.setDirty.dir
      ∧ d.health = (c.raise (.spareBad t.globalZone t.index.val)).health
      ∧ d.bus = c.bus ∧ d.trk = c.trk ∧ d.cmd = c.cmd ∧ d.seq = c.seq ∧ d.tr = c.tr ∧ d.rep = c.rep ∧ d.pat = c.pat := by
  rw [Chip.spoilSpare_eq]
  exact ⟨Chip.spares_setSpare .bad exists_, fun g other => Chip.zone_setSpare_ne c .bad other, rfl, rfl, rfl, rfl, rfl, rfl,
    rfl, rfl, rfl⟩

section

variable {s : State} {x : PhysRow} {sp : SpareId} {flips : RowPatch} {i : Instr} {p : Purpose}

/-- A test of a job's spare that fails, as the engine's act (R107, R112). -/
theorem jobTest_fails {j : Job} (job : s.rep.job = some j) (spare : j.spare = some sp) (inArray : x.inArray s.devices = true)
    (port : s.seq = Sequencer.carrying (request p x none))
    (test : i = .qualificationAccessDone flips ∧ p = .qualification 1
          ∧ (s.array.deliver x flips).passes (patternRow 0xAAAA 0x5555) = false
        ∨ i = .qualificationAccessDone flips ∧ p = .qualification 3
            ∧ (s.array.deliver x flips).passes (patternRow 0x5555 0xAAAA) = false
        ∨ i = .verifyReadDone flips ∧ p = .verifyRead ∧ (s.array.deliver x flips).passes (j.data.getD zeroRow) = false) :
    exec i s = .next { s with toChip := (s.toChip.portFreed.failSpare j sp).settle 8 } := by
  rcases test with ⟨rfl, rfl, fails⟩ | ⟨rfl, rfl, fails⟩ | ⟨rfl, rfl, fails⟩
  · rw [qualificationAccessDone_at port inArray job spare, Chip.qualified_fails rfl fails]
    rfl
  · rw [qualificationAccessDone_at port inArray job spare, Chip.qualified_fails rfl fails]
    rfl
  · rw [verifyReadDone_at port inArray job spare, Chip.verified_fails fails]

/-- A test of write-repair's spare that fails, as the command's act (R74, R75). -/
theorem writeTest_fails {t : Transfer} (work : s.cmd.work = .transfer t) (spare : t.spare = some sp)
    (inArray : x.inArray s.devices = true) (port : s.seq = Sequencer.carrying (request p x none))
    (test : i = .writeRepairQualifyDone flips ∧ p = .repairQualify 1
          ∧ (s.array.deliver x flips).passes (patternRow 0xAAAA 0x5555) = false
        ∨ i = .writeRepairQualifyDone flips ∧ p = .repairQualify 3
            ∧ (s.array.deliver x flips).passes (patternRow 0x5555 0xAAAA) = false
        ∨ i = .writeRepairVerifyDone flips ∧ p = .repairVerify ∧ (s.array.deliver x flips).passes s.bus.buffer = false) :
    exec i s = .next { s with toChip := (s.toChip.portFreed.failWriteSpare t sp).settle 8 } := by
  rcases test with ⟨rfl, rfl, fails⟩ | ⟨rfl, rfl, fails⟩ | ⟨rfl, rfl, fails⟩
  · rw [writeRepairQualifyDone_at port inArray work spare, Chip.writeQualified_fails rfl fails]
    rfl
  · rw [writeRepairQualifyDone_at port inArray work spare, Chip.writeQualified_fails rfl fails]
    rfl
  · rw [writeRepairVerifyDone_at port inArray work spare, Chip.spareVerified_fails (c := s.toChip.portFreed) fails]

end

/-- Settles O57: the spare, and what its requester does next. -/
theorem failedTestsSpoilTheSpare : Obligations.FailedTestsSpoilTheSpare := by
  refine ⟨spoilSpare_changes, fun s j x sp flips i p job spare free inArray open_ port test => ?job,
    fun s t x sp flips i p work spare free inArray port test => ?writeRepair⟩
  case job =>
    intro c untested sp' chosen c'
    have same : c.requesters = s.toChip.portFreed.requesters := Chip.requesters_spoilSpare ..
    have engine : c.cmd = s.cmd := (Chip.cmd_of_requesters same :)
    have kept : c.rep = s.rep := (Chip.rep_of_requesters same :)
    have port' : c.seq = Sequencer.reset := Chip.seq_of_requesters same
    have stops : c.jobStops { j with spare := none, madeBad := j.madeBad + 1 } = false :=
      Chip.jobStops_eq_false fun _ => (congrArg CommandEngine.stopRequest engine).trans free
    have fails : s.toChip.portFreed.failSpare j sp =
        Chip.repairRun 8 (c, some (.allocate, { j with spare := none, madeBad := j.madeBad + 1 })) := rfl
    clear_value c
    have act := fails.trans
      (Chip.allocate_serves 6 stops ((Chip.writeRepairActive_congr engine).trans open_) untested chosen)
    have repair : c'.rep = s.rep := (Chip.rep_takeSpare c sp').trans kept
    have idle : c'.seq = Sequencer.reset := (Chip.seq_takeSpare c sp').trans port'
    rw [jobTest_fails job spare inArray port test, Chip.settle_of_issue act idle rfl, ← repair]
    rfl
  case writeRepair =>
    intro c
    have same : c.requesters = s.toChip.portFreed.requesters := Chip.requesters_spoilSpare ..
    have engine : c.cmd = s.cmd := (Chip.cmd_of_requesters same :)
    have map : c.tr = s.tr := (Chip.tr_of_requesters same :)
    have buffer : c.bus = s.bus := (congrArg Chip.bus (Chip.spoilSpare_eq s.toChip.portFreed sp) :)
    have port' : c.seq = Sequencer.reset := Chip.seq_of_requesters same
    have empty : c.seq.foreground = .empty := congrArg Sequencer.foreground port'
    have fails : s.toChip.portFreed.failWriteSpare t sp = c.allocateForWrite { t with spare := none } :=
      if_neg (Bool.eq_false_iff.1 free)
    clear_value c
    refine ⟨fun sp' chosen => ?takes, fun y none_ phys => ?inPlace⟩
    case takes =>
      intro c'
      have idle : c'.seq = Sequencer.reset := (Chip.seq_takeSpare c sp').trans port'
      have engine' : c'.cmd = s.cmd := (Chip.cmd_takeSpare c sp').trans engine
      have act := fails.trans (Chip.allocateForWrite_takes (t := { t with spare := none }) chosen empty)
      rw [writeTest_fails work spare inArray port test, Chip.settle_of_issue act idle rfl, ← engine']
      rfl
    case inPlace =>
      intro c'
      have shape : c' = { c with alloc := c'.alloc, health := c'.health } := Chip.reportExhausted_shape c _
      have idle : c'.seq = Sequencer.reset := (congrArg Chip.seq shape).trans port'
      have engine' : c'.cmd = s.cmd := (congrArg Chip.cmd shape).trans engine
      have map' : c'.tr = s.tr := (congrArg Chip.tr shape).trans map
      have act := fails.trans (Chip.allocateForWrite_exhausted (t := { t with spare := none }) none_
        ((congrArg Lookup.phys (Chip.lookup_congr map t.row)).trans phys) empty)
      rw [writeTest_fails work spare inArray port test, Chip.settle_of_issue act idle rfl, ← engine', ← map', ← buffer]
      rfl

/-! ## Overtaken and abandoned jobs -/

section

variable {c : Chip} {j : Job} {e : PendingEntry}

theorem Chip.overtakeJob_gone (gone : c.pendingOf j.row = none) : c.overtakeJob j = (c, some (.source, j)) := by
  unfold Chip.overtakeJob
  rw [gone]

theorem Chip.overtakeJob_restarts (pending : c.pendingOf j.row = some e) (few : e.restarts < 3) :
    c.overtakeJob j = ((c.setRestarts j.row (e.restarts + 1)).setRepairClaim j.row, some (.source, j)) := by
  unfold Chip.overtakeJob
  rw [pending]
  exact if_pos few

theorem Chip.overtakeJob_defers (pending : c.pendingOf j.row = some e) (many : 3 ≤ e.restarts) :
    c.overtakeJob j = ((c.deferPending j.row).endJob j .deferred, none) := by
  unfold Chip.overtakeJob
  rw [pending]
  exact if_neg (Nat.not_lt.2 many)

theorem Chip.deferPending_eq {l : Nat} (pending : c.pendingOf l = some e) :
    c.deferPending l = { c with
      trk := { c.trk with
        pendingList := (c.trk.pendingList.filter fun a => decide (a.row ≠ l)) ++ [{ e with restarts := 0 }] }
      dir := c.setDirty.dir } := by
  unfold Chip.deferPending
  rw [pending]
  exact Chip.setDirty_congr (c := c) rfl rfl

theorem Chip.pendingOf_setRestarts {l : Nat} (pending : c.pendingOf l = some e) (n : Nat) :
    (c.setRestarts l n).pendingOf l = some { e with restarts := n } := by
  have own : e.row = l := of_decide_eq_true (List.find?_some (p := fun e : PendingEntry => decide (e.row = l)) pending)
  have rows : (fun a : PendingEntry => decide (a.row = l)) ∘ (fun a => if a.row = l then { a with restarts := n } else a) =
      fun a => decide (a.row = l) := by
    funext a
    by_cases row : a.row = l <;> simp [row]
  refine (List.find?_map ..).trans ?_
  rw [rows, show c.trk.pendingList.find? (fun a => decide (a.row = l)) = some e from pending]
  exact congrArg some (if_pos own)

/-- An overtaken job begins again from the row's present place (R114). -/
theorem Chip.overtaken_restarts {y : PhysRow} (pending : c.pendingOf j.row = some e) (few : e.restarts < 3)
    (phys : (c.lookup j.row).phys = some y) (reads : j.discard = false ∨ e.cause ≠ .unc) (free : c.jobStops j = false) :
    c.repairGo .overtaken j =
      (((c.setRestarts j.row (e.restarts + 1)).setRepairClaim j.row).putJob .sourceRead { j with discard := false }).issue
        .sourceRead y none :=
  (Chip.repairRun_next (m := .overtaken) 7 (Chip.overtakeJob_restarts pending few)).trans
    (Chip.repairRun_last (m := .source) 6
      (Chip.enterSource_reads (c := (c.setRestarts j.row (e.restarts + 1)).setRepairClaim j.row)
        (e := { e with restarts := e.restarts + 1 }) phys (Chip.pendingOf_setRestarts pending _) reads free))

theorem Chip.overtaken_defers (pending : c.pendingOf j.row = some e) (many : 3 ≤ e.restarts) :
    c.repairGo .overtaken j = (c.deferPending j.row).endJob j .deferred :=
  Chip.repairRun_last (m := .overtaken) 7 (Chip.overtakeJob_defers pending many)

/-- With no entry left it ends, by what the lookup gives (R110, R114). -/
theorem Chip.overtaken_gone (gone : c.pendingOf j.row = none) :
    c.repairGo .overtaken j = c.endJob j (if c.lookup j.row = .retired then .retired else .ok) := by
  refine (Chip.repairRun_next (m := .overtaken) 7 (Chip.overtakeJob_gone gone)).trans
    (Chip.repairRun_last (m := .source) 6 ?_)
  by_cases retired : c.lookup j.row = .retired
  · rw [if_pos retired]
    exact Chip.enterSource_retired retired
  · rw [if_neg retired]
    obtain ⟨y, phys⟩ : ∃ y, (c.lookup j.row).phys = some y := by
      cases place : c.lookup j.row with
      | home p => exact ⟨p, rfl⟩
      | spared t => exact ⟨t.phys, rfl⟩
      | retired => exact absurd place retired
    exact Chip.enterSource_gone phys gone

/-- Every access of a job abandons it at its timeout (R115). -/
theorem Chip.timedOut_job {p : Purpose} (job : c.rep.job = some j)
    (ours : p ∈ [.sourceRead, .qualification 0, .qualification 1, .qualification 2, .qualification 3, .copyWrite,
      .verifyRead, .zeroWrite, .zeroReadBack]) : c.timedOut p = c.abandonJob j .arrayTimeout := by
  have abandons : c.repairTimeout = c.abandonJob j .arrayTimeout := by
    unfold Chip.repairTimeout
    rw [job]
  simp only [List.mem_cons, List.not_mem_nil, or_false] at ours
  rcases ours with rfl | rfl | rfl | rfl | rfl | rfl | rfl | rfl | rfl <;> exact abandons

end

/-- The step of a copy or a passing verify whose job was overtaken (R114). -/
theorem overtaken_at {s : State} {j : Job} {x : PhysRow} {sp : SpareId} {flips : RowPatch} {i : Instr} {arr : Memory}
    (job : s.rep.job = some j) (spare : j.spare = some sp) (inArray : x.inArray s.devices = true)
    (marked : claimMarked s.tr.repairClaim = true)
    (access : i = .copyWriteDone
          ∧ (∃ ws, s.seq = Sequencer.carrying (request .copyWrite x (some ws)) ∧ arr = s.array.write x ws)
        ∨ i = .verifyReadDone flips ∧ s.seq = Sequencer.carrying (request .verifyRead x none) ∧ arr = s.array
          ∧ (s.array.deliver x flips).passes (j.data.getD zeroRow) = true) :
    exec i s = .next { s with toChip := (s.toChip.portFreed.repairGo .overtaken j).settle 8, array := arr } := by
  rcases access with ⟨rfl, ws, port, rfl⟩ | ⟨rfl, port, rfl, passes⟩
  · rw [copyWriteDone_at port inArray job spare, Chip.copied_overtaken (c := s.toChip.portFreed) marked]
  · rw [verifyReadDone_at port inArray job spare, Chip.verified_overtaken (c := s.toChip.portFreed) passes marked]

/-- Settles O58: the overtaken job by its entry, the source that cannot be read, and the timeouts. -/
theorem jobsRestartDeferAndAreAbandoned : Obligations.JobsRestartDeferAndAreAbandoned := by
  intro s j x flips job free ends cleared
  have closes : ∀ (c : Chip) (code : ResultCode) (arr : Memory), c.seq = Sequencer.reset → c.cmd = s.cmd →
      ({ s with toChip := (c.endJob j code).settle 8, array := arr } : State) = ends c code arr := by
    intro c code arr idle engine
    rw [Chip.settle_endJob (fun _ => (congrArg CommandEngine.stopRequest engine).trans free) code idle]
    simp only [ends]
    unfold Chip.giveBack
    cases j.spare <;> rfl
  clear_value ends
  refine ⟨fun i sp arr spare inArray marked access => ⟨fun e y pending few phys reads => ?restarts,
    fun e pending many => ?defers, fun gone => ?gone⟩, fun inArray port unreadable => ?unreadable,
    fun p d second left ours port => ?timeout⟩
  case restarts =>
    have act := Chip.overtaken_restarts (c := s.toChip.portFreed) pending few phys reads
      (Chip.jobStops_eq_false fun _ => free)
    rw [overtaken_at job spare inArray marked access, Chip.settle_of_issue act rfl rfl]
    rfl
  case defers =>
    have act := Chip.overtaken_defers (c := s.toChip.portFreed) pending many
    rw [Chip.deferPending_eq (c := s.toChip.portFreed) pending,
      Chip.setDirty_congr (c := s.toChip) (d := s.toChip.portFreed) rfl rfl] at act
    rw [overtaken_at job spare inArray marked access, act]
    exact congrArg _ (closes _ _ _ rfl rfl)
  case gone =>
    rw [overtaken_at job spare inArray marked access, Chip.overtaken_gone (c := s.toChip.portFreed) gone]
    exact congrArg _ (closes _ _ _ rfl rfl)
  case unreadable =>
    intro c
    have same : (c.setRestarts j.row 0).requesters = s.toChip.portFreed.requesters :=
      (Chip.requesters_setRestarts ..).trans (Chip.requesters_report ..)
    have act : s.toChip.portFreed.sourceRead j x (s.array.deliver x flips) =
        (c.setRestarts j.row 0).endJob j .uncorrectable := Chip.sourceRead_unreadable unreadable
    rw [sourceReadDone_at port inArray job, act]
    exact congrArg _ (closes _ _ _ (Chip.seq_of_requesters same :) (Chip.cmd_of_requesters same :))
  case timeout =>
    rw [readyTimeout_at port rfl, show s.toChip.portFreed.timedOut (request p x d).purpose = _ from
      Chip.timedOut_job (c := s.toChip.portFreed) job ours]
    exact congrArg _ (closes (s.toChip.portFreed.setRestarts j.row 0) _ _ rfl rfl)

end Sys2Proof.Machine

/-! # Visits of the patrol (R90, R126 to R131, R136, R137) -/

namespace Sys2Proof.Machine

/-! ## What a visit's read and its end do -/

/-- The report a visit's read makes (R128). -/
def Chip.reportVisit (c : Chip) (x : PhysRow) (o : ReadOutcome) : Chip :=
  c.report { row := c.pat.cursor, phys := x, outcome := o, path := .patrol, readBack := false }

theorem Chip.requesters_reportVisit (c : Chip) (x : PhysRow) (o : ReadOutcome) :
    (c.reportVisit x o).requesters = c.requesters := Chip.requesters_report ..

theorem Chip.visitRead_corrected {c : Chip} {x : PhysRow} {d : Delivered} (corrected : d.outcome = .corrected) :
    c.visitRead x d = (c.reportVisit x .corrected).issue .patrolScrub x (some d.words) := by
  unfold Chip.visitRead
  rw [corrected]
  rfl

theorem Chip.visitRead_ends {c : Chip} {x : PhysRow} {d : Delivered} {o : ReadOutcome} (outcome : d.outcome = o)
    (other : o ≠ .corrected) : c.visitRead x d = (c.reportVisit x o).endVisit o := by
  unfold Chip.visitRead
  rw [outcome]
  cases o with
  | clean => rfl
  | corrected => exact absurd rfl other
  | uncorrectable => rfl

/-- A visit with a restart request counts for nothing, and the pass begins again (R136). -/
theorem Chip.endVisit_restarts {c : Chip} (restart : c.pat.restartRequest = true) (o : ReadOutcome) :
    c.endVisit o = Chip.patrolOn { c with
      tr := { c.tr with patrolClaim := none }
      pat := { c.pat with
        st := .pacing, cursor := 0, tallies := ⟨0, 0, 0, 0⟩, whole := true, restartRequest := false
        paceTimer := none, intervalOut := true }
      bus := if c.cmd.work = .patrolRestart then c.bus.commandDone else c.bus
      cmd := if c.cmd.work = .patrolRestart then c.cmd.finished .ok ⟨0, c.pat.pass, 0, 0⟩ else c.cmd } := by
  unfold Chip.endVisit
  refine (if_pos restart).trans ?_
  unfold Chip.endPatrolRestart
  by_cases waits : c.cmd.work = .patrolRestart
  · simp only [if_pos waits]
    exact congrArg Chip.patrolOn (if_pos waits)
  · simp only [if_neg waits]
    exact congrArg Chip.patrolOn (if_neg waits)

/-- A patrol whose interval has not run out waits in PACING. -/
theorem Chip.patrolOn_waits {c : Chip} (interval : c.pat.intervalOut = false) : c.patrolOn = c :=
  Chip.patrolOn_of_not (by simp [Chip.patrolReady, interval])

/-- A visit before the last row that ends with its interval not run out (R130). -/
theorem Chip.endVisit_waits {c : Chip} {o : ReadOutcome} (noRestart : c.pat.restartRequest = false)
    (st : c.pat.st = .visiting) (interval : c.pat.intervalOut = false) (more : c.pat.cursor + 1 < 8064 * c.devices) :
    c.endVisit o = { c with
      tr := { c.tr with patrolClaim := none }
      pat := { c.pat with
        st := .pacing, cursor := c.pat.cursor + 1
        tallies := { c.pat.tallies with
          visited := c.pat.tallies.visited + 1
          corrected := if o = .corrected then min 255 (c.pat.tallies.corrected + 1) else c.pat.tallies.corrected
          unc := if o = .uncorrectable then min 255 (c.pat.tallies.unc + 1) else c.pat.tallies.unc } } } := by
  have notLast : ¬ 8064 * c.devices ≤ c.pat.cursor + 1 := Nat.not_le.2 more
  obtain ⟨_, _, paces⟩ := Chip.endVisit_eq c o noRestart (.inl st)
  have ends := paces (fun both => notLast both.1) st
  rw [if_neg notLast] at ends
  exact ends.trans (Chip.patrolOn_waits interval)

/-- A visit's read is granted in the step that begins the visit (R131). -/
theorem Chip.settle_beginVisit (n : Nat) {c : Chip} (idle : c.seq = Sequencer.reset) (y : PhysRow) :
    (c.beginVisit y).settle (n + 1) = { c with
      seq := Sequencer.carrying (request .visitRead y none)
      tr := { c.tr with patrolClaim := some { row := c.pat.cursor, overtaken := false } }
      pat := { c.pat with
        st := .visiting, intervalOut := decide (c.pat.pace = 0)
        paceTimer := if c.pat.pace = 0 then none else some c.pat.pace } } :=
  Chip.settle_issue n (c := { c with
    tr := { c.tr with patrolClaim := some { row := c.pat.cursor, overtaken := false } }
    pat := { c.pat with
      st := .visiting, intervalOut := decide (c.pat.pace = 0)
      paceTimer := if c.pat.pace = 0 then none else some c.pat.pace } }) idle .visitRead y none rfl

/-- A lookup goes by the remap alone. -/
theorem Chip.lookup_of_remap {c d : Chip} (remap : d.tr.remap = c.tr.remap) (l : Nat) : d.lookup l = c.lookup l := by
  simp only [Chip.lookup, Chip.entryOf, remap]

/-! ## The visit goes on -/

/-- Settles O59: the scrub of a corrected row, and the two ends of a visit that is not the last. -/
theorem visitsReportScrubAndCount : Obligations.VisitsReportScrubAndCount := by
  intro s x flips inArray st noRestart d
  refine ⟨fun port corrected unmarked => ?scrubs, fun interval more => ⟨fun port clean => ?clean, fun ws port => ?scrubbed⟩⟩
  case scrubs =>
    intro c
    have same : c.requesters = s.toChip.portFreed.requesters := Chip.requesters_report ..
    have claim : c.tr.patrolClaim = s.tr.patrolClaim := congrArg Translator.patrolClaim (Chip.tr_of_requesters same :)
    have granted : c.conditionFails .patrolScrub = false := by
      show (c.tr.patrolClaim.map Claim.overtaken).getD false = false
      rw [claim]
      cases held : s.tr.patrolClaim with
      | none => rfl
      | some cl => exact unmarked cl held
    rw [visitReadDone_at port inArray,
      Chip.settle_of_issue (Chip.visitRead_corrected (c := s.toChip.portFreed) corrected) (Chip.seq_of_requesters same)
        granted]
    rfl
  case clean =>
    intro c
    have same : c.requesters = s.toChip.portFreed.requesters := Chip.requesters_report ..
    have pat : c.pat = s.pat := (Chip.pat_of_requesters same :)
    have devices : c.devices = s.devices := (Chip.devices_of_requesters same :)
    have map : c.tr = s.tr := (Chip.tr_of_requesters same :)
    have idle : c.seq = Sequencer.reset := Chip.seq_of_requesters same
    have reads : s.toChip.portFreed.visitRead x d = c.endVisit .clean := Chip.visitRead_ends clean ReadOutcome.noConfusion
    have done := visitReadDone_at (flips := flips) port inArray
    clear_value c
    have ends := Chip.endVisit_waits (c := c) (o := .clean) (by rw [pat]; exact noRestart) (by rw [pat]; exact st)
      (by rw [pat]; exact interval) (by rw [pat, devices]; exact more)
    rw [done, reads, ends, Chip.settle_of_settled 8 (by exact congrArg Sequencer.settled idle), ← pat, ← map]
    rfl
  case scrubbed =>
    rw [patrolScrubDone_at port inArray, Chip.endVisit_waits (c := s.toChip.portFreed) noRestart st interval more,
      Chip.settle_of_settled 8 rfl]
    rfl

/-! ## Where the visit's end leads -/

/-- The step that ends a visit: the read that is not CORRECTED, the scrub, or the scrub dropped at its grant. -/
theorem visitEnds_at {s : State} {x : PhysRow} {flips : RowPatch} {i : Instr} {o : ReadOutcome} {arr : Memory} {c : Chip}
    (inArray : x.inArray s.devices = true)
    (access : i = .visitReadDone flips ∧ s.seq = Sequencer.carrying (request .visitRead x none)
          ∧ (s.array.deliver x flips).outcome = o
          ∧ (o = .corrected → claimMarked s.tr.patrolClaim = true) ∧ arr = s.array ∧ c = s.toChip.portFreed.reportVisit x o
        ∨ i = .patrolScrubDone ∧ (∃ ws, s.seq = Sequencer.carrying (request .patrolScrub x (some ws))
            ∧ arr = s.array.write x ws) ∧ o = .corrected ∧ c = s.toChip.portFreed) :
    c.requesters = s.toChip.portFreed.requesters
      ∧ ∃ n, exec i s = .next { s with toChip := (c.endVisit o).settle (n + 1), array := arr } := by
  rcases access with ⟨rfl, port, outcome, marked, rfl, rfl⟩ | ⟨rfl, ⟨ws, port, rfl⟩, rfl, rfl⟩
  · have same := Chip.requesters_reportVisit s.toChip.portFreed x o
    refine ⟨same, ?_⟩
    rw [visitReadDone_at port inArray]
    by_cases corrected : o = .corrected
    · subst corrected
      have claim := (congrArg Translator.patrolClaim (Chip.tr_of_requesters same) :)
      exact ⟨6, by rw [Chip.visitRead_corrected outcome,
        Chip.settle_dropped_scrub (Chip.seq_of_requesters same) x _ (by rw [claim]; exact marked rfl)]⟩
    · exact ⟨7, by rw [Chip.visitRead_ends outcome corrected]⟩
  · exact ⟨rfl, 7, patrolScrubDone_at port inArray⟩

/-- Settles O60: the visit ends with its step, and the patrol moves by its cursor, mode and state. -/
theorem visitEndsMoveThePatrol : Obligations.VisitEndsMoveThePatrol := by
  intro s x flips i o arr c inArray st reported access
  obtain ⟨same, n, step⟩ := visitEnds_at inArray access
  have idle : c.seq = Sequencer.reset := Chip.seq_of_requesters same
  have pat : c.pat = s.pat := (Chip.pat_of_requesters same :)
  have map : c.tr = s.tr := (Chip.tr_of_requesters same :)
  have engine : c.cmd = s.cmd := (Chip.cmd_of_requesters same :)
  have devices : c.devices = s.devices := (Chip.devices_of_requesters same :)
  have policy : c.health.policy = s.health.policy := (Chip.policy_of_requesters same :)
  have looks : ∀ l, c.lookup l = s.lookup l := fun l => Chip.lookup_congr map l
  clear access reported
  rw [← pat] at st
  rw [← pat, ← map, ← engine, ← devices, ← policy]
  intro counted last ended moved stopped paced
  have port : moved.seq = Sequencer.reset := by
    show (if last then _ else _ : Chip).seq = _
    split <;> exact idle
  have kept : moved.pat.intervalOut = c.pat.intervalOut ∧ moved.pat.pace = c.pat.pace
      ∧ moved.tr = { c.tr with patrolClaim := none } := by
    show (if last then _ else _ : Chip).pat.intervalOut = _ ∧ (if last then _ else _ : Chip).pat.pace = _
      ∧ (if last then _ else _ : Chip).tr = _
    split <;> exact ⟨rfl, rfl, rfl⟩
  obtain ⟨keptInterval, keptPace, keptMap⟩ := kept
  refine ⟨fun noRestart => ?ends, fun y restart phys free => ?restarts⟩
  case ends =>
    obtain ⟨single, halts, paces⟩ := Chip.endVisit_eq c o noRestart st
    refine ⟨fun isLast mode => ?single, fun goesOn st => ?halted, fun goesOn st interval => ?waits,
      fun y goesOn st interval phys free => ?visits⟩
    case single =>
      rw [step, single isLast mode, Chip.settle_of_settled _ (by exact congrArg Sequencer.settled port)]
    case halted =>
      rw [step, halts goesOn st, Chip.settle_of_settled _ (by exact congrArg Sequencer.settled port)]
    case waits =>
      have stays : paced.patrolOn = paced := Chip.patrolOn_waits (keptInterval.trans interval)
      rw [step, paces goesOn st, stays, Chip.settle_of_settled _ (by exact congrArg Sequencer.settled port)]
    case visits =>
      have visits : paced.patrolOn = paced.beginVisit y := by
        refine Chip.patrolOn_visit rfl (keptInterval.trans interval) (congrArg Sequencer.patrol port) ?_ ?_
        · exact (congrArg Lookup.phys ((Chip.lookup_of_remap (congrArg Translator.remap keptMap :) _).trans
            (looks _))).trans phys
        · exact (congrArg (fun t : Translator => claimHolds t.repairClaim moved.pat.cursor) keptMap).trans free
      rw [step, paces goesOn st, visits]
      refine congrArg (fun a : Chip => Host.Outcome.next { s with toChip := a, array := arr })
        ((Chip.settle_beginVisit n (c := paced) port y).trans ?_)
      exact (congrArg₂ (fun (t : Translator) (pace : Nat) => ({ paced with
          seq := Sequencer.carrying (request .visitRead y none)
          tr := { t with patrolClaim := some { row := moved.pat.cursor, overtaken := false } }
          pat := { moved.pat with
            st := .visiting, intervalOut := decide (pace = 0)
            paceTimer := if pace = 0 then none else some pace } } : Chip)) keptMap keptPace :)
  case restarts =>
    have act := (Chip.endVisit_restarts restart o).trans
      (Chip.patrolOn_visit rfl rfl (congrArg Sequencer.patrol idle) ((congrArg Lookup.phys (looks 0)).trans phys) free)
    rw [step, act]
    refine congrArg (fun a : Chip => Host.Outcome.next { s with toChip := a, array := arr })
      ((Chip.settle_beginVisit n ?_ y).trans ?_)
    · exact idle
    · rfl

end Sys2Proof.Machine

/-! # The accesses and the end of a commit (R145, R148 to R152, R161) -/

namespace Sys2Proof.Machine

/-! ## The commit's accesses -/

section
variable {c : Chip} {j : CommitJob} {d : Delivered}

theorem Chip.commitWritten_next (commit : c.dir.commit = some j) (more : j.index < 101) (writes : j.reading = false) :
    c.commitWritten = (c.setCommit { j with index := j.index + 1 }).issue .commitWrite (j.target.phys (j.index + 1))
      (some (c.dir.image.getD (j.index + 1) [])) := by
  unfold Chip.commitWritten
  rw [commit]
  refine (if_pos (show j.index + 1 < 102 from Nat.succ_lt_succ more)).trans ?_
  exact if_neg (Bool.eq_false_iff.1 writes)

theorem Chip.commitWritten_last (commit : c.dir.commit = some j) (last : j.index = 101) :
    c.commitWritten =
      (c.setCommit { j with index := 0, reading := true }).issue .commitReadBack (j.target.phys 0) none := by
  unfold Chip.commitWritten
  rw [commit]
  exact if_neg (show ¬ j.index + 1 < 102 by omega)

theorem Chip.commitReadBack_next (commit : c.dir.commit = some j) (reads : j.reading = true)
    (passes : c.readBackPasses j d = true) (more : j.index < 101) :
    c.commitReadBack d =
      (c.setCommit { j with index := j.index + 1 }).issue .commitReadBack (j.target.phys (j.index + 1)) none := by
  unfold Chip.commitReadBack
  rw [commit]
  refine (if_pos passes).trans ((if_pos (show j.index + 1 < 102 from Nat.succ_lt_succ more)).trans ?_)
  exact if_pos reads

theorem Chip.commitReadBack_ends (commit : c.dir.commit = some j) (passes : c.readBackPasses j d = true)
    (last : j.index = 101) : c.commitReadBack d = c.commitEnds none := by
  unfold Chip.commitReadBack
  rw [commit]
  exact (if_pos passes).trans (if_neg (show ¬ j.index + 1 < 102 by omega))

theorem Chip.commitReadBack_fails (commit : c.dir.commit = some j) (fails : c.readBackPasses j d = false) :
    c.commitReadBack d = c.commitEnds (some .verify) := by
  unfold Chip.commitReadBack
  rw [commit]
  exact if_neg (Bool.eq_false_iff.1 fails)

end

/-- The step ends the commit in flight: its last read-back passes, a read-back differs, or an access times out. -/
def State.CommitEndsBy (s : State) (j : CommitJob) (x : PhysRow) (flips : RowPatch) (i : Instr)
    (why : Option CommitFailure) (arr : Memory) : Prop :=
  why = none ∧ i = .commitReadBackDone flips ∧ s.seq = Sequencer.carrying (request .commitReadBack x none)
      ∧ s.readBackPasses j (s.array.deliver x flips) = true ∧ j.index = 101 ∧ arr = s.array
    ∨ why = some .verify ∧ i = .commitReadBackDone flips ∧ s.seq = Sequencer.carrying (request .commitReadBack x none)
      ∧ s.readBackPasses j (s.array.deliver x flips) = false ∧ arr = s.array
    ∨ why = some .timeout ∧ ∃ p d second left, i = .readyTimeout second left ∧ (p = .commitWrite ∨ p = .commitReadBack)
      ∧ s.seq = Sequencer.carrying (request p x d)
      ∧ arr = if second then s.array.afterCut s.devices (request p x d) left else s.array

/-- Whatever ends the commit, its end is the action of the step. -/
theorem State.CommitEndsBy.step {s : State} {j : CommitJob} {x : PhysRow} {flips : RowPatch} {i : Instr}
    {why : Option CommitFailure} {arr : Memory} (ended : s.CommitEndsBy j x flips i why arr)
    (commit : s.dir.commit = some j) (inArray : x.inArray s.devices = true) :
    exec i s = .next { s with toChip := (s.toChip.portFreed.commitEnds why).settle 8, array := arr } := by
  rcases ended with ⟨rfl, rfl, port, passes, last, rfl⟩ | ⟨rfl, rfl, port, fails, rfl⟩
    | ⟨rfl, p, d, second, left, rfl, purpose, port, rfl⟩
  · rw [commitReadBackDone_at port inArray, Chip.commitReadBack_ends (c := s.toChip.portFreed) commit passes last]
  · rw [commitReadBackDone_at port inArray, Chip.commitReadBack_fails (c := s.toChip.portFreed) commit fails]
  · rw [readyTimeout_at port rfl]
    rcases purpose with rfl | rfl <;> rfl

/-! ## The end of a commit -/

theorem Chip.formatWaits_of_none {c : Chip} (format : c.dir.format = none) : c.formatWaits = false := by
  unfold Chip.formatWaits
  rw [format]
  rfl

theorem Chip.formatWaits_of_some {c : Chip} {f : FormatJob} (format : c.dir.format = some f) :
    c.formatWaits = decide (f.phase = .waitCommit) := by
  unfold Chip.formatWaits
  rw [format]
  rfl

/-- A commit of the directory unit's own that ends with no format waiting for it (R145, R149 to R152). -/
theorem Chip.commitEnds_own {c : Chip} {j : CommitJob} (commit : c.dir.commit = some j) (live : j.detached = false)
    (own : j.ofFormat = false) (noWait : c.formatWaits = false) (why : Option CommitFailure) :
    c.commitEnds why = (((c.judgeCommit j why).settleState).endCommitCommand why).takeCommitRequest := by
  unfold Chip.commitEnds
  rw [commit]
  refine (if_neg (Bool.eq_false_iff.1 live)).trans ((if_neg (Bool.eq_false_iff.1 own)).trans ?_)
  exact if_neg (Bool.eq_false_iff.1 noWait)

theorem Chip.takeCommitRequest_none {c : Chip} (request : c.dir.commitRequest = false) : c.takeCommitRequest = c := by
  unfold Chip.takeCommitRequest
  rw [request]
  rfl

theorem Chip.takeCommitRequest_starts {c : Chip} (request : c.dir.commitRequest = true) (service : c.inService = true) :
    c.takeCommitRequest = Chip.startCommit { c with dir := { c.dir with commitRequest := false } } := by
  unfold Chip.takeCommitRequest
  rw [request, service]
  rfl

/-- Settles O52: the commit's accesses one by one, and its end by the model's account of a judged commit. -/
theorem commitWritesReadsBackAndEndsWithItsOutcome : Obligations.CommitWritesReadsBackAndEndsWithItsOutcome := by
  refine ⟨fun s j x ws flips commit inArray => ⟨fun port writes => ⟨fun more => ?next, fun last => ?last⟩,
    fun port reads passes more => ?reads⟩, fun s j x flips i why arr commit live own noFormat inArray ended => ?ends⟩
  case next =>
    rw [commitWriteDone_at port inArray,
      Chip.settle_of_issue (Chip.commitWritten_next (c := s.toChip.portFreed) commit more writes) rfl rfl]
    rfl
  case last =>
    rw [commitWriteDone_at port inArray,
      Chip.settle_of_issue (Chip.commitWritten_last (c := s.toChip.portFreed) commit last) rfl rfl]
    rfl
  case reads =>
    rw [commitReadBackDone_at port inArray,
      Chip.settle_of_issue (Chip.commitReadBack_next (c := s.toChip.portFreed) commit reads passes more) rfl rfl]
    rfl
  case ends =>
    intro won validA validB st bus reason told
    have step := State.CommitEndsBy.step (x := x) (flips := flips) ended commit inArray
    have raised : ∀ w, (s.toChip.portFreed.raise (.directoryFail j.target w)).health =
        (s.toChip.raise (.directoryFail j.target w)).health := 
      fun w => Chip.health_raise_congr (c := s.toChip) (d := s.toChip.portFreed) rfl rfl _
    have judged : ((s.toChip.portFreed.judgeCommit j why).settleState).endCommitCommand why = told.toChip := by
      refine (Chip.judged_eq s.toChip.portFreed j why).trans ?_
      cases why with
      | none => rfl
      | some w =>
        cases w <;> exact congrArg (fun h : HealthUnit => ({ told.toChip with health := h } : Chip)) (raised _)
    have acts : s.toChip.portFreed.commitEnds why = told.toChip.takeCommitRequest := by
      rw [Chip.commitEnds_own (c := s.toChip.portFreed) commit live own (Chip.formatWaits_of_none noFormat), judged]
    rw [step, acts]
    refine ⟨fun quiet => ?_, fun again room => ?_⟩
    · rw [Chip.takeCommitRequest_none (c := told.toChip) quiet, Chip.settle_of_settled 8 rfl]
    · intro target seq image
      let asked : Chip := { told.toChip with dir := { told.dir with commitRequest := false } }
      have service : told.inService = true := by
        show (decide (st = .ready) || decide (st = .degraded)) = true
        cases flags : validA && validB <;> simp [st, flags]
      have begins := (Chip.takeCommitRequest_starts (c := told.toChip) again service).trans
        (Chip.startCommit_begins (c := asked) room
          (Chip.imageOf_congr (c := told.toChip) rfl _))
      have bound : (if told.cmd.work = .commitWait then { told.cmd with work := .commitRun target seq } else told.cmd) =
          if s.cmd.work = .commitWait then { s.cmd with work := .commitRun target seq } else told.cmd := by
        cases work : s.cmd.work <;> simp [told, work, CommandEngine.finished]
      rw [begins, Chip.settle_issue 7 rfl _ _ _ rfl]
      exact (congrArg (fun e : CommandEngine => Host.Outcome.next { told with
          toChip := { asked.committing target seq image with
            seq := Sequencer.carrying (request .commitWrite (target.phys 0) (some (image.getD 0 []))), cmd := e } })
        bound :)

end Sys2Proof.Machine

/-! # The begin of a format and its writes (R162 to R165) -/

namespace Sys2Proof.Machine

/-! ## FORMAT ARRAY accepted -/

/-- Both copies are marked invalid, and copy A's row 0 is to be written (R163). -/
theorem Chip.startInvalidation_eq (c : Chip) : c.startInvalidation = Chip.issue { c with
      dir := { c.dir with
        validA := false, seqA := 0, validB := false, seqB := 0
        format := some { phase := .invalidating .a, ending := false } } }
    .invalidatingWrite ⟨0, 8192⟩ (some zeroRow) := rfl

theorem Chip.setOpState_changes {c : Chip} {st : OperatingState} (changes : c.dir.opState ≠ st) :
    c.setOpState st = { c with dir := { c.dir with opState := st }, bus := { c.bus with stateFlag := true } } :=
  if_neg changes

/-- The part in which FORMAT ARRAY has been accepted (R162). -/
def Chip.formatAccepted (c : Chip) : Chip :=
  { c with
    cmd := { c.cmd with work := .format }
    dir := { c.dir with opState := .formatting }
    bus := { c.bus with stateFlag := true } }

theorem Chip.startFormat_invalidates {c : Chip} (other : c.dir.opState ≠ .formatting) (mode : c.dir.mode = .idle) :
    c.startFormat = c.formatAccepted.startInvalidation := by
  unfold Chip.startFormat
  rw [Chip.setOpState_changes other]
  refine (?_ : (match c.dir.mode with
    | .committing => c.formatAccepted.setFormat (some { phase := .waitCommit, ending := false })
    | .idle | .loading => c.formatAccepted.startInvalidation) = _)
  rw [mode]

theorem Chip.startFormat_waits {c : Chip} (other : c.dir.opState ≠ .formatting) (mode : c.dir.mode = .committing) :
    c.startFormat = c.formatAccepted.setFormat (some { phase := .waitCommit, ending := false }) := by
  unfold Chip.startFormat
  rw [Chip.setOpState_changes other]
  refine (?_ : (match c.dir.mode with
    | .committing => c.formatAccepted.setFormat (some { phase := .waitCommit, ending := false })
    | .idle | .loading => c.formatAccepted.startInvalidation) = _)
  rw [mode]

/-! ## The writes of a format -/

section
variable {c : Chip} {f : FormatJob}

theorem Chip.formatStops_eq (format : c.dir.format = some f) : c.formatStops = (c.cmd.stopRequest || f.ending) := by
  unfold Chip.formatStops
  rw [format]
  rfl

theorem Chip.formatStops_not (format : c.dir.format = some f) (goesOn : f.ending = false)
    (noStop : c.cmd.stopRequest = false) : ¬ c.formatStops = true := by
  rw [Chip.formatStops_eq format, goesOn, noStop]
  exact Bool.false_ne_true

theorem Chip.invalidated_a (format : c.dir.format = some f) (phase : f.phase = .invalidating .a) :
    c.invalidated = if c.formatStops then c.endFormatEarly .aborted else c.invalidate .b := by
  unfold Chip.invalidated
  simp only [format, phase]

theorem Chip.invalidated_b (format : c.dir.format = some f) (phase : f.phase = .invalidating .b) :
    c.invalidated = if c.formatStops then c.endFormatEarly .aborted else (c.emptyTables).initialiseRow 0 := by
  unfold Chip.invalidated
  simp only [format, phase]

theorem Chip.rowInitialised_at {k : Nat} (format : c.dir.format = some f) (phase : f.phase = .rowInit k) :
    c.rowInitialised = if c.formatStops then (c.setResult0 (k + 1)).endFormatEarly .aborted
      else if k + 1 < 8192 * c.devices then (c.setResult0 (k + 1)).initialiseRow (k + 1)
      else (c.setResult0 (k + 1)).formatCommit .a := by
  unfold Chip.rowInitialised
  simp only [format, phase]

theorem Chip.initialiseRow_eq (free : c.seq.foreground = .empty) (k : Nat) :
    c.initialiseRow k = Chip.issue { c with dir := { c.dir with format := some { phase := .rowInit k, ending := false } } }
      .rowInit ⟨k / 8192, k % 8192⟩ (some zeroRow) :=
  Chip.issueForeground_empty (c := c.setFormat (some { phase := .rowInit k, ending := false })) free ..

end

/-- Settles O53: the acceptance by the mode of the directory unit, and one write after the other. -/
theorem formatArrayBeginsAndWritesEveryRow : Obligations.FormatArrayBeginsAndWritesEveryRow := by
  refine ⟨fun s running idle notLoading other => ?begins, fun s x ws f format goesOn noStop inArray => ?writes⟩
  case begins =>
    intro accepted
    have free : s.toChip.busy = false := by simp [Chip.busy, idle, notLoading, other]
    have act : s.toChip.formatCommand = s.toChip.acceptCommand.startFormat :=
      Chip.takeCommand_of_pass (params := anyParams) (range := anyRange) free rfl rfl rfl fun c _ => c.startFormat
    refine ⟨fun port mode => ?_, fun settled mode => ?_⟩
    · rw [exec_formatArray, State.next_onBus_issue running
        (act.trans ((Chip.startFormat_invalidates (c := s.toChip.acceptCommand) other mode).trans
          (Chip.startInvalidation_eq _))) port rfl]
      rfl
    · rw [exec_formatArray, State.next_onBus running
        (act.trans (Chip.startFormat_waits (c := s.toChip.acceptCommand) other mode)) settled]
      rfl
  case writes =>
    have goesOn : ¬ s.toChip.portFreed.formatStops = true :=
      Chip.formatStops_not (c := s.toChip.portFreed) format goesOn noStop
    refine ⟨fun port => ⟨fun phase => ?copyB, fun phase => ?empties⟩, fun k port phase more => ?initialises⟩
    case copyB =>
      have act : s.toChip.portFreed.invalidated = s.toChip.portFreed.invalidate .b :=
        (Chip.invalidated_a (c := s.toChip.portFreed) format phase).trans (if_neg goesOn)
      rw [invalidatingWriteDone_at port inArray, Chip.settle_of_issue act rfl rfl]
      rfl
    case empties =>
      have act : s.toChip.portFreed.invalidated = s.toChip.portFreed.emptyTables.initialiseRow 0 :=
        (Chip.invalidated_b (c := s.toChip.portFreed) format phase).trans (if_neg goesOn)
      rw [Chip.emptyTables_eq] at act
      rw [invalidatingWriteDone_at port inArray,
        Chip.settle_of_issue (act.trans (Chip.initialiseRow_eq rfl 0)) rfl rfl]
      rfl
    case initialises =>
      have act : s.toChip.portFreed.rowInitialised = (s.toChip.portFreed.setResult0 (k + 1)).initialiseRow (k + 1) :=
        (Chip.rowInitialised_at (c := s.toChip.portFreed) format phase).trans ((if_neg goesOn).trans (if_pos more))
      rw [rowInitialisationDone_at port inArray,
        Chip.settle_of_issue (act.trans (Chip.initialiseRow_eq rfl (k + 1))) rfl rfl]
      rfl

end Sys2Proof.Machine

/-! # The commits and the ends of a format (R162, R166, R167) -/

namespace Sys2Proof.Machine

/-! ## The format's commits -/

/-- What the format's commit of copy A leaves (R146, R166). -/
theorem Chip.formatCommit_a (c : Chip) : c.formatCommit .a = Chip.issue { c with
      tr := { c.tr with changes := 0 }
      dir := { c.dir with
        format := some { phase := .committing .a, ending := false }, mode := .committing, dirty := false
        commitTimer := none, image := c.imageOf 1, validA := false, seqA := 0
        commit := some { target := .a, seq := 1, index := 0, reading := false, detached := false, ofFormat := true } } }
    .commitWrite ⟨0, 8192⟩ (some ((c.imageOf 1).getD 0 [])) := by
  rw [← Chip.imageOf_congr (c := c) (d := c.setFormat (some { phase := .committing .a, ending := false })) rfl]
  rfl

/-- What the format's commit of copy B leaves (R146, R166). -/
theorem Chip.formatCommit_b (c : Chip) : c.formatCommit .b = Chip.issue { c with
      tr := { c.tr with changes := 0 }
      dir := { c.dir with
        format := some { phase := .committing .b, ending := false }, mode := .committing, dirty := false
        commitTimer := none, image := c.imageOf 2, validB := false, seqB := 0
        commit := some { target := .b, seq := 2, index := 0, reading := false, detached := false, ofFormat := true } } }
    .commitWrite ⟨0, 8320⟩ (some ((c.imageOf 2).getD 0 [])) := by
  rw [← Chip.imageOf_congr (c := c) (d := c.setFormat (some { phase := .committing .b, ending := false })) rfl]
  rfl

/-- The end of a commit of FORMAT ARRAY (R166). -/
theorem Chip.commitEnds_ofFormat {c : Chip} {j : CommitJob} (commit : c.dir.commit = some j)
    (live : j.detached = false) (ours : j.ofFormat = true) (why : Option CommitFailure) :
    c.commitEnds why = c.formatCommitEnds j why := by
  unfold Chip.commitEnds
  rw [commit]
  exact (if_neg (Bool.eq_false_iff.1 live)).trans (if_pos ours)

/-- The end of a format by its command (R166). -/
theorem Chip.endFormat_command {c : Chip} {st : OperatingState} (formatting : c.dir.opState = .formatting)
    (other : st ≠ .formatting) (work : c.cmd.work = .format) (code : ResultCode) (copies : Nat) :
    c.endFormat st code copies = { c with
      bus := { c.bus with stateFlag := true, cmdDone := true }
      cmd := c.cmd.finished code ⟨c.cmd.results.r0, word copies, 0, 0⟩
      dir := { c.dir with format := none, opState := st } } := by
  rw [Chip.endFormat_eq st code copies formatting other, if_pos work, decide_eq_true work, Bool.or_true]

/-- Settles O54, by the row that was the last and by the commit that ended. -/
theorem formatCommitsBothCopies : Obligations.FormatCommitsBothCopies := by
  refine ⟨fun s x ws k format noStop inArray last port => ?begins,
    fun s j f i why arr commit live ours format work formatting ended => ?ends⟩
  case begins =>
    intro image
    have act : s.toChip.portFreed.rowInitialised = (s.toChip.portFreed.setResult0 (k + 1)).formatCommit .a :=
      (Chip.rowInitialised_at (c := s.toChip.portFreed) format rfl).trans
        ((if_neg (Chip.formatStops_not (c := s.toChip.portFreed) format rfl noStop)).trans (if_neg (Nat.not_lt.2 last)))
    have shows : (s.toChip.portFreed.setResult0 (k + 1)).imageOf 1 = image := Chip.imageOf_congr (c := s.toChip) rfl 1
    rw [Chip.formatCommit_a, shows] at act
    rw [rowInitialisationDone_at port inArray, Chip.settle_of_issue act rfl rfl]
    rfl
  case ends =>
    intro health closed finish
    obtain ⟨x, flips, inArray, ended⟩ := ended
    have step := State.CommitEndsBy.step (x := x) (flips := flips) ended commit inArray
    have acts := Chip.commitEnds_ofFormat (c := s.toChip.portFreed) commit live ours why
    have raised : ∀ k w, s.toChip.portFreed.raise (.directoryFail k w) =
        { s.toChip.portFreed with health := (s.toChip.raise (.directoryFail k w)).health } :=
      fun k w => Chip.raise_congr (c := s.toChip) (d := s.toChip.portFreed) rfl rfl _
    refine ⟨fun success copy => ?wonA, fun success copy => ?wonB, fun failure copy => ?lostB, fun failure copy => ?lostA⟩
    case wonA =>
      intro image
      subst success
      have commits : s.toChip.portFreed.formatCommitEnds j none =
          ((s.toChip.portFreed.setCopy .a true j.seq).closeCommit).formatCommit .b := by
        unfold Chip.formatCommitEnds
        rw [copy]
      have shows : ((s.toChip.portFreed.setCopy .a true j.seq).closeCommit).imageOf 2 = image :=
        Chip.imageOf_congr (c := s.toChip) rfl 2
      rw [Chip.formatCommit_b, shows] at commits
      rw [step, Chip.settle_of_issue (acts.trans commits) rfl rfl]
      rfl
    case wonB =>
      subst success
      have closes : s.toChip.portFreed.formatCommitEnds j none =
          ((s.toChip.portFreed.setCopy .b true j.seq).closeCommit).endFormat .ready .ok 2 := by
        unfold Chip.formatCommitEnds
        rw [copy]
      rw [step, acts, closes,
        Chip.endFormat_command (c := (s.toChip.portFreed.setCopy .b true j.seq).closeCommit) formatting
          OperatingState.noConfusion work, Chip.settle_of_settled 8 rfl]
      rfl
    case lostB =>
      obtain ⟨w, rfl⟩ := Option.ne_none_iff_exists'.1 failure
      have closes : s.toChip.portFreed.formatCommitEnds j (some w) =
          ((s.toChip.portFreed.raise (.directoryFail j.target w)).closeCommit).endFormat .degraded .directoryFail 1 := by
        unfold Chip.formatCommitEnds
        rw [copy]
      rw [raised] at closes
      rw [step, acts, closes, Chip.endFormat_command (by exact formatting) OperatingState.noConfusion (by exact work),
        Chip.settle_of_settled 8 rfl]
      rfl
    case lostA =>
      obtain ⟨w, rfl⟩ := Option.ne_none_iff_exists'.1 failure
      have closes : s.toChip.portFreed.formatCommitEnds j (some w) =
          ((s.toChip.portFreed.raise (.directoryFail j.target w)).closeCommit).endFormat .unformatted .directoryFail 0 := by
        unfold Chip.formatCommitEnds
        rw [copy]
      rw [raised] at closes
      rw [step, acts, closes, Chip.endFormat_command (by exact formatting) OperatingState.noConfusion (by exact work),
        Chip.settle_of_settled 8 rfl]
      rfl

end Sys2Proof.Machine

/-! # The early end of a format (R167) -/

namespace Sys2Proof.Machine

/-- The part that a format ended early leaves, with its tables emptied if they were not (R164, R167). -/
def State.formatQuit (s : State) (f : FormatJob) (code : ResultCode) (rows : Word) (arr : Memory) (q : Sequencer) :
    State :=
  let emptied : State :=
    { s with
      tr := { remap := [], changes := 0, repairClaim := none, patrolClaim := none }
      rep := { st := .idle, job := none, waiting := none }
      alloc := { zones := freshZones s.devices }
      trk := { watch := List.replicate 64 none, pendingList := [] }
      pat := { PatrolEngine.reset with pace := s.pat.pace }
      dir := { s.dir with dirty := false, commitRequest := false, commitTimer := none }
      bus := { s.bus with gradeFlag := s.bus.gradeFlag || decide (s.health.grade ≠ .good) }
      health := {
        policy := Policy.default, lost := false, grade := .good
        queue := ⟨.patrolStopped .format, 0⟩ :: if s.health.grade = .good then [] else [⟨.gradeChange .good, 0⟩] } }
  let t := match f.phase with
    | .waitCommit | .invalidating _ => emptied
    | .rowInit _ | .committing _ => s
  { t with
    array := arr, seq := q
    bus := { t.bus with stateFlag := true, cmdDone := s.bus.cmdDone || decide (s.cmd.work = .format) }
    cmd := if s.cmd.work = .format then s.cmd.finished code ⟨rows, 0, 0, 0⟩ else s.cmd
    dir := { t.dir with
      format := none, opState := .unformatted, validA := false, seqA := 0, validB := false, seqB := 0
      commit := s.dir.commit.map fun j => { j with detached := true } } }

/-- The early end is the same action wherever it is taken: by the slots that the emptying abandons, which hold nothing here,
and by the command's registers, of which only RESULT0 is kept. -/
theorem State.formatQuit_eq {s : State} {f : FormatJob} (format : s.dir.format = some f)
    (formatting : s.dir.opState = .formatting) {c : Chip} {q : Sequencer} {e : CommandEngine}
    (shape : c = { s.toChip with seq := q, cmd := e }) (repair : q.repair = .empty) (patrol : q.patrol = .empty)
    {code : ResultCode} {rows : Word} (work : e.work = s.cmd.work)
    (ends : (if e.work = .format then e.finished code ⟨e.results.r0, 0, 0, 0⟩ else e) =
      if s.cmd.work = .format then s.cmd.finished code ⟨rows, 0, 0, 0⟩ else s.cmd) (arr : Memory) :
    ({ s with toChip := c.endFormatEarly code, array := arr } : State) = s.formatQuit f code rows arr q := by
  subst shape
  have slots : ({ q with repair := q.repair.abandon, patrol := q.patrol.abandon } : Sequencer) = q := by
    obtain ⟨_, _, _, _, _⟩ := q
    cases repair
    cases patrol
    rfl
  rw [work] at ends
  cases emptied : f.phase.emptied with
  | true =>
    have quits := Chip.endFormatEarly_emptied (c := { s.toChip with seq := q, cmd := e }) format formatting emptied code
    rw [quits]
    unfold State.formatQuit
    cases phase : f.phase with
    | waitCommit | invalidating k => simp [phase, FormatPhase.emptied] at emptied
    | rowInit k | committing k => simp only [work, ends]
  | false =>
    have quits := Chip.endFormatEarly_full (c := { s.toChip with seq := q, cmd := e }) format formatting emptied code
    rw [Chip.emptyTables_eq] at quits
    rw [quits]
    unfold State.formatQuit
    cases phase : f.phase with
    | waitCommit | invalidating k => simp only [work, ends, slots]
    | rowInit k | committing k => simp [phase, FormatPhase.emptied] at emptied

/-- The part that the format leaves is settled where its port was. -/
theorem State.formatQuit_settled {s : State} {f : FormatJob} {code : ResultCode} {rows : Word} {arr : Memory}
    {q : Sequencer} {d : Chip} (quits : ({ s with toChip := d, array := arr } : State) = s.formatQuit f code rows arr q)
    (settled : q.settled = true) : d.seq.settled = true :=
  (congrArg (fun t : State => t.seq.settled) quits).trans settled

theorem State.formatQuit_step {s : State} {f : FormatJob} {code : ResultCode} {rows : Word} {arr : Memory}
    {q : Sequencer} {d : Chip} (quits : ({ s with toChip := d, array := arr } : State) = s.formatQuit f code rows arr q)
    (settled : q.settled = true) :
    ({ s with toChip := d.settle 8, array := arr } : State) = s.formatQuit f code rows arr q := by
  rw [Chip.settle_of_settled 8 (State.formatQuit_settled quits settled), quits]

/-! ## STOP and the format -/

theorem Chip.stopWork_format {c : Chip} (work : c.cmd.work = .format) : c.stopWork = c.stopFormat := by
  unfold Chip.stopWork
  rw [work]

/-- A format that waits for a commit or commits ends at once (R167). -/
theorem Chip.stopFormat_ends {c : Chip} {f : FormatJob} (format : c.dir.format = some f)
    (commits : f.phase = .waitCommit ∨ ∃ k, f.phase = .committing k) : c.stopFormat = c.endFormatEarly .aborted := by
  unfold Chip.stopFormat
  rcases commits with phase | ⟨k, phase⟩
  · simp only [format, phase]
  · simp only [format, phase]

/-- A format whose write is in progress waits for its completion (R167). -/
theorem Chip.stopFormat_waits {c : Chip} {f : FormatJob} (format : c.dir.format = some f)
    (writes : (∃ k, f.phase = .invalidating k)
      ∨ ∃ k r, f.phase = .rowInit k ∧ c.cmd.held = none ∧ c.seq.foreground = .inProgress r) : c.stopFormat = c := by
  unfold Chip.stopFormat
  rcases writes with ⟨k, phase⟩ | ⟨k, r, phase, held, busy⟩
  · simp only [format, phase]
  · simp only [format, phase, held, busy, Option.isSome_none, Bool.false_eq_true, if_false]

/-- Settles O55: one action, taken by a STOP at once or at the completion, and by a TIMEOUT. -/
theorem formatEndsEarly : Obligations.FormatEndsEarly := by
  intro s f format formatting quit r0
  refine ⟨fun x p d running command work held port => ⟨fun phase purpose => ?stops, fun writes => ?waits⟩,
    fun x ws inArray asked => ⟨fun k phase port => ?invalidated, fun k phase work port => ?initialised⟩,
    fun x p ws second left port purpose => ?timesOut⟩
  case stops =>
    let asked : Chip := { s.toChip with cmd := { s.cmd with stopRequest := true } }
    have act : asked.stopWork = asked.endFormatEarly .aborted :=
      (Chip.stopWork_format (c := asked) work).trans (Chip.stopFormat_ends (c := asked) format phase)
    have slots : s.seq.repair = .empty ∧ s.seq.patrol = .empty := by
      rw [port]
      rcases purpose with rfl | rfl <;> exact ⟨rfl, rfl⟩
    have quits := State.formatQuit_eq (code := .aborted) (rows := r0) format formatting (c := asked) (q := s.seq)
      (e := asked.cmd) rfl slots.1 slots.2 rfl ((if_pos work).trans (if_pos work).symm) s.array
    have settled : s.seq.settled = true := by
      rw [port]
      exact Sequencer.settled_carrying _
    rw [State.stop_ends running command (State.formatQuit_settled quits settled) act]
    exact congrArg Host.Outcome.next quits
  case waits =>
    let asked : Chip := { s.toChip with cmd := { s.cmd with stopRequest := true } }
    have settled : s.seq.settled = true := by
      rw [port]
      exact Sequencer.settled_carrying _
    refine State.stop_recorded running command settled ((Chip.stopWork_format (c := asked) work).trans
      (Chip.stopFormat_waits (c := asked) format ?_))
    rcases writes with invalidating | ⟨k, phase, rfl⟩
    · exact .inl invalidating
    · exact .inr ⟨k, request .rowInit x d, phase, held, congrArg Sequencer.foreground port⟩
  case invalidated =>
    have stops : s.toChip.portFreed.formatStops = true := by
      rw [Chip.formatStops_eq (c := s.toChip.portFreed) format]
      exact Bool.or_eq_true_iff.2 asked
    have act : s.toChip.portFreed.invalidated = s.toChip.portFreed.endFormatEarly .aborted := by
      cases k with
      | a => exact (Chip.invalidated_a (c := s.toChip.portFreed) format phase).trans (if_pos stops)
      | b => exact (Chip.invalidated_b (c := s.toChip.portFreed) format phase).trans (if_pos stops)
    have quits := State.formatQuit_eq (code := .aborted) (rows := r0) format formatting (c := s.toChip.portFreed)
      (q := Sequencer.reset) (e := s.cmd) rfl rfl rfl rfl rfl (s.array.write x ws)
    rw [invalidatingWriteDone_at port inArray, act]
    exact congrArg Host.Outcome.next (State.formatQuit_step quits rfl)
  case initialised =>
    have stops : s.toChip.portFreed.formatStops = true := by
      rw [Chip.formatStops_eq (c := s.toChip.portFreed) format]
      exact Bool.or_eq_true_iff.2 asked
    let counted : Chip := s.toChip.portFreed.setResult0 (k + 1)
    have act : s.toChip.portFreed.rowInitialised = counted.endFormatEarly .aborted :=
      (Chip.rowInitialised_at (c := s.toChip.portFreed) format phase).trans (if_pos stops)
    have quits := State.formatQuit_eq (code := .aborted) (rows := word (k + 1)) format formatting (c := counted)
      (q := Sequencer.reset) (e := counted.cmd) rfl rfl rfl rfl ((if_pos work).trans (if_pos work).symm)
      (s.array.write x ws)
    rw [rowInitialisationDone_at port inArray, act]
    exact congrArg Host.Outcome.next (State.formatQuit_step quits rfl)
  case timesOut =>
    have times : s.toChip.portFreed.timedOut p = s.toChip.portFreed.endFormatEarly .arrayTimeout := by
      rcases purpose with ⟨-, rfl⟩ | ⟨-, rfl⟩ <;> rfl
    have quits := State.formatQuit_eq (code := .arrayTimeout) (rows := r0) format formatting (c := s.toChip.portFreed)
      (q := Sequencer.reset) (e := s.cmd) rfl rfl rfl rfl rfl
      (if second then s.array.afterCut s.devices (request p x (some ws)) left else s.array)
    have step := readyTimeout_at (second := second) (left := left) port rfl
    rw [show (request p x (some ws)).purpose = p from rfl, times] at step
    rw [step]
    exact congrArg Host.Outcome.next (State.formatQuit_step quits rfl)

end Sys2Proof.Machine

/-! # The load (R91, R125, R141, R142, R157 to R160, R182) -/

namespace Sys2Proof.Machine

/-! ## The load reads -/

/-- A read that is cut off leaves the array as it is. -/
theorem Memory.afterCut_read (m : Memory) (n : Nat) {r : Request} (left : RowPatch) (reads : r.data = none) :
    m.afterCut n r left = m := by
  unfold Memory.afterCut
  rw [reads]

/-- The read has ended, by its completion or by a TIMEOUT, with the words kept and the verdict of test 1 (R157). -/
def State.LoadReadEnds (s : State) (x : PhysRow) (instr : Instr) (words : List Word) (ok : Bool) : Prop :=
  (∃ flips, instr = .loadReadDone flips ∧ x.inArray s.devices = true ∧ words = (s.array.deliver x flips).words
      ∧ ok = (s.array.deliver x flips).outcomes.all fun o => decide (o ≠ .uncorrectable))
    ∨ (∃ second left, instr = .readyTimeout second left ∧ words = zeroRow ∧ ok = false)

/-- The words of a load read enter the buffer of its copy, with the verdict of test 1 (R157). -/
def Chip.loadKept (c : Chip) (words : List Word) (ok : Bool) : Chip :=
  { c with
    dir := { c.dir with
      loadBuffer := if c.dir.loadIndex < 102 then c.dir.loadBuffer ++ [words] else c.dir.loadBuffer
      loadOkA := if c.dir.loadIndex < 102 then c.dir.loadOkA && ok else c.dir.loadOkA
      image := if c.dir.loadIndex < 102 then c.dir.image else c.dir.image ++ [words]
      loadOkB := if c.dir.loadIndex < 102 then c.dir.loadOkB else c.dir.loadOkB && ok } }

/-- What a load read does: keep its words, and read the next row or end the load (R157, R158). -/
def Chip.loadGoesOn (c : Chip) (words : List Word) (ok : Bool) : Chip :=
  if c.dir.loadIndex + 1 < 204 then
    Chip.issue { c.loadKept words ok with dir := { (c.loadKept words ok).dir with loadIndex := c.dir.loadIndex + 1 } }
      .loadRead (loadPhys (c.dir.loadIndex + 1)) none
  else (c.loadKept words ok).endLoad

/-- The part after its last load read, whose words complete copy B (R157). -/
def Chip.loadLast (c : Chip) (words : List Word) (ok : Bool) : Chip :=
  { c with dir := { c.dir with image := c.dir.image ++ [words], loadOkB := c.dir.loadOkB && ok } }

theorem Chip.loadGoesOn_last {c : Chip} (last : c.dir.loadIndex = 203) (words : List Word) (ok : Bool) :
    c.loadGoesOn words ok = (c.loadLast words ok).endLoad := by
  have copyB : ¬ c.dir.loadIndex < 102 := by omega
  have keeps : c.loadKept words ok = c.loadLast words ok := by
    unfold Chip.loadKept
    rw [if_neg copyB, if_neg copyB, if_neg copyB, if_neg copyB]
    rfl
  rw [← keeps]
  exact if_neg (show ¬ c.dir.loadIndex + 1 < 204 by omega)

theorem Chip.loadStep_eq (c : Chip) (d : Option Delivered) :
    c.loadStep d = c.loadGoesOn ((d.map Delivered.words).getD zeroRow)
      ((d.map fun x => x.outcomes.all fun o => decide (o ≠ .uncorrectable)).getD false) := by
  unfold Chip.loadStep Chip.loadGoesOn Chip.loadKept
  by_cases copyA : c.dir.loadIndex < Config.imageRows
  · simp only [if_pos copyA]
    rfl
  · simp only [if_neg copyA]
    rfl

theorem State.LoadReadEnds.step {s : State} {x : PhysRow} {instr : Instr} {words : List Word} {ok : Bool}
    (ends : s.LoadReadEnds x instr words ok) (port : s.seq = Sequencer.carrying (request .loadRead x none))
    (mode : s.dir.mode = .loading) :
    exec instr s = .next { s with toChip := (s.toChip.portFreed.loadGoesOn words ok).settle 8 } := by
  have loads : ∀ d, s.toChip.portFreed.loadRead d = _ := fun d =>
    (Chip.loadRead_loading (c := s.toChip.portFreed) mode d).trans (Chip.loadStep_eq _ d)
  rcases ends with ⟨flips, rfl, inArray, rfl, rfl⟩ | ⟨second, left, rfl, rfl, rfl⟩
  · rw [loadReadDone_at port inArray, loads]
    rfl
  · have array : (if second then s.array.afterCut s.devices (request .loadRead x none) left else s.array) = s.array := by
      split
      · exact Memory.afterCut_read _ _ _ rfl
      · rfl
    rw [readyTimeout_at port rfl, array]
    exact congrArg (fun c : Chip => Host.Outcome.next { s with toChip := c.settle 8 }) (loads none)

/-! ## The end of the load -/

/-- The directory unit as the load settles it, with the flags and sequences of the copies held valid (R142, R158). -/
def Chip.loadSettled (c : Chip) (a b : Option Loaded) : Chip :=
  { c with
    dir := { c.dir with
      mode := .idle, validA := a.isSome, seqA := seqOf a, validB := b.isSome, seqB := seqOf b, image := []
      loadBuffer := [] } }

/-- What the load ends with, by the verdicts on the copies (R158 to R160). -/
theorem Chip.endLoad_eq {c : Chip} {a b b' : Option Loaded} (copyA : judgeCopy c.dir.loadOkA c.dir.loadBuffer = a)
    (copyB : judgeCopy c.dir.loadOkB c.dir.image = b') (kept : (if a.isSome ∧ seqOf a = seqOf b' then none else b') = b) :
    c.endLoad = match (if seqOf a < seqOf b then b else a) with
      | none => (c.loadSettled a b).setOpState .unformatted
      | some l =>
        if l.devices = c.devices then
          (c.loadSettled a b).handOver l (if a.isSome && b.isSome then .ready else .degraded)
        else (c.loadSettled a b).setOpState .foreign := by
  subst copyA copyB kept
  rfl

theorem Chip.endLoad_none {c : Chip} (copyA : judgeCopy c.dir.loadOkA c.dir.loadBuffer = none)
    (copyB : judgeCopy c.dir.loadOkB c.dir.image = none) :
    c.endLoad = (c.loadSettled none none).setOpState .unformatted :=
  Chip.endLoad_eq copyA copyB rfl

/-- The part after the load, in its operating state and with the STATE flag set (R158, R160). -/
def Chip.loadEnded (c : Chip) (okB : Bool) (a b : Option Loaded) (st : OperatingState) : Chip :=
  { c.portFreed with
    bus := { c.bus with stateFlag := true }
    dir := { c.dir with
      mode := .idle, opState := st, validA := a.isSome, seqA := seqOf a, validB := b.isSome, seqB := seqOf b, image := []
      loadBuffer := [], loadOkB := okB } }

theorem Chip.loadEnded_eq {c : Chip} {st : OperatingState} (changes : c.dir.opState ≠ st) (words : List Word) (ok : Bool)
    (a b : Option Loaded) : ((c.portFreed.loadLast words ok).loadSettled a b).setOpState st =
      c.loadEnded (c.dir.loadOkB && ok) a b st :=
  Chip.setOpState_changes (c := (c.portFreed.loadLast words ok).loadSettled a b) changes

/-- No copy is held valid that did not pass test 1 (R141). -/
theorem judgeCopy_unread (rows : List (List Word)) : judgeCopy false rows = none :=
  judgeCopy_eq_none fun _ held => Bool.false_ne_true (judgeCopy_eq_some.1 held).1

/-- Settles O49: a read before the last goes on with the next, and the last one ends the load. -/
theorem loadReadsAndJudgesBothCopies : Obligations.LoadReadsAndJudgesBothCopies := by
  intro s x instr words ok port mode ends
  have step := State.LoadReadEnds.step (x := x) ends port mode
  refine ⟨fun more => ?next, fun last notA notB loading => ?ends⟩
  case next =>
    intro i
    have act : s.toChip.portFreed.loadGoesOn words ok = _ :=
      if_pos (show s.dir.loadIndex + 1 < 204 from Nat.succ_lt_succ more)
    have place : loadPhys (s.dir.loadIndex + 1) =
        ⟨0, if i + 1 < 102 then 8192 + (i + 1) else 8320 + (i + 1 - 102)⟩ := by
      unfold loadPhys
      by_cases copyA : i + 1 < 102
      · rw [if_pos copyA]
        exact congrArg (PhysRow.mk 0) (if_pos copyA).symm
      · rw [if_neg copyA]
        exact congrArg (PhysRow.mk 0) (if_neg copyA).symm
    rw [step, Chip.settle_of_issue act rfl rfl, ← place]
    rfl
  case ends =>
    have act := Chip.loadGoesOn_last (c := s.toChip.portFreed) last words ok
    have neither := Chip.endLoad_none (c := s.toChip.portFreed.loadLast words ok)
      (by exact (congrArg (judgeCopy · s.dir.loadBuffer) notA).trans (judgeCopy_unread _))
      (by exact (congrArg (judgeCopy · (s.dir.image ++ [words])) notB).trans (judgeCopy_unread _))
    have loading : s.dir.opState ≠ .unformatted := by rw [loading]; exact OperatingState.noConfusion
    rw [step, act, neither, Chip.loadEnded_eq (c := s.toChip) loading, notB, Chip.settle_of_settled 8 rfl]
    rfl

/-! ## The content that is handed over -/

/-- The part with a content taken by its owners, before the device is graded (R91, R125, R159). -/
def Chip.contentTaken (c : Chip) (l : Loaded) : Chip :=
  { c with
    tr := { remap := l.remap, changes := 0, repairClaim := none, patrolClaim := none }
    trk := { watch := List.replicate 64 none, pendingList := l.pendingList }
    alloc := { zones := l.gradedZones }
    pat := l.patrol c.logicalRows
    health := { c.health with policy := l.policy } }

/-- The part with a content handed over, before the patrol starts (R159). -/
def Chip.handed (c : Chip) (l : Loaded) : Chip :=
  { c.contentTaken l with health := { c.health with policy := l.policy, grade := (c.contentTaken l).computedGrade } }

theorem Chip.handOver_eq {c : Chip} {st : OperatingState} (changes : c.dir.opState ≠ st) (l : Loaded) :
    c.handOver l st = ((c.setOpState st).handed l).patrolOn := by
  show ((c.handed l).setOpState st).patrolOn = _
  rw [Chip.setOpState_changes changes, Chip.setOpState_changes (c := c.handed l) changes]
  rfl

/-- A patrol loaded with mode OFF is STOPPED (R125). -/
theorem Chip.patrolOn_handed {c : Chip} {l : Loaded} (off : l.mode = .off) : (c.handed l).patrolOn = c.handed l := by
  refine Chip.patrolOn_of_not ?_
  have stopped : (c.handed l).pat.st = .stopped := if_pos off
  simp [Chip.patrolReady, stopped]

/-- The end of a load whose choice is a copy, by its device count and its mode (R158 to R160). -/
theorem Chip.endLoad_some {c : Chip} {a b b' : Option Loaded} {l : Loaded} {words : List Word} {ok : Bool}
    (copyA : judgeCopy c.dir.loadOkA c.dir.loadBuffer = a)
    (copyB : judgeCopy (c.dir.loadOkB && ok) (c.dir.image ++ [words]) = b')
    (kept : (if a.isSome ∧ seqOf a = seqOf b' then none else b') = b)
    (chosen : (if seqOf a < seqOf b then b else a) = some l) (loading : c.dir.opState = .loading) :
    (l.devices ≠ c.devices →
      (c.portFreed.loadLast words ok).endLoad = c.loadEnded (c.dir.loadOkB && ok) a b .foreign)
    ∧ (l.devices = c.devices →
      (c.portFreed.loadLast words ok).endLoad =
        ((c.loadEnded (c.dir.loadOkB && ok) a b
          (if a.isSome && b.isSome then .ready else .degraded)).handed l).patrolOn) := by
  have ends := Chip.endLoad_eq (c := c.portFreed.loadLast words ok) copyA copyB kept
  rw [chosen] at ends
  have other : ∀ st, st ≠ .loading → c.dir.opState ≠ st := fun st notLoading same => notLoading (same.symm.trans loading)
  refine ⟨fun foreign => ?_, fun ours => ?_⟩
  · rw [ends, ← Chip.loadEnded_eq (other _ OperatingState.noConfusion)]
    exact if_neg foreign
  · have serves : (if a.isSome && b.isSome then OperatingState.ready else .degraded) ≠ .loading := by
      split <;> exact OperatingState.noConfusion
    rw [ends, ← Chip.loadEnded_eq (other _ serves), ← Chip.handOver_eq (by exact other _ serves)]
    exact if_pos ours

/-- A copy held valid has a sequence other than 0 (R182). -/
theorem seq_ne_zero_of_judged {ok : Bool} {rows : List (List Word)} {l : Loaded} (held : judgeCopy ok rows = some l) :
    0 < l.seq := by
  obtain ⟨_, _, _, _, _, _, lawful⟩ := judgeCopy_eq_some.1 held
  refine (BitVec.pos_iff_ne_zero _).2 fun zero => ?_
  simp [Loaded.lawful, zero] at lawful

/-- Settles O50: by the copies held valid, the choice of the newer one and the end of the load with it. -/
theorem loadHandsOverTheNewestValidCopy : Obligations.LoadHandsOverTheNewestValidCopy := by
  intro s x i words ok port mode last loading reads cell okA okB rowsA rowsB valid settled handed ends
  have step := (State.LoadReadEnds.step (x := x) reads port mode).trans
    (congrArg (fun c : Chip => Host.Outcome.next { s with toChip := c.settle 8 })
      (Chip.loadGoesOn_last (c := s.toChip.portFreed) last words ok))
  have judged : ∀ {ok rows l}, valid ok rows l ↔ judgeCopy ok rows = some l := judgeCopy_eq_some.symm
  have unjudged : ∀ {ok rows}, (∀ l, ¬ valid ok rows l) → judgeCopy ok rows = none :=
    fun {ok rows} unheld => judgeCopy_eq_none fun l held => unheld l (judged.2 held)
  have hands : ∀ {a b b' : Option Loaded} {l : Loaded} {st : OperatingState}, judgeCopy okA rowsA = a →
      judgeCopy okB rowsB = b' → (if a.isSome ∧ seqOf a = seqOf b' then none else b') = b →
      (if seqOf a < seqOf b then b else a) = some l → (if a.isSome && b.isSome then .ready else .degraded) = st →
      ends (settled a.isSome (seqOf a) b.isSome (seqOf b)) l st := by
    intro a b b' l st copyA copyB kept chosen serves
    obtain ⟨foreign, ours⟩ := Chip.endLoad_some (c := s.toChip) (words := words) (ok := ok) copyA copyB kept chosen loading
    rw [serves] at ours
    refine ⟨fun other => ?_, fun same off => ?_, fun same on => ?_⟩
    · rw [step, foreign other, Chip.settle_of_settled 8 rfl]
      rfl
    · rw [step, ours same, Chip.patrolOn_handed off, Chip.settle_of_settled 8 rfl]
      rfl
    · rw [step, ours same]
      rfl
  refine ⟨fun a b validA validB => ⟨fun older => ?newerB, fun newer => ?newerA, fun equal => ?equal⟩,
    fun a validA noB => ?onlyA, fun b noA validB => ?onlyB, fun noA noB => ?neither⟩
  case newerB =>
    exact hands (b := some b) (judged.1 validA) (judged.1 validB) (if_neg fun both => BitVec.ne_of_lt older both.2)
      (if_pos older) rfl
  case newerA =>
    exact hands (b := some b) (judged.1 validA) (judged.1 validB) (if_neg fun both => BitVec.ne_of_lt newer both.2.symm)
      (if_neg (BitVec.lt_asymm newer)) rfl
  case equal =>
    exact hands (b := none) (judged.1 validA) (judged.1 validB) (if_pos ⟨rfl, equal⟩) (if_neg BitVec.not_lt_zero) rfl
  case onlyA =>
    exact hands (b := none) (judged.1 validA) (unjudged noB) (ite_self _) (if_neg BitVec.not_lt_zero) rfl
  case onlyB =>
    have held := judged.1 validB
    exact hands (b := some b) (unjudged noA) held (if_neg fun both => Bool.false_ne_true both.1)
      (if_pos (seq_ne_zero_of_judged held)) rfl
  case neither =>
    have neither := Chip.endLoad_none (c := s.toChip.portFreed.loadLast words ok) (unjudged noA) (unjudged noB)
    have loading : s.dir.opState ≠ .unformatted := by rw [loading]; exact OperatingState.noConfusion
    rw [step, neither, Chip.loadEnded_eq (c := s.toChip) loading, Chip.settle_of_settled 8 rfl]
    rfl

end Sys2Proof.Machine

/-! # The content of a copy (R125, R159, R182, section 11.3) -/

namespace Sys2Proof.Machine

/-! ## The settings -/

theorem orDefault_of_mem {lo hi default n : Nat} (inside : lo ≤ n ∧ n ≤ hi) : orDefault lo hi default n = n := if_pos inside

theorem orDefault_of_not_mem {lo hi default n : Nat} (outside : n < lo ∨ hi < n) : orDefault lo hi default n = default :=
  if_neg (by omega)

theorem PatrolMode.ofCode_eq (n : Nat) :
    PatrolMode.ofCode n = if n = 1 then .single else if n = 2 then .continuous else .off := by
  unfold PatrolMode.ofCode
  split
  · rfl
  · rfl
  · rename_i notSingle notContinuous
    rw [if_neg notSingle, if_neg notContinuous]

theorem SpareState.ofCode_eq (n : Nat) :
    SpareState.ofCode n = if n = 2 then .inUse else if n = 3 then .bad else .free := by
  unfold SpareState.ofCode
  split
  · rfl
  · rfl
  · rename_i notInUse notBad
    rw [if_neg notInUse, if_neg notBad]

/-- The limits of a copy are in order, and in their ranges: they are kept (R159, R169). -/
theorem storedPolicy_limits_kept {rows : List (List Word)}
    (order : field (copyWord rows 0 8) 8 5 < field (copyWord rows 0 8) 0 5) (range : field (copyWord rows 0 8) 0 5 ≤ 16) :
    (storedPolicy rows).cautionLimit = field (copyWord rows 0 8) 0 5
      ∧ (storedPolicy rows).criticalLimit = field (copyWord rows 0 8) 8 5 := by
  have caution := orDefault_of_mem (lo := 1) (hi := 16) (default := Policy.default.cautionLimit)
    (n := field (copyWord rows 0 8) 0 5) (by omega)
  have critical := orDefault_of_mem (lo := 0) (hi := 15) (default := Policy.default.criticalLimit)
    (n := field (copyWord rows 0 8) 8 5) (by omega)
  simp only [storedPolicy, caution, critical, order, decide_true, Bool.and_self, if_true, and_self]

/-- The limits of a copy are out of order: both take their defaults (R159, R169). -/
theorem storedPolicy_limits_default {rows : List (List Word)}
    (order : field (copyWord rows 0 8) 0 5 ≤ field (copyWord rows 0 8) 8 5) :
    (storedPolicy rows).cautionLimit = 8 ∧ (storedPolicy rows).criticalLimit = 2 := by
  simp only [storedPolicy, Nat.not_lt.2 order, decide_false, Bool.false_and, Bool.false_eq_true, if_false]
  exact ⟨rfl, rfl⟩

/-! ## The slots -/

/-- What a remap slot that names an entry holds (Table 11-6). -/
theorem storedRemap_eq_some {rows : List (List Word)} {i : Nat} {e : RemapEntry} (stored : storedRemap rows i = some e) :
    let v := fun k => copyWord rows (1 + i / 8) (4 * (i % 8) + k)
    e.row = (v 0).toNat ∧ e.stamp = v 3 ∧ e.origin.code = field (v 2) 4 3
      ∧ (field (v 2) 0 2 = 1 ∧ v 1 ≠ 0xFFFF ∧ e.place = .spared (SpareId.unpack (v 1))
        ∨ field (v 2) 0 2 = 2 ∧ e.place = .retired) := by
  intro v
  unfold storedRemap at stored
  cases origin : Origin.ofCode (field (v 2) 4 3) with
  | none => simp only [v] at origin; simp only [origin] at stored; cases stored
  | some o =>
    have code := Origin.code_of_ofCode origin
    simp only [v] at origin
    simp only [origin] at stored
    split at stored
    · rename_i spared
      split at stored
      · cases stored
      · rename_i target
        cases stored
        exact ⟨rfl, rfl, code, .inl ⟨spared, target, rfl⟩⟩
    · split at stored
      · rename_i retired
        cases stored
        exact ⟨rfl, rfl, code, .inr ⟨retired, rfl⟩⟩
      · cases stored

/-- A remap slot that names no entry (section 11.2, Table 11-6). -/
theorem storedRemap_eq_none {rows : List (List Word)} {i : Nat} :
    let v := fun k => copyWord rows (1 + i / 8) (4 * (i % 8) + k)
    field (v 2) 0 2 = 1 ∧ v 1 = 0xFFFF ∨ field (v 2) 0 2 = 0 ∨ field (v 2) 0 2 = 3 ∨ 4 < field (v 2) 4 3 →
      storedRemap rows i = none := by
  intro v bad
  cases slot : storedRemap rows i with
  | none => rfl
  | some e =>
    obtain ⟨-, -, origin, place⟩ := storedRemap_eq_some slot
    change e.origin.code = field (v 2) 4 3 at origin
    change field (v 2) 0 2 = 1 ∧ v 1 ≠ 0xFFFF ∧ _ ∨ field (v 2) 0 2 = 2 ∧ _ at place
    have known : e.origin.code ≤ 4 := by cases e.origin <;> decide
    rcases place with ⟨spared, target, -⟩ | ⟨retired, -⟩
    · rcases bad with ⟨-, absent⟩ | free | other | code
      · exact absurd absent target
      · omega
      · omega
      · omega
    · omega

/-- What a pending slot that names an entry holds (Table 11-7, R98). -/
theorem storedPending_eq_some {rows : List (List Word)} {i : Nat} {e : PendingEntry}
    (stored : storedPending rows i = some e) :
    let v := fun k => copyWord rows (81 + i / 8) (4 * (i % 8) + k)
    e.row = (v 0).toNat ∧ e.added = v 2 ∧ e.restarts = 0 ∧ e.cause.code = field (v 1) 0 2
      ∧ e.source.code = field (v 1) 4 3 ∧ e.starved = (v 1).getLsbD 8 ∧ e.stuck = (v 1).getLsbD 9 := by
  intro v
  unfold storedPending at stored
  dsimp only at stored
  split at stored
  · rename_i cause source isCause isSource
    cases stored
    exact ⟨rfl, rfl, rfl, Cause.code_of_ofCode isCause, Origin.code_of_ofCode isSource, rfl, rfl⟩
  · cases stored
  · cases stored

/-! ## The reading of a copy -/

/-- The content of a copy with its remap and pending slots read (R159, R182). -/
def contentOf (rows : List (List Word)) (remap : List RemapEntry) (pendingList : List PendingEntry) : Loaded :=
  let w := copyWord rows 0
  { seq := w 1 ++ w 2, devices := (w 3).toNat, policy := storedPolicy rows
    mode := PatrolMode.ofCode (w 10).toNat, pace := min 255 (w 11).toNat, cursor := (w 12).toNat, pass := w 13
    remap, pendingList
    zones := (List.range 32).map fun g => if g < 8 * (w 3).toNat then storedZone rows g else Zone.absent }

/-- A copy has a content when every slot counted names an entry. -/
theorem readContent_eq_some {rows : List (List Word)} {l : Loaded} (read : readContent rows = some l) :
    ∃ remap pendingList, l = contentOf rows remap pendingList
      ∧ allSome ((List.range (min 512 (copyWord rows 0 14).toNat + min 128 (copyWord rows 0 15).toNat)).map
          (storedRemap rows)) = some remap
      ∧ allSome ((List.range (min 32 (copyWord rows 0 16).toNat)).map (storedPending rows)) = some pendingList := by
  unfold readContent at read
  dsimp only at read
  split at read
  · rename_i remap pendingList slots pendings
    cases read
    exact ⟨remap, pendingList, rfl, slots, pendings⟩
  · cases read
  · cases read

/-- The zones of a content: those of the devices as stored, the others absent. -/
theorem zones_contentOf (rows : List (List Word)) (remap : List RemapEntry) (pendingList : List PendingEntry) {g : Nat}
    (present : g < 32) : (contentOf rows remap pendingList).zones.getD g Zone.absent =
      if g < 8 * (copyWord rows 0 3).toNat then storedZone rows g else Zone.absent := by
  simp [contentOf, List.getD, present]

theorem spares_storedZone (rows : List (List Word)) (g i : Nat) (inZone : i < 16) :
    (storedZone rows g).spares[i]? = some (SpareState.ofCode
      (field (copyWord rows (85 + g / 2) (16 * (g % 2) + i / 8)) (2 * (i % 8)) 2)) := by
  simp [storedZone, inZone]

/-! ## The laws of a content -/

/-- A condition on the zones of the devices, as the model goes through them (R182). -/
theorem all_presentZones (zones : List Zone) (n : Nat) (p : Zone → Nat → Bool) :
    zones.zipIdx.all (fun zg => decide (n ≤ zg.2) || p zg.1 zg.2) = true ↔
      ∀ g z, g < n → zones[g]? = some z → p z g = true := by
  rw [List.all_eq_true]
  constructor
  · intro all g z present held
    have mem : (z, g) ∈ zones.zipIdx := List.mem_zipIdx_iff_getElem?.2 held
    simpa [Nat.not_le.2 present] using all _ mem
  · rintro all ⟨z, g⟩ mem
    have held := List.mem_zipIdx_iff_getElem?.1 mem
    rcases Nat.lt_or_ge g n with present | absent
    · simp [all g z present held]
    · simp [absent]

theorem zoneCountsAgree_iff (remap : List RemapEntry) (z : Zone) (g : Nat) :
    zoneCountsAgree remap z g = true ↔
      z.lentOut = (borrowedPairs remap).countP (fun p => decide (p.1 = g))
        ∧ z.borrowedIn = (borrowedPairs remap).countP (fun p => decide (p.2 = g))
        ∧ z.retiredRows = remap.countP fun e => decide (e.place = .retired) && decide (homeZone e.row = g) := by
  simp only [zoneCountsAgree, Bool.and_eq_true, decide_eq_true_eq, and_assoc]

/-- The laws of the pending entries (R97, R182). -/
theorem all_pending_iff (remap : List RemapEntry) (limit : Nat) (pendings : List PendingEntry) :
    pendings.all (fun e => decide (e.row < limit)
        && !(remap.any fun x => decide (x.row = e.row) && decide (x.place = .retired))
        && (!e.starved || decide (e.cause ≠ .unc)) && (!e.stuck || decide (e.cause = .unc))) = true ↔
      ∀ e ∈ pendings, e.row < limit ∧ (∀ x ∈ remap, x.row = e.row → x.place ≠ .retired)
        ∧ (e.starved = true → e.cause ≠ .unc) ∧ (e.stuck = true → e.cause = .unc) := by
  have noneRetired : ∀ e : PendingEntry,
      (!(remap.any fun x => decide (x.row = e.row) && decide (x.place = .retired))) = true ↔
        ∀ x ∈ remap, x.row = e.row → x.place ≠ .retired := by
    simp [List.any_eq_false]
  have implies : ∀ (b : Bool) (p : Prop) [Decidable p], (!b || decide p) = true ↔ (b = true → p) := by
    intro b p _
    cases b <;> simp
  simp only [List.all_eq_true, Bool.and_eq_true, noneRetired, implies, decide_eq_true_eq, and_assoc]

/-- Every spare IN_USE is the target of an entry (R182). -/
theorem all_inUseSpares_iff (zones : List Zone) (targets : List SpareId) :
    (inUseSpares zones).all (fun t => decide (t ∈ targets)) = true ↔
      ∀ g z i, zones[g]? = some z → z.spares[i]? = some .inUse → spareOf g i ∈ targets := by
  simp only [List.all_eq_true, decide_eq_true_eq, mem_inUseSpares]
  exact ⟨fun all g z i zone spare => all _ ⟨g, z, i, zone, spare, rfl⟩,
    fun all _ ⟨g, z, i, zone, spare, target⟩ => target ▸ all g z i zone spare⟩

theorem lawful_iff (l : Loaded) :
    l.lawful = true ↔
      l.seq ≠ 0
      ∧ l.remap.Pairwise (fun a b => a.row < b.row) ∧ (∀ e ∈ l.remap, e.row < 8064 * l.devices)
      ∧ l.remap.countP (fun e => decide (e.place = .retired)) ≤ 128 ∧ (sparedTargets l.remap).length ≤ 512
      ∧ (∀ t ∈ sparedTargets l.remap, t.device.val < l.devices
          ∧ (l.zones.getD t.globalZone Zone.absent).spares[t.index.val]? = some .inUse)
      ∧ (sparedTargets l.remap).Nodup
      ∧ (∀ g z i, l.zones[g]? = some z → z.spares[i]? = some .inUse → spareOf g i ∈ sparedTargets l.remap)
      ∧ (l.pendingList.map PendingEntry.row).Nodup
      ∧ (∀ e ∈ l.pendingList, e.row < 8064 * l.devices ∧ (∀ x ∈ l.remap, x.row = e.row → x.place ≠ .retired)
          ∧ (e.starved = true → e.cause ≠ .unc) ∧ (e.stuck = true → e.cause = .unc))
      ∧ (∀ g z, g < 8 * l.devices → l.zones[g]? = some z →
          z.lentOut = (borrowedPairs l.remap).countP (fun p => decide (p.1 = g))
            ∧ z.borrowedIn = (borrowedPairs l.remap).countP (fun p => decide (p.2 = g))
            ∧ z.retiredRows = l.remap.countP fun e => decide (e.place = .retired) && decide (homeZone e.row = g)) := by
  unfold Loaded.lawful
  dsimp only
  rw [Bool.and_eq_true, all_presentZones]
  simp only [decide_eq_true_eq, all_inUseSpares_iff, strictlyAscending_iff, noRepeats_iff,
    List.pairwise_map, List.all_eq_true (l := l.remap), all_pending_iff,
    List.all_eq_true (l := sparedTargets l.remap), zoneCountsAgree_iff, Bool.and_eq_true]
  constructor
  · rintro ⟨⟨⟨⟨⟨⟨⟨⟨⟨⟨ascending, rows⟩, targets⟩, once⟩, used⟩, rowsOnce⟩, pendings⟩, retired⟩, spared⟩, seq⟩, counts⟩
    exact ⟨seq, ascending, rows, retired, spared, targets, once, used, rowsOnce, pendings, counts⟩
  · rintro ⟨seq, ascending, rows, retired, spared, targets, once, used, rowsOnce, pendings, counts⟩
    exact ⟨⟨⟨⟨⟨⟨⟨⟨⟨⟨ascending, rows⟩, targets⟩, once⟩, used⟩, rowsOnce⟩, pendings⟩, retired⟩, spared⟩, seq⟩, counts⟩

/-- A copy with a counted remap slot that names no entry has no content (R182). -/
theorem readContent_eq_none {rows : List (List Word)} {i : Nat}
    (counted : i < min 512 (copyWord rows 0 14).toNat + min 128 (copyWord rows 0 15).toNat)
    (slot : storedRemap rows i = none) : readContent rows = none := by
  cases read : readContent rows with
  | none => rfl
  | some l =>
    obtain ⟨remap, _, -, slots, -⟩ := readContent_eq_some read
    obtain ⟨length, entry⟩ := allSome_get _ _ _ slots
    have holds := entry i _ (List.getElem?_eq_getElem (by omega))
    rw [slot] at holds
    cases holds

/-- Settles O51: the reading of each part of the copy, the slots that name nothing, and the laws one by one. -/
theorem copyContentReadsByItsLayout : Obligations.CopyContentReadsByItsLayout := by
  refine ⟨fun rows l read => ?reads, fun rows i counted bad => ?refused, fun l => lawful_iff l⟩
  case refused => exact readContent_eq_none counted (storedRemap_eq_none bad)
  case reads =>
    intro w n
    obtain ⟨remap, pendingList, rfl, slots, pendings⟩ := readContent_eq_some read
    obtain ⟨remapLength, entries⟩ := allSome_get _ _ _ slots
    obtain ⟨pendingLength, pendingEntries⟩ := allSome_get _ _ _ pendings
    refine ⟨rfl, rfl, rfl, rfl, rfl, PatrolMode.ofCode_eq _, orDefault_of_mem, orDefault_of_not_mem, orDefault_of_mem,
      orDefault_of_not_mem, fun inside => orDefault_of_mem ⟨Nat.zero_le _, inside⟩,
      fun outside => orDefault_of_not_mem (.inr outside), rfl, rfl, rfl,
      fun inside => orDefault_of_mem ⟨Nat.zero_le _, inside⟩, fun outside => orDefault_of_not_mem (.inr outside),
      ⟨storedPolicy_limits_kept, storedPolicy_limits_default⟩, remapLength,
      fun i e held => storedRemap_eq_some (entries i e held), pendingLength,
      fun i e held => storedPending_eq_some (pendingEntries i e held), fun g present => ?zones⟩
    case zones =>
      intro v z
      have zone : z = _ := zones_contentOf rows remap pendingList present
      refine ⟨fun absent => zone.trans (if_neg (Nat.not_lt.2 absent)), fun mine => ?_⟩
      rw [if_pos (by exact mine)] at zone
      rw [zone]
      refine ⟨rfl, rfl, rfl, rfl, rfl, ?_, fun i inZone => ?_⟩
      · simp [storedZone]
      · rw [spares_storedZone rows g i inZone, SpareState.ofCode_eq]
        rfl

end Sys2Proof.Machine

/-! # The image (R139, R140, section 11.3) -/

namespace Sys2Proof.Machine

/-! ## The rows of the image -/

/-- The checksum word of the image (R140). -/
def Chip.checksum (c : Chip) (seq : BitVec 32) : Word := 0 - wordSum (c.imageBody seq ++ [trailerRow seq 0])

theorem Chip.imageOf_eq (c : Chip) (seq : BitVec 32) :
    c.imageOf seq = c.imageBody seq ++ [trailerRow seq (c.checksum seq)] := rfl

theorem Chip.length_imageBody (c : Chip) (seq : BitVec 32) : (c.imageBody seq).length = 101 := by
  simp [Chip.imageBody]

section
variable (c : Chip) (seq : BitVec 32)

theorem Chip.imageOf_body {r : Nat} (body : r < 101) : (c.imageOf seq).getD r [] = (c.imageBody seq).getD r [] := by
  rw [List.getD_eq_getElem?_getD, List.getD_eq_getElem?_getD, Chip.imageOf_eq,
    List.getElem?_append_left (by rw [Chip.length_imageBody]; exact body)]

theorem Chip.imageOf_remapRow {r : Nat} (inTable : r < 80) :
    (c.imageOf seq).getD (1 + r) [] = (List.range 8).flatMap fun j => c.remapSlot (8 * r + j) := by
  rw [Chip.imageOf_body c seq (by omega)]
  simp [Chip.imageBody, List.getD_eq_getElem?_getD, List.getElem?_append, inTable, Nat.add_comm 1 r]

theorem Chip.imageOf_pendingRow {r : Nat} (inList : r < 4) :
    (c.imageOf seq).getD (81 + r) [] = (List.range 8).flatMap fun j => c.pendingSlot (8 * r + j) := by
  rw [Chip.imageOf_body c seq (by omega)]
  simp [Chip.imageBody, List.getD_eq_getElem?_getD, List.getElem?_append, inList, Nat.add_comm 81 r]

theorem Chip.imageOf_zoneRow {r : Nat} (inZones : r < 16) :
    (c.imageOf seq).getD (85 + r) [] = (List.range 2).flatMap fun j => c.zoneSlot (2 * r + j) := by
  rw [Chip.imageOf_body c seq (by omega)]
  simp [Chip.imageBody, List.getD_eq_getElem?_getD, List.getElem?_append, inZones, Nat.add_comm 85 r,
    show ¬ r + 84 < 80 by omega]

theorem Chip.imageOf_trailer : (c.imageOf seq)[101]? = some (trailerRow seq (c.checksum seq)) := by
  rw [Chip.imageOf_eq, List.getElem?_append_right (by rw [Chip.length_imageBody]), Chip.length_imageBody]
  rfl

theorem Chip.wordSum_imageOf : wordSum (c.imageOf seq) = 0 := by
  have trailer : ∀ x, wordSum [trailerRow seq x] = wordSum [trailerRow seq 0] + x := by
    intro x
    simp [wordSum, trailerRow]
  rw [Chip.imageOf_eq, wordSum_append, trailer, ← BitVec.add_assoc, ← wordSum_append, Chip.checksum]
  simp

end

/-! ## The words of the slots -/

theorem Chip.length_remapSlot (c : Chip) (i : Nat) : (c.remapSlot i).length = 4 := by
  unfold Chip.remapSlot
  cases c.tr.remap[i]? with
  | none => rfl
  | some e =>
    show e.record.length = 4
    unfold RemapEntry.record
    split <;> rfl

theorem Chip.length_pendingSlot (c : Chip) (i : Nat) : (c.pendingSlot i).length = 4 := by
  unfold Chip.pendingSlot
  cases c.trk.pendingList[i]? <;> rfl

theorem Chip.length_zoneSlot (c : Chip) (g : Nat) : (c.zoneSlot g).length = 16 := by
  unfold Chip.zoneSlot
  split <;> rfl

/-- Word k of slot i, of n slots of m words to a row. -/
theorem getD_slot {slot : Nat → List Word} {m n : Nat} (length : ∀ i, (slot i).length = m) (full : 0 < n) (i : Nat)
    {k : Nat} (inSlot : k < m) :
    ((List.range n).flatMap fun j => slot (n * (i / n) + j)).getD (m * (i % n) + k) 0 = (slot i).getD k 0 := by
  rw [getD_flatMap_blocks _ m 0 _ (fun j _ => length _) _ _ inSlot, List.getElem?_range (Nat.mod_lt i full)]
  simp [Nat.div_add_mod]

section
variable (c : Chip) (seq : BitVec 32)

theorem Chip.imageOf_remapWord {i k : Nat} (inTable : i < 640) (inSlot : k < 4) :
    ((c.imageOf seq).getD (1 + i / 8) []).getD (4 * (i % 8) + k) 0 = (c.remapSlot i).getD k 0 := by
  rw [Chip.imageOf_remapRow c seq (by omega), getD_slot c.length_remapSlot (by decide) i inSlot]

theorem Chip.imageOf_pendingWord {i k : Nat} (inList : i < 32) (inSlot : k < 4) :
    ((c.imageOf seq).getD (81 + i / 8) []).getD (4 * (i % 8) + k) 0 = (c.pendingSlot i).getD k 0 := by
  rw [Chip.imageOf_pendingRow c seq (by omega), getD_slot c.length_pendingSlot (by decide) i inSlot]

theorem Chip.imageOf_zoneWord {g k : Nat} (inZones : g < 32) (inSlot : k < 16) :
    ((c.imageOf seq).getD (85 + g / 2) []).getD (16 * (g % 2) + k) 0 = (c.zoneSlot g).getD k 0 := by
  rw [Chip.imageOf_zoneRow c seq (by omega), getD_slot c.length_zoneSlot (by decide) g inSlot]

end

/-- A zone slot beyond the two words of spare states (Table 11-13). -/
theorem Chip.zoneSlot_counts (c : Chip) {g : Nat} (present : g < 8 * c.devices) (k : Nat) :
    (c.zoneSlot g).getD (k + 2) 0 =
      ([word ((c.zone g).countOf .free + (c.zone g).countOf .testing), word ((c.zone g).countOf .inUse),
        word ((c.zone g).countOf .bad), word (c.zone g).lentOut, word (c.zone g).borrowedIn,
        word (c.zone g).retiredRows, word (c.zone g).uncEvents] : List Word).getD k 0 := by
  unfold Chip.zoneSlot
  rw [if_pos present, getD_append_zeros]
  rfl

/-- A spare's state in its zone slot (Table 11-13). -/
theorem Chip.zoneSlot_state (c : Chip) {g k : Nat} {st : SpareState} (present : g < 8 * c.devices) (inZone : k < 16)
    (spare : (c.zone g).spares[k]? = some st) :
    field ((c.zoneSlot g).getD (k / 8) 0) (2 * (k % 8)) 2 = st.code := by
  unfold Chip.zoneSlot
  rw [if_pos present, getD_append_zeros]
  rcases Nat.lt_or_ge k 8 with low | high
  · rw [Nat.div_eq_of_lt low, Nat.mod_eq_of_lt low]
    exact field_statesWord _ k st low (by rw [List.getElem?_take_of_lt low]; exact spare)
  · obtain ⟨i, rfl⟩ := Nat.exists_eq_add_of_le high
    rw [show (8 + i) / 8 = 1 by omega, show (8 + i) % 8 = i by omega]
    exact field_statesWord _ i st (by omega) (by rw [List.getElem?_drop]; exact spare)

/-- Settles O33: the sum by the checksum word, and the words by the rows and the slots of the image. -/
theorem theImageSumsToZero : Obligations.TheImageSumsToZero := by
  refine ⟨fun c seq => ⟨?length, c.wordSum_imageOf seq, rfl, c.checksum seq, c.imageOf_trailer seq⟩, fun c seq =>
    ⟨fun i => getD_append_zeros _ 15 i, fun i k inTable inSlot => ?remap, fun i k inList inSlot => ?pending,
      fun g k inZones inSlot => ⟨fun absent => ?absent, fun present counts => ?counts, fun st present spare => ?states⟩,
      fun i inRow => ?trailer⟩⟩
  case length => rw [Chip.imageOf_eq, List.length_append, Chip.length_imageBody]; rfl
  case remap =>
    refine (c.imageOf_remapWord seq inTable inSlot).trans ?_
    unfold Chip.remapSlot
    cases c.tr.remap[i]? with
    | none => exact getD_zeros 4 k
    | some e => rfl
  case pending =>
    refine (c.imageOf_pendingWord seq inList inSlot).trans ?_
    unfold Chip.pendingSlot
    cases c.trk.pendingList[i]? with
    | none => exact getD_zeros 4 k
    | some e => exact getD_append_zeros [_, _, _] 1 k
  case absent =>
    refine (c.imageOf_zoneWord seq inZones inSlot).trans ?_
    unfold Chip.zoneSlot
    rw [if_neg (Nat.not_lt.2 absent)]
    exact getD_zeros 16 k
  case counts =>
    obtain ⟨j, rfl⟩ := Nat.exists_eq_add_of_le' counts
    exact (c.imageOf_zoneWord seq inZones inSlot).trans (c.zoneSlot_counts present j)
  case states =>
    have word := c.imageOf_zoneWord seq inZones (show k / 8 < 16 by omega)
    exact (congrArg (field · (2 * (k % 8)) 2) word).trans ((c.zoneSlot_state present inSlot spare).trans st.code_eq)
  case trailer =>
    have row : (c.imageOf seq).getD 101 [] = trailerRow seq (c.checksum seq) := by
      rw [List.getD_eq_getElem?_getD, Chip.imageOf_trailer]
      rfl
    refine (congrArg (List.getD · i 0) row).trans ?_
    unfold trailerRow
    rw [List.getD_eq_getElem?_getD, List.getElem?_append_left (by exact inRow), ← List.getD_eq_getElem?_getD]
    exact getD_append_zeros _ 29 i

end Sys2Proof.Machine

/-! # Abandoned work (R34, R35, R53, R60, R63, R133, R150, R155, R162, R163, R167) -/

namespace Sys2Proof.Machine

/-! ## A completion that is discarded -/

/-- No foreground request has a condition (R28). -/
theorem Chip.conditionFails_foreground (c : Chip) {p : Purpose} (foreground : p.cls = .foreground) :
    c.conditionFails p = false := by
  cases p with
  | patrolScrub | zeroWrite => exact AccessClass.noConfusion foreground
  | _ => rfl

section
variable {c : Chip}

theorem Chip.discarded_held {h : Request} (held : c.cmd.held = some h) :
    c.discarded .foreground =
      Chip.putSlot { c with cmd := { c.cmd with held := none } } .foreground (.waiting h) := by
  unfold Chip.discarded
  simp only [held]

/-- The row that waited for the slot is looked up and read (R53, R60). -/
theorem Chip.discarded_awaitSlot {t : Transfer} (held : c.cmd.held = none) (work : c.cmd.work = .transfer t)
    (phase : t.phase = .awaitSlot) : c.discarded .foreground = c.beginRow 256 t := by
  unfold Chip.discarded
  simp only [held, work, if_pos phase]

theorem Chip.initialisationEnds_iff : c.initialisationEnds = true ↔
    ∃ f k, c.dir.format = some f ∧ f.phase = .rowInit k ∧ f.ending = true := by
  unfold Chip.initialisationEnds
  cases c.dir.format with
  | none => simp
  | some f => cases phase : f.phase <;> simp [phase]

/-- A row initialisation asked to end by a soft reset ends the format (R167). -/
theorem Chip.discarded_initialisation (held : c.cmd.held = none) (work : c.cmd.work = .none)
    (ends : c.initialisationEnds = true) : c.discarded .foreground = c.endFormatEarly .aborted := by
  unfold Chip.discarded
  simp only [held, work, if_pos ends]

/-- Nothing waits for the slot. -/
theorem Chip.discarded_alone (held : c.cmd.held = none) (noRow : ∀ t, c.cmd.work = .transfer t → t.phase ≠ .awaitSlot)
    (noEnd : ¬ c.initialisationEnds = true) : c.discarded .foreground = c := by
  unfold Chip.discarded
  cases work : c.cmd.work with
  | transfer t => simp only [held, if_neg (noRow t work)]
  | _ => simp only [held, if_neg noEnd]

end

/-! ## The end of a commit without effect -/

theorem Chip.commitEnds_detached {c : Chip} {j : CommitJob} (commit : c.dir.commit = some j)
    (detached : j.detached = true) (why : Option CommitFailure) :
    c.commitEnds why = if c.formatWaits then c.closeCommit.startInvalidation else c.closeCommit := by
  unfold Chip.commitEnds
  rw [commit]
  exact if_pos detached

/-- The end of a commit of the part's own that FORMAT ARRAY waits for (R155, R162). -/
theorem Chip.commitEnds_waited {c : Chip} {j : CommitJob} (commit : c.dir.commit = some j) (live : j.detached = false)
    (own : j.ofFormat = false) (waits : c.formatWaits = true) (why : Option CommitFailure) :
    c.commitEnds why = (c.judgeCommit j why).startInvalidation := by
  unfold Chip.commitEnds
  rw [commit]
  refine (if_neg (Bool.eq_false_iff.1 live)).trans ((if_neg (Bool.eq_false_iff.1 own)).trans ?_)
  exact if_pos waits

/-- A commit that failed (R150). -/
theorem Chip.judgeCommit_some (c : Chip) (j : CommitJob) (w : CommitFailure) :
    c.judgeCommit j (some w) = { c.setCopy j.target false 0 with
      health := (c.raise (.directoryFail j.target w)).health
      dir := { (c.setCopy j.target false 0).dir with
        mode := .idle, commit := none, image := [], dirty := true
        commitTimer := startDelay c.health.policy.commitDelay } } := by
  have health : (c.setCopy j.target false 0).health = c.health := by cases j.target <;> rfl
  have pass : (c.setCopy j.target false 0).pat.pass = c.pat.pass := by cases j.target <;> rfl
  have policy : (c.raise (.directoryFail j.target w)).health.policy = c.health.policy :=
    Chip.policy_of_requesters (Chip.requesters_raise _ _)
  unfold Chip.judgeCommit
  dsimp only
  rw [Chip.raise_congr (c := c) health pass]
  simp only [Chip.closeCommit, policy]

/-- The invalidation that follows a commit takes back what its end said of the copies (R155, R163). -/
theorem Chip.startInvalidation_of_success (c : Chip) (j : CommitJob) :
    (c.judgeCommit j none).startInvalidation = c.closeCommit.startInvalidation := by
  obtain ⟨target, _, _, _, _, _⟩ := j
  cases target <;> rfl

theorem Chip.startInvalidation_of_failure (c : Chip) (j : CommitJob) (w : CommitFailure) :
    (c.judgeCommit j (some w)).startInvalidation = Chip.startInvalidation { c.closeCommit with
      health := (c.raise (.directoryFail j.target w)).health
      dir := { c.closeCommit.dir with dirty := true, commitTimer := startDelay c.health.policy.commitDelay } } := by
  rw [Chip.judgeCommit_some]
  obtain ⟨target, _, _, _, _, _⟩ := j
  cases target <;> rfl

/-- Settles O42: by the class of the abandoned access and what waits for its slot, and by what waits for the commit. -/
theorem abandonedWorkEndsWithoutEffect : Obligations.AbandonedWorkEndsWithoutEffect := by
  refine ⟨fun s r i arr port abandoned ended => ?access, fun s j i why arr commit ended => ?commits⟩
  case access =>
    intro freed
    have step := State.next_discarded port abandoned ended
    have settles : ∀ {c : Chip}, s.toChip.portFreed.discarded r.purpose.cls = c → c.seq.settled = true →
        exec i s = .next { s with toChip := c, array := arr } := by
      intro c acts settled
      rw [step, acts, Chip.settle_of_settled 8 settled]
    have issues : ∀ {c : Chip} {p : Purpose} {x : PhysRow} {d : Option (List Word)},
        s.toChip.portFreed.discarded r.purpose.cls = c.issue p x d → c.seq = Sequencer.reset →
        c.conditionFails p = false →
        exec i s = .next { s with toChip := { c with seq := Sequencer.carrying (request p x d) }, array := arr } := by
      intro c p x d acts idle granted
      rw [step, Chip.settle_of_issue acts idle granted]
    refine ⟨fun repair => ?repair, fun foreground => ⟨fun h held ours => ?held, fun held => ⟨fun t work phase =>
        ⟨fun x phys => ⟨fun kind => ?reads, fun kind => ?checks⟩, fun retired kind => ?offers⟩,
        fun f k format phase ending formatting work => ?formatEnds, fun noRow noEnd => ?alone⟩⟩,
      fun patrol => ⟨fun rests => ?patrolRests, fun x st interval phys free => ?visits⟩⟩
    case repair => exact settles (by rw [repair]; rfl) rfl
    case held =>
      have acts := (congrArg s.toChip.portFreed.discarded foreground).trans
        (Chip.discarded_held (c := s.toChip.portFreed) held)
      have first : (Sequencer.reset.put .foreground (.waiting h)).firstWaiting = some (.foreground, h) := rfl
      rw [step, acts, Chip.settle_of_some 7 (k := .foreground) (r := h) rfl first
        (Chip.conditionFails_foreground _ ours)]
      refine congrArg (fun q : Sequencer => Host.Outcome.next { freed with cmd := { s.cmd with held := none }, seq := q }) ?_
      unfold Sequencer.carrying
      rw [ours]
      rfl
    case reads =>
      have row := (congrArg s.toChip.portFreed.discarded foreground).trans
        (Chip.discarded_awaitSlot (c := s.toChip.portFreed) held work phase)
      exact issues (row.trans (Chip.beginRow_read (c := s.toChip.portFreed) kind phys rfl)) rfl rfl
    case checks =>
      have row := (congrArg s.toChip.portFreed.discarded foreground).trans
        (Chip.discarded_awaitSlot (c := s.toChip.portFreed) held work phase)
      exact issues (row.trans (Chip.beginRow_check (c := s.toChip.portFreed) kind phys rfl)) rfl rfl
    case offers =>
      have row := (congrArg s.toChip.portFreed.discarded foreground).trans
        (Chip.discarded_awaitSlot (c := s.toChip.portFreed) held work phase)
      exact settles (row.trans (Chip.beginRow_read_retired (c := s.toChip.portFreed) kind retired)) rfl
    case formatEnds =>
      have acts := (congrArg s.toChip.portFreed.discarded foreground).trans
        ((Chip.discarded_initialisation (c := s.toChip.portFreed) held work
          (Chip.initialisationEnds_iff.2 ⟨f, k, format, phase, ending⟩)).trans
        (Chip.endFormatEarly_emptied (c := s.toChip.portFreed) format formatting
          ((congrArg FormatPhase.emptied phase).trans rfl) .aborted))
      have noCommand : ¬ s.cmd.work = .format := by rw [work]; exact Work.noConfusion
      have flag : (s.bus.cmdDone || decide (s.cmd.work = .format)) = s.bus.cmdDone := by
        rw [decide_eq_false noCommand, Bool.or_false]
      have engine : (if s.cmd.work = .format then s.cmd.finished .aborted ⟨s.cmd.results.r0, 0, 0, 0⟩ else s.cmd) = s.cmd :=
        if_neg noCommand
      refine (settles acts rfl).trans ?_
      exact (congrArg₂ (fun (flag : Bool) (e : CommandEngine) => Host.Outcome.next { freed with
          bus := { s.bus with stateFlag := true, cmdDone := flag }
          cmd := e
          dir := { s.dir with
            format := none, opState := .unformatted, validA := false, seqA := 0, validB := false, seqB := 0
            commit := s.dir.commit.map fun (a : CommitJob) => { a with detached := true } } }) flag engine :)
    case alone =>
      refine settles ((congrArg s.toChip.portFreed.discarded foreground).trans
        (Chip.discarded_alone (c := s.toChip.portFreed) held noRow fun ends => ?_)) rfl
      obtain ⟨f, k, format, phase, ending⟩ := Chip.initialisationEnds_iff.1 ends
      exact noEnd f k format ending phase
    case patrolRests =>
      refine settles ((congrArg s.toChip.portFreed.discarded patrol).trans
        (Chip.patrolOn_of_not (c := s.toChip.portFreed) ?_)) rfl
      rcases rests with other | waits
      · simp [Chip.patrolReady, Chip.portFreed, other]
      · simp [Chip.patrolReady, Chip.portFreed, waits]
    case visits =>
      exact issues ((congrArg s.toChip.portFreed.discarded patrol).trans
        (Chip.patrolOn_visit (c := s.toChip.portFreed) st interval rfl phys free)) rfl rfl
  case commits =>
    intro closed invalidating
    obtain ⟨x, flips, inArray, ended⟩ := ended
    have step := State.CommitEndsBy.step (x := x) (flips := flips) ended commit inArray
    refine ⟨fun noWait detached => ?closes, fun f format phase => ⟨fun detached => ?invalidates, fun live own =>
      ⟨fun success => ?won, fun w failure => ?lost⟩⟩⟩
    case closes =>
      have quiet : s.toChip.portFreed.formatWaits = false := by
        cases format : s.dir.format with
        | none => exact Chip.formatWaits_of_none format
        | some f => exact (Chip.formatWaits_of_some format).trans (decide_eq_false (noWait f format))
      rw [step, Chip.commitEnds_detached (c := s.toChip.portFreed) commit detached, quiet]
      exact congrArg (fun c : Chip => Host.Outcome.next { s with toChip := c, array := arr })
        (Chip.settle_of_settled 8 (c := s.toChip.portFreed.closeCommit) rfl)
    case invalidates =>
      have waits := (Chip.formatWaits_of_some (c := s.toChip.portFreed) format).trans (decide_eq_true phase)
      have acts := (Chip.commitEnds_detached (c := s.toChip.portFreed) commit detached why).trans (if_pos waits)
      rw [step, Chip.settle_of_issue (acts.trans (Chip.startInvalidation_eq _)) rfl rfl]
      rfl
    case won =>
      subst success
      have waits := (Chip.formatWaits_of_some (c := s.toChip.portFreed) format).trans (decide_eq_true phase)
      have acts := (Chip.commitEnds_waited (c := s.toChip.portFreed) commit live own waits none).trans
        (Chip.startInvalidation_of_success s.toChip.portFreed j)
      rw [step, Chip.settle_of_issue (acts.trans (Chip.startInvalidation_eq _)) rfl rfl]
      rfl
    case lost =>
      subst failure
      have waits := (Chip.formatWaits_of_some (c := s.toChip.portFreed) format).trans (decide_eq_true phase)
      have acts := (Chip.commitEnds_waited (c := s.toChip.portFreed) commit live own waits (some w)).trans
        (Chip.startInvalidation_of_failure s.toChip.portFreed j w)
      have raised : (s.toChip.portFreed.raise (.directoryFail j.target w)).health =
          (s.toChip.raise (.directoryFail j.target w)).health :=
        Chip.health_raise_congr (c := s.toChip) (d := s.toChip.portFreed) rfl rfl _
      rw [raised] at acts
      rw [step, Chip.settle_of_issue (acts.trans (Chip.startInvalidation_eq _)) rfl rfl]
      rfl

end Sys2Proof.Machine

/-! # Grants by class (R19, R26 to R28, R148) -/

namespace Sys2Proof.Machine

/-! ## The order of the classes -/

section
variable {q : Sequencer} {r : Request}

theorem Sequencer.firstWaiting_foreground (waits : q.foreground = .waiting r) :
    q.firstWaiting = some (.foreground, r) := by
  unfold Sequencer.firstWaiting
  rw [waits]
  rfl

theorem Sequencer.firstWaiting_directory (foreground : ∀ r, q.foreground ≠ .waiting r) (waits : q.directory = .waiting r) :
    q.firstWaiting = some (.directory, r) := by
  unfold Sequencer.firstWaiting
  rw [Slot.awaiting_none foreground, waits]
  rfl

theorem Sequencer.firstWaiting_repair (foreground : ∀ r, q.foreground ≠ .waiting r)
    (directory : ∀ r, q.directory ≠ .waiting r) (waits : q.repair = .waiting r) :
    q.firstWaiting = some (.repair, r) := by
  unfold Sequencer.firstWaiting
  rw [Slot.awaiting_none foreground, Slot.awaiting_none directory, waits]
  rfl

theorem Sequencer.firstWaiting_patrol (foreground : ∀ r, q.foreground ≠ .waiting r)
    (directory : ∀ r, q.directory ≠ .waiting r) (repair : ∀ r, q.repair ≠ .waiting r) (waits : q.patrol = .waiting r) :
    q.firstWaiting = some (.patrol, r) := by
  unfold Sequencer.firstWaiting
  rw [Slot.awaiting_none foreground, Slot.awaiting_none directory, Slot.awaiting_none repair, waits]
  rfl

theorem Sequencer.current_foreground (busy : q.foreground = .inProgress r) : q.current = some (.foreground, r) := by
  unfold Sequencer.current
  rw [busy]
  rfl

theorem Sequencer.current_directory (foreground : q.foreground.active = none) (busy : q.directory = .inProgress r) :
    q.current = some (.directory, r) := by
  unfold Sequencer.current
  rw [foreground, busy]
  rfl

/-- A port at which an access has been granted is settled (R26, R27). -/
theorem Sequencer.settled_granted (q : Sequencer) (k : AccessClass) (r : Request) (timer : Bool) :
    ({ q.put k (.inProgress r) with readyTimer := timer } : Sequencer).settled = true := by
  rw [Sequencer.settled, Sequencer.current_put_inProgress]
  rfl

/-- A request that waits in the empty foreground slot leaves the access in progress (R27). -/
theorem Sequencer.current_foreground_waits (free : q.foreground = .empty) :
    ({ q with foreground := .waiting r } : Sequencer).current = q.current := by
  unfold Sequencer.current
  rw [free]
  rfl

end

/-! ## Grants at a completion -/

/-- A completion at a port with other requests: the next grant, the requesters told of a DROPPED, and then the completion
delivered (R26, R28, R33). -/
theorem State.complete_granting {s : State} {k : AccessClass} {r : Request} {covers : Purpose → Bool} {flips : RowPatch}
    {act : Request → Delivered → Chip → Chip} {granted c : Chip} {drops : List Purpose}
    (current : s.seq.current = some (k, r)) (live : r.abandoned = false) (covered : covers r.purpose = true)
    (inArray : r.phys.inArray s.devices = true)
    (grants : Chip.grant 4 { s.toChip with seq := { s.seq.put k .empty with readyTimer := false } } = (granted, drops))
    (acts : act r (s.array.deliver r.phys flips) (drops.foldl Chip.dropped granted) = c) (settled : c.seq.settled = true) :
    s.complete covers flips act = .next { s with toChip := c, array := s.array.afterDone r } := by
  unfold State.complete Chip.finishAccess
  simp only [current, if_pos covered, if_pos inArray, live, Bool.false_eq_true, if_false, grants, acts,
    Chip.settle_of_settled 8 settled]

section
variable {c : Chip} {k l : AccessClass} {r q : Request}

/-- A DROPPED request, and the grant that passes on to another (R28). -/
theorem Chip.grant_passesOn (first : c.seq.firstWaiting = some (k, r)) (fails : c.conditionFails r.purpose = true)
    (next : (c.seq.put k .empty).firstWaiting = some (l, q)) (granted : c.conditionFails q.purpose = false) :
    c.grant 4 = ({ c with seq := { (c.seq.put k .empty).put l (.inProgress q) with readyTimer := true } }, [r.purpose]) := by
  have rest := Chip.grant_of_some (c := { c with seq := c.seq.put k .empty }) 2 next granted
  rw [(Chip.grant_next 3 first).2 fails, rest]

/-- A DROPPED request with no other waiting (R28). -/
theorem Chip.grant_drops (first : c.seq.firstWaiting = some (k, r)) (fails : c.conditionFails r.purpose = true)
    (noNext : (c.seq.put k .empty).firstWaiting = none) :
    c.grant 4 = ({ c with seq := c.seq.put k .empty }, [r.purpose]) := by
  have rest := Chip.grant_of_none (c := { c with seq := c.seq.put k .empty }) 3 noNext
  rw [(Chip.grant_next 3 first).2 fails, rest]

end

/-- The last ordinary write of WRITE ROWS ends the command after the grant that its end makes (R26, R33). -/
theorem ordinaryWriteDone_granting {s : State} {t : Transfer} {x : PhysRow} {ws : List Word} {granted told : Chip}
    {drops : List Purpose} (work : s.cmd.work = .transfer t) (goesOn : s.cmd.stopRequest = false)
    (inArray : x.inArray s.devices = true) (last : t.last ≤ t.row)
    (busy : s.seq.foreground = .inProgress (request .ordinaryWrite x (some ws)))
    (grants : Chip.grant 4 { s.toChip with seq := { s.seq with foreground := .empty, readyTimer := false } } =
      (granted, drops))
    (tells : drops.foldl Chip.dropped granted = told) (kept : told.cmd = s.cmd) (settled : told.seq.settled = true) :
    exec .ordinaryWriteDone s = .next { s with
      toChip := { told with
        cmd := s.cmd.finished (t.count none 0).code (t.count none 0).results, bus := told.bus.commandDone }
      array := s.array.write x ws } := by
  rw [exec_ordinaryWriteDone]
  refine State.complete_granting (Sequencer.current_foreground busy) rfl rfl inArray grants ?_ settled
  rw [tells, ← kept]
  exact (Chip.onTransfer_eq (by rw [kept]; exact work) _).trans (Chip.rowDone_last (by rw [kept]; exact goesOn) last)

/-! ## Requests that leave their slots with DROPPED -/

/-- An overtaken job begins again with its source read (R28, R114, R119). -/
theorem Chip.dropped_zeroWrite {c : Chip} {j : Job} {e : PendingEntry} {z : PhysRow} (job : c.rep.job = some j)
    (pending : c.pendingOf j.row = some e) (few : e.restarts < 3) (readable : e.cause ≠ .unc)
    (phys : (c.lookup j.row).phys = some z) (goesOn : c.cmd.stopRequest = false) :
    c.dropped .zeroWrite = { c with
      seq := { c.seq with repair := .waiting (request .sourceRead z none) }
      trk := { c.trk with pendingList := c.trk.pendingList.map fun a =>
        if a.row = j.row then { a with restarts := e.restarts + 1 } else a }
      tr := { c.tr with repairClaim := some { row := j.row, overtaken := false } }
      rep := { c.rep with st := .sourceRead, job := some { j with discard := false } } } := by
  have drops : c.dropped .zeroWrite = c.repairGo .overtaken j := by
    show c.zeroDropped = _
    unfold Chip.zeroDropped
    rw [job]
  rw [drops, Chip.overtaken_restarts pending few phys (.inr readable) (Chip.jobStops_eq_false fun _ => goesOn)]
  rfl

/-- A visit whose scrub is DROPPED ends as corrected (R28, R129, R130). -/
theorem Chip.dropped_patrolScrub {c : Chip} (noRestart : c.pat.restartRequest = false) (st : c.pat.st = .visiting)
    (interval : c.pat.intervalOut = false) (more : c.pat.cursor + 1 < 8064 * c.devices) :
    c.dropped .patrolScrub = { c with
      tr := { c.tr with patrolClaim := none }
      pat := { c.pat with
        st := .pacing, cursor := c.pat.cursor + 1
        tallies := { c.pat.tallies with
          visited := c.pat.tallies.visited + 1, corrected := min 255 (c.pat.tallies.corrected + 1) } } } :=
  Chip.endVisit_waits (o := .corrected) noRestart st interval more

theorem Chip.conditionFails_iff (c : Chip) (p : Purpose) : c.conditionFails p = true ↔
    p = .patrolScrub ∧ claimMarked c.tr.patrolClaim = true ∨ p = .zeroWrite ∧ claimMarked c.tr.repairClaim = true := by
  cases p with
  | patrolScrub => exact ⟨fun marked => .inl ⟨rfl, marked⟩, fun h => h.elim And.right fun h => Purpose.noConfusion h.1⟩
  | zeroWrite => exact ⟨fun marked => .inr ⟨rfl, marked⟩, fun h => h.elim (fun h => Purpose.noConfusion h.1) And.right⟩
  | _ => exact ⟨fun no => absurd no Bool.false_ne_true,
      fun h => h.elim (fun h => Purpose.noConfusion h.1) fun h => Purpose.noConfusion h.1⟩

/-- Settles O41: the order of the classes, and the grants at the end of a write, of a commit's write and at a command. -/
theorem grantsFollowTheClassOrder : Obligations.GrantsFollowTheClassOrder := by
  refine ⟨fun c n => ⟨c.conditionFails_iff, fun r waits => Chip.grant_next n (Sequencer.firstWaiting_foreground waits),
      fun r f waits => Chip.grant_next n (Sequencer.firstWaiting_directory f waits),
      fun r f d waits => Chip.grant_next n (Sequencer.firstWaiting_repair f d waits),
      fun r f d p waits => Chip.grant_next n (Sequencer.firstWaiting_patrol f d p waits),
      fun f d r p => Chip.grant_of_none n (Sequencer.firstWaiting_none f d r p)⟩,
    fun s t x ws work goesOn inArray last busy => ?write,
    fun s j r x ws commit inArray writes more busy waits granted => ?commit,
    fun s x k r accepts current free one range phys => ?command⟩
  case write =>
    intro free ended
    have noForeground : ∀ r, free.foreground ≠ .waiting r := fun r => Slot.noConfusion
    have ends := fun {granted told : Chip} {drops : List Purpose} =>
      ordinaryWriteDone_granting (granted := granted) (told := told) (drops := drops) work goesOn inArray last busy
    refine ⟨fun r waits granted => ?directory, fun noDirectory => ⟨fun r waits granted => ?repair,
      fun r noRepair waits granted => ?patrol, fun j e y z d r waits marked other granted job pending few readable phys =>
        ?zeroDropped, fun y d noRepair waits marked st noRestart interval more => ?scrubDropped⟩⟩
    case directory =>
      exact ends (Chip.grant_of_some 3 (Sequencer.firstWaiting_directory (q := free) noForeground waits) granted) rfl rfl
        (Sequencer.settled_granted free .directory r true)
    case repair =>
      exact ends (Chip.grant_of_some 3 (Sequencer.firstWaiting_repair (q := free) noForeground noDirectory waits) granted)
        rfl rfl (Sequencer.settled_granted free .repair r true)
    case patrol =>
      exact ends
        (Chip.grant_of_some 3 (Sequencer.firstWaiting_patrol (q := free) noForeground noDirectory noRepair waits) granted)
        rfl rfl (Sequencer.settled_granted free .patrol r true)
    case zeroDropped =>
      have grants := Chip.grant_passesOn (c := { s.toChip with seq := free })
        (Sequencer.firstWaiting_repair noForeground noDirectory waits) marked
        (Sequencer.firstWaiting_patrol noForeground noDirectory (fun r => Slot.noConfusion) other) granted
      exact ends grants (Chip.dropped_zeroWrite job pending few readable phys goesOn) rfl
        (Sequencer.settled_granted { free with repair := .waiting (request .sourceRead z none) } .patrol r true)
    case scrubDropped =>
      have alone : ({ free with patrol := .empty } : Sequencer).firstWaiting = none :=
        Sequencer.firstWaiting_none noForeground noDirectory noRepair fun r => Slot.noConfusion
      have grants := Chip.grant_drops (c := { s.toChip with seq := free })
        (Sequencer.firstWaiting_patrol noForeground noDirectory noRepair waits) marked alone
      refine ends grants (Chip.dropped_patrolScrub noRestart st interval more) rfl ?_
      exact Bool.or_eq_true_iff.2 (.inr (congrArg Option.isNone alone))
  case commit =>
    let freed : Sequencer := { s.seq with directory := .empty, readyTimer := false }
    let granting : Sequencer := { freed with foreground := .inProgress r, readyTimer := true }
    have grants := Chip.grant_of_some (c := { s.toChip with seq := freed }) 3
      (Sequencer.firstWaiting_foreground (q := freed) waits) granted
    have acts := Chip.commitWritten_next (c := { s.toChip with seq := granting }) commit more writes
    have settled := Sequencer.settled_granted { freed with directory := .waiting (request .commitWrite
      (j.target.phys (j.index + 1)) (some (s.dir.image.getD (j.index + 1) []))) } .foreground r true
    rw [exec_commitWriteDone]
    exact State.complete_granting (Sequencer.current_directory (by rw [waits]; rfl) busy) rfl rfl inArray grants acts
      settled
  case command =>
    have row : s.cmd.params.p0.toNat + s.cmd.params.p1.toNat - 1 = s.cmd.params.p0.toNat := by rw [one]; rfl
    have count : rowCount s.cmd.params = true := rowCount_eq_true (by rw [one]; decide) (by rw [one]; decide)
    have inRange : runInRange s.toChip s.cmd.params = true := 
      runInRange_eq_true (by rw [one]; decide) (by rw [one]; exact range)
    have begins := Chip.beginRow_read (n := 255) (c := s.toChip.acceptCommand) (t := Transfer.first .read s.cmd.params) rfl
      phys free
    have settled : ({ s.seq with foreground := .waiting (request .readRowsRead x none) } : Sequencer).settled = true := by
      rw [Sequencer.settled, Sequencer.current_foreground_waits free, current]
      rfl
    rw [exec_readRows, State.onBus_transfer_begins accepts count inRange begins settled]
    exact (congrArg (fun n : Nat => Host.Outcome.next { s with
      cmd := s.cmd.accepted (.transfer
        { kind := .read, row := s.cmd.params.p0.toNat, last := n, done := 0, firstFail := none, fails := 0, extra := 0
          phase := .reading, spare := none })
      seq := { s.seq with foreground := .waiting (request .readRowsRead x none) } }) row :)

end Sys2Proof.Machine
